-- ==== Sys2Proof/Word.lean ====
section
/-! DEFINITION. The words of the hub: bytes, ticks and logic levels (spec/00_scope.md, Conventions). -/

namespace Sys2Proof

/-- One byte on the wire (spec/00_scope.md, Bytes on the wire). -/
abbrev Byte := BitVec 8

/-- One tick value: a 32-bit unsigned number that wraps (spec/00_scope.md, Time). -/
abbrev Tick := BitVec 32

/-- The level of a logic pin. -/
inductive Level
  | low
  | high
  deriving DecidableEq, Repr

end Sys2Proof
end

