-- ==== Sys2Proof/Syntax.lean ====
section
/-! DEFINITION. The commands of the hub: one constructor for each row of spec/opcode_table.json. A frame's command and argument bytes are received by BYTE_COMPLETION, one edge of SCKn at a time, into the port's frame (R171, R172, R176), so a frame row names its port only. -/

namespace Sys2Proof

/-- A master port, MP0 to MP3. -/
abbrev Port := Fin 4

/-- A slot number, 0 to 31 (R1). -/
abbrev SlotNo := Fin 32

/-- A channel number, 0 to 19 (R73). -/
abbrev Channel := Fin 20

/-- A trigger line: A for TRGA, B for TRGB (R3). -/
inductive Line
  | a
  | b
  deriving DecidableEq, Repr

/-- What begins a hub reset and holds the hub in it (R168, R193). -/
inductive ResetCause
  /-- VDD or AVDD below the reset threshold (power-on included). -/
  | supply
  /-- nRST held low. -/
  | nrst
  deriving DecidableEq, Repr

/-- An edge of SCKp, with what the port takes from it: a rising edge samples SDIp (R171). -/
inductive SckEdge
  | rise (sdi : Level)
  | fall
  deriving DecidableEq, Repr

/-- A rising edge of the SCK input of a port, with the level of SDI that the port samples at it (R171). -/
structure RisingEdge where
  port : Port
  sdi : Level
  deriving DecidableEq, Repr

/-- What the analog inputs carry at one moment, in femtovolts, rounded down (log 8): AIN0 to AIN15 against ground, and the
sources of the internal channels 16 to 19 (R59, R63). -/
structure AnalogInputs where
  ain : Vector Int 16
  internal : Vector Int 4
  deriving DecidableEq, Repr

/-- The commands and events of the hub, each one whole step. -/
inductive Instr
  /-- FRAME_START (R174): nSELp falls. -/
  | frameStart (p : Port)
  /-- NOP (R177): nSELp rises and ends a NOP frame; midByte says that it rises in the middle of a byte, as the edges of SCKp
  since the fall have it (R171). -/
  | nop (p : Port) (midByte : Bool)
  /-- UNKNOWN (R177): nSELp rises and ends a frame with an unknown code. -/
  | unknown (p : Port) (midByte : Bool)
  /-- CUT (R178): nSELp rises and ends a frame whose command could not act. -/
  | cut (p : Port) (midByte : Bool)
  /-- STARTING (R182): nSELp rises and ends a start-up frame whose code is not NOP. -/
  | starting (p : Port)
  /-- LOST (R180): nSELp rises and ends a DEAD frame. -/
  | lost (p : Port)
  /-- OPEN (R148): nSELp rises, on a byte boundary, and ends a whole OPEN frame; likewise every set command below. -/
  | openSession (p : Port)
  /-- CLOSE (R151). -/
  | closeSession (p : Port)
  /-- LEASE_EXPIRY (R153): the armed lease timer of port p expires. -/
  | leaseExpiry (p : Port)
  /-- STAGE_CLEAR (R185). -/
  | stageClear (p : Port)
  /-- STAGE_WORD (R186). -/
  | stageWord (p : Port)
  /-- INSTALL (R12). -/
  | install (p : Port)
  /-- MODIFY (R16). -/
  | modify (p : Port)
  /-- DELETE (R21). -/
  | delete (p : Port)
  /-- STOP (R18). -/
  | stop (p : Port)
  /-- RUN (R19). -/
  | run (p : Port)
  /-- START_BURST (R20). -/
  | startBurst (p : Port)
  /-- FETCH (R23). -/
  | fetch (p : Port)
  /-- READ_BUFFER (R187): the rising edge of SCK that completes its offset byte; likewise every streaming command below but
  READ_TIME, at the edge that completes its argument byte. -/
  | readBuffer (edge : RisingEdge)
  /-- TAKE_SAMPLES (R111). -/
  | takeSamples (edge : RisingEdge)
  /-- SAMPLE_RECORD_REMOVED (R112): the rising edge of SCK that completes the last byte of the marked sample record. -/
  | sampleRecordRemoved (edge : RisingEdge)
  /-- TAKE_EVENTS (R139). -/
  | takeEvents (edge : RisingEdge)
  /-- EVENT_RECORD_REMOVED (R139): the rising edge of SCK that completes the last byte of the marked event record. -/
  | eventRecordRemoved (edge : RisingEdge)
  /-- RELEASE_QUEUE (R109). -/
  | releaseQueue (p : Port)
  /-- READ_NOW (R115). -/
  | readNow (p : Port)
  /-- PEEK_LATEST (R90). -/
  | peekLatest (edge : RisingEdge)
  /-- READ_TIME (R164): the falling edge of SCKp that puts the first bit of byte 3 on SDOp; the tick counter is sampled. -/
  | readTime (p : Port)
  /-- CLAIM (R77). -/
  | claim (p : Port)
  /-- RELEASE (R78). -/
  | release (p : Port)
  /-- CONFIGURE (R82). -/
  | configure (p : Port)
  /-- READ_CHANNEL (R85). -/
  | readChannel (edge : RisingEdge)
  /-- WATCH_SET (R121). -/
  | watchSet (p : Port)
  /-- WATCH_ARM (R122). -/
  | watchArm (p : Port)
  /-- WATCH_DISARM (R123). -/
  | watchDisarm (p : Port)
  /-- WATCH_CLEAR (R124). -/
  | watchClear (p : Port)
  /-- WATCH_READ (R126). -/
  | watchRead (edge : RisingEdge)
  /-- PERIOD_TIMER_EXPIRY (R35): the period timer of slot n expires. -/
  | periodTimerExpiry (n : SlotNo)
  /-- TRIGGER_EDGE (R36): the oldest recognised edge of the line is handed to the Scheduler. -/
  | triggerEdge (line : Line)
  /-- SETTLE_END (R59). -/
  | settleEnd
  /-- SAMPLE_END (R60): inputs are the levels at the end of the phase; the multiplexer selects from them (R59). -/
  | sampleEnd (inputs : AnalogInputs)
  /-- CONVERT_END (R61). -/
  | convertEnd
  /-- COMPLETION (R68). -/
  | completion
  /-- RECOVER_END (R71). -/
  | recoverEnd
  /-- HUB_RESET (R168): a supply falls below the threshold, or a REFCLK edge takes the fourth low sample of nRST. -/
  | hubReset (cause : ResetCause)
  /-- END_OF_START_UP (R170). -/
  | endOfStartUp
  /-- REFCLK_RISING_EDGE (R161): the levels that TRGA, TRGB and nRST show at the edge. -/
  | refclkRisingEdge (trga trgb nrst : Level)
  /-- RESET_RELEASE (R168): the cause that held the hub in reset ends. -/
  | resetRelease (cause : ResetCause)
  /-- BYTE_COMPLETION (R171, R176): an edge of SCKp; byte j completes at the 8th rising edge after byte j − 1 (log 9). -/
  | byteCompletion (p : Port) (edge : SckEdge)
  /-- STREAMING_FRAME_END (R179): nSELp rises and ends a streaming frame whose arguments had completed. -/
  | streamingFrameEnd (p : Port)
  deriving DecidableEq, Repr

end Sys2Proof
end

