-- ==== Sys2Proof/Decode.lean ====
section
/-! DEFINITION. Decoding of table words. spec/opcode_table.json gives no row any bits: its rows are whole steps of the hub, and the codes of the frame commands are read by the port itself (R176, Machine/Ports.lean). -/

namespace Sys2Proof

/-- The command a word spells by the bits of spec/opcode_table.json: none, for no row of the table has bits (log 27). -/
def decodeTableWord (_nbits _w : Nat) : Option Instr := none

end Sys2Proof
end

