-- ==== Sys2Proof/Config.lean ====
section
/-! DEFINITION. What the part fixes (spec/00_scope.md, Figures of the part), and the free value: a constant with no body that stands for what the manual leaves open. -/

namespace Sys2Proof.Config

/-- Cells of the record pool (R101). -/
def poolCells : Nat := 384

/-- Slots one session may own in STOPPED or RUNNING (R10). -/
def slotQuota : Nat := 16

/-- Records an event queue holds at most (R137). -/
def eventDepth : Nat := 16

/-- REFCLK periods of one tick (R161). -/
def periodsPerTick : Nat := 16

/-- REFCLK periods of the start-up period (R169). -/
def startUpPeriods : Nat := 3200

/-- nRST low samples in a row that begin a hub reset (R193). -/
def nrstSamples : Nat := 4

/-- Ticks of one lease unit (R152). -/
def leaseUnitTicks : Nat := 10000

/-- Free value (log 10): whether an edge recognised at the very REFCLK edge that advances the tick counter carries
the value from before the increment (R166). The argument is the model's own counter State.free, so each use is a fresh value. -/
opaque edgeTickBeforeIncrement : Nat → Bool

end Sys2Proof.Config
end

