-- ==== Sys2Proof/Machine/State.lean ====
section
/-! DEFINITION. The state of the hub, block by block, as plain data, and its value after a hub reset. The list of every piece with its rule is INVENTORY.md, State. -/

namespace Sys2Proof.Machine

/-! ### Slots (spec/01) -/

/-- The four slot states (R9). -/
inductive SlotState
  | free
  | stopped
  | running
  | retiring
  deriving DecidableEq, Repr

/-- The four kinds of slot (R2 to R5, R6). -/
inductive Kind
  | periodic
  | triggered
  | burst
  | listen
  deriving DecidableEq, Repr

/-- The edge setting of a TRIGGERED slot (R3, R6). -/
inductive EdgeSetting
  | rise
  | fall
  | both
  deriving DecidableEq, Repr

/-- The direction of a recognised edge (R166). -/
inductive Direction
  | rise
  | fall
  deriving DecidableEq, Repr

/-- The window position of a slot (R8, R95); unset is the manual's NONE. -/
inductive WindowPos
  | unset
  | below
  | inside
  | above
  deriving DecidableEq, Repr

/-- A window that is present (R6). -/
structure Window where
  low : BitVec 12
  high : BitVec 12
  deriving DecidableEq, Repr

/-- The settings of a slot (R6), held in the coded form of spec/11, 11.4 (log 25): averaging is 2 to the power avgCode;
decimation, trigger divider and burst count are the code plus one. A setting that does not apply to the kind is zero (R7). -/
structure Settings where
  kind : Kind
  channel : Channel
  sampleCode : BitVec 2
  avgCode : BitVec 3
  decimationCode : BitVec 4
  label : BitVec 16
  period : BitVec 22
  phase : BitVec 22
  line : Line
  edge : EdgeSetting
  dividerCode : BitVec 4
  burstCode : BitVec 8
  window : Option Window
  deriving DecidableEq, Repr

/-- Every setting zero, with the window absent (R29). -/
def Settings.zero : Settings :=
  { kind := .periodic, channel := 0, sampleCode := 0, avgCode := 0, decimationCode := 0, label := 0, period := 0
    phase := 0, line := .a, edge := .rise, dividerCode := 0, burstCode := 0, window := none }

/-- A slot record (R1, R8). -/
structure Slot where
  state : SlotState
  owner : Option Port
  settings : Settings
  sequence : BitVec 16
  decimationCount : Nat
  windowPos : WindowPos
  overrunCount : Nat
  burstRemaining : Nat
  nextDue : Tick
  edgeCount : Nat
  pendingFlag : Bool
  inFlightFlag : Bool
  deriving DecidableEq, Repr

/-- A FREE slot: the hub-reset values (R1, R29). -/
def Slot.free : Slot :=
  { state := .free, owner := none, settings := Settings.zero, sequence := 0, decimationCount := 0, windowPos := .unset
    overrunCount := 0, burstRemaining := 0, nextDue := 0, edgeCount := 0, pendingFlag := false, inFlightFlag := false }

/-! ### Requests (spec/02) -/

/-- The class of a request; TRIGGERED above ROUTINE above DEMAND (R31). -/
inductive Class
  | triggered
  | routine
  | demand
  deriving DecidableEq, Repr

/-- The origin of a subscriber entry (R31). -/
inductive Origin
  | slot (n : SlotNo)
  | demand (p : Port)
  deriving DecidableEq, Repr

/-- A subscriber entry: one party's share of a request (R31). -/
structure SubEntry where
  origin : Origin
  cls : Class
  due : Tick
  overrun : Bool
  preempted : Bool
  deriving DecidableEq, Repr

/-- A pending entry (R30). Its class is the highest class among its subscriber entries, so it is computed
(PendingEntry.cls) and not held a second time. -/
structure PendingEntry where
  channel : Channel
  sampleCode : BitVec 2
  avgCode : BitVec 3
  subs : List SubEntry
  preemptCount : Nat
  deriving DecidableEq, Repr

/-! ### The converter (spec/03) -/

/-- The phase of the converter (R54). -/
inductive Phase
  | idle
  | settle
  | sample
  | convert
  | recover
  deriving DecidableEq, Repr

/-- The mode of a channel (R75). -/
inductive Mode
  | single
  | paired
  deriving DecidableEq, Repr

/-- The span of a channel (R75). -/
inductive Span
  | full
  | half
  deriving DecidableEq, Repr

/-- A subscriber entry of the in-flight record with its mark: superseded for a slot entry, orphaned for a DEMAND (R55). -/
structure FlightEntry where
  sub : SubEntry
  marked : Bool
  deriving DecidableEq, Repr

/-- The in-flight record (R55). level is the input level held for the CONVERT phase (R60, R61): V of R62 for SINGLE, D for PAIRED, in femtovolts (log 8). -/
structure InFlight where
  cls : Class
  channel : Channel
  sampleCode : BitVec 2
  avgCode : BitVec 3
  preemptCount : Nat
  subs : List FlightEntry
  mode : Mode
  span : Span
  extraSettle : BitVec 2
  generation : Byte
  settleRequired : Bool
  startTick : Option Tick
  repeatsDone : Nat
  runningSum : Nat
  clipped : Bool
  reconfigured : Bool
  level : Int
  deriving DecidableEq, Repr

/-- The Converter Controller (R54). phaseTicks is the length in ticks of the phase in progress, 0 in IDLE, and phasePeriods
how many REFCLK periods of it have run (R161; log 6). -/
structure Converter where
  phase : Phase
  record : Option InFlight
  identity : Option (Channel × Byte)
  phaseTicks : Nat
  phasePeriods : Nat
  deriving DecidableEq, Repr

/-- The Converter Controller after a hub reset (R72). -/
def Converter.atReset : Converter :=
  { phase := .idle, record := none, identity := none, phaseTicks := 0, phasePeriods := 0 }

/-! ### Channels (spec/04) -/

/-- The configuration record of an external channel (R75). -/
structure ChannelConfig where
  mode : Mode
  span : Span
  extraSettle : BitVec 2
  holder : Option Port
  generation : Byte
  deriving DecidableEq, Repr

/-- A configuration record after a hub reset (R92), which is also the fixed view of an internal channel (R74). -/
def ChannelConfig.atReset : ChannelConfig :=
  { mode := .single, span := .full, extraSettle := 0, holder := none, generation := 0 }

/-- A latest-sample entry (R86). -/
structure LatestEntry where
  valid : Bool
  value : BitVec 12
  timestamp : Tick
  generation : Byte
  count : BitVec 16
  producer : Option Port
  clipped : Bool
  deriving DecidableEq, Repr

/-- A latest-sample entry after a hub reset (R92). -/
def LatestEntry.atReset : LatestEntry :=
  { valid := false, value := 0, timestamp := 0, generation := 0, count := 0, producer := none, clipped := false }

/-! ### Sample delivery (spec/05) -/

/-- The six conditions of a served conversion (R95, R96). -/
structure Conditions where
  above : Bool
  below : Bool
  crossed : Bool
  overrun : Bool
  preempted : Bool
  clipped : Bool
  deriving DecidableEq, Repr

/-- The variant of a sample record with the fields that only that variant has (R99). -/
inductive RecordOrigin
  | slot (n : SlotNo) (label : BitVec 16) (delay : BitVec 16) (sequence : BitVec 16)
  | listen (n : SlotNo) (label : BitVec 16) (sequence : BitVec 16)
  | demand (delay : BitVec 16)
  deriving DecidableEq, Repr

/-- A sample record (R99). dropped 0 means GAP clear; 1 to 255 means GAP set with that dropped field (R100). -/
structure SampleRecord where
  origin : RecordOrigin
  channel : Channel
  value : BitVec 12
  timestamp : Tick
  generation : Byte
  conditions : Conditions
  merged : Bool
  dropped : Nat
  deriving DecidableEq, Repr

/-- The drop policy of a session (R103). -/
inductive DropPolicy
  | dropNewest
  | dropOldest
  deriving DecidableEq, Repr

/-- A sample queue (R103). records is oldest first, count is its length; shifting is the shifting mark, which can only
name the head. -/
structure SampleQueue where
  records : List SampleRecord
  depth : Nat
  watermark : Nat
  policy : DropPolicy
  hold : Bool
  pendingGap : Nat
  shifting : Bool
  deriving DecidableEq, Repr

/-! ### Watches and events (spec/06) -/

/-- The state of a watch (R119). -/
inductive WatchState
  | empty
  | disarmed
  | armed
  | spent
  deriving DecidableEq, Repr

/-- The selector of a watch (R119). -/
inductive Selector
  | slot (n : SlotNo)
  | anyOwn
  deriving DecidableEq, Repr

/-- A term of a watch pattern (R128). -/
inductive Term
  | any
  | clear
  | set
  | never
  deriving DecidableEq, Repr

/-- The six terms of a watch pattern (R119). -/
structure Pattern where
  above : Term
  below : Term
  crossed : Term
  overrun : Term
  preempted : Term
  clipped : Term
  deriving DecidableEq, Repr

/-- The mode of a watch (R119). -/
inductive WatchMode
  | once
  | repeating
  deriving DecidableEq, Repr

/-- The action of a watch (R119). -/
inductive WatchAction
  | notify
  | capture
  | hold
  deriving DecidableEq, Repr

/-- A watch record (R119). -/
structure Watch where
  state : WatchState
  selector : Selector
  pattern : Pattern
  mode : WatchMode
  action : WatchAction
  captureSlot : SlotNo
  hitCount : Nat
  deriving DecidableEq, Repr

/-- An EMPTY watch with its zero values (R119, spec/11, 11.5). -/
def Watch.empty : Watch :=
  { state := .empty, selector := .slot 0, pattern := ⟨.any, .any, .any, .any, .any, .any⟩, mode := .once
    action := .notify, captureSlot := 0, hitCount := 0 }

/-- The seven kinds of event (R135). -/
inductive EventKind
  | watchHit
  | captureRefused
  | queueHeld
  | burstDone
  | slotReleased
  | channelChanged
  | overflow
  deriving DecidableEq, Repr

/-- An event record (R135); detail is its two detail bytes, the first the more significant. -/
structure EventRecord where
  kind : EventKind
  subject : Byte
  tick : Tick
  detail : BitVec 16
  deriving DecidableEq, Repr

/-- An event queue (R137). records is oldest first, count is its length; shifting is the shifting mark on the head. -/
structure EventQueue where
  records : List EventRecord
  shifting : Bool
  lateLoss : Nat
  lateTick : Tick
  deriving DecidableEq, Repr

/-- An empty event queue (R137, R143, R144; the late loss tick after a hub reset is log 17). -/
def EventQueue.empty : EventQueue := { records := [], shifting := false, lateLoss := 0, lateTick := 0 }

/-! ### Sessions (spec/07) -/

/-- The state of a session record (R145, R146); opened is the manual's OPEN. -/
inductive SessionState
  | closed
  | opened
  | lapsed
  deriving DecidableEq, Repr

/-- A session record (R145). expiry is the lease timer: none while idle, or armed with its expiry tick. The queue's depth,
policy, watermark, hold and pending-gap count are those of the port's sample queue. -/
structure Session where
  state : SessionState
  lease : Byte
  expiry : Option Tick
  demandOutstanding : Bool
  deriving DecidableEq, Repr

/-- A session record after a hub reset (R158). -/
def Session.atReset : Session := { state := .closed, lease := 0, expiry := none, demandOutstanding := false }

/-! ### Ports (spec/09) -/

/-- The frame state of a port (R172). -/
inductive FrameState
  | idle
  | head
  | arguments
  | reply
  | spill
  | dead
  deriving DecidableEq, Repr

/-- The thirteen result codes (R175, R192). -/
inductive ResultCode
  | ok
  | cut
  | unknown
  | noSession
  | badState
  | badArg
  | busy
  | noRoom
  | quota
  | inUse
  | notOwner
  | starting
  | lost
  deriving DecidableEq, Repr

/-- The result register (R175). -/
structure ResultReg where
  code : ResultCode
  detail : Byte
  deriving DecidableEq, Repr

/-- What became of a streaming command's taking (R179). -/
inductive Taken
  | no
  | refused (code : ResultCode)
  | accepted
  deriving DecidableEq, Repr

/-- A frame in progress (R171, R172). bytesDone counts the completed bytes, and bits the rising edges of SCKp since the last
of them; shiftIn holds the bits that SDIp carried at those edges, the newest lowest, and sdo is the bit on SDOp. code is
byte 0 once completed; args are the argument bytes received; reply are the reply bytes being shifted out and replyAt the
frame position of the first of them (R173). -/
structure Frame where
  state : FrameState
  startUp : Bool
  status : Byte
  resultAtFall : ResultReg
  bytesDone : Nat
  bits : Nat
  shiftIn : Byte
  sdo : Level
  code : Option Byte
  args : List Byte
  sessionNoted : Bool
  taken : Taken
  reply : List Byte
  replyAt : Nat
  removed : Nat
  deriving DecidableEq, Repr

/-- No frame: the port is IDLE (R172, R183). -/
def Frame.idle : Frame :=
  { state := .idle, startUp := false, status := 0, resultAtFall := ⟨.ok, 0⟩, bytesDone := 0, bits := 0
    shiftIn := 0, sdo := .low, code := none, args := [], sessionNoted := false, taken := .no, reply := [], replyAt := 0
    removed := 0 }

/-- The default staging words 00000000h, 000003E8h, 00000000h and 00000FFFh (R184, spec/11, 11.4). -/
def stagingDefaults : Vector (BitVec 32) 4 := #v[0x00000000#32, 0x000003E8#32, 0x00000000#32, 0x00000FFF#32]

/-- A read buffer of 32 zero bytes (R187). -/
def readBufferZero : Vector Byte 32 := Vector.replicate 32 0

/-- The state of one master port (spec/09). nsel and sck are the levels of its inputs nSELp and SCKp (R171). -/
structure PortState where
  nsel : Level
  sck : Level
  frame : Frame
  result : ResultReg
  staging : Vector (BitVec 32) 4
  readBuf : Vector Byte 32
  deriving DecidableEq, Repr

/-- A port after a hub reset (R183), given the levels of its inputs nSEL and SCK, which the hub does not drive. -/
def PortState.atReset (nsel sck : Level) : PortState :=
  { nsel := nsel, sck := sck, frame := Frame.idle, result := ⟨.ok, 0⟩, staging := stagingDefaults, readBuf := readBufferZero }

/-! ### Timebase (spec/08) -/

/-- An edge detector (R165). -/
structure Detector where
  level : Level
  changes : Nat
  deriving DecidableEq, Repr

/-- A recognised edge on its way to the Scheduler (R166, R167). -/
structure Edge where
  line : Line
  direction : Direction
  tick : Tick
  deriving DecidableEq, Repr

/-- The Timebase (R161, R165, R166). -/
structure Timebase where
  prescaler : Nat
  tick : Tick
  detectorA : Detector
  detectorB : Detector
  edges : List Edge
  deriving DecidableEq, Repr

/-- The reset and start-up condition of the part (R168, R169, R193). -/
structure Hub where
  supplyHold : Bool
  nrstHold : Bool
  startUp : Bool
  startCount : Nat
  nrstLow : Nat
  deriving DecidableEq, Repr

/-! ### The whole hub -/

/-- The state of the hub. requests is the Scheduler's pending list (R30); pending is the queue of commands that wait to be
taken, first in first out, which is the model's (log 1); free is the model's counter for free values (log 19). -/
structure State where
  hub : Hub
  timebase : Timebase
  ports : Vector PortState 4
  sessions : Vector Session 4
  slots : Vector Slot 32
  requests : List PendingEntry
  conv : Converter
  channels : Vector ChannelConfig 16
  latest : Vector LatestEntry 20
  unreserved : Nat
  queues : Vector (Option SampleQueue) 4
  watches : Vector (Vector Watch 8) 4
  events : Vector EventQueue 4
  free : Nat
  pending : List Instr
  deriving DecidableEq, Repr

/-- The machine right after the power-on hub reset, still held by the supply (R168, R193; log 11, 12, 13): every block at
its hub-reset value (R29, R53, R72, R92, R118, R144, R158, R183). -/
def State.reset : State :=
  { hub := { supplyHold := true, nrstHold := false, startUp := false, startCount := 0, nrstLow := 0 }
    timebase := { prescaler := 0, tick := 0, detectorA := ⟨.low, 0⟩, detectorB := ⟨.low, 0⟩, edges := [] }
    ports := Vector.replicate 4 (PortState.atReset .high .low)
    sessions := Vector.replicate 4 Session.atReset
    slots := Vector.replicate 32 Slot.free
    requests := []
    conv := Converter.atReset
    channels := Vector.replicate 16 ChannelConfig.atReset
    latest := Vector.replicate 20 LatestEntry.atReset
    unreserved := Config.poolCells
    queues := Vector.replicate 4 none
    watches := Vector.replicate 4 (Vector.replicate 8 Watch.empty)
    events := Vector.replicate 4 EventQueue.empty
    free := 0
    pending := [] }

/-- The hub has no fault: every refusal of a command is a result code in the port's result register, which is a next state
(R175, R192; log 26). No meaning of this model answers with a fault. -/
inductive Fault
  deriving DecidableEq, Repr

/-- Why a command of the queue has no meaning in a state. All but notModelled name an event that CANNOT ARISE in that
state by the rule cited; stopping there is safe: the hardware has no such history (log 2). -/
inductive Refusal
  /-- Raised by exec's arms of rows without a meaning: there is none. Safe. -/
  | notModelled (mnemonic : String)
  /-- Raised by FRAME_START: nSELn cannot fall while it is low (R172). Safe. -/
  | selectAlreadyLow
  /-- Raised by every frame-end row: nSELn cannot rise while it is high (R171). Safe. -/
  | selectAlreadyHigh
  /-- Raised by every frame-end row: this rise of nSELn ends the port's frame as another row (R177). Safe. -/
  | frameEndsAsAnotherRow
  /-- Raised by NOP, UNKNOWN and CUT: the edges of SCKn counted since the fall of nSELn put its rise elsewhere in a byte than
  the row says (R171). Safe. -/
  | riseElsewhereInByte
  /-- Raised by BYTE_COMPLETION for a rising edge: SCKp is high already (R171). Safe. -/
  | clockAlreadyHigh
  /-- Raised by BYTE_COMPLETION for a falling edge: SCKp is low already (R171). Safe. -/
  | clockAlreadyLow
  /-- Raised by the streaming commands: the next edge of SCKp is not the one at which this command is taken (R164, R179).
  Safe. -/
  | notAtTakingPoint
  /-- Raised by SAMPLE_RECORD_REMOVED and EVENT_RECORD_REMOVED: the next edge of SCKp does not complete the last byte of a
  marked record of the row's queue (R112, R139). Safe. -/
  | noRecordShiftedOut
  /-- Raised by LEASE_EXPIRY and PERIOD_TIMER_EXPIRY: the timer is idle, or its tick has not been reached
  (R34, R152, R162). Safe. -/
  | timerDoesNotExpire
  /-- Raised by TRIGGER_EDGE: no recognised edge of the line is on its way (R167). Safe. -/
  | noRecognisedEdge
  /-- Raised by the converter's rows: the converter is not in the phase that the row ends (R54, spec/03, 3.8). Safe. -/
  | converterInAnotherPhase
  /-- Raised by the converter's rows: the REFCLK periods of the phase have not all run (R54, R161). Safe. -/
  | phaseNotAtItsEnd
  /-- Raised by HUB_RESET by nRST: the next low sample is not the fourth in a row, or nRST holds the hub already
  (R168, R193). Safe. -/
  | resetNotRecognised
  /-- Raised by RESET_RELEASE: that cause does not hold the hub in reset (R168). Safe. -/
  | notHeldByThisCause
  /-- Raised by END_OF_START_UP: the start-up period has not run to its end (R169, R170). Safe. -/
  | startUpNotAtItsEnd
  /-- Raised by REFCLK_RISING_EDGE and HUB_RESET by nRST: the 3,200 periods of start-up have run, so its end is taken first
  (R169; log 23). Safe. -/
  | startUpEndComesFirst
  /-- Raised by REFCLK_RISING_EDGE: nRST, which holds the hub, is high at the edge, so its rise is taken first (R168; log 15).
  Safe. -/
  | resetReleaseComesFirst
  /-- Raised by REFCLK_RISING_EDGE and HUB_RESET by nRST: an edge recognised at the last REFCLK edge is handed to the
  Scheduler first (R167; log 4). Safe. -/
  | edgeComesFirst
  /-- Raised by REFCLK_RISING_EDGE and HUB_RESET by nRST: an armed timer whose tick has been reached expires first (R162;
  log 7). Safe. -/
  | expiryComesFirst
  /-- Raised by REFCLK_RISING_EDGE and HUB_RESET by nRST: the REFCLK periods of the converter's phase have all run, so its end
  is taken first (R54, R161; log 6). Safe. -/
  | phaseEndComesFirst
  deriving DecidableEq, Repr

end Sys2Proof.Machine
end

