-- ==== Sys2Proof/Machine/Commands.lean ====
section
/-! DEFINITION. The command table of Master Ports and Frames (spec/09, 9.4): the code, argument count and kind of each command, and whether it needs a session (R147). -/

namespace Sys2Proof.Machine

/-- The commands of the command table (spec/09, 9.4). -/
inductive Command
  | nop
  | openSession
  | closeSession
  | stageClear
  | stageWord
  | install
  | modify
  | delete
  | stop
  | run
  | startBurst
  | fetch
  | readBuffer
  | takeSamples
  | takeEvents
  | releaseQueue
  | readNow
  | peekLatest
  | readTime
  | claim
  | release
  | configure
  | readChannel
  | watchSet
  | watchArm
  | watchDisarm
  | watchClear
  | watchRead
  deriving DecidableEq, Repr

/-- The three kinds of command (spec/09, 9.4). -/
inductive CommandKind
  | nop
  | setting
  | streaming
  deriving DecidableEq, Repr

/-- The code of a command (spec/09, 9.4). -/
def Command.code (c : Command) : Byte :=
  match c with
  | .nop => 0x00
  | .openSession => 0x10
  | .closeSession => 0x11
  | .stageClear => 0x20
  | .stageWord => 0x21
  | .install => 0x22
  | .modify => 0x23
  | .delete => 0x24
  | .stop => 0x25
  | .run => 0x26
  | .startBurst => 0x27
  | .fetch => 0x28
  | .readBuffer => 0x29
  | .takeSamples => 0x30
  | .takeEvents => 0x31
  | .releaseQueue => 0x32
  | .readNow => 0x33
  | .peekLatest => 0x40
  | .readTime => 0x41
  | .claim => 0x50
  | .release => 0x51
  | .configure => 0x52
  | .readChannel => 0x53
  | .watchSet => 0x60
  | .watchArm => 0x61
  | .watchDisarm => 0x62
  | .watchClear => 0x63
  | .watchRead => 0x64

/-- The command that a command byte decodes to, or none for an unknown code (R176). -/
def Command.ofCode (b : Byte) : Option Command :=
  match b.toNat with
  | 0x00 => some .nop
  | 0x10 => some .openSession
  | 0x11 => some .closeSession
  | 0x20 => some .stageClear
  | 0x21 => some .stageWord
  | 0x22 => some .install
  | 0x23 => some .modify
  | 0x24 => some .delete
  | 0x25 => some .stop
  | 0x26 => some .run
  | 0x27 => some .startBurst
  | 0x28 => some .fetch
  | 0x29 => some .readBuffer
  | 0x30 => some .takeSamples
  | 0x31 => some .takeEvents
  | 0x32 => some .releaseQueue
  | 0x33 => some .readNow
  | 0x40 => some .peekLatest
  | 0x41 => some .readTime
  | 0x50 => some .claim
  | 0x51 => some .release
  | 0x52 => some .configure
  | 0x53 => some .readChannel
  | 0x60 => some .watchSet
  | 0x61 => some .watchArm
  | 0x62 => some .watchDisarm
  | 0x63 => some .watchClear
  | 0x64 => some .watchRead
  | _ => none

/-- The number k of argument bytes (spec/09, 9.4). -/
def Command.argCount (c : Command) : Nat :=
  match c with
  | .openSession => 4
  | .stageWord => 5
  | .readNow => 3
  | .configure => 2
  | .watchSet => 6
  | .install | .modify | .delete | .stop | .run | .startBurst | .fetch | .readBuffer | .takeSamples | .takeEvents
  | .peekLatest | .claim | .release | .readChannel | .watchArm | .watchDisarm | .watchClear | .watchRead => 1
  | .nop | .closeSession | .stageClear | .releaseQueue | .readTime => 0

/-- The kind of a command (spec/09, 9.4). -/
def Command.kind (c : Command) : CommandKind :=
  match c with
  | .nop => .nop
  | .readBuffer | .takeSamples | .takeEvents | .peekLatest | .readTime | .readChannel | .watchRead => .streaming
  | .openSession | .closeSession | .stageClear | .stageWord | .install | .modify | .delete | .stop | .run | .startBurst
  | .fetch | .releaseQueue | .readNow | .claim | .release | .configure | .watchSet | .watchArm | .watchDisarm
  | .watchClear => .setting

/-- Whether a command needs the session of its port to be OPEN (R147). -/
def Command.needsSession (c : Command) : Bool :=
  match c with
  | .nop | .openSession | .peekLatest | .readTime | .readChannel => false
  | .closeSession | .stageClear | .stageWord | .install | .modify | .delete | .stop | .run | .startBurst | .fetch
  | .readBuffer | .takeSamples | .takeEvents | .releaseQueue | .readNow | .claim | .release | .configure | .watchSet
  | .watchArm | .watchDisarm | .watchClear | .watchRead => true

/-- The command that a frame's completed byte 0 decoded to (R176); none while byte 0 is incomplete or its code unknown. -/
def Frame.command (f : Frame) : Option Command := f.code.bind Command.ofCode

/-- Argument byte i of a frame, counted from 0. -/
def argByte (args : List Byte) (i : Nat) : Byte := args.getD i 0

end Sys2Proof.Machine
end

