-- ==== Sys2Proof/Machine/Ops.lean ====
section
/-! DEFINITION. Named operations over the state: one setter for each field, time comparisons, saturating counts, byte order, and the operations shared by every frame end (R171, R175 to R180). -/

namespace Sys2Proof.Machine

/-! ### Setters -/

/-- s with its hub condition replaced. -/
def State.setHub (s : State) (x : Hub) : State := { s with hub := x }

/-- s with its Timebase replaced. -/
def State.setTimebase (s : State) (x : Timebase) : State := { s with timebase := x }

/-- s with port p replaced. -/
def State.setPort (s : State) (p : Port) (x : PortState) : State := { s with ports := s.ports.set p x }

/-- s with the session record of port p replaced. -/
def State.setSession (s : State) (p : Port) (x : Session) : State := { s with sessions := s.sessions.set p x }

/-- s with slot n replaced. -/
def State.setSlot (s : State) (n : SlotNo) (x : Slot) : State := { s with slots := s.slots.set n x }

/-- s with every slot n replaced by f n of it. -/
def State.mapSlots (s : State) (f : SlotNo → Slot → Slot) : State :=
  { s with slots := Vector.ofFn fun n => f n s.slots[n] }

/-- s with its pending list of requests replaced (R30). -/
def State.setRequests (s : State) (x : List PendingEntry) : State := { s with requests := x }

/-- s with its Converter Controller replaced. -/
def State.setConv (s : State) (x : Converter) : State := { s with conv := x }

/-- s with the configuration record of external channel c replaced. -/
def State.setChannel (s : State) (c : Fin 16) (x : ChannelConfig) : State := { s with channels := s.channels.set c x }

/-- s with every configuration record replaced by f of it. -/
def State.mapChannels (s : State) (f : ChannelConfig → ChannelConfig) : State :=
  { s with channels := s.channels.map f }

/-- s with the latest-sample entry of channel c replaced. -/
def State.setLatest (s : State) (c : Channel) (x : LatestEntry) : State := { s with latest := s.latest.set c x }

/-- s with the unreserved count of the pool replaced. -/
def State.setUnreserved (s : State) (x : Nat) : State := { s with unreserved := x }

/-- s with the sample queue of port p replaced. -/
def State.setQueue (s : State) (p : Port) (x : Option SampleQueue) : State := { s with queues := s.queues.set p x }

/-- s with the eight watches of port p replaced. -/
def State.setWatches (s : State) (p : Port) (x : Vector Watch 8) : State := { s with watches := s.watches.set p x }

/-- s with watch w of port p replaced. -/
def State.setWatch (s : State) (p : Port) (w : Fin 8) (x : Watch) : State :=
  s.setWatches p (s.watches[p].set w x)

/-- s with the event queue of port p replaced. -/
def State.setEvents (s : State) (p : Port) (x : EventQueue) : State := { s with events := s.events.set p x }

/-- s with the counter of free values advanced by one (log 19). -/
def State.useFree (s : State) : State := { s with free := s.free + 1 }

/-- s with its queue of waiting commands replaced (log 1). -/
def State.setPending (s : State) (x : List Instr) : State := { s with pending := x }

/-! ### Time (spec/00_scope.md, Time; R162, R163) -/

/-- The current tick (R161). -/
def State.now (s : State) : Tick := s.timebase.tick

/-- "tick D has been reached": (now − D) mod 2^32 is less than 2^31 (R162). -/
def reached (now d : Tick) : Bool := decide ((now - d).toNat < 2147483648)

/-- "elapsed from A to B": (B − A) mod 2^32 (R163). -/
def elapsed (a b : Tick) : Nat := (b - a).toNat

/-! ### Counts that hold at a limit -/

/-- n plus k, holding at 65535 (R8, R119, R138). -/
def hold65535 (n k : Nat) : Nat := min 65535 (n + k)

/-- n plus k, holding at 255 (R100, R107). -/
def hold255 (n k : Nat) : Nat := min 255 (n + k)

/-! ### Byte order: most significant byte first (R191) -/

/-- The two bytes of a 16-bit field. -/
def bytes2 (x : BitVec 16) : List Byte := [x.extractLsb' 8 8, x.extractLsb' 0 8]

/-- The four bytes of a 32-bit field. -/
def bytes4 (x : BitVec 32) : List Byte :=
  [x.extractLsb' 24 8, x.extractLsb' 16 8, x.extractLsb' 8 8, x.extractLsb' 0 8]

/-- The word of four bytes, the first its most significant (R186). -/
def wordOfBytes (b3 b2 b1 b0 : Byte) : BitVec 32 := b3 ++ b2 ++ b1 ++ b0

/-- A port as a byte; FFh for none (R191). -/
def portByte (p : Option Port) : Byte :=
  match p with
  | some p => BitVec.ofNat 8 p.val
  | none => 0xFF

/-! ### Sessions -/

/-- Whether the session of port p is OPEN (R146). -/
def State.isOpen (s : State) (p : Port) : Bool := decide (s.sessions[p].state = .opened)

/-- The restart of the lease at an uncut frame end that finds the state OPEN (R152): expiry is the current tick plus
lease × 10,000. -/
def leaseRestart (s : State) (p : Port) : State :=
  if s.isOpen p then
    s.setSession p { s.sessions[p] with
      expiry := some (s.now + BitVec.ofNat 32 (s.sessions[p].lease.toNat * Config.leaseUnitTicks)) }
  else s

/-! ### The ends of a frame -/

/-- What a rise of nSELn ends, by the order of R177. -/
inductive FrameEnd
  /-- The port is IDLE: a frame abandoned by a hub reset, or low during one; nothing changes (R181). -/
  | abandoned
  | cut
  | nop
  | starting
  | lost
  | unknown
  | setting (c : Command)
  | streaming (c : Command)
  deriving DecidableEq, Repr

/-- Whether a rise of nSELn would be in the middle of a byte: the rising edges of SCKn since the fall are not a multiple
of 8 (R171). -/
def Frame.midByte (f : Frame) : Bool := decide (f.bits ≠ 0)

/-- What the rise of nSELn ends (R176 to R180, R182). -/
def frameEnd (f : Frame) : FrameEnd :=
  match f.state with
  | .idle => .abandoned
  | .head => .cut
  | _ =>
    if f.startUp then (if f.command = some .nop then .nop else .starting)
    else if f.state = .dead then .lost
    else
      match f.command with
      | none => .unknown
      | some c =>
        match c.kind with
        | .nop => .nop
        | .setting => if f.args.length = c.argCount && !f.midByte then .setting c else .cut
        | .streaming => if f.args.length = c.argCount then .streaming c else .cut

/-- The rise of nSELp: the pin is high and the port is IDLE (R172). -/
def raiseSelect (s : State) (p : Port) : State :=
  s.setPort p { s.ports[p] with nsel := .high, frame := Frame.idle }

/-- s with the result register of port p replaced (R175). -/
def setResult (s : State) (p : Port) (r : ResultReg) : State := s.setPort p { s.ports[p] with result := r }

/-- The step of a row that ends the frame of port p at the rise of nSELp: the effect act, given the frame, is applied when
the rise ends the frame as row; a rise on an IDLE port changes only the pin (R181); any other rise is another row's. -/
def atRise (p : Port) (row : FrameEnd) (act : Frame → State → State) (s : State) :
    Host.Outcome State Fault Refusal :=
  if s.ports[p].nsel = .high then .refused .selectAlreadyHigh
  else
    let ends := frameEnd s.ports[p].frame
    if ends = .abandoned then .next (raiseSelect s p)
    else if ends = row then .next (act s.ports[p].frame (raiseSelect s p))
    else .refused .frameEndsAsAnotherRow

/-- atRise for a row that says whether the rise is in the middle of a byte (R171, R177): the edges counted must agree with it,
in a frame that has not been abandoned. -/
def atRiseIn (p : Port) (midByte : Bool) (row : FrameEnd) (act : Frame → State → State) (s : State) :
    Host.Outcome State Fault Refusal :=
  if s.ports[p].frame.state ≠ .idle ∧ s.ports[p].frame.midByte ≠ midByte then .refused .riseElsewhereInByte
  else atRise p row act s

/-- The outcome of a command: the state it leaves and its result (R178, R179). -/
abbrev Done := State × ResultReg

/-- A refused command: nothing changes, detail 0 (R11, R76, R115, R120, R148). -/
def refuseWith (s : State) (c : ResultCode) : Done := (s, ⟨c, 0⟩)

/-- A command that needs the session of port p to be OPEN: NO_SESSION is its first check (R147). -/
def withSession (p : Port) (act : State → Done) (s : State) : Done :=
  if s.isOpen p then act s else refuseWith s .noSession

/-- The step of a set command (R178): it is taken whole at the rise of nSELp; its result is written to the result register
as the frame ends, and the uncut frame end restarts the lease of a session that is then OPEN (R152, R177). -/
def takeSetting (p : Port) (c : Command) (act : List Byte → State → Done) (s : State) :
    Host.Outcome State Fault Refusal :=
  atRise p (.setting c)
    (fun f s =>
      let d := act f.args s
      leaseRestart (setResult d.1 p d.2) p) s

end Sys2Proof.Machine
end

