-- ==== Sys2Proof/Machine/Operands.lean ====
section
/-! DEFINITION. Decoding of every argument byte and staging word by the layouts of spec/11 (R191), with the range checks of R6 and R7. A failed check answers none, which the commands report as BAD_ARG. -/

namespace Sys2Proof.Machine

/-- A slot argument byte other than ANY: 0 to 31 (R11, R191). -/
def slotOfByte (b : Byte) : Option SlotNo := if h : b.toNat < 32 then some ⟨b.toNat, h⟩ else none

/-- A channel byte: 0 to 19 (R73, R191). -/
def channelOfByte (b : Byte) : Option Channel := if h : b.toNat < 20 then some ⟨b.toNat, h⟩ else none

/-- An external channel byte: 0 to 15 (R76). -/
def externalOfByte (b : Byte) : Option (Fin 16) := if h : b.toNat < 16 then some ⟨b.toNat, h⟩ else none

/-- A watch index byte: 0 to 7 (R120). -/
def watchOfByte (b : Byte) : Option (Fin 8) := if h : b.toNat < 8 then some ⟨b.toNat, h⟩ else none

/-- A staging word index byte: 0 to 3 (R186). -/
def wordIndexOfByte (b : Byte) : Option (Fin 4) := if h : b.toNat < 4 then some ⟨b.toNat, h⟩ else none

/-- The slot argument of INSTALL: ANY or a slot (R11, R12). -/
inductive SlotArg
  | any
  | number (n : SlotNo)
  deriving DecidableEq, Repr

/-- The slot argument byte of INSTALL: FFh is ANY (R191). -/
def installArg (b : Byte) : Option SlotArg :=
  if b = 0xFF then some .any else (slotOfByte b).map .number

/-- Averaging: 2 to the power of its code, for codes 0 to 4 (spec/11, 11.3). -/
def averaging (code : BitVec 3) : Nat := 2 ^ code.toNat

/-- Decimation N of a slot's settings: the code plus one (R191). -/
def Settings.decimation (x : Settings) : Nat := x.decimationCode.toNat + 1

/-- Trigger divider of a slot's settings: the code plus one (R191). -/
def Settings.divider (x : Settings) : Nat := x.dividerCode.toNat + 1

/-- Burst count of a slot's settings: the code plus one (R191). -/
def Settings.burstCount (x : Settings) : Nat := x.burstCode.toNat + 1

/-- A period or phase as a number of ticks (R6). -/
def ticks22 (x : BitVec 22) : Tick := x.setWidth 32

/-! ### The staging record (spec/11, 11.4) -/

/-- What INSTALL and MODIFY read from a staging record that passes R6 and R7. -/
structure Staged where
  startRunning : Bool
  settings : Settings
  deriving DecidableEq, Repr

/-- The kind of two bits (spec/11, 11.4). -/
def kindOfBits (b : BitVec 2) : Kind :=
  match b.toNat with
  | 0 => .periodic
  | 1 => .triggered
  | 2 => .burst
  | _ => .listen

/-- The edge setting of two bits; code 3 is out of range (R191). -/
def edgeOfBits (b : BitVec 2) : Option EdgeSetting :=
  match b.toNat with
  | 0 => some .rise
  | 1 => some .fall
  | 2 => some .both
  | _ => none

/-- Whether the reserved bits of the staging words are all 0: word 1 bit 31, word 3 bits 30–28 and 15–12 (R7, R191). -/
def stagingReservedClear (w : Vector (BitVec 32) 4) : Bool :=
  w[1].extractLsb' 31 1 == 0#1 && w[3].extractLsb' 28 3 == 0#3 && w[3].extractLsb' 12 4 == 0#4

/-- The window fields: absent, or present with low ≤ high; none when present with low above high (R6). -/
def windowOfWord (w3 : BitVec 32) : Option (Option Window) :=
  if w3.extractLsb' 31 1 = 0#1 then some none
  else
    let low := w3.extractLsb' 16 12
    let high := w3.extractLsb' 0 12
    if low.toNat ≤ high.toNat then some (some ⟨low, high⟩) else none

/-- The staged settings of a staging record, or none when a field fails R6 or R7. Every setting that does not apply to the
kind is recorded as zero (R7). -/
def stagedOf (w : Vector (BitVec 32) 4) : Option Staged :=
  let kind := kindOfBits (w[0].extractLsb' 30 2)
  let sampleCode := w[0].extractLsb' 27 2
  let avgCode := w[0].extractLsb' 24 3
  let period := w[1].extractLsb' 0 22
  let phase := w[2].extractLsb' 0 22
  match channelOfByte (w[0].extractLsb' 16 8), windowOfWord w[3] with
  | some channel, some window =>
    if !stagingReservedClear w then none
    else
      let base : Settings := { Settings.zero with
        kind := kind, channel := channel, decimationCode := w[1].extractLsb' 22 4
        label := w[0].extractLsb' 0 16, window := window }
      let converting : Settings := { base with sampleCode := sampleCode, avgCode := avgCode }
      let start := w[0].extractLsb' 29 1 == 1#1
      match kind with
      | .listen => some ⟨start, base⟩
      | .periodic =>
        if avgCode.toNat ≤ 4 ∧ 20 ≤ period.toNat ∧ phase.toNat < period.toNat then
          some ⟨start, { converting with period := period, phase := phase }⟩
        else none
      | .triggered =>
        match edgeOfBits (w[2].extractLsb' 30 2) with
        | some edge =>
          if avgCode.toNat ≤ 4 then
            some ⟨start, { converting with
              line := if w[1].extractLsb' 30 1 = 0#1 then .a else .b
              edge := edge, dividerCode := w[1].extractLsb' 26 4 }⟩
          else none
        | none => none
      | .burst =>
        if avgCode.toNat ≤ 4 then some ⟨start, { converting with burstCode := w[2].extractLsb' 22 8 }⟩ else none
  | _, _ => none

/-! ### CONFIGURE's configuration byte (spec/11, 11.3) -/

/-- The mode, span and extra settle of a configuration byte; none when a reserved bit is 1 (R76). -/
def configOfByte (b : Byte) : Option (Mode × Span × BitVec 2) :=
  if b.extractLsb' 2 4 = 0#4 then
    some (if b.extractLsb' 7 1 = 0#1 then .single else .paired,
      if b.extractLsb' 6 1 = 0#1 then .full else .half, b.extractLsb' 0 2)
  else none

/-! ### OPEN's arguments (R148) -/

/-- The valid arguments of OPEN. -/
structure OpenArgs where
  lease : Byte
  depth : Nat
  policy : DropPolicy
  watermark : Nat
  deriving DecidableEq, Repr

/-- The arguments of OPEN, or none when one is out of range or a reserved bit of the policy byte is 1 (R148, 11.3). depth is
D = 16 × the depth argument. -/
def openArgs (lease depth policy watermark : Byte) : Option OpenArgs :=
  if lease ≠ 0 ∧ 1 ≤ depth.toNat ∧ depth.toNat ≤ 12 ∧ policy.extractLsb' 1 7 = 0#7
      ∧ 1 ≤ watermark.toNat ∧ watermark.toNat ≤ 16 * depth.toNat then
    some ⟨lease, 16 * depth.toNat, if policy.extractLsb' 0 1 = 0#1 then .dropNewest else .dropOldest, watermark.toNat⟩
  else none

/-! ### READ_NOW's arguments (R115) -/

/-- The channel, sample code and averaging code of READ_NOW, or none when one is out of range (R115, 11.3). -/
def readNowArgs (channel sample avg : Byte) : Option (Channel × BitVec 2 × BitVec 3) :=
  match channelOfByte channel with
  | some c => if sample.toNat ≤ 3 ∧ avg.toNat ≤ 4 then some (c, sample.setWidth 2, avg.setWidth 3) else none
  | none => none

/-! ### The watch argument block (spec/11, 11.5) -/

/-- The term of two bits (11.5). -/
def termOfBits (b : BitVec 2) : Term :=
  match b.toNat with
  | 0 => .any
  | 1 => .clear
  | 2 => .set
  | _ => .never

/-- The selector byte: a slot, or FFh for ANY_OWN (R191). -/
def selectorOfByte (b : Byte) : Option Selector :=
  if b = 0xFF then some .anyOwn else (slotOfByte b).map .slot

/-- The action of two bits; code 3 is out of range (R191). -/
def actionOfBits (b : BitVec 2) : Option WatchAction :=
  match b.toNat with
  | 0 => some .notify
  | 1 => some .capture
  | 2 => some .hold
  | _ => none

/-- The pattern of the two pattern bytes (11.5). -/
def patternOfBits (x : BitVec 16) : Pattern :=
  { above := termOfBits (x.extractLsb' 14 2), below := termOfBits (x.extractLsb' 12 2)
    crossed := termOfBits (x.extractLsb' 10 2), overrun := termOfBits (x.extractLsb' 8 2)
    preempted := termOfBits (x.extractLsb' 6 2), clipped := termOfBits (x.extractLsb' 4 2) }

/-- What a watch argument block holds, before the ownership checks; captureByte is byte 4 as sent. -/
structure WatchBlock where
  selector : Selector
  pattern : Pattern
  mode : WatchMode
  action : WatchAction
  captureByte : Byte
  deriving DecidableEq, Repr

/-- The watch argument block, or none when it fails step 1 of R121. -/
def watchBlock (b0 b1 b2 b3 b4 : Byte) : Option WatchBlock :=
  match selectorOfByte b0, actionOfBits (b3.extractLsb' 0 2) with
  | some selector, some action =>
    if b2.extractLsb' 0 4 = 0#4 ∧ b3.extractLsb' 2 5 = 0#5 then
      some ⟨selector, patternOfBits (b1 ++ b2), if b3.extractLsb' 7 1 = 0#1 then .once else .repeating, action, b4⟩
    else none
  | _, _ => none

end Sys2Proof.Machine
end

