-- ==== Sys2Proof/Machine/Flags.lean ====
section
/-! DEFINITION. Every flag and condition the hub computes: window conditions, the flags byte, the status byte, the attention conditions and nATTNn. -/

namespace Sys2Proof.Machine

/-! ### Window conditions (R95) -/

/-- The new window position of a value (R95). -/
def windowPosition (w : Window) (value : BitVec 12) : WindowPos :=
  if value.toNat < w.low.toNat then .below
  else if w.high.toNat < value.toNat then .above
  else .inside

/-- The window position a served slot takes (R95): NONE stays while the window is absent. -/
def newPosition (w : Option Window) (value : BitVec 12) : WindowPos :=
  match w with
  | some w => windowPosition w value
  | none => .unset

/-- The six conditions of a served slot (R95, R96). old is its window position before; sub is its subscriber entry, none
for a LISTEN slot. -/
def slotConditions (w : Option Window) (old : WindowPos) (value : BitVec 12) (sub : Option SubEntry) (clipped : Bool) :
    Conditions :=
  let pos := newPosition w value
  { above := pos = .above
    below := pos = .below
    crossed := w.isSome && decide (old ≠ .unset) && decide (old ≠ pos)
    overrun := (sub.map (·.overrun)).getD false
    preempted := (sub.map (·.preempted)).getD false
    clipped := clipped }

/-- The conditions of a demand (R96, R116). -/
def demandConditions (sub : SubEntry) (clipped : Bool) : Conditions :=
  { above := false, below := false, crossed := false, overrun := false, preempted := sub.preempted, clipped := clipped }

/-- The flags byte (spec/11, 11.6): ABOVE, BELOW, CROSSED, OVERRUN, PREEMPTED, CLIPPED, MERGED, GAP from bit 7 down. -/
def flagsByte (c : Conditions) (merged gap : Bool) : Byte :=
  BitVec.ofBool c.above ++ BitVec.ofBool c.below ++ BitVec.ofBool c.crossed ++ BitVec.ofBool c.overrun
    ++ BitVec.ofBool c.preempted ++ BitVec.ofBool c.clipped ++ BitVec.ofBool merged ++ BitVec.ofBool gap

/-! ### Watch terms (R128) -/

/-- Whether a term holds for a condition (R128). -/
def Term.holds (t : Term) (set : Bool) : Bool :=
  match t with
  | .any => true
  | .clear => !set
  | .set => set
  | .never => false

/-- Whether each of the six terms holds (R128). -/
def Pattern.holds (x : Pattern) (c : Conditions) : Bool :=
  x.above.holds c.above && x.below.holds c.below && x.crossed.holds c.crossed && x.overrun.holds c.overrun
    && x.preempted.holds c.preempted && x.clipped.holds c.clipped

/-- Whether a selector covers slot n (R128). -/
def Selector.covers (x : Selector) (n : SlotNo) : Bool :=
  match x with
  | .anyOwn => true
  | .slot m => decide (m = n)

/-- Whether a watch matches a conversion of slot n (R128). -/
def Watch.isMatch (w : Watch) (n : SlotNo) (c : Conditions) : Bool :=
  decide (w.state = .armed) && w.selector.covers n && w.pattern.holds c

/-! ### Queue conditions and attention -/

/-- Whether a sample queue is at watermark (R110); a port with no queue is not. -/
def atWatermark (q : Option SampleQueue) : Bool :=
  match q with
  | some q => decide (q.watermark ≤ q.records.length)
  | none => false

/-- Whether a sample queue is held (R103). -/
def isHeld (q : Option SampleQueue) : Bool :=
  match q with
  | some q => q.hold
  | none => false

/-- Whether the event queue of a port is not empty (R142). -/
def eventsWaiting (q : EventQueue) : Bool := !q.records.isEmpty

/-- The level of nATTNp (R188): low exactly when the event queue is not empty, the sample queue is at watermark, or the
session is LAPSED. -/
def State.natt (s : State) (p : Port) : Level :=
  if eventsWaiting s.events[p] || atWatermark s.queues[p] || decide (s.sessions[p].state = .lapsed) then .low else .high

/-! ### The status byte (R174, R192) -/

/-- The state field of the status byte outside start-up (R192). -/
def sessionBits (x : SessionState) : BitVec 2 :=
  match x with
  | .closed => 1
  | .opened => 2
  | .lapsed => 3

/-- The status byte of port p as sampled at a fall of nSELp (R174, R192). -/
def State.statusByte (s : State) (p : Port) : Byte :=
  if s.hub.startUp then 0x01
  else
    let opened := s.isOpen p
    sessionBits s.sessions[p].state ++ BitVec.ofBool (opened && eventsWaiting s.events[p])
      ++ BitVec.ofBool (opened && atWatermark s.queues[p]) ++ BitVec.ofBool (opened && isHeld s.queues[p])
      ++ BitVec.ofBool s.sessions[p].demandOutstanding ++ 0#1 ++ 1#1

end Sys2Proof.Machine
end

