-- ==== Sys2Proof/Machine/Formats.lean ====
section
/-! DEFINITION. Every byte the hub produces, by the layouts of spec/11: result codes, the FETCH snapshot, the watch reply, sample and event records, the channel and latest-sample replies, and SDOn bit by bit (R171, R173). -/

namespace Sys2Proof.Machine

/-- The number of a result code (R192). -/
def ResultCode.byte (c : ResultCode) : Byte :=
  match c with
  | .ok => 0
  | .cut => 1
  | .unknown => 2
  | .noSession => 3
  | .badState => 4
  | .badArg => 5
  | .busy => 6
  | .noRoom => 7
  | .quota => 8
  | .inUse => 9
  | .notOwner => 10
  | .starting => 11
  | .lost => 12

/-! ### The FETCH snapshot (spec/11, 11.4) -/

/-- The two kind bits (11.4). -/
def Kind.bits (k : Kind) : BitVec 2 :=
  match k with
  | .periodic => 0
  | .triggered => 1
  | .burst => 2
  | .listen => 3

/-- The trigger line bit (11.4). -/
def lineBit (l : Line) : BitVec 1 :=
  match l with
  | .a => 0
  | .b => 1

/-- The two edge bits (11.4). -/
def EdgeSetting.bits (e : EdgeSetting) : BitVec 2 :=
  match e with
  | .rise => 0
  | .fall => 1
  | .both => 2

/-- The state bits of the snapshot (11.4); a FREE slot has no snapshot. -/
def SlotState.bits (x : SlotState) : BitVec 2 :=
  match x with
  | .free => 0
  | .stopped => 1
  | .running => 2
  | .retiring => 3

/-- The window position byte (11.4). -/
def WindowPos.byte (x : WindowPos) : Byte :=
  match x with
  | .unset => 0
  | .below => 1
  | .inside => 2
  | .above => 3

/-- A slot's settings as staging word 0, start bit 0 (11.4). -/
def settingsWord0 (x : Settings) : BitVec 32 :=
  x.kind.bits ++ 0#1 ++ x.sampleCode ++ x.avgCode ++ BitVec.ofNat 8 x.channel.val ++ x.label

/-- A slot's settings as staging word 1 (11.4). -/
def settingsWord1 (x : Settings) : BitVec 32 :=
  0#1 ++ lineBit x.line ++ x.dividerCode ++ x.decimationCode ++ x.period

/-- A slot's settings as staging word 2 (11.4). -/
def settingsWord2 (x : Settings) : BitVec 32 := x.edge.bits ++ x.burstCode ++ x.phase

/-- A slot's settings as staging word 3; the limits are 0 while the window is absent (11.4). -/
def settingsWord3 (x : Settings) : BitVec 32 :=
  match x.window with
  | some w => 1#1 ++ 0#3 ++ w.low ++ 0#4 ++ w.high
  | none => 0

/-- The 32 bytes of the snapshot of slot n as a list (R23, 11.4). -/
def snapshotBytes (n : SlotNo) (x : Slot) : List Byte :=
  [BitVec.ofNat 8 n.val,
    BitVec.ofBool x.inFlightFlag ++ BitVec.ofBool x.pendingFlag ++ BitVec.ofNat 2 ((x.owner.map Fin.val).getD 0)
      ++ 0#2 ++ x.state.bits]
    ++ bytes4 (settingsWord0 x.settings) ++ bytes4 (settingsWord1 x.settings)
    ++ bytes4 (settingsWord2 x.settings) ++ bytes4 (settingsWord3 x.settings)
    ++ bytes2 x.sequence ++ bytes2 (BitVec.ofNat 16 x.overrunCount)
    ++ [BitVec.ofNat 8 x.decimationCount, x.windowPos.byte]
    ++ bytes2 (BitVec.ofNat 16 x.burstRemaining)
    ++ [if x.settings.kind = .triggered then BitVec.ofNat 8 x.edgeCount else 0]
    ++ bytes4 (if x.settings.kind = .periodic then x.nextDue else 0)
    ++ [0]

/-- The read buffer that a successful FETCH of slot n leaves (R23, R187). -/
def snapshot (n : SlotNo) (x : Slot) : Vector Byte 32 := Vector.ofFn fun i => (snapshotBytes n x).getD i.val 0

/-! ### The watch reply (spec/11, 11.5) -/

/-- The term code (11.5). -/
def Term.bits (t : Term) : BitVec 2 :=
  match t with
  | .any => 0
  | .clear => 1
  | .set => 2
  | .never => 3

/-- The two pattern bytes of a pattern (11.5). -/
def Pattern.bits (x : Pattern) : BitVec 16 :=
  x.above.bits ++ x.below.bits ++ x.crossed.bits ++ x.overrun.bits ++ x.preempted.bits ++ x.clipped.bits ++ 0#4

/-- The watch state byte (11.5). -/
def WatchState.byte (x : WatchState) : Byte :=
  match x with
  | .empty => 0
  | .disarmed => 1
  | .armed => 2
  | .spent => 3

/-- The selector byte (11.5, R191). -/
def Selector.byte (x : Selector) : Byte :=
  match x with
  | .slot n => BitVec.ofNat 8 n.val
  | .anyOwn => 0xFF

/-- The mode and action byte (11.5). -/
def modeActionByte (m : WatchMode) (a : WatchAction) : Byte :=
  (match m with
    | .once => 0#1
    | .repeating => 1#1) ++ 0#5 ++
  (match a with
    | .notify => 0#2
    | .capture => 1#2
    | .hold => 2#2)

/-- The 9 bytes of the WATCH_READ reply (R126, 11.5). -/
def watchReply (i : Fin 8) (w : Watch) : List Byte :=
  [BitVec.ofNat 8 i.val, w.state.byte, w.selector.byte] ++ bytes2 w.pattern.bits
    ++ [modeActionByte w.mode w.action, BitVec.ofNat 8 w.captureSlot.val] ++ bytes2 (BitVec.ofNat 16 w.hitCount)

/-! ### Sample records (R99, spec/11, 11.6) -/

/-- Whether GAP is set on a record (R100). -/
def SampleRecord.gap (r : SampleRecord) : Bool := decide (0 < r.dropped)

/-- The descriptor byte: the variant in bits 1–0, bit 7 set when the dropped byte is present (11.6). -/
def SampleRecord.descriptor (r : SampleRecord) : Byte :=
  BitVec.ofBool r.gap ++ 0#5 ++
  (match r.origin with
    | .slot .. => 1#2
    | .listen .. => 2#2
    | .demand .. => 3#2)

/-- A conversion value as two bytes (R191). -/
def valueBytes (v : BitVec 12) : List Byte := bytes2 (v.setWidth 16)

/-- The last bytes of every variant: generation, flags, and dropped with GAP (11.6). -/
def SampleRecord.tailBytes (r : SampleRecord) : List Byte :=
  [r.generation, flagsByte r.conditions r.merged r.gap] ++ (if r.gap then [BitVec.ofNat 8 r.dropped] else [])

/-- The bytes of a sample record in wire order (R99, 11.6). -/
def SampleRecord.bytes (r : SampleRecord) : List Byte :=
  let common := [BitVec.ofNat 8 r.channel.val] ++ valueBytes r.value ++ bytes4 r.timestamp
  match r.origin with
  | .slot n label delay sequence =>
    [r.descriptor, BitVec.ofNat 8 n.val] ++ bytes2 label ++ common ++ bytes2 delay ++ bytes2 sequence ++ r.tailBytes
  | .listen n label sequence =>
    [r.descriptor, BitVec.ofNat 8 n.val] ++ bytes2 label ++ common ++ bytes2 sequence ++ r.tailBytes
  | .demand delay => [r.descriptor, 0xFF] ++ common ++ bytes2 delay ++ r.tailBytes

/-! ### Event records (R135, spec/11, 11.7) -/

/-- The kind byte of an event record (11.7). -/
def EventKind.byte (k : EventKind) : Byte :=
  match k with
  | .watchHit => 1
  | .captureRefused => 2
  | .queueHeld => 3
  | .burstDone => 4
  | .slotReleased => 5
  | .channelChanged => 6
  | .overflow => 7

/-- The 8 bytes of an event record (R135, 11.7). -/
def EventRecord.bytes (e : EventRecord) : List Byte := [e.kind.byte, e.subject] ++ bytes4 e.tick ++ bytes2 e.detail

/-! ### Channel and latest-sample replies (spec/11, 11.8) -/

/-- The mode bit (11.8). -/
def Mode.bit (m : Mode) : BitVec 1 :=
  match m with
  | .single => 0
  | .paired => 1

/-- The span bit (11.8). -/
def Span.bit (x : Span) : BitVec 1 :=
  match x with
  | .full => 0
  | .half => 1

/-- The configuration of channel c as a conversion or a READ_CHANNEL sees it: the record of an external channel, the fixed
view of an internal one (R74). -/
def State.channelView (s : State) (c : Channel) : ChannelConfig :=
  if h : c.val < 16 then s.channels[c.val] else ChannelConfig.atReset

/-- Whether channel c is the odd partner of a PAIRED channel: odd, external, its even neighbour PAIRED (R73, R80). -/
def State.oddPartner (s : State) (c : Channel) : Bool :=
  if h : c.val < 16 ∧ c.val % 2 = 1 then decide (s.channels[c.val - 1].mode = .paired) else false

/-- The 4 bytes of the READ_CHANNEL reply (R85, 11.8). -/
def channelReply (s : State) (c : Channel) : List Byte :=
  let v := s.channelView c
  [BitVec.ofNat 8 c.val, v.mode.bit ++ v.span.bit ++ BitVec.ofBool (s.oddPartner c) ++ 0#3 ++ v.extraSettle,
    portByte v.holder, v.generation]

/-- The 12 bytes of the PEEK_LATEST reply (R90, 11.8). -/
def latestReply (s : State) (c : Channel) : List Byte :=
  let e := s.latest[c]
  [BitVec.ofNat 8 c.val, BitVec.ofBool e.valid ++ BitVec.ofBool e.clipped ++ 0#6] ++ valueBytes e.value
    ++ bytes4 e.timestamp ++ [e.generation] ++ bytes2 e.count ++ [portByte e.producer]

/-! ### SDOn (R171, R173) -/

/-- The byte that a frame drives at its position bytesDone (R173); in DEAD every bit still to be driven is 0. -/
def Frame.outByte (f : Frame) : Byte :=
  match f.state with
  | .dead => 0
  | _ =>
    match f.bytesDone with
    | 0 => f.status
    | 1 => f.resultAtFall.code.byte
    | 2 => f.resultAtFall.detail
    | k => if f.state = .reply then f.reply.getD (k - f.replyAt) 0 else 0

/-- The level of a bit on a data pin: 1 is high (spec/00_scope.md, Conventions). -/
def levelOfBit (b : Bool) : Level := if b then .high else .low

/-- The bit at the position that the frame stands at, most significant first, is driven onto SDOn (R171). -/
def Frame.driveBit (f : Frame) : Frame := { f with sdo := levelOfBit (f.outByte.getMsbD f.bits) }

/-- What port p drives on SDOp: none is high impedance (R171, R172, R181). -/
def State.sdo (s : State) (p : Port) : Option Level :=
  if s.ports[p].frame.state = .idle then none else some s.ports[p].frame.sdo

end Sys2Proof.Machine
end

