-- ==== Sys2Proof/Machine/Events.lean ====
section
/-! DEFINITION. The Event Unit (spec/06, 6.4 to 6.6): event queues, overflow, and the queue stream's decision that both TAKE commands share. -/

namespace Sys2Proof.Machine

/-- Whether the queue holds an OVERFLOW record (R137). -/
def EventQueue.hasOverflow (q : EventQueue) : Bool := q.records.any fun e => decide (e.kind = .overflow)

/-- Whether the head of the queue is an OVERFLOW record. -/
def EventQueue.overflowAtHead (q : EventQueue) : Bool :=
  match q.records with
  | [] => false
  | e :: _ => decide (e.kind = .overflow)

/-- An OVERFLOW record (R135). -/
def overflowRecord (tick : Tick) (lost : Nat) : EventRecord :=
  { kind := .overflow, subject := 0, tick := tick, detail := BitVec.ofNat 16 lost }

/-- A record with k more losses when it is OVERFLOW, holding at 65535 (R138, R140). -/
def EventRecord.addLost (e : EventRecord) (k : Nat) : EventRecord :=
  if e.kind = .overflow then { e with detail := BitVec.ofNat 16 (hold65535 e.detail.toNat k) } else e

/-- An event offered to an event queue (R138, R140). -/
def EventQueue.offer (q : EventQueue) (e : EventRecord) : EventQueue :=
  if q.hasOverflow then
    if q.shifting && q.overflowAtHead then
      { q with
        lateLoss := hold65535 q.lateLoss 1
        lateTick := if q.lateLoss = 0 then e.tick else q.lateTick }
    else { q with records := q.records.map (·.addLost 1) }
  else if q.records.length < Config.eventDepth - 1 then { q with records := q.records ++ [e] }
  else { q with records := q.records ++ [overflowRecord e.tick 1] }

/-- The removal of the marked head when its last byte has been shifted out (R139, R140). -/
def EventQueue.removeHead (q : EventQueue) : EventQueue :=
  match q.records with
  | [] => { q with shifting := false }
  | e :: rest =>
    if e.kind = .overflow ∧ 0 < q.lateLoss then
      { records := rest ++ [overflowRecord q.lateTick q.lateLoss], shifting := false, lateLoss := 0
        lateTick := q.lateTick }
    else { q with records := rest, shifting := false }

/-- nSELn rises before the marked head's last byte: the head stays, unmarked; a marked OVERFLOW takes the late losses
(R139, R140). -/
def EventQueue.unmark (q : EventQueue) : EventQueue :=
  if q.shifting then
    match q.records with
    | [] => { q with shifting := false }
    | e :: rest =>
      if e.kind = .overflow then
        { q with records := e.addLost q.lateLoss :: rest, shifting := false, lateLoss := 0 }
      else { q with shifting := false }
  else q

/-- An event sent to port p: offered only while the session of p is OPEN, otherwise discarded (R136). -/
def sendEvent (s : State) (p : Port) (e : EventRecord) : State :=
  if s.isOpen p then s.setEvents p (s.events[p].offer e) else s

/-- An event sent to the owner of something, if there is one (R22, R26). -/
def sendToOwner (s : State) (owner : Option Port) (e : EventRecord) : State :=
  match owner with
  | some p => sendEvent s p e
  | none => s

/-! ### The queue streams (R112, R139) -/

/-- The frame after a decision that begins a record with the given bytes. -/
def Frame.beginRecord (f : Frame) (bytes : List Byte) : Frame := { f with reply := bytes, replyAt := f.bytesDone }

/-- The frame after a decision that chose the end marker 00h. -/
def Frame.beginEndMarker (f : Frame) : Frame := { f with reply := [0], replyAt := f.bytesDone }

/-- The frame of port p replaced. -/
def setFrame (s : State) (p : Port) (f : Frame) : State := s.setPort p { s.ports[p] with frame := f }

/-- Whether fewer than max records have been removed in this frame (R112). -/
def Frame.mayRemoveMore (f : Frame) : Bool := decide (f.removed < (argByte f.args 0).toNat)

/-- A decision of a TAKE_EVENTS stream on port p (R139). -/
def decideEvents (s : State) (p : Port) : State :=
  let f := s.ports[p].frame
  match s.events[p].records with
  | e :: _ =>
    if f.mayRemoveMore then
      setFrame (s.setEvents p { s.events[p] with shifting := true }) p (f.beginRecord e.bytes)
    else setFrame s p f.beginEndMarker
  | [] => setFrame s p f.beginEndMarker

/-- Whether the last byte of the record begun at the last decision has been shifted out. -/
def Frame.recordShiftedOut (f : Frame) : Bool := decide (f.bytesDone = f.replyAt + f.reply.length)

/-- TAKE_EVENTS's checks, as its max byte completes (R139, R179); a refused stream's filler reply is as long as an end
marker (log 18), an accepted stream's first bytes come from its first decision. -/
def takeEventsReply (p : Port) (args : List Byte) (s : State) : Taken × List Byte :=
  if !s.isOpen p then (.refused .noSession, [0])
  else if argByte args 0 = 0 then (.refused .badArg, [0])
  else (.accepted, [])

/-- The marked event record of the frame of port p is removed, and the next decision is taken (R139, R140). -/
def removeEvent (s : State) (p : Port) : State :=
  let f := s.ports[p].frame
  decideEvents (setFrame (s.setEvents p s.events[p].removeHead) p { f with removed := f.removed + 1 }) p

end Sys2Proof.Machine
end

