-- ==== Sys2Proof/Machine/Scheduler.lean ====
section
/-! DEFINITION. The Scheduler (spec/02): the pending list, withdrawal, the arbiter, the start of a conversion (spec/03, R57), preemption and the return of an abandoned request; the rows PERIOD_TIMER_EXPIRY and TRIGGER_EDGE. -/

namespace Sys2Proof.Machine

/-! ### Requests -/

/-- The class of a slot's requests (R31). -/
def Kind.requestClass (k : Kind) : Class :=
  match k with
  | .triggered => .triggered
  | .periodic | .burst | .listen => .routine

/-- The highest class among subscriber entries: TRIGGERED above ROUTINE above DEMAND (R31). -/
def highestClass (l : List SubEntry) : Class :=
  if l.any fun x => decide (x.cls = .triggered) then .triggered
  else if l.any fun x => decide (x.cls = .routine) then .routine
  else .demand

/-- The class of a pending entry (R30, R31). -/
def PendingEntry.cls (e : PendingEntry) : Class := highestClass e.subs

/-- Whether two entries are of one conversion: the same channel, sample code and averaging (R45). -/
def PendingEntry.sameConversion (a b : PendingEntry) : Bool :=
  decide (a.channel = b.channel) && decide (a.sampleCode = b.sampleCode) && decide (a.avgCode = b.avgCode)

/-- Whether a list of subscriber entries names an origin. -/
def names (l : List SubEntry) (o : Origin) : Bool := l.any fun x => decide (x.origin = o)

/-- A new request of slot n due at a tick joins the pending list, and the slot's pending flag sets (R33, R35, R36, R38). -/
def requestSlot (s : State) (n : SlotNo) (due : Tick) : State :=
  let t := s.slots[n]
  let e : PendingEntry :=
    { channel := t.settings.channel, sampleCode := t.settings.sampleCode, avgCode := t.settings.avgCode
      subs := [{ origin := .slot n, cls := t.settings.kind.requestClass, due := due, overrun := false
                 preempted := false }]
      preemptCount := 0 }
  (s.setRequests (s.requests ++ [e])).setSlot n { t with pendingFlag := true }

/-- Marks the overrun condition in the waiting subscriber entry of an origin (R37). -/
def markOverrun (o : Origin) (l : List PendingEntry) : List PendingEntry :=
  l.map fun e => { e with subs := e.subs.map fun x => if x.origin = o then { x with overrun := true } else x }

/-- The overrun rule for slot n (R37). -/
def overrunSlot (s : State) (n : SlotNo) : State :=
  let t := s.slots[n]
  (s.setRequests (markOverrun (.slot n) s.requests)).setSlot n { t with overrunCount := hold65535 t.overrunCount 1 }

/-! ### Withdrawal (R40) -/

/-- The pending list without the subscriber entries that p picks; an entry left empty leaves the list (R40). -/
def withdrawWhere (p : SubEntry → Bool) (l : List PendingEntry) : List PendingEntry :=
  (l.map fun e => { e with subs := e.subs.filter fun x => !p x }).filter fun e => !e.subs.isEmpty

/-- Whether a subscriber entry has the given origin. -/
def SubEntry.isFrom (o : Origin) (x : SubEntry) : Bool := decide (x.origin = o)

/-- Slot n's subscriber entry is withdrawn from the pending list, and its pending flag clears (R40). -/
def withdrawSlot (s : State) (n : SlotNo) : State :=
  (s.setRequests (withdrawWhere (SubEntry.isFrom (.slot n)) s.requests)).setSlot n
    { s.slots[n] with pendingFlag := false }

/-! ### The arbiter (R42 to R46) and the start of a conversion (R57, R58) -/

/-- The waiting time of an entry's earliest due tick at the selection tick (R43, step 2). -/
def PendingEntry.age (e : PendingEntry) (now : Tick) : Nat := (e.subs.map fun x => elapsed x.due now).foldl max 0

/-- The place of an origin in the tie order: slots by number, then demands by port (R43, step 3). -/
def Origin.tieRank (o : Origin) : Nat :=
  match o with
  | .slot n => n.val
  | .demand p => 32 + p.val

/-- The place of an entry in the tie order: that of its first subscriber in it (R43, step 3). -/
def PendingEntry.tieRank (e : PendingEntry) : Nat := (e.subs.map fun x => x.origin.tieRank).foldl min 36

/-- Whether entry a is chosen before entry b: class, then age, then the tie order (R43). -/
def PendingEntry.beats (now : Tick) (a b : PendingEntry) : Bool :=
  let ta := decide (a.cls = .triggered)
  let tb := decide (b.cls = .triggered)
  if ta ≠ tb then ta
  else if a.age now ≠ b.age now then decide (b.age now < a.age now)
  else decide (a.tieRank < b.tieRank)

/-- The winner of a selection (R43). -/
def winner (now : Tick) (l : List PendingEntry) : Option PendingEntry :=
  match l with
  | [] => none
  | e :: rest => some (rest.foldl (fun w x => if x.beats now w then x else w) e)

/-- The length of SETTLE in ticks (R54, R59). -/
def settleTicks (extraSettle : BitVec 2) : Nat := 2 + 2 * extraSettle.toNat

/-- The length of SAMPLE in ticks (R54, R60). -/
def sampleTicks (sampleCode : BitVec 2) : Nat := 2 ^ sampleCode.toNat

/-- The length of CONVERT in ticks (R54, R61). -/
def convertTicks : Nat := 1

/-- The length of RECOVER in ticks (R54, R71). -/
def recoverTicks : Nat := 1

/-- Whether the phase in progress has run its length, counted in REFCLK periods (R54, R161). -/
def Converter.phaseOver (v : Converter) : Bool :=
  decide (v.phase ≠ .idle) && decide (Config.periodsPerTick * v.phaseTicks ≤ v.phasePeriods)

/-- One more REFCLK period of the phase in progress has run (R54, R161). -/
def Converter.countPeriod (v : Converter) : Converter :=
  if v.phase = .idle then v else { v with phasePeriods := v.phasePeriods + 1 }

/-- The converter enters a phase, of a length in ticks, with its in-flight record (R54). -/
def Converter.enter (v : Converter) (phase : Phase) (ticks : Nat) (record : Option InFlight) : Converter :=
  { v with phase := phase, record := record, phaseTicks := ticks, phasePeriods := 0 }

/-- Whether a conversion of channel c and generation g settles (R58). -/
def settles (identity : Option (Channel × Byte)) (c : Channel) (g : Byte) : Bool := decide (identity ≠ some (c, g))

/-- The in-flight record of a merged set at its start (R46, R57). -/
def newRecord (s : State) (e : PendingEntry) (cls : Class) (count : Nat) (subs : List SubEntry) : InFlight :=
  let v := s.channelView e.channel
  let settle := settles s.conv.identity e.channel v.generation
  { cls := cls, channel := e.channel, sampleCode := e.sampleCode, avgCode := e.avgCode, preemptCount := count
    subs := subs.map fun x => ⟨x, false⟩
    mode := v.mode, span := v.span, extraSettle := v.extraSettle, generation := v.generation
    settleRequired := settle, startTick := if settle then none else some s.now
    repeatsDone := 0, runningSum := 0, clipped := false, reconfigured := false, level := 0 }

/-- The start of the winner's conversion: every entry that matches it is merged in (R45), the entries leave the list, the
named slots' pending flags clear and their in-flight flags set (R46), and the converter settles or samples (R57, R58). -/
def startConversion (s : State) (w : PendingEntry) : State :=
  let group := s.requests.filter fun e => e.sameConversion w
  let rest := s.requests.filter fun e => !e.sameConversion w
  let subs := group.flatMap fun e => e.subs
  let r := newRecord s w (highestClass subs) ((group.map fun e => e.preemptCount).foldl max 0) subs
  ((s.setRequests rest).mapSlots fun n t =>
      if names subs (.slot n) then { t with pendingFlag := false, inFlightFlag := true } else t).setConv
    (if r.settleRequired then s.conv.enter .settle (settleTicks r.extraSettle) (some r)
     else s.conv.enter .sample (sampleTicks r.sampleCode) (some r))

/-- A selection by the arbiter (R42, R43); with an empty list nothing starts. -/
def select (s : State) : State :=
  match winner s.now s.requests with
  | some w => startConversion s w
  | none => s

/-- The arbiter's selection when an entry has arrived at an IDLE converter (R42). -/
def selectIfIdle (s : State) : State := if s.conv.phase = .idle then select s else s

/-! ### Preemption and return (R47 to R51, R70) -/

/-- Slot n, RETIRING, is released: it becomes FREE, and SLOT_RELEASED goes to its owner if still set (R22). -/
def releaseSlot (s : State) (n : SlotNo) : State :=
  (sendToOwner s s.slots[n].owner
    { kind := .slotReleased, subject := BitVec.ofNat 8 n.val, tick := s.now, detail := 0 }).setSlot n Slot.free

/-- The RETIRING slots that a record names, in ascending number (R22, R136). -/
def retiringNamed (s : State) (subs : List SubEntry) : List SlotNo :=
  (List.finRange 32).filter fun n => names subs (.slot n) && decide (s.slots[n].state = .retiring)

/-- Whether an abandoned subscriber entry returns (R27, R48): a slot entry of a RUNNING slot that is not superseded, or a
demand that is not orphaned. -/
def returns (s : State) (x : FlightEntry) : Bool :=
  match x.sub.origin with
  | .slot n => decide (s.slots[n].state = .running) && !x.marked
  | .demand _ => !x.marked

/-- Whether the collision rule meets subscriber entry x: its slot has a newer pending entry of its own (R51). -/
def collides (s : State) (x : SubEntry) : Bool :=
  match x.origin with
  | .slot n => s.slots[n].pendingFlag
  | .demand _ => false

/-- Whether the collision costs an overrun: the slot is PERIODIC (R51). -/
def collisionOverruns (s : State) (x : SubEntry) : Bool :=
  match x.origin with
  | .slot n => collides s x && decide (s.slots[n].settings.kind = .periodic)
  | .demand _ => false

/-- A returned subscriber entry: preempted, and overrun when a PERIODIC slot collides (R50, R51). -/
def returnedSub (s : State) (x : SubEntry) : SubEntry :=
  { x with preempted := true, overrun := x.overrun || collisionOverruns s x }

/-- The return of an abandoned record (R48, R50, R51): the newer entries of colliding slots are removed, the returned
subscriber entries join as one entry with its count raised, and the slots' flags follow. -/
def returnEntry (s : State) (r : InFlight) : State :=
  let back := (r.subs.filter (returns s)).map (·.sub)
  let kept := withdrawWhere (fun x => names (back.filter (collides s)) x.origin) s.requests
  let entry : PendingEntry :=
    { channel := r.channel, sampleCode := r.sampleCode, avgCode := r.avgCode, subs := back.map (returnedSub s)
      preemptCount := r.preemptCount + 1 }
  (s.setRequests (if back.isEmpty then kept else kept ++ [entry])).mapSlots fun n t =>
    let named := names (r.subs.map (·.sub)) (.slot n)
    let returned := names back (.slot n)
    { t with
      inFlightFlag := if named then false else t.inFlightFlag
      pendingFlag := if returned then true else t.pendingFlag
      overrunCount :=
        if returned && t.pendingFlag && decide (t.settings.kind = .periodic) then hold65535 t.overrunCount 1
        else t.overrunCount }

/-- Ends the outstanding demand of every port whose DEMAND entry pick chooses in a record (R41, R116). -/
def endDemands (s : State) (subs : List FlightEntry) (pick : FlightEntry → Bool) : State :=
  { s with sessions := Vector.ofFn fun p =>
      if subs.any fun x => pick x && decide (x.sub.origin = .demand p) then
        { s.sessions[p] with demandOutstanding := false }
      else s.sessions[p] }

/-- The abandonment of the conversion in progress (R48, R70): RECOVER, identity none, the record's entries sorted, the
orphaned demands dropped, the RETIRING slots released. -/
def abandon (s : State) (r : InFlight) : State :=
  let s1 := s.setConv ({ s.conv with identity := none }.enter .recover recoverTicks none)
  let s2 := returnEntry s1 r
  let s3 := endDemands s2 r.subs fun x => x.marked
  (retiringNamed s3 (r.subs.map (·.sub))).foldl releaseSlot s3

/-- The preemption test for a TRIGGERED arrival (R47). -/
def preemptable (c : Converter) : Bool :=
  match c.record with
  | some r =>
    (decide (c.phase = .settle) || decide (c.phase = .sample) || decide (c.phase = .convert))
      && decide (r.cls ≠ .triggered) && decide (r.preemptCount < 3)
  | none => false

/-- The one decision that a trigger edge makes for the converter once its entries are in the list (R36, R47). -/
def edgeDecision (s : State) : State :=
  if s.conv.phase = .idle then select s
  else if preemptable s.conv then
    match s.conv.record with
    | some r => abandon s r
    | none => s
  else s

/-! ### PERIOD_TIMER_EXPIRY (R35) -/

/-- Whether the period timer of a slot is armed (R34). -/
def Slot.timerArmed (t : Slot) : Bool := decide (t.state = .running) && decide (t.settings.kind = .periodic)

/-- The expiry of slot n's period timer (R35): a request or the overrun rule, then next due advances by one period; a
request that arrives in an empty list at an IDLE converter is started (R42). -/
def expirePeriod (s : State) (n : SlotNo) : State :=
  let t := s.slots[n]
  let next := t.nextDue + ticks22 t.settings.period
  if t.pendingFlag then
    let s1 := overrunSlot s n
    s1.setSlot n { s1.slots[n] with nextDue := next }
  else
    let s1 := requestSlot s n t.nextDue
    let s2 := s1.setSlot n { s1.slots[n] with nextDue := next }
    if s.requests.isEmpty then selectIfIdle s2 else s2

/-- Whether the period timer of slot n expires now: armed, with its next due reached (R34, R35, R162). -/
def periodExpires (s : State) (n : SlotNo) : Bool := s.slots[n].timerArmed && reached s.now s.slots[n].nextDue

/-- PERIOD_TIMER_EXPIRY (R34, R35, R162): an armed timer whose next due has been reached expires. -/
def execPeriodTimerExpiry (n : SlotNo) (s : State) : Host.Outcome State Fault Refusal :=
  if periodExpires s n then .next (expirePeriod s n)
  else .refused .timerDoesNotExpire

/-! ### TRIGGER_EDGE (R36) -/

/-- Whether an edge setting qualifies a direction (R3). -/
def EdgeSetting.qualifies (x : EdgeSetting) (d : Direction) : Bool :=
  match x, d with
  | .both, _ => true
  | .rise, .rise => true
  | .fall, .fall => true
  | .rise, .fall => false
  | .fall, .rise => false

/-- Whether an edge counts for a slot: RUNNING, TRIGGERED, on its line, in its direction (R3, R36). -/
def Slot.countsEdge (t : Slot) (e : Edge) : Bool :=
  decide (t.state = .running) && decide (t.settings.kind = .triggered) && decide (t.settings.line = e.line)
    && t.settings.edge.qualifies e.direction

/-- Whether slot t reaches its divider at an edge that counts for it (R3). -/
def Slot.reachesDivider (t : Slot) : Bool := decide (t.edgeCount + 1 = t.settings.divider)

/-- An edge at slot n (R36, steps 1 and 2): its counter advances; at the divider it is set to 0 and a request is added or
the overrun rule applies. -/
def edgeAtSlot (e : Edge) (s : State) (n : SlotNo) : State :=
  let t := s.slots[n]
  if t.countsEdge e then
    if t.reachesDivider then
      let s1 := s.setSlot n { t with edgeCount := 0 }
      if t.pendingFlag then overrunSlot s1 n else requestSlot s1 n e.tick
    else s.setSlot n { t with edgeCount := t.edgeCount + 1 }
  else s

/-- Whether an edge adds at least one entry (R36, step 3). -/
def edgeAdds (e : Edge) (s : State) : Bool :=
  (List.finRange 32).any fun n => s.slots[n].countsEdge e && s.slots[n].reachesDivider && !s.slots[n].pendingFlag

/-- An edge taken whole at the Scheduler (R36). -/
def takeEdge (e : Edge) (s : State) : State :=
  let s1 := (List.finRange 32).foldl (edgeAtSlot e) s
  if edgeAdds e s then edgeDecision s1 else s1

/-- TRIGGER_EDGE (R36, R167): the oldest recognised edge of the line is handed to the Scheduler and taken whole. -/
def execTriggerEdge (line : Line) (s : State) : Host.Outcome State Fault Refusal :=
  match s.timebase.edges.find? fun e => decide (e.line = line) with
  | some e =>
    .next (takeEdge e (s.setTimebase { s.timebase with edges := s.timebase.edges.erase e }))
  | none => .refused .noRecognisedEdge

end Sys2Proof.Machine
end

