-- ==== Sys2Proof/Machine/Delivery.lean ====
section
/-! DEFINITION. The Delivery Unit (spec/05): records, the record pool, the sample queues with hold and drop policy, TAKE_SAMPLES's checks, decisions and removals, and the rows RELEASE_QUEUE and READ_NOW. -/

namespace Sys2Proof.Machine

/-! ### The sample queue (R103 to R107) -/

/-- A new, empty sample queue (R103). -/
def SampleQueue.new (depth watermark : Nat) (policy : DropPolicy) : SampleQueue :=
  { records := [], depth := depth, watermark := watermark, policy := policy, hold := false, pendingGap := 0
    shifting := false }

/-- A record enters as the newest; a pending gap goes with it as GAP (R104, step 2). -/
def SampleQueue.enter (q : SampleQueue) (r : SampleRecord) : SampleQueue :=
  { q with
    records := q.records ++ [if 0 < q.pendingGap then { r with dropped := q.pendingGap } else r]
    pendingGap := 0 }

/-- A record is lost: the pending-gap count goes up by one (R105, R107, R104 step 1). -/
def SampleQueue.lose (q : SampleQueue) : SampleQueue := { q with pendingGap := hold255 q.pendingGap 1 }

/-- The oldest record is removed and the next newer one gains the loss (R106). -/
def dropFirst (l : List SampleRecord) : List SampleRecord :=
  match l with
  | v :: follower :: rest => { follower with dropped := hold255 follower.dropped (1 + v.dropped) } :: rest
  | [_] => []
  | [] => []

/-- DROP_OLDEST makes room: the victim is the oldest record, or the second oldest when the oldest is under the shifting
mark (R106). -/
def SampleQueue.dropVictim (q : SampleQueue) : SampleQueue :=
  match q.shifting, q.records with
  | true, head :: rest => { q with records := head :: dropFirst rest }
  | _, l => { q with records := dropFirst l }

/-- A record offered to a sample queue (R104): hold, space, or the drop policy. holdable says its origin is a slot of kind
PERIODIC, TRIGGERED or LISTEN. -/
def SampleQueue.offer (q : SampleQueue) (holdable : Bool) (r : SampleRecord) : SampleQueue :=
  if q.hold && holdable then q.lose
  else if q.records.length < q.depth then q.enter r
  else
    match q.policy with
    | .dropNewest => q.lose
    | .dropOldest => q.dropVictim.enter r

/-- A record offered to the sample queue of port p, if it has one (R104). -/
def offerRecord (s : State) (p : Port) (holdable : Bool) (r : SampleRecord) : State :=
  match s.queues[p] with
  | some q => s.setQueue p (some (q.offer holdable r))
  | none => s

/-! ### Building records (R98, R99) -/

/-- The delay field: the elapsed time from the due tick to the start tick, at most 65535 (R98). -/
def delayField (due start : Tick) : BitVec 16 := BitVec.ofNat 16 (min 65535 (elapsed due start))

/-- What a completion hands to the blocks (R69). consumers is the count of R94. -/
structure Report where
  channel : Channel
  value : BitVec 12
  generation : Byte
  startTick : Tick
  tick : Tick
  clipped : Bool
  consumers : Nat
  deriving DecidableEq, Repr

/-- The record of a consumer of a completion (R94, R99). -/
def buildRecord (c : Report) (origin : RecordOrigin) (conditions : Conditions) : SampleRecord :=
  { origin := origin, channel := c.channel, value := c.value, timestamp := c.startTick, generation := c.generation
    conditions := conditions, merged := decide (1 < c.consumers), dropped := 0 }

/-- The variant of a served slot's record: a slot record with a delay, or a LISTEN record without (R98, R99). -/
def servedOrigin (c : Report) (n : SlotNo) (t : Slot) (sub : Option SubEntry) : RecordOrigin :=
  match sub with
  | some x => .slot n t.settings.label (delayField x.due c.startTick) t.sequence
  | none => .listen n t.settings.label t.sequence

/-- Whether hold refuses the records of a slot: every kind but BURST (R104, step 1). -/
def Slot.holdable (t : Slot) : Bool := decide (t.settings.kind ≠ .burst)

/-! ### TAKE_SAMPLES (R111 to R113) -/

/-- A decision of a TAKE_SAMPLES stream on port p (R112). -/
def decideSamples (s : State) (p : Port) : State :=
  let f := s.ports[p].frame
  match s.queues[p] with
  | some q =>
    match q.records with
    | r :: _ =>
      if f.mayRemoveMore then
        setFrame (s.setQueue p (some { q with shifting := true })) p (f.beginRecord r.bytes)
      else setFrame s p f.beginEndMarker
    | [] => setFrame s p f.beginEndMarker
  | none => setFrame s p f.beginEndMarker

/-- TAKE_SAMPLES's checks, as its max byte completes (R111, R179); a refused stream's filler reply is as long as an end
marker (log 18), an accepted stream's first bytes come from its first decision. -/
def takeSamplesReply (p : Port) (args : List Byte) (s : State) : Taken × List Byte :=
  if !s.isOpen p then (.refused .noSession, [0])
  else if argByte args 0 = 0 then (.refused .badArg, [0])
  else (.accepted, [])

/-- Whether the head of port p's sample queue is under the shifting mark (R103). -/
def samplesShifting (s : State) (p : Port) : Bool :=
  match s.queues[p] with
  | some q => q.shifting
  | none => false

/-- The marked head leaves the sample queue (R112). -/
def SampleQueue.removeHead (q : SampleQueue) : SampleQueue := { q with records := q.records.tail, shifting := false }

/-- The marked sample record of the frame of port p is removed, and the next decision is taken (R112). -/
def removeSample (s : State) (p : Port) : State :=
  let f := s.ports[p].frame
  decideSamples (setFrame (s.setQueue p (s.queues[p].map (·.removeHead))) p { f with removed := f.removed + 1 }) p

/-! ### RELEASE_QUEUE (R109) -/

/-- RELEASE_QUEUE once the session is known to be OPEN (R109): hold clears, the detail is the pending-gap count. -/
def releaseQueue (p : Port) (s : State) : Done :=
  match s.queues[p] with
  | some q => (s.setQueue p (some { q with hold := false }), ⟨.ok, BitVec.ofNat 8 q.pendingGap⟩)
  | none => (s, ⟨.ok, 0⟩)

/-- RELEASE_QUEUE (R109). -/
def execReleaseQueue (p : Port) (s : State) : Host.Outcome State Fault Refusal :=
  takeSetting p .releaseQueue (fun _ => withSession p (releaseQueue p)) s

/-! ### READ_NOW (R115, R39) -/

/-- A DEMAND request of port p joins the pending list and becomes outstanding (R39). -/
def requestDemand (s : State) (p : Port) (c : Channel) (sampleCode : BitVec 2) (avgCode : BitVec 3) : State :=
  let e : PendingEntry :=
    { channel := c, sampleCode := sampleCode, avgCode := avgCode
      subs := [{ origin := .demand p, cls := .demand, due := s.now, overrun := false, preempted := false }]
      preemptCount := 0 }
  (s.setRequests (s.requests ++ [e])).setSession p { s.sessions[p] with demandOutstanding := true }

/-- READ_NOW after its session check (R115). -/
def readNow (p : Port) (args : List Byte) (s : State) : Done :=
  match readNowArgs (argByte args 0) (argByte args 1) (argByte args 2) with
  | none => refuseWith s .badArg
  | some (c, sampleCode, avgCode) =>
    if s.sessions[p].demandOutstanding then refuseWith s .busy
    else if s.oddPartner c then refuseWith s .inUse
    else
      let s1 := requestDemand s p c sampleCode avgCode
      (if s.requests.isEmpty then selectIfIdle s1 else s1, ⟨.ok, BitVec.ofNat 8 c.val⟩)

/-- READ_NOW (R115). -/
def execReadNow (p : Port) (s : State) : Host.Outcome State Fault Refusal :=
  takeSetting p .readNow (fun args => withSession p (readNow p args)) s

end Sys2Proof.Machine
end

