-- ==== Sys2Proof/Machine/Watches.lean ====
section
/-! DEFINITION. The Watch Unit (spec/06, 6.1 to 6.3): evaluation of a served slot with the actions NOTIFY, HOLD and CAPTURE, and the five watch commands. -/

namespace Sys2Proof.Machine

/-! ### Bursts (R20, R133) -/

/-- A STOPPED BURST slot n starts a burst (R20, R133): RUNNING, burst remaining its burst count, decimation counter 0,
window position NONE, and a ROUTINE request due at the given tick. -/
def startBurstAt (s : State) (n : SlotNo) (due : Tick) : State :=
  let t := s.slots[n]
  requestSlot (s.setSlot n { t with
    state := .running, burstRemaining := t.settings.burstCount, decimationCount := 0, windowPos := .unset }) n due

/-! ### Evaluation (R127 to R134) -/

/-- The detail of WATCH_HIT: the slot, then the flags byte with MERGED and GAP 0 (11.7). -/
def watchHitDetail (n : SlotNo) (c : Conditions) : BitVec 16 := BitVec.ofNat 8 n.val ++ flagsByte c false false

/-- The HOLD action of watch w of port p (R131): hold sets; QUEUE_HELD is sent when it was clear before. -/
def holdAction (s : State) (p : Port) (w : Fin 8) (tick : Tick) : State :=
  match s.queues[p] with
  | some q =>
    let s1 := s.setQueue p (some { q with hold := true })
    if q.hold then s1
    else sendEvent s1 p
      { kind := .queueHeld, subject := BitVec.ofNat 8 w.val, tick := tick, detail := BitVec.ofNat 16 q.records.length }
  | none => s

/-- A CAPTURE_REFUSED event; the reason is 1 for RUNNING and 2 for GONE (R132, 11.7). -/
def captureRefused (w : Fin 8) (b : SlotNo) (tick : Tick) (reason : Byte) : EventRecord :=
  { kind := .captureRefused, subject := BitVec.ofNat 8 w.val, tick := tick, detail := BitVec.ofNat 8 b.val ++ reason }

/-- The CAPTURE action of watch w of port p on capture slot b (R132, R133). -/
def captureAction (s : State) (p : Port) (w : Fin 8) (b : SlotNo) (tick : Tick) : State :=
  let t := s.slots[b]
  if t.owner = some p ∧ t.settings.kind = .burst ∧ t.state = .stopped then startBurstAt s b tick
  else if t.owner = some p ∧ t.settings.kind = .burst ∧ t.state = .running then
    sendEvent s p (captureRefused w b tick 1)
  else sendEvent s p (captureRefused w b tick 2)

/-- The action of a matching watch (R129, step 3). -/
def watchAction (s : State) (p : Port) (w : Fin 8) (x : Watch) (tick : Tick) : State :=
  match x.action with
  | .notify => s
  | .hold => holdAction s p w tick
  | .capture => captureAction s p w x.captureSlot tick

/-- A match of watch w of port p on slot n, carried out in the order of R129. -/
def carryOutMatch (s : State) (p : Port) (w : Fin 8) (n : SlotNo) (tick : Tick) (c : Conditions) : State :=
  let x := s.watches[p][w]
  let s1 := s.setWatch p w { x with hitCount := hold65535 x.hitCount 1 }
  let s2 := sendEvent s1 p
    { kind := .watchHit, subject := BitVec.ofNat 8 w.val, tick := tick, detail := watchHitDetail n c }
  let s3 := watchAction s2 p w x tick
  match x.mode with
  | .once => s3.setWatch p w { s3.watches[p][w] with state := .spent }
  | .repeating => s3

/-- Watch w of port p tested against a conversion of slot n (R127, R128). -/
def testWatch (p : Port) (n : SlotNo) (tick : Tick) (c : Conditions) (s : State) (w : Fin 8) : State :=
  if s.watches[p][w].isMatch n c then carryOutMatch s p w n tick c else s

/-- The evaluation of served slot n of port p: watches 0 to 7 in order, each match carried out before the next test
(R127). -/
def evaluateWatches (s : State) (p : Port) (n : SlotNo) (tick : Tick) (c : Conditions) : State :=
  (List.finRange 8).foldl (testWatch p n tick c) s

/-! ### Watch commands (R120 to R126) -/

/-- The checks of R120 and a command's own part act on watch i; the detail of a success is the index. -/
def onWatch (p : Port) (args : List Byte) (act : Fin 8 → State → Except ResultCode State) (s : State) : Done :=
  withSession p (fun s =>
    match watchOfByte (argByte args 0) with
    | none => refuseWith s .badArg
    | some i =>
      match act i s with
      | .ok s' => (s', ⟨.ok, BitVec.ofNat 8 i.val⟩)
      | .error c => refuseWith s c) s

/-- Whether slot n is an own slot of port p in STOPPED or RUNNING (R121). -/
def ownLive (s : State) (p : Port) (n : SlotNo) : Bool :=
  decide (s.slots[n].owner = some p) && (decide (s.slots[n].state = .stopped) || decide (s.slots[n].state = .running))

/-- The capture slot a WATCH_SET records, or none when step 3 of R121 fails; 0 when the action is not CAPTURE. -/
def captureSlotOf (s : State) (p : Port) (b : WatchBlock) : Option SlotNo :=
  match b.action with
  | .capture =>
    match slotOfByte b.captureByte with
    | some n => if ownLive s p n && decide (s.slots[n].settings.kind = .burst) then some n else none
    | none => none
  | .notify | .hold => some 0

/-- Whether the selector passes step 2 of R121. -/
def selectorOwn (s : State) (p : Port) (x : Selector) : Bool :=
  match x with
  | .anyOwn => true
  | .slot n => ownLive s p n

/-- WATCH_SET of watch i (R121): the block is checked, then the watch is written whole and left DISARMED with hit count 0. -/
def watchSet (p : Port) (args : List Byte) (i : Fin 8) (s : State) : Except ResultCode State :=
  match watchBlock (argByte args 1) (argByte args 2) (argByte args 3) (argByte args 4) (argByte args 5) with
  | none => .error .badArg
  | some b =>
    if !selectorOwn s p b.selector then .error .notOwner
    else
      match captureSlotOf s p b with
      | none => .error .badArg
      | some n =>
        .ok (s.setWatch p i
          { state := .disarmed, selector := b.selector, pattern := b.pattern, mode := b.mode, action := b.action
            captureSlot := n, hitCount := 0 })

/-- WATCH_SET (R121). -/
def execWatchSet (p : Port) (s : State) : Host.Outcome State Fault Refusal :=
  takeSetting p .watchSet (fun args => onWatch p args (watchSet p args)) s

/-- WATCH_ARM of watch i (R122). -/
def watchArm (p : Port) (i : Fin 8) (s : State) : Except ResultCode State :=
  let x := s.watches[p][i]
  if x.state = .empty then .error .badState else .ok (s.setWatch p i { x with state := .armed })

/-- WATCH_ARM (R122). -/
def execWatchArm (p : Port) (s : State) : Host.Outcome State Fault Refusal :=
  takeSetting p .watchArm (fun args => onWatch p args (watchArm p)) s

/-- WATCH_DISARM of watch i (R123). -/
def watchDisarm (p : Port) (i : Fin 8) (s : State) : Except ResultCode State :=
  let x := s.watches[p][i]
  if x.state = .empty then .error .badState else .ok (s.setWatch p i { x with state := .disarmed })

/-- WATCH_DISARM (R123). -/
def execWatchDisarm (p : Port) (s : State) : Host.Outcome State Fault Refusal :=
  takeSetting p .watchDisarm (fun args => onWatch p args (watchDisarm p)) s

/-- WATCH_CLEAR of watch i (R124). -/
def watchClear (p : Port) (i : Fin 8) (s : State) : Except ResultCode State := .ok (s.setWatch p i Watch.empty)

/-- WATCH_CLEAR (R124). -/
def execWatchClear (p : Port) (s : State) : Host.Outcome State Fault Refusal :=
  takeSetting p .watchClear (fun args => onWatch p args (watchClear p)) s

/-- WATCH_READ's checks and reply, as its index byte completes (R126); a refused reply is 9 filler bytes (R172). -/
def watchReadReply (p : Port) (args : List Byte) (s : State) : Taken × List Byte :=
  if !s.isOpen p then (.refused .noSession, List.replicate 9 0)
  else
    match watchOfByte (argByte args 0) with
    | none => (.refused .badArg, List.replicate 9 0)
    | some i => (.accepted, watchReply i s.watches[p][i])

/-- The part of a DELETE of slot n by port p that the Watch Unit takes (R125): ARMED and SPENT watches that select n become
DISARMED. -/
def disarmOnDelete (s : State) (p : Port) (n : SlotNo) : State :=
  s.setWatches p (s.watches[p].map fun x =>
    if x.selector = .slot n ∧ (x.state = .armed ∨ x.state = .spent) then { x with state := .disarmed } else x)

end Sys2Proof.Machine
end

