-- ==== Sys2Proof/Machine/Slots.lean ====
section
/-! DEFINITION. The Subscription Table's seven commands (spec/01, 1.3): INSTALL, MODIFY, DELETE, STOP, RUN, START_BURST, FETCH. -/

namespace Sys2Proof.Machine

/-- A successful slot command on slot n: OK with the slot number as detail (R11). -/
def okSlot (s : State) (n : SlotNo) : Done := (s, ⟨.ok, BitVec.ofNat 8 n.val⟩)

/-- Whether slot n is FREE. -/
def State.isFree (s : State) (n : SlotNo) : Bool := decide (s.slots[n].state = .free)

/-- The lowest-numbered FREE slot (R13). -/
def lowestFree (s : State) : Option SlotNo := (List.finRange 32).find? fun n => s.isFree n

/-- How many slots port p owns in STOPPED or RUNNING (R10). -/
def ownedCount (s : State) (p : Port) : Nat := ((List.finRange 32).filter fun n => ownLive s p n).length

/-- The slot that INSTALL takes, or the refusal of steps 5 and 6 of R12. -/
def installTarget (s : State) (a : SlotArg) : Except ResultCode SlotNo :=
  match a with
  | .any =>
    match lowestFree s with
    | some n => .ok n
    | none => .error .noRoom
  | .number n =>
    match s.slots[n].state with
    | .free => .ok n
    | .retiring => .error .busy
    | .stopped | .running => .error .inUse

/-- The state of a slot after INSTALL (R14): a BURST slot is STOPPED whatever the start setting. -/
def Staged.installState (x : Staged) : SlotState :=
  if x.startRunning && decide (x.settings.kind ≠ .burst) then .running else .stopped

/-- A newly installed slot (R14): next due is set when a PERIODIC slot becomes RUNNING (R2). -/
def installedSlot (p : Port) (now : Tick) (x : Staged) : Slot :=
  { Slot.free with
    state := x.installState, owner := some p, settings := x.settings
    nextDue := if x.installState = .running ∧ x.settings.kind = .periodic then now + ticks22 x.settings.phase else 0 }

/-- INSTALL after its session check (R12 to R14). -/
def install (p : Port) (args : List Byte) (s : State) : Done :=
  match installArg (argByte args 0), stagedOf s.ports[p].staging with
  | some a, some x =>
    if s.oddPartner x.settings.channel then refuseWith s .inUse
    else if Config.slotQuota ≤ ownedCount s p then refuseWith s .quota
    else
      match installTarget s a with
      | .error c => refuseWith s c
      | .ok n => okSlot (s.setSlot n (installedSlot p s.now x)) n
  | _, _ => refuseWith s .badArg

/-- INSTALL (R12). -/
def execInstall (p : Port) (s : State) : Host.Outcome State Fault Refusal :=
  takeSetting p .install (fun args => withSession p (install p args)) s

/-- The checks that every slot command but INSTALL shares: R11, then NOT_OWNER unless the slot is port p's own
(R15, R18 to R21, R23). -/
def onOwnSlot (p : Port) (args : List Byte) (act : SlotNo → State → Done) (s : State) : Done :=
  withSession p (fun s =>
    match slotOfByte (argByte args 0) with
    | none => refuseWith s .badArg
    | some n => if s.isFree n || decide (s.slots[n].owner ≠ some p) then refuseWith s .notOwner else act n s) s

/-- BAD_STATE for a RETIRING slot, the second check of MODIFY, STOP, RUN, START_BURST and DELETE (R15, R18 to R21). -/
def notRetiring (act : SlotNo → State → Done) (n : SlotNo) (s : State) : Done :=
  if s.slots[n].state = .retiring then refuseWith s .badState else act n s

/-! ### MODIFY (R15 to R17) -/

/-- The subscriber entry of slot n in the in-flight record is marked superseded (R16, R66). -/
def supersede (s : State) (n : SlotNo) : State :=
  match s.conv.record with
  | some r =>
    s.setConv { s.conv with record := some { r with
      subs := r.subs.map fun x => if x.sub.origin = .slot n then { x with marked := true } else x } }
  | none => s

/-- The slot after a MODIFY that passed its checks (R16, R17). -/
def modifiedSlot (now : Tick) (x : Settings) (t : Slot) : Slot :=
  let t1 := { t with settings := x, decimationCount := 0, edgeCount := 0, windowPos := .unset }
  if t.state = .running then
    match t.settings.kind with
    | .periodic => { t1 with nextDue := now + ticks22 x.phase }
    | .triggered | .listen => t1
    | .burst => { t1 with state := .stopped, burstRemaining := 0 }
  else t1

/-- A MODIFY of slot n with settings x, its checks passed (R16, R17). -/
def applyModify (s : State) (n : SlotNo) (x : Settings) : State :=
  let s1 := if s.slots[n].pendingFlag then withdrawSlot s n else s
  let s2 := if s.slots[n].inFlightFlag then supersede s1 n else s1
  s2.setSlot n (modifiedSlot s.now x s2.slots[n])

/-- MODIFY of an own slot that is not RETIRING (R15, steps 3 and 4). -/
def modify (p : Port) (n : SlotNo) (s : State) : Done :=
  match stagedOf s.ports[p].staging with
  | none => refuseWith s .badArg
  | some x =>
    if x.settings.kind ≠ s.slots[n].settings.kind then refuseWith s .badArg
    else if s.oddPartner x.settings.channel then refuseWith s .inUse
    else okSlot (applyModify s n x.settings) n

/-- MODIFY (R15, R16). -/
def execModify (p : Port) (s : State) : Host.Outcome State Fault Refusal :=
  takeSetting p .modify (fun args => onOwnSlot p args (notRetiring (modify p))) s

/-! ### STOP (R18) -/

/-- STOP of an own slot that is not RETIRING (R18): a RUNNING slot becomes STOPPED and its pending entry is withdrawn. -/
def stop (n : SlotNo) (s : State) : Done :=
  if s.slots[n].state = .running then
    let s1 := if s.slots[n].pendingFlag then withdrawSlot s n else s
    let t := s1.slots[n]
    okSlot (s1.setSlot n { t with
      state := .stopped, burstRemaining := if t.settings.kind = .burst then 0 else t.burstRemaining }) n
  else okSlot s n

/-- STOP (R18). -/
def execStop (p : Port) (s : State) : Host.Outcome State Fault Refusal :=
  takeSetting p .stop (fun args => onOwnSlot p args (notRetiring stop)) s

/-! ### RUN (R19) -/

/-- A STOPPED slot that RUN puts into RUNNING (R19). -/
def runningSlot (now : Tick) (t : Slot) : Slot :=
  let t1 := { t with state := .running, decimationCount := 0, windowPos := .unset }
  match t.settings.kind with
  | .periodic => { t1 with nextDue := now + ticks22 t.settings.phase }
  | .triggered => { t1 with edgeCount := 0 }
  | .burst | .listen => t1

/-- RUN of an own slot that is not RETIRING (R19). -/
def run (n : SlotNo) (s : State) : Done :=
  let t := s.slots[n]
  if t.settings.kind = .burst then refuseWith s .badState
  else if t.state = .stopped then okSlot (s.setSlot n (runningSlot s.now t)) n
  else okSlot s n

/-- RUN (R19). -/
def execRun (p : Port) (s : State) : Host.Outcome State Fault Refusal :=
  takeSetting p .run (fun args => onOwnSlot p args (notRetiring run)) s

/-! ### START_BURST (R20) -/

/-- START_BURST of an own slot that is not RETIRING (R20); its request starts at once at an IDLE converter with an empty
list (R38, R42). -/
def startBurst (n : SlotNo) (s : State) : Done :=
  let t := s.slots[n]
  if t.settings.kind ≠ .burst ∨ t.state = .running then refuseWith s .badState
  else
    let s1 := startBurstAt s n s.now
    okSlot (if s.requests.isEmpty then selectIfIdle s1 else s1) n

/-- START_BURST (R20). -/
def execStartBurst (p : Port) (s : State) : Host.Outcome State Fault Refusal :=
  takeSetting p .startBurst (fun args => onOwnSlot p args (notRetiring startBurst)) s

/-! ### DELETE (R21) -/

/-- The slot after a DELETE: RETIRING with its owner kept when its conversion is in flight, else FREE (R21). -/
def deletedSlot (t : Slot) : Slot := if t.inFlightFlag then { t with state := .retiring } else Slot.free

/-- DELETE of an own slot of port p that is not RETIRING (R21, R125). -/
def delete (p : Port) (n : SlotNo) (s : State) : Done :=
  let s1 := if s.slots[n].pendingFlag then withdrawSlot s n else s
  okSlot (disarmOnDelete (s1.setSlot n (deletedSlot s1.slots[n])) p n) n

/-- DELETE (R21). -/
def execDelete (p : Port) (s : State) : Host.Outcome State Fault Refusal :=
  takeSetting p .delete (fun args => onOwnSlot p args (notRetiring (delete p))) s

/-! ### FETCH (R23) -/

/-- FETCH of an own slot (R23): the snapshot replaces the whole read buffer. -/
def fetch (p : Port) (n : SlotNo) (s : State) : Done :=
  okSlot (s.setPort p { s.ports[p] with readBuf := snapshot n s.slots[n] }) n

/-- FETCH (R23). -/
def execFetch (p : Port) (s : State) : Host.Outcome State Fault Refusal :=
  takeSetting p .fetch (fun args => onOwnSlot p args (fetch p)) s

end Sys2Proof.Machine
end

