-- ==== Sys2Proof/Machine/Channels.lean ====
section
/-! DEFINITION. The Channel Controller (spec/04): CLAIM, RELEASE, CONFIGURE, READ_CHANNEL, PEEK_LATEST and the update of the latest-sample store. -/

namespace Sys2Proof.Machine

/-- An external channel as a channel of the twenty (R73). -/
def externalChannel (c : Fin 16) : Channel := c.castLE (by decide)

/-- The odd partner of an even external channel, or none for an odd one (R73). -/
def partnerOf (c : Fin 16) : Option (Fin 16) :=
  if h : c.val % 2 = 0 then some ⟨c.val + 1, by omega⟩ else none

/-- The checks that CLAIM and RELEASE share (R76). -/
def onExternal (p : Port) (args : List Byte) (act : Fin 16 → State → Done) (s : State) : Done :=
  withSession p (fun s =>
    match externalOfByte (argByte args 0) with
    | none => refuseWith s .badArg
    | some c => act c s) s

/-- CLAIM of external channel c (R77). -/
def claim (p : Port) (c : Fin 16) (s : State) : Done :=
  let x := s.channels[c]
  if s.oddPartner (externalChannel c) then refuseWith s .inUse
  else if x.holder ≠ none ∧ x.holder ≠ some p then refuseWith s .inUse
  else (s.setChannel c { x with holder := some p }, ⟨.ok, BitVec.ofNat 8 c.val⟩)

/-- CLAIM (R77). -/
def execClaim (p : Port) (s : State) : Host.Outcome State Fault Refusal :=
  takeSetting p .claim (fun args => onExternal p args (claim p)) s

/-- RELEASE of external channel c (R78). -/
def release (p : Port) (c : Fin 16) (s : State) : Done :=
  let x := s.channels[c]
  if x.holder ≠ some p then refuseWith s .notOwner
  else (s.setChannel c { x with holder := none }, ⟨.ok, BitVec.ofNat 8 c.val⟩)

/-- RELEASE (R78). -/
def execRelease (p : Port) (s : State) : Host.Outcome State Fault Refusal :=
  takeSetting p .release (fun args => onExternal p args (release p)) s

/-! ### CONFIGURE (R81 to R83) -/

/-- Whether some slot that is not FREE has channel c (R81, step 3). -/
def channelHasSlot (s : State) (c : Channel) : Bool :=
  (List.finRange 32).any fun n => !s.isFree n && decide (s.slots[n].settings.channel = c)

/-- Whether the odd partner c of a channel to be PAIRED is busy for port p (R81, step 3). -/
def partnerBusy (s : State) (p : Port) (c : Fin 16) : Bool :=
  channelHasSlot s (externalChannel c)
    || (decide (s.channels[c].holder ≠ none) && decide (s.channels[c].holder ≠ some p))

/-- The claim on the odd partner that a change to PAIRED releases (R82, step 3). -/
def releasePartner (s : State) (p : Port) (c : Fin 16) (mode : Mode) : State :=
  match mode, partnerOf c with
  | .paired, some d =>
    if s.channels[d].holder = some p then s.setChannel d { s.channels[d] with holder := none } else s
  | _, _ => s

/-- The report of a change of channel c to the Converter Controller (R56, R67, R82 step 4). -/
def reportChange (v : Converter) (c : Channel) : Converter :=
  { v with
    identity :=
      match v.identity with
      | some (d, g) => if d = c then none else some (d, g)
      | none => none
    record := v.record.map fun r => if r.channel = c then { r with reconfigured := true } else r }

/-- Whether port q owns a slot in STOPPED or RUNNING on channel c (R83). -/
def hasLiveSlotOn (s : State) (q : Port) (c : Channel) : Bool :=
  (List.finRange 32).any fun n => ownLive s q n && decide (s.slots[n].settings.channel = c)

/-- The CHANNEL_CHANGED event of channel c (R83). -/
def channelChanged (c : Fin 16) (tick : Tick) (generation : Byte) : EventRecord :=
  { kind := .channelChanged, subject := BitVec.ofNat 8 c.val, tick := tick, detail := generation.setWidth 16 }

/-- CHANNEL_CHANGED to port q when it is another open session with a live slot on c (R83). -/
def notifyChange (p : Port) (c : Fin 16) (generation : Byte) (s : State) (q : Port) : State :=
  if decide (q ≠ p) && s.isOpen q && hasLiveSlotOn s q (externalChannel c) then
    sendEvent s q (channelChanged c s.now generation)
  else s

/-- A CONFIGURE that changes channel c's record, taken whole (R82). -/
def applyChange (s : State) (p : Port) (c : Fin 16) (mode : Mode) (span : Span) (extra : BitVec 2) : State :=
  let generation := s.channels[c].generation + 1
  let s1 := s.setChannel c { s.channels[c] with
    mode := mode, span := span, extraSettle := extra, generation := generation }
  let s2 := releasePartner s1 p c mode
  let s3 := s2.setConv (reportChange s2.conv (externalChannel c))
  (List.finRange 4).foldl (notifyChange p c generation) s3

/-- CONFIGURE of external channel c to a mode, span and extra settle (R81, R82). -/
def configureChannel (p : Port) (c : Fin 16) (mode : Mode) (span : Span) (extra : BitVec 2) (s : State) : Done :=
  let x := s.channels[c]
  if x.holder ≠ some p then refuseWith s .notOwner
  else if mode = .paired ∧ c.val % 2 = 1 then refuseWith s .badArg
  else if mode = .paired ∧ ((partnerOf c).map (partnerBusy s p)).getD false = true then refuseWith s .inUse
  else if x.mode = mode ∧ x.span = span ∧ x.extraSettle = extra then (s, ⟨.ok, x.generation⟩)
  else (applyChange s p c mode span extra, ⟨.ok, x.generation + 1⟩)

/-- CONFIGURE after its session check (R76, R81). -/
def configure (p : Port) (args : List Byte) (s : State) : Done :=
  match externalOfByte (argByte args 0) with
  | none => refuseWith s .badArg
  | some c =>
    match configOfByte (argByte args 1) with
    | none => refuseWith s .badArg
    | some (mode, span, extra) => configureChannel p c mode span extra s

/-- CONFIGURE (R76, R81, R82). -/
def execConfigure (p : Port) (s : State) : Host.Outcome State Fault Refusal :=
  takeSetting p .configure (fun args => withSession p (configure p args)) s

/-! ### READ_CHANNEL and PEEK_LATEST (R85, R90) -/

/-- READ_CHANNEL's check and reply, as its channel byte completes (R85). -/
def readChannelReply (args : List Byte) (s : State) : Taken × List Byte :=
  match channelOfByte (argByte args 0) with
  | none => (.refused .badArg, List.replicate 4 0)
  | some c => (.accepted, channelReply s c)

/-- PEEK_LATEST's check and reply, as its channel byte completes (R90). -/
def peekLatestReply (args : List Byte) (s : State) : Taken × List Byte :=
  match channelOfByte (argByte args 0) with
  | none => (.refused .badArg, List.replicate 12 0)
  | some c => (.accepted, latestReply s c)

/-! ### The latest-sample store (R87 to R89) -/

/-- The latest-sample entry after a completion (R87, R89). -/
def LatestEntry.update (e : LatestEntry) (c : Report) (producer : Option Port) : LatestEntry :=
  { valid := true, value := c.value, timestamp := c.startTick, generation := c.generation, count := e.count + 1
    producer := producer, clipped := c.clipped }

end Sys2Proof.Machine
end

