-- ==== Sys2Proof/Machine/Converter.lean ====
section
/-! DEFINITION. The Converter Controller (spec/03): the ends of SETTLE, SAMPLE, CONVERT and RECOVER, the transfer, and the completion with its part in every block (R24 to R26, R44, R69, R87, R93). -/

namespace Sys2Proof.Machine

/-! ### The transfer (R62) -/

/-- The span of the transfer in femtovolts: 2.5 V for FULL, 1.25 V for HALF (R62). -/
def Span.femtovolts (x : Span) : Int :=
  match x with
  | .full => 2500000000000000
  | .half => 1250000000000000

/-- A number limited to a code, 0 to 4095 (R62). -/
def limitCode (x : Int) : Nat := min 4095 x.toNat

/-- The code of one repeat from the held level (R62): V for SINGLE, D for PAIRED. Int's / is floor for a positive
divisor. -/
def transfer (mode : Mode) (span : Span) (level : Int) : Nat :=
  match mode with
  | .single => limitCode (level * 4096 / span.femtovolts)
  | .paired => limitCode (2048 + level * 2048 / span.femtovolts)

/-! ### The multiplexer (R59) -/

/-- The level that the multiplexer connects to the converter (R59, R62): AINc against ground for SINGLE, AIN2k minus AIN2k+1
for PAIRED, and the source of an internal channel (R63). -/
def connectedLevel (x : AnalogInputs) (c : Channel) (mode : Mode) : Int :=
  if h : c.val < 16 then
    match mode with
    | .single => x.ain[c.val]
    | .paired => x.ain[c.val] - (if k : c.val + 1 < 16 then x.ain[c.val + 1] else 0)
  else x.internal[c.val - 16]

/-! ### The ends of SETTLE, SAMPLE and CONVERT (R59 to R61) -/

/-- The step of a row that ends a phase with a record: the row's phase is in progress, and its REFCLK periods have all run
(R54, R161). -/
def atPhaseEnd (phase : Phase) (act : InFlight → Host.Outcome State Fault Refusal) (s : State) :
    Host.Outcome State Fault Refusal :=
  match s.conv.record with
  | some r =>
    if s.conv.phase ≠ phase then .refused .converterInAnotherPhase
    else if s.conv.phaseOver then act r
    else .refused .phaseNotAtItsEnd
  | none => .refused .converterInAnotherPhase

/-- SETTLE_END (R59, R60): the first SAMPLE phase begins and stamps the start tick. -/
def execSettleEnd (s : State) : Host.Outcome State Fault Refusal :=
  atPhaseEnd .settle (fun r =>
    .next (s.setConv (s.conv.enter .sample (sampleTicks r.sampleCode) (some { r with startTick := some s.now })))) s

/-- SAMPLE_END (R59, R60): the connected level at the end of the phase is held for CONVERT. -/
def execSampleEnd (inputs : AnalogInputs) (s : State) : Host.Outcome State Fault Refusal :=
  atPhaseEnd .sample (fun r =>
    .next (s.setConv
      (s.conv.enter .convert convertTicks (some { r with level := connectedLevel inputs r.channel r.mode })))) s

/-- The record after one repeat (R61, steps 1 to 3). -/
def InFlight.repeated (r : InFlight) : InFlight :=
  let code := transfer r.mode r.span r.level
  { r with
    runningSum := r.runningSum + code, clipped := r.clipped || decide (code = 0) || decide (code = 4095)
    repeatsDone := r.repeatsDone + 1 }

/-- CONVERT_END (R61): the code joins the sum; with repeats still to do the converter samples again, else it stands at the
end of the last CONVERT phase, which COMPLETION takes (R68, log 4). -/
def execConvertEnd (s : State) : Host.Outcome State Fault Refusal :=
  atPhaseEnd .convert (fun r =>
    if r.repeatsDone < averaging r.avgCode then
      if r.repeated.repeatsDone < averaging r.avgCode then
        .next (s.setConv (s.conv.enter .sample (sampleTicks r.sampleCode) (some r.repeated)))
      else .next (s.setConv { s.conv with record := some r.repeated })
    else .refused .converterInAnotherPhase) s

/-! ### Who a completion counts and serves (R24, R88, R94) -/

/-- Whether slot n is STOPPED or RUNNING. -/
def State.isLive (s : State) (n : SlotNo) : Bool :=
  decide (s.slots[n].state = .stopped) || decide (s.slots[n].state = .running)

/-- The counted subscribers of a record: slot entries neither superseded nor RETIRING, and every DEMAND entry (R88). -/
def counted (s : State) (r : InFlight) : List FlightEntry :=
  r.subs.filter fun x =>
    match x.sub.origin with
    | .slot n => !x.marked && s.isLive n
    | .demand _ => true

/-- The port of a counted subscriber: the slot's owner, or the demanding port (R88). -/
def portOf (s : State) (x : FlightEntry) : Option Port :=
  match x.sub.origin with
  | .slot n => s.slots[n].owner
  | .demand p => some p

/-- The producing port: the lowest port among the counted subscribers, or none (R88). -/
def producingPort (s : State) (r : InFlight) : Option Port :=
  (List.finRange 4).find? fun p => (counted s r).any fun x => decide (portOf s x = some p)

/-- Whether LISTEN slot n is attached at a completion of channel c (R5, R24). -/
def State.isAttached (s : State) (n : SlotNo) (c : Channel) : Bool :=
  decide (s.slots[n].state = .running) && decide (s.slots[n].settings.kind = .listen)
    && decide (s.slots[n].settings.channel = c)

/-- The number of consumers of a conversion (R94). -/
def consumerCount (s : State) (r : InFlight) : Nat :=
  (counted s r).length + ((List.finRange 32).filter fun n => s.isAttached n r.channel).length

/-- How slot n is served at the completion of a record (R24): none when it is not; some (some x) through its subscriber
entry x; some none as an attached LISTEN slot. -/
def servedAs (s : State) (r : InFlight) (n : SlotNo) : Option (Option SubEntry) :=
  match (counted s r).find? fun x => decide (x.sub.origin = .slot n) with
  | some x => some (some x.sub)
  | none => if s.isAttached n r.channel then some none else none

/-- The served slots in ascending number (R24). -/
def servedSlots (s : State) (r : InFlight) : List (SlotNo × Option SubEntry) :=
  (List.finRange 32).filterMap fun n => (servedAs s r n).map fun x => (n, x)

/-- The completion report of a record (R68, R69). -/
def completionReport (s : State) (r : InFlight) : Report :=
  { channel := r.channel, value := BitVec.ofNat 12 (r.runningSum / averaging r.avgCode), generation := r.generation
    startTick := r.startTick.getD s.now, tick := s.now, clipped := r.clipped, consumers := consumerCount s r }

/-! ### A served slot (R25, R26, R93, R97) -/

/-- Whether a served slot produces a record: its decimation counter reaches N (R97). -/
def Slot.producesRecord (t : Slot) : Bool := decide (t.decimationCount + 1 = t.settings.decimation)

/-- A served slot's own fields after sequence, window position and decimation (R25, R95, R97). -/
def Slot.served (t : Slot) (value : BitVec 12) : Slot :=
  { t with
    sequence := t.sequence + 1
    windowPos := newPosition t.settings.window value
    decimationCount := if t.producesRecord then 0 else t.decimationCount + 1 }

/-- Burst accounting for a served slot n (R26). -/
def burstAccounting (s : State) (n : SlotNo) (tick : Tick) : State :=
  let t := s.slots[n]
  if t.settings.kind = .burst ∧ t.state = .running ∧ 0 < t.burstRemaining then
    let s1 := s.setSlot n { t with burstRemaining := t.burstRemaining - 1 }
    if 1 < t.burstRemaining then
      if t.pendingFlag then s1 else requestSlot s1 n tick
    else
      let s2 := if t.pendingFlag then withdrawSlot s1 n else s1
      let s3 := s2.setSlot n { s2.slots[n] with state := .stopped }
      sendToOwner s3 t.owner
        { kind := .burstDone, subject := BitVec.ofNat 8 n.val, tick := tick
          detail := BitVec.ofNat 16 t.settings.burstCount }
  else s

/-- The Delivery Unit's part for a served slot n of port p: the record, if decimation gives one, then the watches
(R93, R97). t is the slot before this conversion. -/
def deliverTo (s : State) (c : Report) (n : SlotNo) (t : Slot) (sub : Option SubEntry) : State :=
  let cond := slotConditions t.settings.window t.windowPos c.value sub c.clipped
  match t.owner with
  | some p =>
    let s1 :=
      if t.producesRecord then
        offerRecord s p t.holdable (buildRecord c (servedOrigin c n (t.served c.value) sub) cond)
      else s
    evaluateWatches s1 p n c.tick cond
  | none => s

/-- One served slot of a completion, in the order of R24. -/
def serveSlot (c : Report) (s : State) (x : SlotNo × Option SubEntry) : State :=
  let t := s.slots[x.1]
  let s1 := s.setSlot x.1 (t.served c.value)
  burstAccounting (deliverTo s1 c x.1 t x.2) x.1 c.tick

/-- The demand record of an entry that is a demand and not orphaned (R116). -/
def serveDemand (c : Report) (s : State) (x : FlightEntry) : State :=
  match x.sub.origin with
  | .slot _ => s
  | .demand p =>
    if x.marked then s
    else offerRecord s p false
      (buildRecord c (.demand (delayField x.sub.due c.startTick)) (demandConditions x.sub c.clipped))

/-! ### COMPLETION (R68) -/

/-- The Converter Controller's own part of a completion (R56, R68). -/
def Converter.completed (r : InFlight) : Converter :=
  { phase := .idle, record := none, phaseTicks := 0, phasePeriods := 0
    identity := if r.reconfigured then none else some (r.channel, r.generation) }

/-- The in-flight flags of a completed record's slots clear (R33, R44). -/
def clearInFlight (s : State) (r : InFlight) : State :=
  s.mapSlots fun n t => if names (r.subs.map (·.sub)) (.slot n) then { t with inFlightFlag := false } else t

/-- A completion taken whole, but for the arbiter's selection (R44, R69): the latest-sample entry, the served slots in
ascending number, the demand record, the end of its demands, and the release of RETIRING slots. -/
def complete (s : State) (r : InFlight) : State :=
  let c := completionReport s r
  let s1 := s.setConv (Converter.completed r)
  let s2 := s1.setLatest r.channel (s.latest[r.channel].update c (producingPort s r))
  let s3 := clearInFlight s2 r
  let s4 := (servedSlots s r).foldl (serveSlot c) s3
  let s5 := r.subs.foldl (serveDemand c) s4
  let s6 := endDemands s5 r.subs fun _ => true
  (retiringNamed s6 (r.subs.map (·.sub))).foldl releaseSlot s6

/-- COMPLETION (R68): the end of the last CONVERT phase; the arbiter then selects (R44). -/
def execCompletion (s : State) : Host.Outcome State Fault Refusal :=
  atPhaseEnd .convert (fun r =>
    if r.repeatsDone = averaging r.avgCode then .next (select (complete s r)) else .refused .converterInAnotherPhase) s

/-! ### RECOVER_END (R71) -/

/-- RECOVER_END (R71): the converter enters IDLE, and the arbiter selects at once when the list is not empty (R42). -/
def execRecoverEnd (s : State) : Host.Outcome State Fault Refusal :=
  if s.conv.phase ≠ .recover then .refused .converterInAnotherPhase
  else if s.conv.phaseOver then .next (select (s.setConv (s.conv.enter .idle 0 s.conv.record)))
  else .refused .phaseNotAtItsEnd

end Sys2Proof.Machine
end

