-- ==== Sys2Proof/Machine/Sessions.lean ====
section
/-! DEFINITION. The Session Controller (spec/07): the session end with every block's part in it (R28, R40, R41, R91, R117, R143, R180, R190), and the rows OPEN, CLOSE and LEASE_EXPIRY. -/

namespace Sys2Proof.Machine

/-! ### The session end, block by block (R155) -/

/-- Whether a subscriber entry is port p's: of a slot that p owns, or p's demand (R40). -/
def ownedBy (s : State) (p : Port) (x : SubEntry) : Bool :=
  match x.origin with
  | .slot n => decide (s.slots[n].owner = some p)
  | .demand q => decide (q = p)

/-- Whether port p's demand is in the pending list (R40). -/
def demandWaiting (s : State) (p : Port) : Bool := s.requests.any fun e => names e.subs (.demand p)

/-- A slot at the end of the session of port p (R28). -/
def slotAtSessionEnd (p : Port) (t : Slot) : Slot :=
  if t.owner = some p then
    match t.state with
    | .stopped | .running =>
      if t.inFlightFlag then { t with state := .retiring, owner := none, pendingFlag := false } else Slot.free
    | .retiring | .free => { t with owner := none }
  else t

/-- Port p's demand in the in-flight record becomes orphaned (R41, R66). -/
def orphan (p : Port) (r : InFlight) : InFlight :=
  { r with subs := r.subs.map fun x => if x.sub.origin = .demand p then { x with marked := true } else x }

/-- Whether the session end makes the frame of port p DEAD (R180). -/
def Frame.becomesDead (f : Frame) : Bool :=
  decide (f.state ≠ .idle) && !f.startUp && f.sessionNoted
    && (match f.command with
        | some c => c.needsSession
        | none => false)

/-- The frame at a session end (R180). The bit on SDOn has been driven and stays until the next falling edge of SCKn; every
later bit is 0 (R173). -/
def Frame.atSessionEnd (f : Frame) : Frame := if f.becomesDead then { f with state := .dead } else f

/-- The port at a session end (R190): the frame, the staging record and the read buffer. -/
def endPort (s : State) (p : Port) : State :=
  s.setPort p { s.ports[p] with
    staging := stagingDefaults, readBuf := readBufferZero, frame := s.ports[p].frame.atSessionEnd }

/-- The Scheduler's part (R40): port p's subscriber entries leave the pending list; a withdrawn demand is no longer
outstanding. -/
def endRequests (s : State) (p : Port) : State :=
  (s.setRequests (withdrawWhere (ownedBy s p) s.requests)).setSession p
    { s.sessions[p] with demandOutstanding := s.sessions[p].demandOutstanding && !demandWaiting s p }

/-- The Converter Controller's part (R41, R66). -/
def endFlight (s : State) (p : Port) : State := s.setConv { s.conv with record := s.conv.record.map (orphan p) }

/-- The Channel Controller's part (R91): every claim of port p is released. -/
def endClaims (s : State) (p : Port) : State :=
  s.mapChannels fun x => if x.holder = some p then { x with holder := none } else x

/-- The Delivery Unit's part (R117): the queue is discarded and its cells return. -/
def endQueue (s : State) (p : Port) : State :=
  match s.queues[p] with
  | some q => (s.setUnreserved (s.unreserved + q.depth)).setQueue p none
  | none => s

/-- The Watch Unit's and the Event Unit's part (R143). -/
def endWatches (s : State) (p : Port) : State :=
  (s.setWatches p (Vector.replicate 8 Watch.empty)).setEvents p EventQueue.empty

/-- The session record after a session end, given the state it takes (R153, R156). -/
def endRecord (s : State) (p : Port) (after : SessionState) : State :=
  s.setSession p { s.sessions[p] with state := after, lease := 0, expiry := none }

/-- The session end of port p (R155, R156). -/
def sessionEnd (s : State) (p : Port) (after : SessionState) : State :=
  let s1 := endRequests s p
  let s2 := endFlight s1 p
  let s3 := s2.mapSlots fun _ t => slotAtSessionEnd p t
  let s4 := endClaims s3 p
  let s5 := endQueue s4 p
  let s6 := endWatches s5 p
  let s7 := endPort s6 p
  endRecord s7 p after

/-! ### OPEN (R148, R149) -/

/-- An accepted OPEN of port p (R101, R149). -/
def openAccepted (s : State) (p : Port) (a : OpenArgs) : State :=
  let s1 := (s.setUnreserved (s.unreserved - a.depth)).setQueue p
    (some (SampleQueue.new a.depth a.watermark a.policy))
  let s2 := s1.setSession p { s.sessions[p] with
    state := .opened, lease := a.lease
    expiry := some (s.now + BitVec.ofNat 32 (a.lease.toNat * Config.leaseUnitTicks)) }
  s2.setPort p { s.ports[p] with staging := stagingDefaults, readBuf := readBufferZero }

/-- OPEN's checks in order, and its act (R148). -/
def openCommand (p : Port) (args : List Byte) (s : State) : Done :=
  if s.isOpen p then refuseWith s .badState
  else
    match openArgs (argByte args 0) (argByte args 1) (argByte args 2) (argByte args 3) with
    | none => refuseWith s .badArg
    | some a =>
      if s.unreserved < a.depth then refuseWith s .noRoom
      else (openAccepted s p a, ⟨.ok, BitVec.ofNat 8 p.val⟩)

/-- OPEN (R148). -/
def execOpen (p : Port) (s : State) : Host.Outcome State Fault Refusal := takeSetting p .openSession (openCommand p) s

/-! ### CLOSE (R151) -/

/-- CLOSE of an OPEN session (R151). -/
def close (p : Port) (s : State) : Done := (sessionEnd s p .closed, ⟨.ok, 0⟩)

/-- CLOSE (R151). -/
def execClose (p : Port) (s : State) : Host.Outcome State Fault Refusal :=
  takeSetting p .closeSession (fun _ => withSession p (close p)) s

/-! ### LEASE_EXPIRY (R153) -/

/-- Whether the lease timer of port p expires now: armed, with its expiry tick reached (R152, R153, R162). -/
def leaseExpires (s : State) (p : Port) : Bool :=
  match s.sessions[p].expiry with
  | some d => s.isOpen p && reached s.now d
  | none => false

/-- LEASE_EXPIRY (R153). -/
def execLeaseExpiry (p : Port) (s : State) : Host.Outcome State Fault Refusal :=
  if leaseExpires s p then .next (sessionEnd s p .lapsed) else .refused .timerDoesNotExpire

end Sys2Proof.Machine
end

