-- ==== Sys2Proof/Machine/Timebase.lean ====
section
/-! DEFINITION. The Timebase and the reset of the part (spec/08, R193): REFCLK edges with the prescaler, the tick counter, the edge detectors and the nRST sampler; hub reset, its release, start-up; and READ_TIME. -/

namespace Sys2Proof.Machine

/-! ### The edge detectors (R165, R166, R169) -/

/-- The direction of a change to a level (R166). -/
def directionTo (level : Level) : Direction :=
  match level with
  | .high => .rise
  | .low => .fall

/-- Whether a sample completes the recognition of a change: it differs, with change count 2 (R165). -/
def Detector.recognises (d : Detector) (level : Level) : Bool := decide (level ≠ d.level) && decide (2 ≤ d.changes)

/-- A detector after a sample outside start-up (R165). -/
def Detector.sample (d : Detector) (level : Level) : Detector :=
  if level = d.level then { d with changes := 0 }
  else if d.recognises level then { level := level, changes := 0 }
  else { d with changes := d.changes + 1 }

/-- A detector after a sample in start-up: it follows its line (R169). -/
def Detector.follow (level : Level) : Detector := { level := level, changes := 0 }

/-- The edge that a sample makes a detector recognise, if any (R166). -/
def Detector.edge (d : Detector) (line : Line) (level : Level) (tick : Tick) : List Edge :=
  if d.recognises level then [{ line := line, direction := directionTo level, tick := tick }] else []

/-! ### The prescaler and the tick counter (R161) -/

/-- Whether this REFCLK edge advances the tick counter: the prescaler passes from 15 to 0 (R161). -/
def Timebase.ticks (t : Timebase) : Bool := decide (15 ≤ t.prescaler)

/-- The prescaler and tick counter after a REFCLK edge outside start-up (R161). -/
def Timebase.count (t : Timebase) : Timebase :=
  if t.ticks then { t with prescaler := 0, tick := t.tick + 1 } else { t with prescaler := t.prescaler + 1 }

/-- The tick that an edge recognised at this REFCLK edge carries; before says which value, when the counter advances at the
same REFCLK edge (R166, log 10). -/
def Timebase.edgeTick (t : Timebase) (before : Bool) : Tick :=
  if t.ticks && !before then t.tick + 1 else t.tick

/-- The Timebase after a REFCLK edge outside start-up (R161, R165, R166). -/
def Timebase.runEdge (t : Timebase) (trga trgb : Level) (before : Bool) : Timebase :=
  { t.count with
    detectorA := t.detectorA.sample trga
    detectorB := t.detectorB.sample trgb
    edges := t.edges ++ t.detectorA.edge .a trga (t.edgeTick before) ++ t.detectorB.edge .b trgb (t.edgeTick before) }

/-- The Timebase after a REFCLK edge in start-up: the counters are held (R169). -/
def Timebase.startUpEdge (t : Timebase) (trga trgb : Level) : Timebase :=
  { t with detectorA := Detector.follow trga, detectorB := Detector.follow trgb }

/-- Whether this REFCLK edge both advances the tick counter and recognises an edge (log 10). -/
def Timebase.edgeAtIncrement (t : Timebase) (trga trgb : Level) : Bool :=
  t.ticks && (t.detectorA.recognises trga || t.detectorB.recognises trgb)

/-! ### REFCLK_RISING_EDGE -/

/-- The run of nRST low samples after one more sample (R168, R193; log 15). -/
def Hub.sampleNrst (h : Hub) (nrst : Level) : Nat :=
  match nrst with
  | .low => min Config.nrstSamples (h.nrstLow + 1)
  | .high => 0

/-- Whether a REFCLK edge that samples nRST begins a hub reset: it takes the fourth low sample in a row, and nRST does not
hold the hub already (R168, R193). -/
def Hub.resetsAt (h : Hub) (nrst : Level) : Bool :=
  decide (h.sampleNrst nrst = Config.nrstSamples) && !h.nrstHold

/-- Whether a reset cause holds the hub (R168, R181). -/
def Hub.held (h : Hub) : Bool := h.supplyHold || h.nrstHold

/-- REFCLK outside reset and start-up (R161, R165): the Timebase runs, and a period of the converter's phase has run. -/
def refclkRunning (s : State) (trga trgb : Level) : State :=
  let t := s.timebase
  let s1 := (s.setTimebase (t.runEdge trga trgb (Config.edgeTickBeforeIncrement s.free))).setConv s.conv.countPeriod
  if t.edgeAtIncrement trga trgb then s1.useFree else s1

/-- REFCLK in start-up (R169). -/
def refclkStartUp (s : State) (trga trgb : Level) : State :=
  (s.setHub { s.hub with startCount := s.hub.startCount + 1 }).setTimebase (s.timebase.startUpEdge trga trgb)

/-! ### HUB_RESET and RESET_RELEASE (R168, R181, R193) -/

/-- The Timebase at a hub reset: the detectors keep their recognised levels (R168, log 11). -/
def Timebase.atReset (t : Timebase) : Timebase :=
  { prescaler := 0, tick := 0, detectorA := { t.detectorA with changes := 0 }
    detectorB := { t.detectorB with changes := 0 }, edges := [] }

/-- The hub's own condition at a hub reset of a cause (R168). -/
def Hub.atReset (h : Hub) (cause : ResetCause) : Hub :=
  { supplyHold := h.supplyHold || decide (cause = .supply), nrstHold := h.nrstHold || decide (cause = .nrst)
    startUp := false, startCount := 0, nrstLow := h.nrstLow }

/-- A hub reset (R29, R53, R72, R92, R118, R144, R158, R168, R183): every block takes its hub-reset values; what is not the
hub's to reset (the nSEL and SCK inputs, the nRST sampler) and what is the model's (the free counter, the queue) stays. -/
def hubReset (s : State) (cause : ResetCause) : State :=
  { State.reset with
    hub := s.hub.atReset cause
    timebase := s.timebase.atReset
    ports := s.ports.map fun x => PortState.atReset x.nsel x.sck
    free := s.free
    pending := s.pending }

/-- Whether the 3,200 periods of start-up have run, so that its end is taken before the next REFCLK edge (R169, log 23). -/
def Hub.startUpEndDue (h : Hub) : Bool := !h.held && h.startUp && decide (Config.startUpPeriods ≤ h.startCount)

/-- Whether an armed timer's tick has been reached: a lease timer's or a period timer's (R162). -/
def timerDue (s : State) : Bool :=
  ((List.finRange 4).any fun p => leaseExpires s p) || (List.finRange 32).any fun n => periodExpires s n

/-- What the hub does before its next REFCLK edge, none when nothing is due: the end of start-up (R169), the release by an
nRST that is high at the edge (R168), the hand-over of a recognised edge (R167), the expiry of a timer (R162), and the end
of the converter's phase (R161). -/
def dueBeforeRefclk (s : State) (nrst : Level) : Option Refusal :=
  if s.hub.startUpEndDue then some .startUpEndComesFirst
  else if s.hub.nrstHold ∧ nrst = .high then some .resetReleaseComesFirst
  else if s.hub.held ∨ s.hub.startUp then none
  else if s.timebase.edges ≠ [] then some .edgeComesFirst
  else if timerDue s then some .expiryComesFirst
  else if s.conv.phaseOver then some .phaseEndComesFirst
  else none

/-- The hub reset that begins at the REFCLK edge with the fourth low sample of nRST (R168, R193). -/
def nrstReset (s : State) : State := hubReset (s.setHub { s.hub with nrstLow := Config.nrstSamples }) .nrst

/-- REFCLK_RISING_EDGE (R161, R162, R165, R167, R168, R169, R193): it comes after what the hub does before it. nRST is sampled
always, and its fourth low sample in a row begins a hub reset at this very edge; else the Timebase runs, or start-up
advances, or the hub is held and nothing else moves. -/
def execRefclkRisingEdge (trga trgb nrst : Level) (s : State) : Host.Outcome State Fault Refusal :=
  let s1 := s.setHub { s.hub with nrstLow := s.hub.sampleNrst nrst }
  match dueBeforeRefclk s nrst with
  | some x => .refused x
  | none =>
    if s.hub.resetsAt nrst then .next (nrstReset s)
    else if s.hub.held then .next s1
    else if s.hub.startUp then .next (refclkStartUp s1 trga trgb)
    else .next (refclkRunning s1 trga trgb)

/-- HUB_RESET (R168, R193): a supply below the threshold resets at any time; nRST resets at its fourth low sample, which
this row takes itself: it names the REFCLK edge that execRefclkRisingEdge takes as a reset (log 5). -/
def execHubReset (cause : ResetCause) (s : State) : Host.Outcome State Fault Refusal :=
  match cause with
  | .supply => .next (hubReset s .supply)
  | .nrst =>
    match dueBeforeRefclk s .low with
    | some x => .refused x
    | none => if s.hub.resetsAt .low then .next (nrstReset s) else .refused .resetNotRecognised

/-- Start-up begins when the last cause has ended (R168, R169, log 14). -/
def Hub.beginIfFree (h : Hub) : Hub := if h.held then h else { h with startUp := true, startCount := 0 }

/-- RESET_RELEASE (R168): the cause that held the hub ends; with no cause left, start-up begins. -/
def execResetRelease (cause : ResetCause) (s : State) : Host.Outcome State Fault Refusal :=
  match cause with
  | .supply =>
    if s.hub.supplyHold then .next (s.setHub { s.hub with supplyHold := false }.beginIfFree)
    else .refused .notHeldByThisCause
  | .nrst =>
    if s.hub.nrstHold then .next (s.setHub { s.hub with nrstHold := false, nrstLow := 0 }.beginIfFree)
    else .refused .notHeldByThisCause

/-! ### END_OF_START_UP (R170) -/

/-- END_OF_START_UP (R169, R170): the 3,200 periods have run; the counters and detectors are released. -/
def execEndOfStartUp (s : State) : Host.Outcome State Fault Refusal :=
  if s.hub.startUp ∧ s.hub.held = false ∧ s.hub.startCount = Config.startUpPeriods then
    .next (s.setHub { s.hub with startUp := false })
  else .refused .startUpNotAtItsEnd

/-! ### READ_TIME (R164) -/

/-- Whether the first bit of byte 3 of a READ_TIME frame is the next bit to be driven (R164). -/
def Frame.timeIsDue (f : Frame) : Bool :=
  decide (f.state = .reply) && decide (f.command = some .readTime) && decide (f.taken = .no) && decide (f.bytesDone = 3)
    && decide (f.bits = 0)

/-- The tick counter is sampled as byte 3 of a READ_TIME frame starts; bytes 3 to 6 carry that value (R164). -/
def sampleTime (s : State) (p : Port) : State :=
  setFrame s p { s.ports[p].frame with taken := .accepted, reply := bytes4 s.now, replyAt := 3 }

end Sys2Proof.Machine
end

