-- ==== Sys2Proof/Machine/Ports.lean ====
section
/-! DEFINITION. Master Ports and Frames (spec/09): the fall of nSELn, the edges of SCKn, the frame ends that belong to the port itself, the streaming commands, the staging record and the read buffer. -/

namespace Sys2Proof.Machine

/-! ### FRAME_START (R171, R172, R174, R181, R182) -/

/-- The frame that a fall of nSELp begins: HEAD, with the status byte and the result register as they stand, and the first
bit of the status byte on SDOp (R171, R173, R174). -/
def newFrame (s : State) (p : Port) : Frame :=
  { Frame.idle with
    state := .head, startUp := s.hub.startUp, status := s.statusByte p, resultAtFall := s.ports[p].result }.driveBit

/-- FRAME_START (R174): nSELp falls. A held hub takes no frame (R181). -/
def execFrameStart (p : Port) (s : State) : Host.Outcome State Fault Refusal :=
  let x := s.ports[p]
  if x.nsel = .low then .refused .selectAlreadyLow
  else if s.hub.held then .next (s.setPort p { x with nsel := .low })
  else .next (s.setPort p { x with nsel := .low, frame := newFrame s p })

/-! ### The completion of a byte (R172, R173, R176) -/

/-- The frame state after byte 0 completes with code b, or after the last argument byte (R172). -/
def stateAfterArguments (c : Command) : FrameState :=
  match c.kind with
  | .streaming => .reply
  | .nop | .setting => .spill

/-- The frame state that byte 0 leads to (R172, R176, R182). -/
def stateAfterHead (startUp : Bool) (b : Byte) : FrameState :=
  if startUp then .spill
  else
    match Command.ofCode b with
    | none => .spill
    | some c => if c.argCount = 0 then stateAfterArguments c else .arguments

/-- Byte 0 completes: the port decodes it and notes whether the session is OPEN (R176). -/
def Frame.decodeHead (f : Frame) (b : Byte) (opened : Bool) : Frame :=
  { f with code := some b, bytesDone := 1, sessionNoted := opened, state := stateAfterHead f.startUp b }

/-- An argument byte completes (R172). -/
def Frame.receiveArgument (f : Frame) (b : Byte) : Frame :=
  let g := { f with args := f.args ++ [b], bytesDone := f.bytesDone + 1 }
  match f.command with
  | some c => if c.argCount ≤ g.args.length then { g with state := stateAfterArguments c } else g
  | none => g

/-- Whether the frame of port p streams a record under the shifting mark (R103, R137). -/
def streamsRecord (s : State) (p : Port) : Bool :=
  match s.ports[p].frame.command with
  | some .takeSamples => samplesShifting s p
  | some .takeEvents => s.events[p].shifting
  | _ => false

/-- Whether the reply of the frame of port p, which begins at byte 3, is exhausted (R172). -/
def replyExhausted (s : State) (p : Port) : Bool :=
  let f := s.ports[p].frame
  decide (f.taken ≠ .no) && !streamsRecord s p && decide (3 < f.bytesDone)
    && decide (f.replyAt + f.reply.length ≤ f.bytesDone)

/-- REPLY passes to SPILL when the reply is exhausted (R172). -/
def spillIfExhausted (s : State) (p : Port) : State :=
  if replyExhausted s p then setFrame s p { s.ports[p].frame with state := .spill } else s

/-- READ_BUFFER's checks and reply, as its offset byte completes (R187; log 18 for a refused reply's length). -/
def readBufferReply (p : Port) (args : List Byte) (s : State) : Taken × List Byte :=
  let offset := (argByte args 0).toNat
  if !s.isOpen p then (.refused .noSession, List.replicate (32 - offset) 0)
  else if 31 < offset then (.refused .badArg, List.replicate (32 - offset) 0)
  else (.accepted, s.ports[p].readBuf.toList.drop offset)

/-- The checks of a streaming command and its reply, as its last argument byte completes (R179): the failing code with a filler
reply, or the accepted reply bytes. READ_TIME, which has no argument, is taken later (R164). -/
def streamReply (c : Command) (p : Port) (args : List Byte) (s : State) : Taken × List Byte :=
  match c with
  | .readBuffer => readBufferReply p args s
  | .takeSamples => takeSamplesReply p args s
  | .takeEvents => takeEventsReply p args s
  | .peekLatest => peekLatestReply args s
  | .readChannel => readChannelReply args s
  | .watchRead => watchReadReply p args s
  | _ => (.no, [])

/-- Streaming command c of the frame of port p is taken (R85, R90, R111, R126, R139, R179, R187). -/
def takeStreaming (s : State) (p : Port) (c : Command) : State :=
  let f := s.ports[p].frame
  let r := streamReply c p f.args s
  setFrame s p { f with taken := r.1, reply := r.2, replyAt := 3 }

/-- An argument byte of the frame of port p completes; with the last of them a streaming command is taken (R172, R179). -/
def completeArgument (s : State) (p : Port) (b : Byte) : State :=
  let g := s.ports[p].frame.receiveArgument b
  let t := setFrame s p g
  match g.state, g.command with
  | .reply, some c => takeStreaming t p c
  | _, _ => t

/-- The marked record whose last byte has been shifted out is removed, and the next decision is taken (R112, R139). -/
def removeRecord (s : State) (p : Port) : State :=
  match s.ports[p].frame.command with
  | some .takeSamples => removeSample s p
  | some .takeEvents => removeEvent s p
  | _ => s

/-- A byte of the reply of port p completes: the last byte of a marked record removes it, any other byte may exhaust the
reply (R112, R139, R172). -/
def completeReplyByte (s : State) (p : Port) : State :=
  let f := s.ports[p].frame
  let t := setFrame s p { f with bytesDone := f.bytesDone + 1 }
  if streamsRecord t p && t.ports[p].frame.recordShiftedOut then removeRecord t p else spillIfExhausted t p

/-- Byte b of the frame of port p completes (R172, R176). -/
def completeByte (s : State) (p : Port) (b : Byte) : State :=
  let f := s.ports[p].frame
  match f.state with
  | .idle => s
  | .head => setFrame s p (f.decodeHead b (s.isOpen p))
  | .arguments => completeArgument s p b
  | .reply => completeReplyByte s p
  | .spill | .dead => setFrame s p { f with bytesDone := f.bytesDone + 1 }

/-! ### BYTE_COMPLETION: the edges of SCKp (R171) -/

/-- s with the pin SCKp at a level. -/
def setClock (s : State) (p : Port) (x : Level) : State := s.setPort p { s.ports[p] with sck := x }

/-- A byte with one more bit shifted in, the newest lowest: the most significant bit comes first (R171). -/
def shiftBit (b : Byte) (sdi : Level) : Byte := b.extractLsb' 0 7 ++ BitVec.ofBool (decide (sdi = .high))

/-- A rising edge of SCKp in a frame: SDIp is sampled, and the byte completes at the 8th (R171). -/
def sampleBit (s : State) (p : Port) (sdi : Level) : State :=
  let f := s.ports[p].frame
  let b := shiftBit f.shiftIn sdi
  if f.bits < 7 then setFrame s p { f with bits := f.bits + 1, shiftIn := b }
  else completeByte (setFrame s p { f with bits := 0, shiftIn := 0 }) p b

/-- The first decision of a queue stream, taken at the falling edge that starts byte 3 (R112, R139, R171). -/
def firstDecision (s : State) (p : Port) : State :=
  let f := s.ports[p].frame
  if f.state = .reply ∧ f.bytesDone = 3 ∧ f.bits = 0 ∧ f.taken = .accepted then
    match f.command with
    | some .takeSamples => decideSamples s p
    | some .takeEvents => decideEvents s p
    | _ => s
  else s

/-- A falling edge of SCKp in a frame: what is due as the byte starts is done, and the next bit is driven onto SDOp
(R112, R139, R164, R171). -/
def startBit (s : State) (p : Port) : State :=
  let s1 := if s.ports[p].frame.timeIsDue then sampleTime s p else firstDecision s p
  setFrame s1 p s1.ports[p].frame.driveBit

/-- A rising edge of SCKp: the pin is high, and a frame samples SDIp; an IDLE port ignores the edge (R171, R172). -/
def clockRise (s : State) (p : Port) (sdi : Level) : State :=
  let t := setClock s p .high
  if s.ports[p].frame.state = .idle then t else sampleBit t p sdi

/-- A falling edge of SCKp: the pin is low, and a frame drives SDOp; an IDLE port ignores the edge (R171, R172). -/
def clockFall (s : State) (p : Port) : State :=
  let t := setClock s p .low
  if s.ports[p].frame.state = .idle then t else startBit t p

/-- BYTE_COMPLETION (R171, R172, R173, R176): an edge of SCKp. A rising edge samples SDIp and completes a byte at the 8th,
with all that R112, R139 and R179 put at that moment; a falling edge drives SDOp; an IDLE port ignores both. -/
def execByteCompletion (p : Port) (edge : SckEdge) (s : State) : Host.Outcome State Fault Refusal :=
  match edge with
  | .rise sdi => if s.ports[p].sck = .high then .refused .clockAlreadyHigh else .next (clockRise s p sdi)
  | .fall => if s.ports[p].sck = .low then .refused .clockAlreadyLow else .next (clockFall s p)

/-! ### Rows that name one edge of SCKp, which BYTE_COMPLETION takes as well (log 5) -/

/-- Whether the next rising edge of SCKp completes the last argument byte of streaming command c (R171, R179). -/
def Frame.takesNext (f : Frame) (c : Command) : Bool :=
  decide (f.state = .arguments) && decide (f.command = some c) && decide (7 ≤ f.bits)
    && decide (c.argCount ≤ f.args.length + 1)

/-- The step of a streaming command: the rising edge that completes its last argument byte (R179). -/
def atTakingEdge (c : Command) (e : RisingEdge) (s : State) : Host.Outcome State Fault Refusal :=
  if s.ports[e.port].sck = .low ∧ s.ports[e.port].frame.takesNext c then .next (clockRise s e.port e.sdi)
  else .refused .notAtTakingPoint

/-- READ_BUFFER (R187). -/
def execReadBuffer (e : RisingEdge) (s : State) : Host.Outcome State Fault Refusal :=
  atTakingEdge .readBuffer e s

/-- TAKE_SAMPLES (R111): its checks; its first decision is taken as byte 3 starts (R112, startBit). -/
def execTakeSamples (e : RisingEdge) (s : State) : Host.Outcome State Fault Refusal :=
  atTakingEdge .takeSamples e s

/-- TAKE_EVENTS (R139): its checks; its first decision is taken as byte 3 starts (startBit). -/
def execTakeEvents (e : RisingEdge) (s : State) : Host.Outcome State Fault Refusal :=
  atTakingEdge .takeEvents e s

/-- PEEK_LATEST (R90). -/
def execPeekLatest (e : RisingEdge) (s : State) : Host.Outcome State Fault Refusal :=
  atTakingEdge .peekLatest e s

/-- READ_CHANNEL (R85). -/
def execReadChannel (e : RisingEdge) (s : State) : Host.Outcome State Fault Refusal :=
  atTakingEdge .readChannel e s

/-- WATCH_READ (R126). -/
def execWatchRead (e : RisingEdge) (s : State) : Host.Outcome State Fault Refusal :=
  atTakingEdge .watchRead e s

/-- Whether the next rising edge of SCKp completes the last byte of the marked record that command c streams (R112, R139). -/
def removesNext (s : State) (p : Port) (c : Command) : Bool :=
  let f := s.ports[p].frame
  decide (f.state = .reply) && decide (f.command = some c) && streamsRecord s p && decide (7 ≤ f.bits)
    && decide (f.bytesDone + 1 = f.replyAt + f.reply.length)

/-- The step of a record's removal: the rising edge that completes the record's last byte (R112, R139). -/
def atRemovalEdge (c : Command) (e : RisingEdge) (s : State) : Host.Outcome State Fault Refusal :=
  if s.ports[e.port].sck = .low ∧ removesNext s e.port c then .next (clockRise s e.port e.sdi)
  else .refused .noRecordShiftedOut

/-- SAMPLE_RECORD_REMOVED (R112): the marked sample record is removed and the next decision is taken. -/
def execSampleRecordRemoved (e : RisingEdge) (s : State) : Host.Outcome State Fault Refusal :=
  atRemovalEdge .takeSamples e s

/-- EVENT_RECORD_REMOVED (R139, R140): the marked event record is removed and the next decision is taken. -/
def execEventRecordRemoved (e : RisingEdge) (s : State) : Host.Outcome State Fault Refusal :=
  atRemovalEdge .takeEvents e s

/-- READ_TIME (R164): the falling edge of SCKp that starts byte 3. -/
def execReadTime (p : Port) (s : State) : Host.Outcome State Fault Refusal :=
  if s.ports[p].sck = .high ∧ s.ports[p].frame.timeIsDue then .next (clockFall s p) else .refused .notAtTakingPoint

/-! ### The frame ends of the port itself (R177 to R182) -/

/-- NOP (R177, R182): the result register keeps its value; an uncut end outside a start-up frame restarts the lease. -/
def execNop (p : Port) (midByte : Bool) (s : State) : Host.Outcome State Fault Refusal :=
  atRiseIn p midByte .nop (fun f s => if midByte || f.startUp then s else leaseRestart s p) s

/-- UNKNOWN (R177): on a byte boundary UNKNOWN with the code as detail, else CUT. -/
def execUnknown (p : Port) (midByte : Bool) (s : State) : Host.Outcome State Fault Refusal :=
  atRiseIn p midByte .unknown
    (fun f s =>
      if midByte then setResult s p ⟨.cut, 0⟩
      else leaseRestart (setResult s p ⟨.unknown, f.code.getD 0⟩) p) s

/-- CUT (R176, R178, R179): nothing acts and the lease is not restarted. -/
def execCut (p : Port) (midByte : Bool) (s : State) : Host.Outcome State Fault Refusal :=
  atRiseIn p midByte .cut (fun _ s => setResult s p ⟨.cut, 0⟩) s

/-- STARTING (R182). -/
def execStarting (p : Port) (s : State) : Host.Outcome State Fault Refusal :=
  atRise p .starting (fun _ s => setResult s p ⟨.starting, 0⟩) s

/-- LOST (R180). -/
def execLost (p : Port) (s : State) : Host.Outcome State Fault Refusal :=
  atRise p .lost (fun _ s => setResult s p ⟨.lost, 0⟩) s

/-! ### The staging record (R184 to R186) -/

/-- STAGE_CLEAR of an OPEN session (R185). -/
def stageClear (p : Port) (s : State) : Done :=
  (s.setPort p { s.ports[p] with staging := stagingDefaults }, ⟨.ok, 0⟩)

/-- STAGE_CLEAR (R185). -/
def execStageClear (p : Port) (s : State) : Host.Outcome State Fault Refusal :=
  takeSetting p .stageClear (fun _ => withSession p (stageClear p)) s

/-- The word that a STAGE_WORD frame carries, the first data byte its most significant (R186). -/
def stagedWord (args : List Byte) : BitVec 32 :=
  wordOfBytes (argByte args 1) (argByte args 2) (argByte args 3) (argByte args 4)

/-- STAGE_WORD of an OPEN session (R186). -/
def stageWord (p : Port) (args : List Byte) (s : State) : Done :=
  match wordIndexOfByte (argByte args 0) with
  | none => refuseWith s .badArg
  | some i =>
    (s.setPort p { s.ports[p] with staging := s.ports[p].staging.set i (stagedWord args) },
      ⟨.ok, BitVec.ofNat 8 i.val⟩)

/-- STAGE_WORD (R186). -/
def execStageWord (p : Port) (s : State) : Host.Outcome State Fault Refusal :=
  takeSetting p .stageWord (fun args => withSession p (stageWord p args)) s

/-! ### STREAMING_FRAME_END (R179) -/

/-- The detail that an accepted streaming command's rule states (R111, R139, R187, R90, R85, R126, R164). -/
def Frame.streamDetail (f : Frame) (c : Command) : Byte :=
  match c with
  | .takeSamples | .takeEvents => BitVec.ofNat 8 f.removed
  | .readBuffer => BitVec.ofNat 8 (min (f.bytesDone - 3) (32 - (argByte f.args 0).toNat))
  | .peekLatest | .readChannel | .watchRead => argByte f.args 0
  | _ => 0

/-- The result of a streaming frame (R179). READ_TIME is never refused (R164). -/
def Frame.streamResult (f : Frame) (c : Command) : ResultReg :=
  match f.taken with
  | .refused code => ⟨code, 0⟩
  | .accepted | .no => ⟨.ok, f.streamDetail c⟩

/-- The shifting mark of a cut record clears (R113, R139, R140). -/
def clearMark (s : State) (p : Port) (c : Command) : State :=
  match c with
  | .takeSamples => s.setQueue p (s.queues[p].map fun q => { q with shifting := false })
  | .takeEvents => s.setEvents p s.events[p].unmark
  | _ => s

/-- The end of a streaming frame, taken at the rise of nSELp (R113, R139, R140, R152, R179). -/
def endStream (c : Command) (p : Port) (f : Frame) (s : State) : State :=
  leaseRestart (setResult (clearMark s p c) p (f.streamResult c)) p

/-- STREAMING_FRAME_END (R179). In the last case the rise ends no streaming frame, so atRise answers whether the port was
IDLE or another row ends the frame. -/
def execStreamingFrameEnd (p : Port) (s : State) : Host.Outcome State Fault Refusal :=
  match frameEnd s.ports[p].frame with
  | .streaming c => atRise p (.streaming c) (endStream c p) s
  | _ => atRise p (.streaming .readTime) (endStream .readTime p) s

end Sys2Proof.Machine
end

