-- ==== Sys2Proof/Machine/Dispatch.lean ====
section
/-! DEFINITION. The dispatch: one arm for each command, each a direct call of its meaning. -/

namespace Sys2Proof.Machine

/-- The effect of a command on everything but the queue. -/
def exec (i : Instr) (s : State) : Host.Outcome State Fault Refusal :=
  match i with
  | .frameStart p => Sys2Proof.Machine.execFrameStart p s
  | .nop p midByte => Sys2Proof.Machine.execNop p midByte s
  | .unknown p midByte => Sys2Proof.Machine.execUnknown p midByte s
  | .cut p midByte => Sys2Proof.Machine.execCut p midByte s
  | .starting p => Sys2Proof.Machine.execStarting p s
  | .lost p => Sys2Proof.Machine.execLost p s
  | .openSession p => Sys2Proof.Machine.execOpen p s
  | .closeSession p => Sys2Proof.Machine.execClose p s
  | .leaseExpiry p => Sys2Proof.Machine.execLeaseExpiry p s
  | .stageClear p => Sys2Proof.Machine.execStageClear p s
  | .stageWord p => Sys2Proof.Machine.execStageWord p s
  | .install p => Sys2Proof.Machine.execInstall p s
  | .modify p => Sys2Proof.Machine.execModify p s
  | .delete p => Sys2Proof.Machine.execDelete p s
  | .stop p => Sys2Proof.Machine.execStop p s
  | .run p => Sys2Proof.Machine.execRun p s
  | .startBurst p => Sys2Proof.Machine.execStartBurst p s
  | .fetch p => Sys2Proof.Machine.execFetch p s
  | .readBuffer edge => Sys2Proof.Machine.execReadBuffer edge s
  | .takeSamples edge => Sys2Proof.Machine.execTakeSamples edge s
  | .sampleRecordRemoved edge => Sys2Proof.Machine.execSampleRecordRemoved edge s
  | .takeEvents edge => Sys2Proof.Machine.execTakeEvents edge s
  | .eventRecordRemoved edge => Sys2Proof.Machine.execEventRecordRemoved edge s
  | .releaseQueue p => Sys2Proof.Machine.execReleaseQueue p s
  | .readNow p => Sys2Proof.Machine.execReadNow p s
  | .peekLatest edge => Sys2Proof.Machine.execPeekLatest edge s
  | .readTime p => Sys2Proof.Machine.execReadTime p s
  | .claim p => Sys2Proof.Machine.execClaim p s
  | .release p => Sys2Proof.Machine.execRelease p s
  | .configure p => Sys2Proof.Machine.execConfigure p s
  | .readChannel edge => Sys2Proof.Machine.execReadChannel edge s
  | .watchSet p => Sys2Proof.Machine.execWatchSet p s
  | .watchArm p => Sys2Proof.Machine.execWatchArm p s
  | .watchDisarm p => Sys2Proof.Machine.execWatchDisarm p s
  | .watchClear p => Sys2Proof.Machine.execWatchClear p s
  | .watchRead edge => Sys2Proof.Machine.execWatchRead edge s
  | .periodTimerExpiry n => Sys2Proof.Machine.execPeriodTimerExpiry n s
  | .triggerEdge line => Sys2Proof.Machine.execTriggerEdge line s
  | .settleEnd => Sys2Proof.Machine.execSettleEnd s
  | .sampleEnd inputs => Sys2Proof.Machine.execSampleEnd inputs s
  | .convertEnd => Sys2Proof.Machine.execConvertEnd s
  | .completion => Sys2Proof.Machine.execCompletion s
  | .recoverEnd => Sys2Proof.Machine.execRecoverEnd s
  | .hubReset cause => Sys2Proof.Machine.execHubReset cause s
  | .endOfStartUp => Sys2Proof.Machine.execEndOfStartUp s
  | .refclkRisingEdge trga trgb nrst => Sys2Proof.Machine.execRefclkRisingEdge trga trgb nrst s
  | .resetRelease cause => Sys2Proof.Machine.execResetRelease cause s
  | .byteCompletion p edge => Sys2Proof.Machine.execByteCompletion p edge s
  | .streamingFrameEnd p => Sys2Proof.Machine.execStreamingFrameEnd p s

end Sys2Proof.Machine
end

