-- ==== Sys2Proof/Machine/Step.lean ====
section
/-! DEFINITION. One step of the hub: the command at the front of the queue is taken whole (log 1). -/

namespace Sys2Proof.Machine

/-- One step: the first waiting command acts on the state with the queue's rest; with none waiting the hub idles (log 1). -/
def step (s : State) : Host.Outcome State Fault Refusal :=
  match s.pending with
  | [] => .next s
  | c :: rest => exec c (s.setPending rest)

/-- s with the command that a table word spells put at the front of its queue; s itself when the word spells none. -/
def State.withFetchWord (s : State) (nbits w : Nat) : State :=
  match decodeTableWord nbits w with
  | some c => s.setPending (c :: s.pending)
  | none => s

end Sys2Proof.Machine
end

