-- ==== Sys2Proof/Safety.lean ====
section
/-! DEFINITION. The words that statements about the hub are written in: the parts of the state and the frame (what a command leaves unchanged), the situations in which a command is due, and the invariants. -/

namespace Sys2Proof.Machine

/-! ### The parts of the state and the frame -/

/-- A part of the state that a command may touch or leave. -/
inductive Part
  | hub
  | timebase
  /-- The input nSELp. -/
  | select (p : Port)
  /-- The input SCKp. -/
  | clock (p : Port)
  | frame (p : Port)
  | result (p : Port)
  | staging (p : Port)
  | readBuf (p : Port)
  /-- The state and the lease of a session. -/
  | session (p : Port)
  /-- The lease timer of a session. -/
  | expiry (p : Port)
  /-- The demand-outstanding flag of a port. -/
  | demand (p : Port)
  | slot (n : SlotNo)
  | requests
  | converter
  | channel (c : Fin 16)
  | latest (c : Channel)
  | unreserved
  | queue (p : Port)
  | watch (p : Port) (w : Fin 8)
  | events (p : Port)
  | free
  | waiting
  deriving DecidableEq, Repr

/-- A part reads the same in two states. -/
def Part.same (x : Part) (s t : State) : Prop :=
  match x with
  | .hub => t.hub = s.hub
  | .timebase => t.timebase = s.timebase
  | .select p => t.ports[p].nsel = s.ports[p].nsel
  | .clock p => t.ports[p].sck = s.ports[p].sck
  | .frame p => t.ports[p].frame = s.ports[p].frame
  | .result p => t.ports[p].result = s.ports[p].result
  | .staging p => t.ports[p].staging = s.ports[p].staging
  | .readBuf p => t.ports[p].readBuf = s.ports[p].readBuf
  | .session p => t.sessions[p].state = s.sessions[p].state ∧ t.sessions[p].lease = s.sessions[p].lease
  | .expiry p => t.sessions[p].expiry = s.sessions[p].expiry
  | .demand p => t.sessions[p].demandOutstanding = s.sessions[p].demandOutstanding
  | .slot n => t.slots[n] = s.slots[n]
  | .requests => t.requests = s.requests
  | .converter => t.conv = s.conv
  | .channel c => t.channels[c] = s.channels[c]
  | .latest c => t.latest[c] = s.latest[c]
  | .unreserved => t.unreserved = s.unreserved
  | .queue p => t.queues[p] = s.queues[p]
  | .watch p w => t.watches[p][w] = s.watches[p][w]
  | .events p => t.events[p] = s.events[p]
  | .free => t.free = s.free
  | .waiting => t.pending = s.pending

/-- Everything but the listed parts is the same in t as in s: the frame of a command. -/
def sameBut (touched : List Part) (s t : State) : Prop := ∀ x : Part, x ∉ touched → x.same s t

/-- Every slot, as parts. -/
def allSlots : List Part := (List.finRange 32).map .slot

/-- Every channel record, as parts. -/
def allChannels : List Part := (List.finRange 16).map .channel

/-- Every sample queue, as parts. -/
def allQueues : List Part := (List.finRange 4).map .queue

/-- Every event queue, as parts. -/
def allEvents : List Part := (List.finRange 4).map .events

/-- Every watch, as parts. -/
def allWatches : List Part := (List.finRange 4).flatMap fun p => (List.finRange 8).map fun w => .watch p w

/-- Every demand-outstanding flag, as parts. -/
def allDemands : List Part := (List.finRange 4).map .demand

/-! ### The rise of nSELp (R152, R175, R178) -/

/-- What the rise of nSELp touches: the pin and the frame, the result register, the lease timer. -/
def riseParts (p : Port) : List Part := [.select p, .frame p, .result p, .expiry p]

/-- The expiry tick of a lease that restarts now (R152). -/
def leaseTick (s : State) (p : Port) : Tick := s.now + BitVec.ofNat 32 (s.sessions[p].lease.toNat * 10000)

/-- From s to t an uncut frame of port p has ended with result r: the port is IDLE with its pin high, the register holds r,
and the lease of a session that is OPEN in t runs from now; a timer with no OPEN session is as before. -/
def rises (p : Port) (r : ResultReg) (s t : State) : Prop :=
  t.ports[p].nsel = .high ∧ t.ports[p].frame = Frame.idle ∧ t.ports[p].result = r
    ∧ (t.isOpen p = true → t.sessions[p].expiry = some (leaseTick t p))
    ∧ (t.isOpen p = false → t.sessions[p].expiry = s.sessions[p].expiry)

/-- From s to t a command of port p was refused with a code: detail 0, and nothing but the rise itself happened. -/
def refusedWith (p : Port) (code : ResultCode) (s t : State) : Prop :=
  rises p ⟨code, 0⟩ s t ∧ sameBut (riseParts p) s t

/-- From s to t a command of port p succeeded with a detail, and touched only the listed parts beside the rise. -/
def accepted (p : Port) (detail : Byte) (touched : List Part) (s t : State) : Prop :=
  rises p ⟨.ok, detail⟩ s t ∧ sameBut (riseParts p ++ touched) s t

/-- Every argument byte of the frame of port p with set command c has completed: the pin is low, and the frame is no
start-up frame and not DEAD (R178). -/
def argumentsWhole (p : Port) (c : Command) (s : State) : Prop :=
  s.ports[p].nsel = .low ∧ s.ports[p].frame.state = .spill ∧ s.ports[p].frame.startUp = false
    ∧ s.ports[p].frame.command = some c ∧ s.ports[p].frame.args.length = c.argCount

/-- The frame of port p stands at the point where its set command c acts at the rise of nSELp: its arguments are whole, and
the rise is on a byte boundary (R171, R178). -/
def settingDue (p : Port) (c : Command) (s : State) : Prop :=
  argumentsWhole p c s ∧ s.ports[p].frame.bits = 0

/-- The next rising edge of SCKp completes the last argument byte of streaming command c of the frame of port p (R171, R179):
seven bits of that byte are in. -/
def takingDue (p : Port) (c : Command) (s : State) : Prop :=
  s.ports[p].sck = .low ∧ s.ports[p].frame.state = .arguments ∧ s.ports[p].frame.command = some c
    ∧ s.ports[p].frame.bits = 7 ∧ s.ports[p].frame.args.length + 1 = c.argCount

/-- The next rising edge of SCKp completes a byte that ends at the last byte of the reply begun at replyAt (R112, R171). -/
def lastByteDue (p : Port) (s : State) : Prop :=
  s.ports[p].frame.bits = 7 ∧ s.ports[p].frame.bytesDone + 1 = s.ports[p].frame.replyAt + s.ports[p].frame.reply.length

/-- The level of bit i of a byte on a data pin, bit 0 the first on the wire, the most significant (R171). -/
def wireBit (b : Byte) (i : Nat) : Level := if b.getMsbD i then .high else .low

/-- The byte shifted in after one more bit on SDIp (R171). -/
def shiftedIn (f : Frame) (sdi : Level) : Byte := f.shiftIn.extractLsb' 0 7 ++ (if sdi = .high then 1#1 else 0#1)

/-- Argument byte i of the frame of port p. -/
def arg (s : State) (p : Port) (i : Nat) : Byte := argByte s.ports[p].frame.args i

/-- The set command that a row of the table is, with its port. -/
def settingOf (i : Instr) : Option (Port × Command) :=
  match i with
  | .openSession p => some (p, .openSession)
  | .closeSession p => some (p, .closeSession)
  | .stageClear p => some (p, .stageClear)
  | .stageWord p => some (p, .stageWord)
  | .install p => some (p, .install)
  | .modify p => some (p, .modify)
  | .delete p => some (p, .delete)
  | .stop p => some (p, .stop)
  | .run p => some (p, .run)
  | .startBurst p => some (p, .startBurst)
  | .fetch p => some (p, .fetch)
  | .releaseQueue p => some (p, .releaseQueue)
  | .readNow p => some (p, .readNow)
  | .claim p => some (p, .claim)
  | .release p => some (p, .release)
  | .configure p => some (p, .configure)
  | .watchSet p => some (p, .watchSet)
  | .watchArm p => some (p, .watchArm)
  | .watchDisarm p => some (p, .watchDisarm)
  | .watchClear p => some (p, .watchClear)
  | _ => none

/-- The command table of spec/09, 9.4, with R147: the code of each command, its argument count k, its kind, and whether it
needs an OPEN session. -/
def commandTable : List (Byte × Command × Nat × CommandKind × Bool) :=
  [(0x00, .nop, 0, .nop, false), (0x10, .openSession, 4, .setting, false), (0x11, .closeSession, 0, .setting, true),
    (0x20, .stageClear, 0, .setting, true), (0x21, .stageWord, 5, .setting, true), (0x22, .install, 1, .setting, true),
    (0x23, .modify, 1, .setting, true), (0x24, .delete, 1, .setting, true), (0x25, .stop, 1, .setting, true),
    (0x26, .run, 1, .setting, true), (0x27, .startBurst, 1, .setting, true), (0x28, .fetch, 1, .setting, true),
    (0x29, .readBuffer, 1, .streaming, true)]
    ++ [(0x30, .takeSamples, 1, .streaming, true), (0x31, .takeEvents, 1, .streaming, true),
    (0x32, .releaseQueue, 0, .setting, true), (0x33, .readNow, 3, .setting, true),
    (0x40, .peekLatest, 1, .streaming, false), (0x41, .readTime, 0, .streaming, false),
    (0x50, .claim, 1, .setting, true), (0x51, .release, 1, .setting, true), (0x52, .configure, 2, .setting, true),
    (0x53, .readChannel, 1, .streaming, false), (0x60, .watchSet, 6, .setting, true),
    (0x61, .watchArm, 1, .setting, true), (0x62, .watchDisarm, 1, .setting, true),
    (0x63, .watchClear, 1, .setting, true), (0x64, .watchRead, 1, .streaming, true)]

/-- Command i names the rising edge of SCKp, with SDIp at a level, at which streaming command c of port p is taken: its own
row, or BYTE_COMPLETION (log 5). -/
def takesAtEdge (i : Instr) (p : Port) (c : Command) (sdi : Level) : Prop :=
  i = .byteCompletion p (.rise sdi)
    ∨ match c with
      | .readBuffer => i = .readBuffer ⟨p, sdi⟩
      | .takeSamples => i = .takeSamples ⟨p, sdi⟩
      | .takeEvents => i = .takeEvents ⟨p, sdi⟩
      | .peekLatest => i = .peekLatest ⟨p, sdi⟩
      | .readChannel => i = .readChannel ⟨p, sdi⟩
      | .watchRead => i = .watchRead ⟨p, sdi⟩
      | _ => False

/-- The pending list without slot n's subscriber entries and without entries left empty (R40). -/
def withoutSlot (n : SlotNo) (l : List PendingEntry) : List PendingEntry :=
  (l.map fun e => { e with subs := e.subs.filter fun x => decide (x.origin ≠ .slot n) }).filter fun e => !e.subs.isEmpty

/-! ### Inputs of the Timebase, and arguments in range -/

/-- The run of nRST low samples after one more sample (R168, R193): it grows to 4 and ends at a high sample. -/
def nrstRun (h : Hub) (nrst : Level) : Nat := if nrst = .low then min 4 (h.nrstLow + 1) else 0

/-- A sample of nRST begins a hub reset: it is the fourth low sample in a row, and nRST does not hold the hub (R168, R193). -/
def fourthLow (h : Hub) (nrst : Level) : Prop := nrst = .low ∧ 3 ≤ h.nrstLow ∧ h.nrstHold = false

/-- The 3,200 periods of start-up have run, and its end has still to be taken (R169, R170; log 23). -/
def startUpOver (h : Hub) : Prop := h.held = false ∧ h.startUp = true ∧ 3200 ≤ h.startCount

/-- Tick d has not been reached (R162). -/
def notReached (now d : Tick) : Prop := 2147483648 ≤ (now - d).toNat

/-- The REFCLK periods of the converter's phase have all run: 16 for each tick of its length (R54, R161; log 6). -/
def phaseAtEnd (s : State) : Prop := 16 * s.conv.phaseTicks ≤ s.conv.phasePeriods

/-- Nothing is due that the hub does before its next REFCLK edge, at which nRST has the given level: start-up is not over;
nRST has not risen in a hub that it holds (R168); and outside reset and start-up no recognised edge waits for the Scheduler
(R167), no lease timer and no period timer has been reached (R162), and no phase of the converter is at its end (R161). -/
def refclkFree (s : State) (nrst : Level) : Prop :=
  ¬ startUpOver s.hub ∧ ¬ (s.hub.nrstHold = true ∧ nrst = .high)
    ∧ (s.hub.held = false → s.hub.startUp = false →
        s.timebase.edges = []
          ∧ (∀ p : Port, s.sessions[p].state = .opened → ∀ d ∈ s.sessions[p].expiry, notReached s.now d)
          ∧ (∀ n : SlotNo, s.slots[n].state = .running → s.slots[n].settings.kind = .periodic →
              notReached s.now s.slots[n].nextDue)
          ∧ (s.conv.phase ≠ .idle → ¬ phaseAtEnd s))

/-- What a sample outside start-up does to a detector, by the table of R165. -/
def detectorRule (d : Detector) (level : Level) (e : Detector) : Prop :=
  (level = d.level → e = ⟨d.level, 0⟩) ∧ (level ≠ d.level → d.changes < 2 → e = ⟨d.level, d.changes + 1⟩)
    ∧ (level ≠ d.level → d.changes = 2 → e = ⟨level, 0⟩)

/-- The edge that a sample recognises, with a tick (R165, R166). -/
def edgeRule (d : Detector) (line : Line) (level : Level) (k : Tick) : List Edge :=
  if level ≠ d.level ∧ d.changes = 2 then
    [{ line := line, direction := if level = .high then .rise else .fall, tick := k }]
  else []

/-- The argument bytes of OPEN in range (R148, spec/11, 11.3): the policy byte is 0 or 1. -/
def openArgsOk (s : State) (p : Port) : Prop :=
  arg s p 0 ≠ 0 ∧ 1 ≤ (arg s p 1).toNat ∧ (arg s p 1).toNat ≤ 12 ∧ (arg s p 2).toNat ≤ 1
    ∧ 1 ≤ (arg s p 3).toNat ∧ (arg s p 3).toNat ≤ 16 * (arg s p 1).toNat

/-! ### What a session end leaves (R28, R40, R41, R91, R117, R143, R155, R156, R190) -/

/-- The pending list without the subscriber entries of port p's slots and port p's demand (R40). -/
def withoutPort (s : State) (p : Port) (l : List PendingEntry) : List PendingEntry :=
  (l.map fun e => { e with subs := e.subs.filter fun x => !ownedBy s p x }).filter fun e => !e.subs.isEmpty

/-- A slot after the end of the session of port p (R28). -/
def slotTakenBack (p : Port) (x y : Slot) : Prop :=
  if x.owner = some p then
    (x.state = .stopped ∨ x.state = .running →
      if x.inFlightFlag then y = { x with state := .retiring, owner := none, pendingFlag := false } else y = Slot.free)
    ∧ (x.state = .retiring → y = { x with owner := none })
  else y = x

/-- From s to t the session of port p has ended and its record took the given state: each block has given up what port p
held, and nothing of any other port has changed but the pending entries that port p shared (R155). -/
def takenBack (p : Port) (after : SessionState) (s t : State) : Prop :=
  t.sessions[p].state = after ∧ t.sessions[p].lease = 0 ∧ t.sessions[p].expiry = none
    ∧ t.sessions[p].demandOutstanding = (s.sessions[p].demandOutstanding && !demandWaiting s p)
    ∧ (∀ n : SlotNo, slotTakenBack p s.slots[n] t.slots[n])
    ∧ t.requests = withoutPort s p s.requests
    ∧ t.conv = { s.conv with record := s.conv.record.map fun r =>
        { r with subs := r.subs.map fun x => if x.sub.origin = .demand p then { x with marked := true } else x } }
    ∧ (∀ c : Fin 16, t.channels[c] =
        if s.channels[c].holder = some p then { s.channels[c] with holder := none } else s.channels[c])
    ∧ t.queues[p] = none ∧ t.unreserved = s.unreserved + ((s.queues[p].map fun q => q.depth).getD 0)
    ∧ (∀ w : Fin 8, t.watches[p][w] = Watch.empty) ∧ t.events[p] = EventQueue.empty
    ∧ t.ports[p].staging = stagingDefaults ∧ t.ports[p].readBuf = readBufferZero

/-- What a session end of port p may touch, its frame apart. -/
def sessionParts (p : Port) : List Part :=
  [.session p, .expiry p, .demand p, .requests, .converter, .queue p, .unreserved, .events p, .staging p, .readBuf p]
    ++ allSlots ++ allChannels ++ (List.finRange 8).map fun w => .watch p w

/-! ### Completions -/

/-- The converter stands at the end of the last CONVERT phase of record r (R61, R68). -/
def completionDue (s : State) (r : InFlight) : Prop :=
  s.conv.phase = .convert ∧ phaseAtEnd s ∧ s.conv.record = some r ∧ r.repeatsDone = averaging r.avgCode

/-- What a completion on channel c may touch (R69). -/
def completionParts (c : Channel) : List Part :=
  [.requests, .converter, .latest c] ++ allSlots ++ allQueues ++ allWatches ++ allEvents ++ allDemands

/-- Whether a record names slot n. -/
def namesSlot (r : InFlight) (n : SlotNo) : Bool := r.subs.any fun x => decide (x.sub.origin = .slot n)

/-- Slot n is served at the completion of record r (R24): its subscriber entry is not superseded and it is STOPPED or RUNNING,
or it is a LISTEN slot that is RUNNING with the record's channel. -/
def isServed (s : State) (r : InFlight) (n : SlotNo) : Prop :=
  ((∃ x ∈ r.subs, x.marked = false ∧ x.sub.origin = .slot n) ∧ (s.slots[n].state = .stopped ∨ s.slots[n].state = .running))
    ∨ (s.slots[n].state = .running ∧ s.slots[n].settings.kind = .listen ∧ s.slots[n].settings.channel = r.channel)

/-- The consumers of a conversion, counted (R94): slot entries neither superseded nor RETIRING, every DEMAND entry, and every
LISTEN slot that is RUNNING with the channel. -/
def consumersOf (s : State) (r : InFlight) : Nat :=
  (r.subs.countP fun x =>
      match x.sub.origin with
      | .slot n => !x.marked && (decide (s.slots[n].state = .stopped) || decide (s.slots[n].state = .running))
      | .demand _ => true)
    + (List.finRange 32).countP fun n =>
      decide (s.slots[n].state = .running) && decide (s.slots[n].settings.kind = .listen)
        && decide (s.slots[n].settings.channel = r.channel)

/-- The new window position of a value, by the table of R95; NONE stays while the window is absent. -/
def positionRule (w : Option Window) (value : BitVec 12) : WindowPos :=
  match w with
  | none => .unset
  | some w => if value.toNat < w.low.toNat then .below else if value.toNat ≤ w.high.toNat then .inside else .above

/-- The six conditions of a served slot, by R95 and R96; sub is its subscriber entry, none for a LISTEN slot. -/
def conditionsRule (w : Option Window) (old : WindowPos) (value : BitVec 12) (sub : Option SubEntry) (clipped : Bool) :
    Conditions :=
  { above := decide (positionRule w value = .above), below := decide (positionRule w value = .below)
    crossed := decide (w ≠ none ∧ old ≠ .unset ∧ old ≠ positionRule w value)
    overrun := decide (∃ x ∈ sub, x.overrun = true), preempted := decide (∃ x ∈ sub, x.preempted = true)
    clipped := clipped }

/-- From u to t the RETIRING slots that record r names are released, in ascending number (R22, R136): each becomes FREE, and
SLOT_RELEASED goes to its owner, if that is still set and its session is OPEN. -/
def retiringReleased (r : InFlight) (u t : State) : Prop :=
  let leaves (n : SlotNo) : Bool := namesSlot r n && decide (u.slots[n].state = .retiring)
  (∀ n : SlotNo, t.slots[n] = if leaves n then Slot.free else u.slots[n])
    ∧ (∀ p : Port, t.events[p] =
      if u.isOpen p then
        ((List.finRange 32).filter fun n => leaves n && decide (u.slots[n].owner = some p)).foldl
          (fun q n => q.offer { kind := .slotReleased, subject := BitVec.ofNat 8 n.val, tick := u.now, detail := 0 })
          u.events[p]
      else u.events[p])
    ∧ sameBut (allSlots ++ allEvents) u t

/-! ### Selection and abandonment -/

/-- The words of R43 for an entry: the class is the highest among its subscriber entries (R31), the age the greatest
elapsed time from a due tick, and the tie rank the least slot number, or 32 plus the least port number. -/
def entryRanks (e : PendingEntry) (now : Tick) : Prop :=
  (e.cls = .triggered ↔ ∃ x ∈ e.subs, x.cls = .triggered)
    ∧ (e.cls = .routine ↔ (∃ x ∈ e.subs, x.cls = .routine) ∧ ∀ x ∈ e.subs, x.cls ≠ .triggered)
    ∧ (∀ x ∈ e.subs, (now - x.due).toNat ≤ e.age now)
    ∧ (e.subs ≠ [] → ∃ x ∈ e.subs, (now - x.due).toNat = e.age now)
    ∧ (∀ x ∈ e.subs, ∀ n : SlotNo, x.origin = .slot n → e.tieRank ≤ n.val)
    ∧ (∀ x ∈ e.subs, ∀ p : Port, x.origin = .demand p → e.tieRank ≤ 32 + p.val)
    ∧ (e.subs ≠ [] → ∃ x ∈ e.subs, (∃ n : SlotNo, x.origin = .slot n ∧ e.tieRank = n.val)
        ∨ ∃ p : Port, x.origin = .demand p ∧ e.tieRank = 32 + p.val)

/-- From u to t the arbiter has made a selection from the pending list of u, which is not empty (R43, R45, R46, R57, R58): the
winner w, with every entry of the same conversion merged into it, is the new in-flight record. -/
def selectedFrom (u t : State) : Prop :=
  ∃ w ∈ u.requests, ∃ r : InFlight,
    let merged (e : PendingEntry) : Prop := e.channel = w.channel ∧ e.sampleCode = w.sampleCode ∧ e.avgCode = w.avgCode
    let view := u.channelView w.channel
    let settle : Prop := u.conv.identity ≠ some (w.channel, view.generation)
    (∀ e ∈ u.requests, e.cls = .triggered → w.cls = .triggered)
      ∧ (∀ e ∈ u.requests, (e.cls = .triggered ↔ w.cls = .triggered) →
          e.age u.now ≤ w.age u.now ∧ (e.age u.now = w.age u.now → w.tieRank ≤ e.tieRank))
      ∧ (∀ e ∈ u.requests, entryRanks e u.now)
      ∧ t.conv.record = some r ∧ t.conv.identity = u.conv.identity ∧ t.conv.phasePeriods = 0
      ∧ r.channel = w.channel ∧ r.sampleCode = w.sampleCode ∧ r.avgCode = w.avgCode
      ∧ (∀ x, x ∈ r.subs ↔ x.marked = false ∧ ∃ e ∈ u.requests, merged e ∧ x.sub ∈ e.subs)
      ∧ (r.cls = .triggered ↔ ∃ e ∈ u.requests, merged e ∧ ∃ x ∈ e.subs, x.cls = .triggered)
      ∧ (r.cls = .routine ↔ (∃ e ∈ u.requests, merged e ∧ ∃ x ∈ e.subs, x.cls = .routine)
          ∧ ∀ e ∈ u.requests, merged e → ∀ x ∈ e.subs, x.cls ≠ .triggered)
      ∧ (∀ e ∈ u.requests, merged e → e.preemptCount ≤ r.preemptCount)
      ∧ (∃ e ∈ u.requests, merged e ∧ e.preemptCount = r.preemptCount)
      ∧ t.requests = (u.requests.filter fun e =>
          !(decide (e.channel = w.channel) && decide (e.sampleCode = w.sampleCode) && decide (e.avgCode = w.avgCode)))
      ∧ r.mode = view.mode ∧ r.span = view.span ∧ r.extraSettle = view.extraSettle ∧ r.generation = view.generation
      ∧ r.repeatsDone = 0 ∧ r.runningSum = 0 ∧ r.clipped = false ∧ r.reconfigured = false
      ∧ (¬ settle → r.settleRequired = false ∧ t.conv.phase = .sample ∧ r.startTick = some u.now
          ∧ t.conv.phaseTicks = 2 ^ w.sampleCode.toNat)
      ∧ (settle → r.settleRequired = true ∧ t.conv.phase = .settle ∧ r.startTick = none
          ∧ t.conv.phaseTicks = 2 + 2 * view.extraSettle.toNat)
      ∧ (∀ n : SlotNo, t.slots[n] =
          if namesSlot r n then { u.slots[n] with pendingFlag := false, inFlightFlag := true } else u.slots[n])
      ∧ sameBut ([.requests, .converter] ++ allSlots) u t

/-- A subscriber entry of an abandoned record returns (R27, R48): it is not superseded or orphaned, and its slot is RUNNING. -/
def returnsRule (u : State) (x : FlightEntry) : Bool :=
  !x.marked
    && (match x.sub.origin with
        | .slot n => decide (u.slots[n].state = .running)
        | .demand _ => true)

/-- A returned subscriber entry finds a newer pending entry of its own slot (R51). -/
def collisionRule (u : State) (x : SubEntry) : Bool :=
  match x.origin with
  | .slot n => u.slots[n].pendingFlag
  | .demand _ => false

/-- From u to t the conversion of record r is abandoned (R48, R50, R51, R70): the converter enters RECOVER with no identity;
the returned entries join the list as one, preempted and with the preempt count raised; a newer entry of a returned slot
leaves the list, which costs a PERIODIC slot an overrun; and what does not return is dropped, with the RETIRING slots
released and the orphaned demands at an end. -/
def abandonedFrom (r : InFlight) (u t : State) : Prop :=
  let back : List SubEntry := (r.subs.filter (returnsRule u)).map fun x => x.sub
  let returned (n : SlotNo) : Bool := back.any fun x => decide (x.origin = .slot n)
  let collided (o : Origin) : Bool := back.any fun x => collisionRule u x && decide (x.origin = o)
  let costs (n : SlotNo) : Bool :=
    returned n && u.slots[n].pendingFlag && decide (u.slots[n].settings.kind = .periodic)
  ∃ v : State, retiringReleased r v t
    ∧ sameBut ([.requests, .converter] ++ allSlots ++ allDemands) u v
    ∧ v.conv = { phase := .recover, record := none, identity := none, phaseTicks := 1, phasePeriods := 0 }
    ∧ v.requests =
      ((u.requests.map fun e => { e with subs := e.subs.filter fun y => !collided y.origin }).filter
          fun e => !e.subs.isEmpty)
        ++ (if back = [] then [] else
          [{ channel := r.channel, sampleCode := r.sampleCode, avgCode := r.avgCode, preemptCount := r.preemptCount + 1
             subs := back.map fun x =>
               { x with
                 preempted := true
                 overrun := x.overrun || (match x.origin with
                   | .slot n => costs n
                   | .demand _ => false) } }])
    ∧ (∀ n : SlotNo, v.slots[n] =
      { u.slots[n] with
        inFlightFlag := u.slots[n].inFlightFlag && !namesSlot r n
        pendingFlag := u.slots[n].pendingFlag || returned n
        overrunCount := if costs n then min 65535 (u.slots[n].overrunCount + 1) else u.slots[n].overrunCount })
    ∧ ∀ p : Port, v.sessions[p].demandOutstanding =
      (u.sessions[p].demandOutstanding && !r.subs.any fun x => x.marked && decide (x.sub.origin = .demand p))

/-! ### The staging record (R6, R7, R191; spec/11, 11.4) -/

/-- A staging record that INSTALL and MODIFY refuse (R6, R7, R191; spec/11, 11.4): a channel above 19; for a kind that
converts, an averaging code above 4; for PERIODIC, a period below 20 or a phase that is not below the period; for TRIGGERED,
edge code 3; a window that is present with low above high; or a reserved bit that is 1. -/
def stagingBad (w : Vector (BitVec 32) 4) : Prop :=
  19 < (w[0].extractLsb' 16 8).toNat
    ∨ (w[0].extractLsb' 30 2 ≠ 3#2 ∧ 4 < (w[0].extractLsb' 24 3).toNat)
    ∨ (w[0].extractLsb' 30 2 = 0#2
        ∧ ((w[1].extractLsb' 0 22).toNat < 20 ∨ (w[1].extractLsb' 0 22).toNat ≤ (w[2].extractLsb' 0 22).toNat))
    ∨ (w[0].extractLsb' 30 2 = 1#2 ∧ w[2].extractLsb' 30 2 = 3#2)
    ∨ (w[3].getLsbD 31 = true ∧ (w[3].extractLsb' 0 12).toNat < (w[3].extractLsb' 16 12).toNat)
    ∨ w[1].getLsbD 31 = true ∨ w[3].extractLsb' 28 3 ≠ 0#3 ∨ w[3].extractLsb' 12 4 ≠ 0#4

/-! ### Invariants -/

/-- Sum of the depths of the sample queues that exist (R102). -/
def reservedCells (s : State) : Nat :=
  ((List.finRange 4).map fun p => ((s.queues[p].map fun q => q.depth).getD 0)).sum

/-- A sample queue has the ranges of R103: depth 16 to 192, count at most the depth, watermark 1 to the depth, pending-gap
count and every dropped count at most 255, and a shifting mark only on a head that exists. -/
def SampleQueue.ok (q : SampleQueue) : Prop :=
  16 ≤ q.depth ∧ q.depth ≤ 192 ∧ q.records.length ≤ q.depth ∧ 1 ≤ q.watermark ∧ q.watermark ≤ q.depth
    ∧ q.pendingGap ≤ 255 ∧ (∀ r ∈ q.records, r.dropped ≤ 255) ∧ (q.shifting = true → q.records ≠ [])

/-- The record pool (R101, R102, R103): unreserved cells and reserved depths make up the 384 cells, a port has a sample
queue exactly while its session is OPEN, and every queue is in range. -/
def PoolOk (s : State) : Prop :=
  s.unreserved + reservedCells s = 384
    ∧ (∀ p : Port, s.isOpen p = s.queues[p].isSome)
    ∧ ∀ p : Port, ∀ q ∈ s.queues[p], SampleQueue.ok q

/-- An event queue has the shape of R137: at most 16 records, the sixteenth always OVERFLOW, OVERFLOW only as the newest; a
shifting mark only on a head that exists; late losses only while the marked head is OVERFLOW. -/
def EventQueue.ok (q : EventQueue) : Prop :=
  q.records.length ≤ 16 ∧ (∀ e ∈ q.records.dropLast, e.kind ≠ .overflow)
    ∧ (q.records.length = 16 → q.hasOverflow = true) ∧ (q.shifting = true → q.records ≠ [])
    ∧ (0 < q.lateLoss → q.shifting = true ∧ q.overflowAtHead = true) ∧ q.lateLoss ≤ 65535

/-- Every event queue has the shape of R137. -/
def EventsOk (s : State) : Prop := ∀ p : Port, s.events[p].ok

/-- Everything a port holds belongs to an OPEN session (R146): a port whose session is CLOSED or LAPSED owns no slot, holds
no claim, and has no queue, watch, event, lease or lease timer. -/
def HoldingsOk (s : State) : Prop :=
  ∀ p : Port, s.isOpen p = false →
    (∀ n : SlotNo, s.slots[n].owner ≠ some p) ∧ (∀ c : Fin 16, s.channels[c].holder ≠ some p) ∧ s.queues[p] = none
      ∧ (∀ w : Fin 8, s.watches[p][w] = Watch.empty) ∧ s.events[p] = EventQueue.empty ∧ s.sessions[p].lease = 0
      ∧ s.sessions[p].expiry = none

/-- The slot quota (R10): no port owns more than 16 slots in STOPPED or RUNNING. -/
def QuotaOk (s : State) : Prop := ∀ p : Port, ownedCount s p ≤ 16

/-- Pairing (R80): only even channels are PAIRED, and the odd partner of a PAIRED channel has no claim holder and no slot
that is not FREE. -/
def PairingOk (s : State) : Prop :=
  ∀ c d : Fin 16, s.channels[c].mode = .paired →
    c.val % 2 = 0 ∧ (d.val = c.val + 1 →
      s.channels[d].holder = none ∧ ∀ n : SlotNo, s.slots[n].state ≠ .free → s.slots[n].settings.channel.val ≠ d.val)

/-- The ranges of the hub's counters (R161, R165, R169, R171, R193); a fourth low sample of nRST holds the hub; a phase of the
converter runs no longer than its length (R54); and at most one recognised edge of a line waits for the Scheduler (R167). -/
def CountersOk (s : State) : Prop :=
  s.timebase.prescaler ≤ 15 ∧ s.timebase.detectorA.changes ≤ 2 ∧ s.timebase.detectorB.changes ≤ 2
    ∧ s.hub.startCount ≤ 3200 ∧ s.hub.nrstLow ≤ 4 ∧ (s.hub.nrstHold = false → s.hub.nrstLow ≤ 3)
    ∧ (∀ p : Port, s.ports[p].frame.bits ≤ 7) ∧ s.conv.phasePeriods ≤ 16 * s.conv.phaseTicks
    ∧ ∀ line : Line, (s.timebase.edges.countP fun e => decide (e.line = line)) ≤ 1

/-- Every deadline that is armed lies less than 2^22 ticks ahead of the current tick, which may be the deadline itself: none
has been passed (R34, R152, R162). -/
def DeadlinesOk (s : State) : Prop :=
  (∀ p : Port, s.sessions[p].state = .opened → ∀ d ∈ s.sessions[p].expiry, (d - s.now).toNat < 4194304)
    ∧ ∀ n : SlotNo, s.slots[n].state = .running → s.slots[n].settings.kind = .periodic →
        (s.slots[n].nextDue - s.now).toNat < 4194304

/-- A frame that began in start-up never reaches ARGUMENTS, REPLY or DEAD (R182). -/
def Frame.startUpOk (f : Frame) : Prop := f.startUp = true → f.state = .idle ∨ f.state = .head ∨ f.state = .spill

/-- Reset and start-up (R158, R159, R168, R169, R181): a held hub is not in start-up; start-up frames stay start-up frames;
no frame runs while the hub is held, and only start-up frames run in start-up; and while the hub is held or in start-up
every block stands at its hub-reset values. -/
def StartUpOk (s : State) : Prop :=
  (s.hub.held = true → s.hub.startUp = false) ∧ (∀ p : Port, s.ports[p].frame.startUpOk)
    ∧ (s.hub.held = true → ∀ p : Port, s.ports[p].frame.state = .idle)
    ∧ (s.hub.startUp = true → ∀ p : Port, s.ports[p].frame.state = .idle ∨ s.ports[p].frame.startUp = true)
    ∧ (s.hub.held = true ∨ s.hub.startUp = true →
        s.timebase.tick = 0 ∧ s.timebase.prescaler = 0 ∧ s.timebase.edges = []
          ∧ s.sessions = State.reset.sessions ∧ s.slots = State.reset.slots ∧ s.requests = [] ∧ s.conv = Converter.atReset
          ∧ s.channels = State.reset.channels ∧ s.latest = State.reset.latest ∧ s.unreserved = 384
          ∧ s.queues = State.reset.queues ∧ s.watches = State.reset.watches ∧ s.events = State.reset.events)

/-- A setting of averaging is one of the five codes (R6, R30). -/
def avgOk (x : BitVec 3) : Prop := x.toNat ≤ 4

/-- The in-flight record in a phase (R55, R60, R61): averaging of a valid code, repeats still to do in SETTLE and SAMPLE, the
sum within 4095 for each repeat, the preempt count at most 3, and the start tick present outside SETTLE. -/
def InFlight.ok (phase : Phase) (r : InFlight) : Prop :=
  avgOk r.avgCode ∧ r.repeatsDone ≤ averaging r.avgCode
    ∧ (phase = .settle ∨ phase = .sample → r.repeatsDone < averaging r.avgCode)
    ∧ r.runningSum ≤ 4095 * r.repeatsDone ∧ r.preemptCount ≤ 3 ∧ (phase ≠ .settle → r.startTick.isSome = true)

/-- The converter and the requests (R52, R54, R55): a record exactly in SETTLE, SAMPLE and CONVERT, in range; every pending
entry has a subscriber, a preempt count of at most 3 and a valid averaging; so has every slot that is not FREE. -/
def ConverterOk (s : State) : Prop :=
  (s.conv.record.isSome = true ↔ s.conv.phase = .settle ∨ s.conv.phase = .sample ∨ s.conv.phase = .convert)
    ∧ (∀ r ∈ s.conv.record, r.ok s.conv.phase)
    ∧ (∀ e ∈ s.requests, e.subs ≠ [] ∧ e.preemptCount ≤ 3 ∧ avgOk e.avgCode)
    ∧ ∀ n : SlotNo, s.slots[n].state ≠ .free → avgOk s.slots[n].settings.avgCode

/-- How often the pending list names an origin. -/
def waitingCount (s : State) (o : Origin) : Nat := ((s.requests.flatMap fun e => e.subs).map fun x => x.origin).count o

/-- How often the in-flight record names an origin. -/
def flightCount (s : State) (o : Origin) : Nat :=
  match s.conv.record with
  | some r => (r.subs.map fun x => x.sub.origin).count o
  | none => 0

/-- One as a truth value counts. -/
def oneIf (b : Bool) : Nat := if b then 1 else 0

/-- The law of the pending list (R32, R33): the pending flag says whether the slot is named in the list, where it is named at
most once and only while RUNNING; the in-flight flag says whether the record names it, at most once; a RETIRING slot is in
flight and a FREE slot holds its hub-reset fields; and each port's demand stands at most once in the list and the record
together, exactly while it is outstanding. With it goes the converter's own invariant. -/
def RequestsOk (s : State) : Prop :=
  ConverterOk s
    ∧ (∀ n : SlotNo, waitingCount s (.slot n) = oneIf s.slots[n].pendingFlag
        ∧ flightCount s (.slot n) = oneIf s.slots[n].inFlightFlag
        ∧ (s.slots[n].pendingFlag = true → s.slots[n].state = .running)
        ∧ (s.slots[n].state = .retiring → s.slots[n].inFlightFlag = true)
        ∧ (s.slots[n].state = .free → s.slots[n] = Slot.free)
        ∧ (s.slots[n].state = .stopped ∨ s.slots[n].state = .running → s.slots[n].owner ≠ none))
    ∧ ∀ p : Port, waitingCount s (.demand p) + flightCount s (.demand p) = oneIf s.sessions[p].demandOutstanding

end Sys2Proof.Machine
end

