-- ==== Sys2Proof/Certificates/Slice0/Obligations.lean ====
section
/-! DEFINITION. The statements about the hub. Each row of spec/opcode_table.json completes in at least one of them: its conclusion is that exec answers a next state, with what that state holds and what it leaves. -/

open Sys2Proof Sys2Proof.Machine

/-! ### The machine, its reset and its invariants -/

/-- The command at the front of the queue is taken; with none waiting the hub idles (log 1). -/
def Obligations.StepTakesTheFrontCommand : Prop :=
  (∀ s : State, s.pending = [] → step s = .next s)
    ∧ ∀ (s : State) (c : Instr) (rest : List Instr), s.pending = c :: rest → step s = exec c (s.setPending rest)

/-- State.reset holds the hub-reset values of every block (R29, R53, R72, R92, R118, R144, R158, R168, R183). -/
def Obligations.ResetHoldsTheHubResetValues : Prop :=
  let s := State.reset
  (s.timebase.prescaler = 0 ∧ s.timebase.tick = 0 ∧ s.timebase.detectorA.changes = 0 ∧ s.timebase.detectorB.changes = 0
      ∧ s.timebase.edges = [])
    ∧ (∀ p : Port, s.ports[p].frame.state = .idle ∧ s.ports[p].result = ⟨.ok, 0⟩
        ∧ s.ports[p].staging = #v[0x00000000#32, 0x000003E8#32, 0x00000000#32, 0x00000FFF#32]
        ∧ s.ports[p].readBuf = Vector.replicate 32 0 ∧ s.sdo p = none ∧ s.natt p = .high)
    ∧ (∀ p : Port, s.sessions[p].state = .closed ∧ s.sessions[p].lease = 0 ∧ s.sessions[p].expiry = none
        ∧ s.sessions[p].demandOutstanding = false ∧ s.queues[p] = none)
    ∧ (∀ n : SlotNo, s.slots[n].state = .free ∧ s.slots[n].owner = none ∧ s.slots[n].settings = Settings.zero
        ∧ s.slots[n].sequence = 0 ∧ s.slots[n].overrunCount = 0 ∧ s.slots[n].decimationCount = 0
        ∧ s.slots[n].burstRemaining = 0 ∧ s.slots[n].nextDue = 0 ∧ s.slots[n].edgeCount = 0
        ∧ s.slots[n].windowPos = .unset ∧ s.slots[n].pendingFlag = false ∧ s.slots[n].inFlightFlag = false)
    ∧ (s.requests = [] ∧ s.conv.phase = .idle ∧ s.conv.record = none ∧ s.conv.identity = none ∧ s.unreserved = 384)
    ∧ (∀ c : Fin 16, s.channels[c] = ⟨.single, .full, 0, none, 0⟩)
    ∧ (∀ c : Channel, s.latest[c] = ⟨false, 0, 0, 0, 0, none, false⟩)
    ∧ (∀ p : Port, ∀ w : Fin 8, s.watches[p][w].state = .empty ∧ s.watches[p][w].hitCount = 0)
    ∧ ∀ p : Port, s.events[p].records = [] ∧ s.events[p].shifting = false ∧ s.events[p].lateLoss = 0

/-- Every invariant holds at State.reset. -/
def Obligations.ResetSatisfiesTheInvariants : Prop :=
  PoolOk State.reset ∧ EventsOk State.reset ∧ HoldingsOk State.reset ∧ QuotaOk State.reset ∧ PairingOk State.reset
    ∧ CountersOk State.reset ∧ DeadlinesOk State.reset ∧ StartUpOk State.reset ∧ RequestsOk State.reset

/-- Every step keeps the record pool and the sample queues in range (R101, R102, R103). -/
def Obligations.StepKeepsThePool : Prop := ∀ s t : State, PoolOk s → step s = .next t → PoolOk t

/-- Every step keeps the shape of every event queue (R137, R138, R140). -/
def Obligations.StepKeepsTheEventQueues : Prop := ∀ s t : State, EventsOk s → step s = .next t → EventsOk t

/-- Every step keeps that a port without an OPEN session holds nothing (R10, R79, R146, R155). -/
def Obligations.StepKeepsHoldingsUnderOpenSessions : Prop :=
  ∀ s t : State, HoldingsOk s → step s = .next t → HoldingsOk t

/-- Every step keeps the slot quota (R10), the law of pairing (R80), the ranges of the prescaler, the detectors, the start-up
and nRST counts and the converter's periods (R54, R161, R165, R167, R169, R193), and that no armed deadline has been passed
(R162). -/
def Obligations.StepKeepsQuotaPairingCountersAndDeadlines : Prop :=
  ∀ s t : State, step s = .next t →
    (QuotaOk s → QuotaOk t) ∧ (PairingOk s → PairingOk t) ∧ (CountersOk s → CountersOk t)
      ∧ (DeadlinesOk s → DeadlinesOk t)

/-- Every step keeps every block at its hub-reset values through reset and start-up (R159, R168, R169, R181, R182). -/
def Obligations.StepKeepsResetAndStartUpQuiet : Prop := ∀ s t : State, StartUpOk s → step s = .next t → StartUpOk t

/-- Every step keeps the law of the pending list, with the slots' flags and the converter's record (R32, R33, R52, R54). -/
def Obligations.StepKeepsTheLawOfThePendingList : Prop := ∀ s t : State, RequestsOk s → step s = .next t → RequestsOk t

/-! ### Reset, start-up and the Timebase -/

/-- A hub reset puts every block at its hub-reset values and leaves the inputs nSEL and SCK (R168, R181, R183). A supply resets at
any time; nRST resets at the REFCLK edge that takes its fourth low sample in a row, when nothing is due before that edge, which
HUB_RESET and REFCLK_RISING_EDGE both name (R193; log 5). -/
def Obligations.HubResetResetsEveryBlock : Prop :=
  ∀ (i : Instr) (cause : ResetCause) (low : Nat) (s : State),
    (i = .hubReset .supply ∧ cause = .supply ∧ low = s.hub.nrstLow)
      ∨ ((i = .hubReset .nrst ∨ ∃ a b : Level, i = .refclkRisingEdge a b .low) ∧ cause = .nrst ∧ low = 4
        ∧ fourthLow s.hub .low ∧ refclkFree s .low) →
    ∃ t, exec i s = .next t
      ∧ t.hub = { supplyHold := s.hub.supplyHold || decide (cause = .supply)
                  nrstHold := s.hub.nrstHold || decide (cause = .nrst), startUp := false, startCount := 0
                  nrstLow := low }
      ∧ t.timebase = { prescaler := 0, tick := 0, detectorA := ⟨s.timebase.detectorA.level, 0⟩
                       detectorB := ⟨s.timebase.detectorB.level, 0⟩, edges := [] }
      ∧ (∀ p : Port, t.ports[p].nsel = s.ports[p].nsel ∧ t.ports[p].sck = s.ports[p].sck
          ∧ t.ports[p].frame = Frame.idle ∧ t.ports[p].result = ⟨.ok, 0⟩ ∧ t.ports[p].staging = stagingDefaults
          ∧ t.ports[p].readBuf = readBufferZero)
      ∧ t.sessions = State.reset.sessions ∧ t.slots = State.reset.slots ∧ t.requests = [] ∧ t.conv = Converter.atReset
      ∧ t.channels = State.reset.channels ∧ t.latest = State.reset.latest ∧ t.unreserved = 384
      ∧ t.queues = State.reset.queues ∧ t.watches = State.reset.watches ∧ t.events = State.reset.events
      ∧ t.free = s.free ∧ t.pending = s.pending

/-- The end of the last reset cause begins start-up; the end of start-up needs its 3,200 periods (R168, R169, R170). -/
def Obligations.StartUpBeginsAndEnds : Prop :=
  (∀ s : State, s.hub.supplyHold = true → ∃ t, exec (.resetRelease .supply) s = .next t
      ∧ t.hub = (if s.hub.nrstHold then { s.hub with supplyHold := false }
                 else { s.hub with supplyHold := false, startUp := true, startCount := 0 })
      ∧ sameBut [.hub] s t)
    ∧ (∀ s : State, s.hub.nrstHold = true → ∃ t, exec (.resetRelease .nrst) s = .next t
      ∧ t.hub = (if s.hub.supplyHold then { s.hub with nrstHold := false, nrstLow := 0 }
                 else { s.hub with nrstHold := false, nrstLow := 0, startUp := true, startCount := 0 })
      ∧ sameBut [.hub] s t)
    ∧ ∀ s : State, s.hub.startUp = true → s.hub.supplyHold = false → s.hub.nrstHold = false → s.hub.startCount = 3200 →
      ∃ t, exec .endOfStartUp s = .next t ∧ t.hub = { s.hub with startUp := false } ∧ sameBut [.hub] s t

/-- REFCLK while the hub is held samples nRST alone; where nRST holds the hub and is high at the edge, it has risen, and its
release comes first; in start-up REFCLK also counts the period, and the detectors follow their lines while the tick counter
is held (R168, R169). -/
def Obligations.RefclkInResetAndStartUp : Prop :=
  (∀ (a b : Level) (s : State), s.hub.nrstHold = true → ∃ x, exec (.refclkRisingEdge a b .high) s = .refused x)
    ∧ (∀ (a b r : Level) (s : State), s.hub.held = true → (s.hub.nrstHold = true → r = .low) → ¬ fourthLow s.hub r →
      ∃ t, exec (.refclkRisingEdge a b r) s = .next t
        ∧ t.hub = { s.hub with nrstLow := nrstRun s.hub r } ∧ sameBut [.hub] s t)
    ∧ ∀ (a b r : Level) (s : State), s.hub.held = false → s.hub.startUp = true → s.hub.startCount < 3200 →
      ¬ fourthLow s.hub r →
      ∃ t, exec (.refclkRisingEdge a b r) s = .next t
        ∧ t.hub = { s.hub with nrstLow := nrstRun s.hub r, startCount := s.hub.startCount + 1 }
        ∧ t.timebase = { s.timebase with detectorA := ⟨a, 0⟩, detectorB := ⟨b, 0⟩ } ∧ sameBut [.hub, .timebase] s t

/-- REFCLK outside reset and start-up, when nothing is due before it and it does not take the fourth low sample of nRST: the
prescaler and the tick counter advance, each detector takes its sample by the table of R165, recognised edges go on with the
tick of that REFCLK edge, and one more period of the converter's phase has run. Where the counter advances at that very edge,
an edge may carry either value (R161, R165, R166; log 10). While something is due, REFCLK comes after it: an edge handed to the
Scheduler (R167), an expiry (R162), the end of a phase (R161), the end of start-up (R169). -/
def Obligations.RefclkCountsAndFilters : Prop :=
  (∀ (a b r : Level) (s : State), s.hub.held = false → s.hub.startUp = false → ¬ fourthLow s.hub r → refclkFree s r →
    s.timebase.prescaler ≤ 15 → s.timebase.detectorA.changes ≤ 2 → s.timebase.detectorB.changes ≤ 2 →
    ∃ t, exec (.refclkRisingEdge a b r) s = .next t
      ∧ t.hub = { s.hub with nrstLow := nrstRun s.hub r }
      ∧ (s.timebase.prescaler < 15 →
          t.timebase.prescaler = s.timebase.prescaler + 1 ∧ t.timebase.tick = s.timebase.tick)
      ∧ (s.timebase.prescaler = 15 → t.timebase.prescaler = 0 ∧ t.timebase.tick = s.timebase.tick + 1)
      ∧ detectorRule s.timebase.detectorA a t.timebase.detectorA
      ∧ detectorRule s.timebase.detectorB b t.timebase.detectorB
      ∧ (∃ k : Tick, (k = s.timebase.tick ∨ k = t.timebase.tick)
          ∧ t.timebase.edges = edgeRule s.timebase.detectorA .a a k ++ edgeRule s.timebase.detectorB .b b k)
      ∧ t.conv = { s.conv with
          phasePeriods := if s.conv.phase = .idle then s.conv.phasePeriods else s.conv.phasePeriods + 1 }
      ∧ sameBut [.hub, .timebase, .converter, .free] s t)
    ∧ ∀ (a b r : Level) (s : State), ¬ refclkFree s r → ∃ x, exec (.refclkRisingEdge a b r) s = .refused x

/-! ### Frames -/

/-- A fall of nSELp begins a frame in HEAD with the status byte and the result register as they stand, and the first bit of
the status byte on SDOp; a held hub takes no frame (R171, R172, R174, R181, R182). -/
def Obligations.FrameStartSamplesStatusAndResult : Prop :=
  ∀ (p : Port) (s : State), s.ports[p].nsel = .high →
    ∃ t, exec (.frameStart p) s = .next t ∧ t.ports[p].nsel = .low ∧ sameBut [.select p, .frame p] s t
      ∧ (s.hub.held = true → t.ports[p].frame = s.ports[p].frame)
      ∧ (s.hub.held = false → t.ports[p].frame =
          { Frame.idle with
            state := .head, startUp := s.hub.startUp, status := s.statusByte p, resultAtFall := s.ports[p].result
            sdo := wireBit (s.statusByte p) 0 })

/-- The fields of the status byte (R174, R192), the numbers of the result codes (R192), SDOp at high impedance in IDLE
(R171, R181), and the byte that a frame drives at each position (R173). -/
def Obligations.StatusByteAndOutput : Prop :=
  (∀ (s : State) (p : Port),
      (s.hub.startUp = true → s.statusByte p = 0x01)
        ∧ (s.hub.startUp = false →
          (s.statusByte p).extractLsb' 6 2
              = (match s.sessions[p].state with | .closed => 1#2 | .opened => 2#2 | .lapsed => 3#2)
            ∧ (s.statusByte p).getLsbD 5 = (s.isOpen p && !s.events[p].records.isEmpty)
            ∧ ((s.statusByte p).getLsbD 4 = true ↔
                s.isOpen p = true ∧ ∃ q, s.queues[p] = some q ∧ q.watermark ≤ q.records.length)
            ∧ ((s.statusByte p).getLsbD 3 = true ↔ s.isOpen p = true ∧ ∃ q, s.queues[p] = some q ∧ q.hold = true)
            ∧ (s.statusByte p).getLsbD 2 = s.sessions[p].demandOutstanding
            ∧ (s.statusByte p).extractLsb' 0 2 = 1#2)
        ∧ (s.ports[p].frame.state = .idle → s.sdo p = none)
        ∧ (s.ports[p].frame.state ≠ .idle → s.sdo p = some s.ports[p].frame.sdo))
    ∧ ([ResultCode.ok, .cut, .unknown, .noSession, .badState, .badArg, .busy, .noRoom, .quota, .inUse, .notOwner, .starting,
          .lost].map ResultCode.byte = [0, 1, 2, 3, 4, 5, 6, 7, 8, 9, 10, 11, 12])
    ∧ ∀ f : Frame,
      (f.state ≠ .dead →
          (f.bytesDone = 0 → f.outByte = f.status)
            ∧ (f.bytesDone = 1 → f.outByte = f.resultAtFall.code.byte)
            ∧ (f.bytesDone = 2 → f.outByte = f.resultAtFall.detail)
            ∧ (3 ≤ f.bytesDone → f.state = .reply → f.outByte = f.reply.getD (f.bytesDone - f.replyAt) 0)
            ∧ (3 ≤ f.bytesDone → f.state ≠ .reply → f.outByte = 0))
        ∧ (f.state = .dead → f.outByte = 0)

/-- nATTNp is low exactly when the event queue is not empty, the sample queue is at watermark, or the session is LAPSED
(R188). -/
def Obligations.AttentionLine : Prop :=
  ∀ (s : State) (p : Port), s.natt p = .low ↔
    (s.events[p].records ≠ [] ∨ (∃ q, s.queues[p] = some q ∧ q.watermark ≤ q.records.length)
      ∨ s.sessions[p].state = .lapsed)

/-- The edges of SCKp outside a reply (R171, R172, R173, R176, R182; log 9). An IDLE port ignores them. A rising edge shifts SDIp
in, the most significant bit first, and every 8th completes a byte: byte 0 is decoded and the session noted; argument bytes
are kept until k of them have completed; in SPILL and DEAD bytes only count. A falling edge drives the next bit of the byte
in progress onto SDOp. Byte 0, k, the kind and the need of a session are those of the command table of 9.4 and R147: 28 codes,
and every other byte is unknown. (The last argument byte of a streaming command takes it as well: SnapshotStreamsReadTheirReply
and QueueStreamsAreChecked.) -/
def Obligations.BytesBeforeTheReply : Prop :=
  (∀ (p : Port) (s : State),
      let f := s.ports[p].frame
      (∀ sdi : Level, s.ports[p].sck = .low → f.state ≠ .reply →
        ∃ t, exec (.byteCompletion p (.rise sdi)) s = .next t ∧ sameBut [.clock p, .frame p] s t ∧ t.ports[p].sck = .high
          ∧ (f.state = .idle → t.ports[p].frame = f)
          ∧ (f.state ≠ .idle → f.bits < 7 →
              t.ports[p].frame = { f with bits := f.bits + 1, shiftIn := shiftedIn f sdi })
          ∧ (f.state = .head → f.bits = 7 → t.ports[p].frame = { f with
              bits := 0, shiftIn := 0, code := some (shiftedIn f sdi), bytesDone := 1, sessionNoted := s.isOpen p
              state :=
                match Command.ofCode (shiftedIn f sdi) with
                | none => .spill
                | some c =>
                  if f.startUp then .spill
                  else if 0 < c.argCount then .arguments
                  else if c.kind = .streaming then .reply else .spill })
          ∧ (∀ c, f.state = .arguments → f.bits = 7 → f.command = some c →
              c.kind ≠ .streaming ∨ f.args.length + 1 < c.argCount → t.ports[p].frame = { f with
              bits := 0, shiftIn := 0, args := f.args ++ [shiftedIn f sdi], bytesDone := f.bytesDone + 1
              state := if f.args.length + 1 < c.argCount then .arguments else .spill })
          ∧ (f.state = .spill ∨ f.state = .dead → f.bits = 7 →
              t.ports[p].frame = { f with bits := 0, shiftIn := 0, bytesDone := f.bytesDone + 1 }))
      ∧ (s.ports[p].sck = .high → f.state ≠ .reply →
        ∃ t, exec (.byteCompletion p .fall) s = .next t ∧ sameBut [.clock p, .frame p] s t ∧ t.ports[p].sck = .low
          ∧ (f.state = .idle → t.ports[p].frame = f)
          ∧ (f.state ≠ .idle → t.ports[p].frame = { f with sdo := wireBit f.outByte f.bits })))
    ∧ (∀ b : Byte, (Command.ofCode b).map (fun c => (c, c.argCount, c.kind, c.needsSession))
        = (commandTable.find? fun x => decide (x.1 = b)).map fun x => x.2)
    ∧ ∀ (f : Frame) (b : Byte),
      ((List.range 8).foldl (fun (g : Frame) (i : Nat) => { g with shiftIn := shiftedIn g (wireBit b i) })
        { f with shiftIn := 0 }).shiftIn = b

/-- The edges of SCKp in a reply (R112, R139, R171, R172, R173; log 9). A rising edge shifts, and at the 8th a reply that streams
no record passes to SPILL when it is exhausted; the one that completes the last byte of a marked record removes it
(ShiftedRecordsAreRemoved). A falling edge drives the next bit; the one that starts byte 3 of a queue stream takes its first
decision, on the head record or the end marker. -/
def Obligations.BytesOfAReply : Prop :=
  ∀ (p : Port) (s : State),
    let f := s.ports[p].frame
    f.state = .reply →
      (∀ sdi : Level, s.ports[p].sck = .low → ¬ (streamsRecord s p = true ∧ lastByteDue p s) →
        ∃ t, exec (.byteCompletion p (.rise sdi)) s = .next t ∧ sameBut [.clock p, .frame p] s t ∧ t.ports[p].sck = .high
          ∧ (f.bits < 7 → t.ports[p].frame = { f with bits := f.bits + 1, shiftIn := shiftedIn f sdi })
          ∧ (f.bits = 7 → t.ports[p].frame = { f with
              bits := 0, shiftIn := 0, bytesDone := f.bytesDone + 1
              state :=
                if f.taken ≠ .no ∧ streamsRecord s p = false ∧ 3 ≤ f.bytesDone
                    ∧ f.replyAt + f.reply.length ≤ f.bytesDone + 1 then .spill
                else .reply }))
      ∧ (s.ports[p].sck = .high →
        (f.bytesDone ≠ 3 ∨ f.bits ≠ 0 ∨ (f.taken ≠ .accepted ∧ f.taken ≠ .no)
            ∨ (f.command ≠ some .readTime ∧ f.command ≠ some .takeSamples ∧ f.command ≠ some .takeEvents) →
          ∃ t, exec (.byteCompletion p .fall) s = .next t ∧ sameBut [.clock p, .frame p] s t ∧ t.ports[p].sck = .low
            ∧ t.ports[p].frame = { f with sdo := wireBit f.outByte f.bits })
        ∧ (∀ q, f.command = some .takeSamples → f.taken = .accepted → f.bytesDone = 3 → f.bits = 0 →
          s.queues[p] = some q → q.shifting = false → f.removed < (arg s p 0).toNat →
          ∃ t, exec (.byteCompletion p .fall) s = .next t ∧ sameBut [.clock p, .frame p, .queue p] s t
            ∧ t.ports[p].sck = .low
            ∧ (∀ r rest, q.records = r :: rest → t.queues[p] = some { q with shifting := true }
                ∧ t.ports[p].frame = { f with reply := r.bytes, replyAt := 3, sdo := wireBit (r.bytes.getD 0 0) 0 })
            ∧ (q.records = [] → t.queues[p] = some q
                ∧ t.ports[p].frame = { f with reply := [0], replyAt := 3, sdo := .low }))
        ∧ (f.command = some .takeEvents → f.taken = .accepted → f.bytesDone = 3 → f.bits = 0 →
          s.events[p].shifting = false → f.removed < (arg s p 0).toNat →
          ∃ t, exec (.byteCompletion p .fall) s = .next t ∧ sameBut [.clock p, .frame p, .events p] s t
            ∧ t.ports[p].sck = .low
            ∧ (∀ e rest, s.events[p].records = e :: rest → t.events[p] = { s.events[p] with shifting := true }
                ∧ t.ports[p].frame = { f with reply := e.bytes, replyAt := 3, sdo := wireBit (e.bytes.getD 0 0) 0 })
            ∧ (s.events[p].records = [] → t.events[p] = s.events[p]
                ∧ t.ports[p].frame = { f with reply := [0], replyAt := 3, sdo := .low })))

/-- A NOP frame leaves the result register; an uncut end outside start-up restarts the lease of an OPEN session
(R152, R171, R177, R182). -/
def Obligations.NopKeepsTheResultAndTheSession : Prop :=
  ∀ (p : Port) (mid : Bool) (s : State), s.ports[p].nsel = .low → s.ports[p].frame.state = .spill →
    s.ports[p].frame.command = some .nop → (mid = true ↔ s.ports[p].frame.bits ≠ 0) →
    ∃ t, exec (.nop p mid) s = .next t ∧ sameBut [.select p, .frame p, .expiry p] s t
      ∧ t.ports[p].nsel = .high ∧ t.ports[p].frame = Frame.idle
      ∧ (if mid = false ∧ s.ports[p].frame.startUp = false ∧ s.isOpen p = true then
          t.sessions[p].expiry = some (leaseTick s p)
        else t.sessions[p].expiry = s.sessions[p].expiry)

/-- The frame ends that no command acts at: UNKNOWN, CUT, STARTING and LOST (R171, R176, R177, R178, R179, R180, R182). -/
def Obligations.FrameEndsWithoutACommand : Prop :=
  (∀ (p : Port) (mid : Bool) (b : Byte) (s : State), s.ports[p].nsel = .low → s.ports[p].frame.state = .spill →
      s.ports[p].frame.startUp = false → s.ports[p].frame.code = some b → Command.ofCode b = none →
      (mid = true ↔ s.ports[p].frame.bits ≠ 0) →
      ∃ t, exec (.unknown p mid) s = .next t
        ∧ (mid = false → rises p ⟨.unknown, b⟩ s t ∧ sameBut (riseParts p) s t)
        ∧ (mid = true → t.ports[p].nsel = .high ∧ t.ports[p].frame = Frame.idle ∧ t.ports[p].result = ⟨.cut, 0⟩
            ∧ sameBut [.select p, .frame p, .result p] s t))
    ∧ (∀ (p : Port) (mid : Bool) (s : State), s.ports[p].nsel = .low → (mid = true ↔ s.ports[p].frame.bits ≠ 0) →
      (s.ports[p].frame.state = .head
        ∨ (s.ports[p].frame.startUp = false ∧ s.ports[p].frame.state = .arguments
            ∧ ∃ c, s.ports[p].frame.command = some c ∧ s.ports[p].frame.args.length < c.argCount)
        ∨ (mid = true ∧ ∃ c, c.kind = .setting ∧ argumentsWhole p c s)) →
      ∃ t, exec (.cut p mid) s = .next t ∧ t.ports[p].nsel = .high ∧ t.ports[p].frame = Frame.idle
        ∧ t.ports[p].result = ⟨.cut, 0⟩ ∧ sameBut [.select p, .frame p, .result p] s t)
    ∧ (∀ (p : Port) (s : State), s.ports[p].nsel = .low → s.ports[p].frame.state = .spill →
      s.ports[p].frame.startUp = true → s.ports[p].frame.command ≠ some .nop →
      ∃ t, exec (.starting p) s = .next t ∧ t.ports[p].nsel = .high ∧ t.ports[p].frame = Frame.idle
        ∧ t.ports[p].result = ⟨.starting, 0⟩ ∧ sameBut [.select p, .frame p, .result p] s t)
    ∧ ∀ (p : Port) (s : State), s.ports[p].nsel = .low → s.ports[p].frame.state = .dead →
      s.ports[p].frame.startUp = false →
      ∃ t, exec (.lost p) s = .next t ∧ t.ports[p].nsel = .high ∧ t.ports[p].frame = Frame.idle
        ∧ t.ports[p].result = ⟨.lost, 0⟩ ∧ sameBut [.select p, .frame p, .result p] s t

/-- A rise of nSELp that finds the port IDLE changes nothing but the pin, whichever frame end is asked for (R181). -/
def Obligations.RiseOnAnIdlePort : Prop :=
  ∀ (i : Instr) (p : Port) (s : State),
    ((∃ c, settingOf i = some (p, c)) ∨ (∃ mid, i = .nop p mid ∨ i = .unknown p mid ∨ i = .cut p mid)
      ∨ i = .starting p ∨ i = .lost p ∨ i = .streamingFrameEnd p) →
    s.ports[p].nsel = .low → s.ports[p].frame = Frame.idle →
    ∃ t, exec i s = .next t ∧ t.ports[p].nsel = .high ∧ sameBut [.select p] s t

/-! ### Sessions -/

/-- A set command that needs a session is refused with NO_SESSION while the session is not OPEN (R147, R178). -/
def Obligations.SetCommandsNeedAnOpenSession : Prop :=
  ∀ (i : Instr) (p : Port) (c : Command) (s : State), settingOf i = some (p, c) → c ≠ .openSession →
    settingDue p c s → s.isOpen p = false → ∃ t, exec i s = .next t ∧ refusedWith p .noSession s t

/-- OPEN is refused with BAD_STATE, BAD_ARG or NO_ROOM in that order; else it gives a new session and queue
(R101, R103, R148, R149). -/
def Obligations.OpenGivesASession : Prop :=
  ∀ (p : Port) (s : State), settingDue p .openSession s →
    ∃ t, exec (.openSession p) s = .next t
      ∧ (s.isOpen p = true → refusedWith p .badState s t)
      ∧ (s.isOpen p = false → ¬ openArgsOk s p → refusedWith p .badArg s t)
      ∧ (s.isOpen p = false → openArgsOk s p → s.unreserved < 16 * (arg s p 1).toNat → refusedWith p .noRoom s t)
      ∧ (s.isOpen p = false → openArgsOk s p → 16 * (arg s p 1).toNat ≤ s.unreserved →
        accepted p (BitVec.ofNat 8 p.val) [.session p, .queue p, .unreserved, .staging p, .readBuf p] s t
          ∧ t.sessions[p].state = .opened ∧ t.sessions[p].lease = arg s p 0
          ∧ t.unreserved = s.unreserved - 16 * (arg s p 1).toNat
          ∧ t.queues[p] = some
            { records := [], depth := 16 * (arg s p 1).toNat, watermark := (arg s p 3).toNat
              policy := if arg s p 2 = 0 then .dropNewest else .dropOldest, hold := false, pendingGap := 0
              shifting := false }
          ∧ t.ports[p].staging = stagingDefaults ∧ t.ports[p].readBuf = readBufferZero)

/-- CLOSE of an OPEN session takes everything back and leaves the session CLOSED (R151, R155, R156). -/
def Obligations.CloseTakesEverythingBack : Prop :=
  ∀ (p : Port) (s : State), settingDue p .closeSession s → s.isOpen p = true →
    ∃ t, exec (.closeSession p) s = .next t ∧ takenBack p .closed s t
      ∧ t.ports[p].nsel = .high ∧ t.ports[p].frame = Frame.idle ∧ t.ports[p].result = ⟨.ok, 0⟩
      ∧ sameBut ([.select p, .frame p, .result p] ++ sessionParts p) s t

/-- The expiry of a lease takes everything back, leaves the session LAPSED with nATTNp low and the result register as it
was, and makes a frame whose command needs the session DEAD: the bit on SDOp stays, and every bit that a later falling edge
of SCKp drives is 0 (R153, R155, R162, R173, R180; log 7). -/
def Obligations.LeaseExpiryLapsesTheSession : Prop :=
  ∀ (p : Port) (s : State) (d : Tick), s.isOpen p = true → s.sessions[p].expiry = some d →
    (s.now - d).toNat < 2147483648 →
    ∃ t, exec (.leaseExpiry p) s = .next t ∧ takenBack p .lapsed s t ∧ t.natt p = .low
      ∧ sameBut ([.frame p] ++ sessionParts p) s t
      ∧ (∀ c, s.ports[p].frame.state ≠ .idle → s.ports[p].frame.startUp = false →
          s.ports[p].frame.command = some c → c.needsSession = true → s.ports[p].frame.sessionNoted = true →
          t.ports[p].frame = { s.ports[p].frame with state := .dead } ∧ t.sdo p = s.sdo p
            ∧ t.ports[p].frame.outByte = 0)
      ∧ (s.ports[p].frame.state = .idle ∨ s.ports[p].frame.startUp = true ∨ s.ports[p].frame.sessionNoted = false
          ∨ s.ports[p].frame.command = none ∨ (∃ c, s.ports[p].frame.command = some c ∧ c.needsSession = false) →
          t.ports[p].frame = s.ports[p].frame)

/-! ### The port's own commands -/

/-- STAGE_CLEAR sets the port's staging record to the defaults, or is refused with NO_SESSION (R185). -/
def Obligations.StageClearSetsTheDefaults : Prop :=
  ∀ (p : Port) (s : State), settingDue p .stageClear s →
    ∃ t, exec (.stageClear p) s = .next t
      ∧ (s.isOpen p = false → refusedWith p .noSession s t)
      ∧ (s.isOpen p = true → accepted p 0 [.staging p] s t
          ∧ t.ports[p].staging = #v[0x00000000#32, 0x000003E8#32, 0x00000000#32, 0x00000FFF#32])

/-- STAGE_WORD replaces one staging word, the first data byte its most significant, or is refused (R186). -/
def Obligations.StageWordReplacesOneWord : Prop :=
  ∀ (p : Port) (s : State), settingDue p .stageWord s →
    ∃ t, exec (.stageWord p) s = .next t
      ∧ (s.isOpen p = false → refusedWith p .noSession s t)
      ∧ (s.isOpen p = true → 3 < (arg s p 0).toNat → refusedWith p .badArg s t)
      ∧ (∀ i : Fin 4, s.isOpen p = true → (arg s p 0).toNat = i.val → accepted p (arg s p 0) [.staging p] s t
          ∧ t.ports[p].staging
            = s.ports[p].staging.set i (arg s p 1 ++ arg s p 2 ++ arg s p 3 ++ arg s p 4))

/-- The snapshot streams READ_BUFFER, WATCH_READ, READ_CHANNEL and PEEK_LATEST, taken at the rising edge of SCKp that completes
their argument byte, which their rows and BYTE_COMPLETION name (log 5): the checks, and the whole reply as it then stands, byte
by byte (R85, R90, R126, R171, R172, R179, R187; spec/11, 11.5 and 11.8). The length of a refused reply is the model's
(log 18). -/
def Obligations.SnapshotStreamsReadTheirReply : Prop :=
  ∀ (i : Instr) (p : Port) (c : Command) (sdi : Level) (s : State), takesAtEdge i p c sdi →
    c ∈ [Command.readBuffer, .watchRead, .readChannel, .peekLatest] → takingDue p c s →
    let f := s.ports[p].frame
    let a := (shiftedIn f sdi).toNat
    let completed : Frame := { f with
      bits := 0, shiftIn := 0, args := [shiftedIn f sdi], bytesDone := f.bytesDone + 1, state := .reply }
    let refusedBy (code : ResultCode) (t : State) : Prop :=
      ∃ k : Nat, t.ports[p].frame = { completed with
        taken := .refused code, reply := List.replicate k 0, replyAt := 3 }
    let replies (l : List Byte) (t : State) : Prop :=
      t.ports[p].frame = { completed with taken := .accepted, reply := l, replyAt := 3 }
    ∃ t, exec i s = .next t ∧ sameBut [.clock p, .frame p] s t ∧ t.ports[p].sck = .high
      ∧ (c = .readBuffer ∨ c = .watchRead → s.isOpen p = false → refusedBy .noSession t)
      ∧ (c = .readBuffer → s.isOpen p = true → 31 < a → refusedBy .badArg t)
      ∧ (c = .readBuffer → s.isOpen p = true → a ≤ 31 → replies (s.ports[p].readBuf.toList.drop a) t)
      ∧ (c = .watchRead → s.isOpen p = true → 7 < a → refusedBy .badArg t)
      ∧ (∀ w : Fin 8, c = .watchRead → s.isOpen p = true → a = w.val →
          let x := s.watches[p][w]
          let term (y : Term) : BitVec 2 := match y with | .any => 0 | .clear => 1 | .set => 2 | .never => 3
          replies
            [BitVec.ofNat 8 w.val, (match x.state with | .empty => 0 | .disarmed => 1 | .armed => 2 | .spent => 3),
              (match x.selector with | .slot n => BitVec.ofNat 8 n.val | .anyOwn => 0xFF),
              term x.pattern.above ++ term x.pattern.below ++ term x.pattern.crossed ++ term x.pattern.overrun,
              term x.pattern.preempted ++ term x.pattern.clipped ++ 0#4,
              (match x.mode with | .once => 0x00 | .repeating => 0x80)
                + (match x.action with | .notify => 0 | .capture => 1 | .hold => 2),
              BitVec.ofNat 8 x.captureSlot.val, BitVec.ofNat 8 (x.hitCount / 256), BitVec.ofNat 8 x.hitCount] t)
      ∧ (c = .readChannel ∨ c = .peekLatest → 19 < a → refusedBy .badArg t)
      ∧ (∀ d : Fin 16, c = .readChannel → a = d.val →
          let x := s.channels[d]
          replies
            [BitVec.ofNat 8 d.val,
              (match x.mode with | .single => 0#1 | .paired => 1#1) ++ (match x.span with | .full => 0#1 | .half => 1#1)
                ++ BitVec.ofBool (decide (∃ e : Fin 16, e.val + 1 = d.val ∧ d.val % 2 = 1 ∧ s.channels[e].mode = .paired))
                ++ 0#3 ++ x.extraSettle,
              (match x.holder with | some q => BitVec.ofNat 8 q.val | none => 0xFF), x.generation] t)
      ∧ (c = .readChannel → 16 ≤ a → a ≤ 19 → replies [shiftedIn f sdi, 0, 0xFF, 0] t)
      ∧ ∀ d : Channel, c = .peekLatest → a = d.val →
          let x := s.latest[d]
          replies
            [BitVec.ofNat 8 d.val, (if x.valid then 0x80 else 0) + (if x.clipped then 0x40 else 0),
              0#4 ++ x.value.extractLsb' 8 4, x.value.extractLsb' 0 8, x.timestamp.extractLsb' 24 8,
              x.timestamp.extractLsb' 16 8, x.timestamp.extractLsb' 8 8, x.timestamp.extractLsb' 0 8, x.generation,
              x.count.extractLsb' 8 8, x.count.extractLsb' 0 8,
              (match x.producer with | some q => BitVec.ofNat 8 q.val | none => 0xFF)] t

/-- READ_TIME samples the tick counter once, at the falling edge of SCKp that starts byte 3, which BYTE_COMPLETION names as
well: bytes 3 to 6 carry it, most significant byte first (R164, R171; log 5). -/
def Obligations.ReadTimeSamplesTheTick : Prop :=
  ∀ (i : Instr) (p : Port) (s : State), i = .readTime p ∨ i = .byteCompletion p .fall →
    s.ports[p].frame.state = .reply → s.ports[p].frame.command = some .readTime → s.ports[p].frame.taken = .no →
    s.ports[p].frame.bytesDone = 3 → s.ports[p].frame.bits = 0 → s.ports[p].sck = .high →
    ∃ t, exec i s = .next t ∧ sameBut [.clock p, .frame p] s t ∧ t.ports[p].sck = .low
      ∧ t.ports[p].frame = { s.ports[p].frame with
          taken := .accepted, replyAt := 3
          reply := [s.timebase.tick.extractLsb' 24 8, s.timebase.tick.extractLsb' 16 8,
            s.timebase.tick.extractLsb' 8 8, s.timebase.tick.extractLsb' 0 8]
          sdo := if s.timebase.tick.getLsbD 31 then .high else .low }

/-- TAKE_SAMPLES and TAKE_EVENTS are checked at the rising edge of SCKp that completes their max byte, which their rows and
BYTE_COMPLETION name (log 5); nothing is removed then (R111, R139, R171, R172; the length of a refused reply is log 18). -/
def Obligations.QueueStreamsAreChecked : Prop :=
  ∀ (i : Instr) (p : Port) (c : Command) (sdi : Level) (s : State), takesAtEdge i p c sdi →
    (c = .takeSamples ∨ c = .takeEvents) → takingDue p c s →
    let f := s.ports[p].frame
    ∃ t, exec i s = .next t ∧ sameBut [.clock p, .frame p] s t ∧ t.ports[p].sck = .high
      ∧ ∃ k : Nat, t.ports[p].frame = { f with
          bits := 0, shiftIn := 0, args := [shiftedIn f sdi], bytesDone := f.bytesDone + 1, state := .reply
          replyAt := 3, reply := List.replicate k 0
          taken :=
            if s.isOpen p = false then .refused .noSession
            else if shiftedIn f sdi = 0 then .refused .badArg else .accepted }

/-! ### The Subscription Table -/

/-- The refusals that MODIFY, DELETE, STOP, RUN, START_BURST and FETCH share: BAD_ARG above 31, NOT_OWNER for a slot that is
FREE or another's, and, but for FETCH, BAD_STATE for a RETIRING slot (R11, R15, R18, R19, R20, R21, R23). -/
def Obligations.SlotCommandRefusals : Prop :=
  ∀ (i : Instr) (p : Port) (c : Command) (s : State), settingOf i = some (p, c) →
    c ∈ [Command.modify, .delete, .stop, .run, .startBurst, .fetch] → settingDue p c s → s.isOpen p = true →
    ∃ t, exec i s = .next t
      ∧ (31 < (arg s p 0).toNat → refusedWith p .badArg s t)
      ∧ (∀ n : SlotNo, (arg s p 0).toNat = n.val → s.slots[n].state = .free ∨ s.slots[n].owner ≠ some p →
          refusedWith p .notOwner s t)
      ∧ (∀ n : SlotNo, (arg s p 0).toNat = n.val → s.slots[n].owner = some p → s.slots[n].state = .retiring →
          c ≠ .fetch → refusedWith p .badState s t)

/-- The refusals of INSTALL, in the order of R12; which staging records fail is R6, R7, R191 and spec/11, 11.4. -/
def Obligations.InstallRefusals : Prop :=
  (∀ w : Vector (BitVec 32) 4, stagedOf w = none ↔ stagingBad w)
    ∧ ∀ (p : Port) (s : State), settingDue p .install s → s.isOpen p = true →
      ∃ t, exec (.install p) s = .next t
        ∧ ((31 < (arg s p 0).toNat ∧ arg s p 0 ≠ 0xFF) ∨ stagingBad s.ports[p].staging → refusedWith p .badArg s t)
        ∧ ∀ x, stagedOf s.ports[p].staging = some x → (arg s p 0).toNat ≤ 31 ∨ arg s p 0 = 0xFF →
          (s.oddPartner x.settings.channel = true → refusedWith p .inUse s t)
          ∧ (s.oddPartner x.settings.channel = false → 16 ≤ ownedCount s p → refusedWith p .quota s t)
          ∧ (s.oddPartner x.settings.channel = false → ownedCount s p < 16 →
            (arg s p 0 = 0xFF → (∀ n : SlotNo, s.slots[n].state ≠ .free) → refusedWith p .noRoom s t)
            ∧ ∀ n : SlotNo, (arg s p 0).toNat = n.val →
              (s.slots[n].state = .retiring → refusedWith p .busy s t)
              ∧ (s.slots[n].state = .stopped ∨ s.slots[n].state = .running → refusedWith p .inUse s t))

/-- INSTALL takes the FREE slot it names, or the lowest FREE slot for ANY, and sets it up (R13, R14). -/
def Obligations.InstallSetsUpTheSlot : Prop :=
  ∀ (p : Port) (s : State) (x : Staged) (n : SlotNo), settingDue p .install s → s.isOpen p = true →
    stagedOf s.ports[p].staging = some x → s.oddPartner x.settings.channel = false → ownedCount s p < 16 →
    s.slots[n].state = .free →
    ((arg s p 0).toNat = n.val ∨ (arg s p 0 = 0xFF ∧ ∀ m : SlotNo, m < n → s.slots[m].state ≠ .free)) →
    ∃ t, exec (.install p) s = .next t ∧ accepted p (BitVec.ofNat 8 n.val) [.slot n] s t
      ∧ t.slots[n] =
        { state := if x.startRunning = true ∧ x.settings.kind ≠ .burst then .running else .stopped
          owner := some p, settings := x.settings, sequence := 0, decimationCount := 0, windowPos := .unset
          overrunCount := 0, burstRemaining := 0
          nextDue := if x.startRunning = true ∧ x.settings.kind = .periodic then s.now + ticks22 x.settings.phase else 0
          edgeCount := 0, pendingFlag := false, inFlightFlag := false }

/-- The settings that a staging record gives, field by field as 11.4 places them, with every setting that does not apply to
the kind zero; and they come back when the words of their FETCH snapshot are staged: no bit of a setting is dropped
(R6, R7, R23, R191, spec/11, 11.4). -/
def Obligations.SnapshotWordsStageTheSameSettings : Prop :=
  ∀ (w : Vector (BitVec 32) 4) (x : Staged), stagedOf w = some x →
    stagedOf #v[settingsWord0 x.settings, settingsWord1 x.settings, settingsWord2 x.settings, settingsWord3 x.settings]
        = some { x with startRunning := false }
      ∧ x.startRunning = w[0].getLsbD 29
      ∧ w[0].extractLsb' 30 2
        = (match x.settings.kind with | .periodic => 0#2 | .triggered => 1#2 | .burst => 2#2 | .listen => 3#2)
      ∧ x.settings.channel.val = (w[0].extractLsb' 16 8).toNat ∧ x.settings.label = w[0].extractLsb' 0 16
      ∧ x.settings.decimation = (w[1].extractLsb' 22 4).toNat + 1
      ∧ x.settings.window = (if w[3].getLsbD 31 then some ⟨w[3].extractLsb' 16 12, w[3].extractLsb' 0 12⟩ else none)
      ∧ (x.settings.kind ≠ .listen →
          x.settings.sampleCode = w[0].extractLsb' 27 2 ∧ x.settings.avgCode = w[0].extractLsb' 24 3)
      ∧ (x.settings.kind = .listen → x.settings.sampleCode = 0 ∧ x.settings.avgCode = 0)
      ∧ (x.settings.kind = .periodic →
          x.settings.period = w[1].extractLsb' 0 22 ∧ x.settings.phase = w[2].extractLsb' 0 22)
      ∧ (x.settings.kind ≠ .periodic → x.settings.period = 0 ∧ x.settings.phase = 0)
      ∧ (x.settings.kind = .triggered →
          x.settings.line = (if w[1].getLsbD 30 then .b else .a)
            ∧ w[2].extractLsb' 30 2 = (match x.settings.edge with | .rise => 0#2 | .fall => 1#2 | .both => 2#2)
            ∧ x.settings.divider = (w[1].extractLsb' 26 4).toNat + 1)
      ∧ (x.settings.kind ≠ .triggered →
          x.settings.line = .a ∧ x.settings.edge = .rise ∧ x.settings.dividerCode = 0)
      ∧ (x.settings.kind = .burst → x.settings.burstCount = (w[2].extractLsb' 22 8).toNat + 1)
      ∧ (x.settings.kind ≠ .burst → x.settings.burstCode = 0)

/-- MODIFY of an own slot in STOPPED or RUNNING: BAD_ARG, IN_USE, or its pending entry leaves, its in-flight entry is
superseded and its settings are replaced (R15, R16, R17). -/
def Obligations.ModifyReplacesTheSettings : Prop :=
  ∀ (p : Port) (s : State) (n : SlotNo), settingDue p .modify s → s.isOpen p = true → (arg s p 0).toNat = n.val →
    s.slots[n].owner = some p → s.slots[n].state = .stopped ∨ s.slots[n].state = .running →
    ∃ t, exec (.modify p) s = .next t
      ∧ (stagedOf s.ports[p].staging = none → refusedWith p .badArg s t)
      ∧ ∀ x, stagedOf s.ports[p].staging = some x →
        (x.settings.kind ≠ s.slots[n].settings.kind → refusedWith p .badArg s t)
        ∧ (x.settings.kind = s.slots[n].settings.kind → s.oddPartner x.settings.channel = true →
            refusedWith p .inUse s t)
        ∧ (x.settings.kind = s.slots[n].settings.kind → s.oddPartner x.settings.channel = false →
          accepted p (BitVec.ofNat 8 n.val) [.slot n, .requests, .converter] s t
          ∧ t.requests = (if s.slots[n].pendingFlag then withoutSlot n s.requests else s.requests)
          ∧ t.conv =
            (if s.slots[n].inFlightFlag then
              { s.conv with record := s.conv.record.map fun r => { r with
                  subs := r.subs.map fun y => if y.sub.origin = .slot n then { y with marked := true } else y } }
             else s.conv)
          ∧ t.slots[n] = { s.slots[n] with
              settings := x.settings, decimationCount := 0, edgeCount := 0, windowPos := .unset, pendingFlag := false
              state :=
                if s.slots[n].state = .running ∧ x.settings.kind = .burst then .stopped else s.slots[n].state
              burstRemaining :=
                if s.slots[n].state = .running ∧ x.settings.kind = .burst then 0 else s.slots[n].burstRemaining
              nextDue :=
                if s.slots[n].state = .running ∧ x.settings.kind = .periodic then s.now + ticks22 x.settings.phase
                else s.slots[n].nextDue })

/-- STOP of an own slot: a STOPPED slot is left as it is; a RUNNING slot stops, its pending entry is withdrawn, and a burst
ends (R18). -/
def Obligations.StopStopsTheSlot : Prop :=
  ∀ (p : Port) (s : State) (n : SlotNo), settingDue p .stop s → s.isOpen p = true → (arg s p 0).toNat = n.val →
    s.slots[n].owner = some p →
    ∃ t, exec (.stop p) s = .next t
      ∧ (s.slots[n].state = .stopped → accepted p (BitVec.ofNat 8 n.val) [] s t)
      ∧ (s.slots[n].state = .running → accepted p (BitVec.ofNat 8 n.val) [.slot n, .requests] s t
        ∧ t.requests = (if s.slots[n].pendingFlag then withoutSlot n s.requests else s.requests)
        ∧ t.slots[n] = { s.slots[n] with
            state := .stopped, pendingFlag := false
            burstRemaining := if s.slots[n].settings.kind = .burst then 0 else s.slots[n].burstRemaining })

/-- RUN of an own slot: BAD_STATE for a BURST slot; a RUNNING slot is left as it is; a STOPPED slot runs (R19). -/
def Obligations.RunRunsTheSlot : Prop :=
  ∀ (p : Port) (s : State) (n : SlotNo), settingDue p .run s → s.isOpen p = true → (arg s p 0).toNat = n.val →
    s.slots[n].owner = some p → s.slots[n].state = .stopped ∨ s.slots[n].state = .running →
    ∃ t, exec (.run p) s = .next t
      ∧ (s.slots[n].settings.kind = .burst → refusedWith p .badState s t)
      ∧ (s.slots[n].settings.kind ≠ .burst → s.slots[n].state = .running →
          accepted p (BitVec.ofNat 8 n.val) [] s t)
      ∧ (s.slots[n].settings.kind ≠ .burst → s.slots[n].state = .stopped →
        accepted p (BitVec.ofNat 8 n.val) [.slot n] s t
        ∧ t.slots[n] = { s.slots[n] with
            state := .running, decimationCount := 0, windowPos := .unset
            nextDue :=
              if s.slots[n].settings.kind = .periodic then s.now + ticks22 s.slots[n].settings.phase
              else s.slots[n].nextDue
            edgeCount := if s.slots[n].settings.kind = .triggered then 0 else s.slots[n].edgeCount })

/-- START_BURST of an own slot in STOPPED or RUNNING: BAD_STATE unless it is a STOPPED BURST slot; else it runs a new burst
and its request waits, or is selected at once when the converter is IDLE and the list was empty (R20, R38, R42, R46, R57,
R58). -/
def Obligations.StartBurstStartsABurst : Prop :=
  ∀ (p : Port) (s : State) (n : SlotNo), settingDue p .startBurst s → s.isOpen p = true → (arg s p 0).toNat = n.val →
    s.slots[n].owner = some p → s.slots[n].state = .stopped ∨ s.slots[n].state = .running →
    ∃ t, exec (.startBurst p) s = .next t
      ∧ (s.slots[n].settings.kind ≠ .burst ∨ s.slots[n].state = .running → refusedWith p .badState s t)
      ∧ (s.slots[n].settings.kind = .burst → s.slots[n].state = .stopped →
        let e : PendingEntry :=
          { channel := s.slots[n].settings.channel, sampleCode := s.slots[n].settings.sampleCode
            avgCode := s.slots[n].settings.avgCode, subs := [⟨.slot n, .routine, s.now, false, false⟩]
            preemptCount := 0 }
        let y : Slot := { s.slots[n] with
          state := .running, burstRemaining := s.slots[n].settings.burstCode.toNat + 1, decimationCount := 0
          windowPos := .unset }
        accepted p (BitVec.ofNat 8 n.val) [.slot n, .requests, .converter] s t
          ∧ (s.conv.phase ≠ .idle ∨ s.requests ≠ [] → t.requests = s.requests ++ [e] ∧ t.conv = s.conv
              ∧ t.slots[n] = { y with pendingFlag := true })
          ∧ (s.conv.phase = .idle → s.requests = [] → t.requests = []
              ∧ (∃ u, accepted p (BitVec.ofNat 8 n.val) [.slot n, .requests] s u ∧ u.requests = [e]
                ∧ u.slots[n] = { y with pendingFlag := true } ∧ selectedFrom u t)
              ∧ (∃ r, t.conv.record = some r ∧ r.subs = [⟨⟨.slot n, .routine, s.now, false, false⟩, false⟩])
              ∧ t.slots[n] = { y with pendingFlag := false, inFlightFlag := true }))

/-- DELETE of an own slot in STOPPED or RUNNING: its pending entry is withdrawn, it becomes FREE, or RETIRING with its owner
kept while it is in flight, and the port's ARMED and SPENT watches on it are disarmed (R21, R125). -/
def Obligations.DeleteFreesTheSlot : Prop :=
  ∀ (p : Port) (s : State) (n : SlotNo), settingDue p .delete s → s.isOpen p = true → (arg s p 0).toNat = n.val →
    s.slots[n].owner = some p → s.slots[n].state = .stopped ∨ s.slots[n].state = .running →
    ∃ t, exec (.delete p) s = .next t
      ∧ accepted p (BitVec.ofNat 8 n.val) ([.slot n, .requests] ++ (List.finRange 8).map fun w => .watch p w) s t
      ∧ t.requests = (if s.slots[n].pendingFlag then withoutSlot n s.requests else s.requests)
      ∧ t.slots[n] =
        (if s.slots[n].inFlightFlag then { s.slots[n] with state := .retiring, pendingFlag := false } else Slot.free)
      ∧ ∀ w : Fin 8, t.watches[p][w] =
        (if s.watches[p][w].selector = .slot n ∧ (s.watches[p][w].state = .armed ∨ s.watches[p][w].state = .spent) then
          { s.watches[p][w] with state := .disarmed }
         else s.watches[p][w])

/-- FETCH of an own slot that is not FREE puts its snapshot into the whole read buffer, byte by byte as 11.4 lays it out
(R23, R187; spec/11, 11.4). -/
def Obligations.FetchFillsTheReadBuffer : Prop :=
  ∀ (p : Port) (s : State) (n : SlotNo), settingDue p .fetch s → s.isOpen p = true → (arg s p 0).toNat = n.val →
    s.slots[n].owner = some p → s.slots[n].state ≠ .free →
    ∃ t, exec (.fetch p) s = .next t ∧ accepted p (BitVec.ofNat 8 n.val) [.readBuf p] s t
      ∧ let b := t.ports[p].readBuf
        let x := s.slots[n]
        let w0 := b[2] ++ b[3] ++ b[4] ++ b[5]
        let w1 := b[6] ++ b[7] ++ b[8] ++ b[9]
        let w2 := b[10] ++ b[11] ++ b[12] ++ b[13]
        let w3 := b[14] ++ b[15] ++ b[16] ++ b[17]
        b[0] = BitVec.ofNat 8 n.val
          ∧ b[1] = BitVec.ofBool x.inFlightFlag ++ BitVec.ofBool x.pendingFlag ++ BitVec.ofNat 2 p.val ++ 0#2
              ++ (match x.state with | .free => 0#2 | .stopped => 1#2 | .running => 2#2 | .retiring => 3#2)
          ∧ w0 = (match x.settings.kind with | .periodic => 0#2 | .triggered => 1#2 | .burst => 2#2 | .listen => 3#2)
              ++ 0#1 ++ x.settings.sampleCode ++ x.settings.avgCode ++ BitVec.ofNat 8 x.settings.channel.val
              ++ x.settings.label
          ∧ w1 = 0#1 ++ (match x.settings.line with | .a => 0#1 | .b => 1#1) ++ x.settings.dividerCode
              ++ x.settings.decimationCode ++ x.settings.period
          ∧ w2 = (match x.settings.edge with | .rise => 0#2 | .fall => 1#2 | .both => 2#2) ++ x.settings.burstCode
              ++ x.settings.phase
          ∧ w3 = (match x.settings.window with
              | none => 0#32
              | some y => 1#1 ++ 0#3 ++ y.low ++ 0#4 ++ y.high)
          ∧ b[18] ++ b[19] = x.sequence ∧ b[20] ++ b[21] = BitVec.ofNat 16 x.overrunCount
          ∧ b[22] = BitVec.ofNat 8 x.decimationCount
          ∧ b[23] = (match x.windowPos with | .unset => 0 | .below => 1 | .inside => 2 | .above => 3)
          ∧ b[24] ++ b[25] = BitVec.ofNat 16 x.burstRemaining
          ∧ b[26] = (if x.settings.kind = .triggered then BitVec.ofNat 8 x.edgeCount else 0)
          ∧ b[27] ++ b[28] ++ b[29] ++ b[30] = (if x.settings.kind = .periodic then x.nextDue else 0#32)
          ∧ b[31] = 0

/-! ### Channels -/

/-- CLAIM and RELEASE of a channel: the shared checks, then the holder (R76, R77, R78). -/
def Obligations.ClaimAndReleaseSetTheHolder : Prop :=
  (∀ (p : Port) (s : State), settingDue p .claim s → s.isOpen p = true →
      ∃ t, exec (.claim p) s = .next t
        ∧ (15 < (arg s p 0).toNat → refusedWith p .badArg s t)
        ∧ ∀ c : Fin 16, (arg s p 0).toNat = c.val →
          (s.oddPartner (externalChannel c) = true → refusedWith p .inUse s t)
          ∧ (∀ q : Port, s.channels[c].holder = some q → q ≠ p → refusedWith p .inUse s t)
          ∧ (s.oddPartner (externalChannel c) = false →
              s.channels[c].holder = none ∨ s.channels[c].holder = some p →
              accepted p (arg s p 0) [.channel c] s t
                ∧ t.channels[c] = { s.channels[c] with holder := some p }))
    ∧ ∀ (p : Port) (s : State), settingDue p .release s → s.isOpen p = true →
      ∃ t, exec (.release p) s = .next t
        ∧ (15 < (arg s p 0).toNat → refusedWith p .badArg s t)
        ∧ ∀ c : Fin 16, (arg s p 0).toNat = c.val →
          (s.channels[c].holder ≠ some p → refusedWith p .notOwner s t)
          ∧ (s.channels[c].holder = some p → accepted p (arg s p 0) [.channel c] s t
              ∧ t.channels[c] = { s.channels[c] with holder := none })

/-- The refusals of CONFIGURE, and the CONFIGURE that changes nothing, in the order of R76 and R81; the configuration byte is
that of 11.3. -/
def Obligations.ConfigureRefusals : Prop :=
  (∀ (b : Byte) (mode : Mode) (span : Span) (extra : BitVec 2), configOfByte b = some (mode, span, extra) ↔
      b.extractLsb' 2 4 = 0#4 ∧ (mode = .paired ↔ b.getLsbD 7 = true) ∧ (span = .half ↔ b.getLsbD 6 = true)
        ∧ extra = b.extractLsb' 0 2)
    ∧ ∀ (p : Port) (s : State), settingDue p .configure s → s.isOpen p = true →
    ∃ t, exec (.configure p) s = .next t
      ∧ (15 < (arg s p 0).toNat ∨ (arg s p 1).extractLsb' 2 4 ≠ 0#4 → refusedWith p .badArg s t)
      ∧ ∀ (c : Fin 16) (mode : Mode) (span : Span) (extra : BitVec 2), (arg s p 0).toNat = c.val →
        configOfByte (arg s p 1) = some (mode, span, extra) →
        (s.channels[c].holder ≠ some p → refusedWith p .notOwner s t)
        ∧ (s.channels[c].holder = some p → mode = .paired → c.val % 2 = 1 → refusedWith p .badArg s t)
        ∧ (∀ d : Fin 16, s.channels[c].holder = some p → mode = .paired → c.val % 2 = 0 → d.val = c.val + 1 →
            ((∃ n : SlotNo, s.slots[n].state ≠ .free ∧ s.slots[n].settings.channel.val = d.val)
              ∨ ∃ q : Port, q ≠ p ∧ s.channels[d].holder = some q) → refusedWith p .inUse s t)
        ∧ (s.channels[c].holder = some p → s.channels[c].mode = mode → s.channels[c].span = span →
            s.channels[c].extraSettle = extra →
            (mode = .paired → c.val % 2 = 0 ∧ ∀ d : Fin 16, d.val = c.val + 1 →
              (∀ n : SlotNo, s.slots[n].state ≠ .free → s.slots[n].settings.channel.val ≠ d.val)
                ∧ (s.channels[d].holder = none ∨ s.channels[d].holder = some p)) →
            accepted p s.channels[c].generation [] s t)

/-- A CONFIGURE that changes a channel's record: the record and its generation, the release of the odd partner's claim, the
converter's identity and reconfigured condition, and CHANNEL_CHANGED to the other sessions with a live slot on the channel
(R82, R83, R56, R67). -/
def Obligations.ConfigureChangesTheChannel : Prop :=
  ∀ (p : Port) (s : State) (c : Fin 16) (mode : Mode) (span : Span) (extra : BitVec 2),
    settingDue p .configure s → s.isOpen p = true → (arg s p 0).toNat = c.val →
    configOfByte (arg s p 1) = some (mode, span, extra) → s.channels[c].holder = some p →
    ¬ (s.channels[c].mode = mode ∧ s.channels[c].span = span ∧ s.channels[c].extraSettle = extra) →
    (mode = .paired → c.val % 2 = 0 ∧ ∀ d : Fin 16, d.val = c.val + 1 →
      (∀ n : SlotNo, s.slots[n].state ≠ .free → s.slots[n].settings.channel.val ≠ d.val)
        ∧ (s.channels[d].holder = none ∨ s.channels[d].holder = some p)) →
    ∃ t, exec (.configure p) s = .next t
      ∧ accepted p (s.channels[c].generation + 1) ([.converter] ++ allChannels ++ allEvents) s t
      ∧ t.channels[c] = { s.channels[c] with
          mode := mode, span := span, extraSettle := extra, generation := s.channels[c].generation + 1 }
      ∧ (∀ d : Fin 16, d ≠ c → t.channels[d] =
          (if mode = .paired ∧ d.val = c.val + 1 then { s.channels[d] with holder := none } else s.channels[d]))
      ∧ t.conv = { s.conv with
          identity := s.conv.identity.filter fun x => decide (x.1 ≠ externalChannel c)
          record := s.conv.record.map fun r =>
            if r.channel = externalChannel c then { r with reconfigured := true } else r }
      ∧ ∀ q : Port, t.events[q] =
        (if q ≠ p ∧ s.isOpen q = true
            ∧ ∃ n : SlotNo, s.slots[n].owner = some q ∧ (s.slots[n].state = .stopped ∨ s.slots[n].state = .running)
              ∧ s.slots[n].settings.channel = externalChannel c then
          s.events[q].offer { kind := .channelChanged, subject := BitVec.ofNat 8 c.val, tick := s.now
                              detail := (s.channels[c].generation + 1).setWidth 16 }
         else s.events[q])

/-! ### Sample delivery -/

/-- RELEASE_QUEUE clears the hold and reports the pending-gap count, which it keeps (R109). -/
def Obligations.ReleaseQueueClearsTheHold : Prop :=
  ∀ (p : Port) (s : State) (q : SampleQueue), settingDue p .releaseQueue s → s.isOpen p = true →
    s.queues[p] = some q →
    ∃ t, exec (.releaseQueue p) s = .next t ∧ accepted p (BitVec.ofNat 8 q.pendingGap) [.queue p] s t
      ∧ t.queues[p] = some { q with hold := false }

/-- READ_NOW: BAD_ARG, BUSY and IN_USE in order; else the port's demand is outstanding and its request waits, or is selected at
once when the converter is IDLE and the list was empty (R39, R42, R46, R57, R58, R115). -/
def Obligations.ReadNowAddsADemand : Prop :=
  ∀ (p : Port) (s : State), settingDue p .readNow s → s.isOpen p = true →
    ∃ t, exec (.readNow p) s = .next t
      ∧ (19 < (arg s p 0).toNat ∨ 3 < (arg s p 1).toNat ∨ 4 < (arg s p 2).toNat → refusedWith p .badArg s t)
      ∧ ∀ c : Channel, (arg s p 0).toNat = c.val → (arg s p 1).toNat ≤ 3 → (arg s p 2).toNat ≤ 4 →
        (s.sessions[p].demandOutstanding = true → refusedWith p .busy s t)
        ∧ (s.sessions[p].demandOutstanding = false → s.oddPartner c = true → refusedWith p .inUse s t)
        ∧ (s.sessions[p].demandOutstanding = false → s.oddPartner c = false →
          let e : PendingEntry :=
            { channel := c, sampleCode := (arg s p 1).setWidth 2, avgCode := (arg s p 2).setWidth 3
              subs := [⟨.demand p, .demand, s.now, false, false⟩], preemptCount := 0 }
          accepted p (arg s p 0) [.demand p, .requests, .converter] s t
          ∧ t.sessions[p].demandOutstanding = true
          ∧ (s.conv.phase ≠ .idle ∨ s.requests ≠ [] → t.conv = s.conv ∧ t.requests = s.requests ++ [e])
          ∧ (s.conv.phase = .idle → s.requests = [] → t.requests = []
              ∧ (∃ u, accepted p (arg s p 0) [.demand p, .requests] s u ∧ u.requests = [e]
                ∧ u.sessions[p].demandOutstanding = true ∧ selectedFrom u t)
              ∧ ∃ r, t.conv.record = some r ∧ r.subs = [⟨⟨.demand p, .demand, s.now, false, false⟩, false⟩]))

/-- The rising edge of SCKp that completes the last byte of a marked record, which BYTE_COMPLETION and the removal's row name
(log 5), in the sample queue and in the event queue: the head leaves, the removed count goes up, and the next decision begins
the next record or the end marker (R112, R139, R140, R171). The bytes of a record are those of 11.6 and 11.7. -/
def Obligations.ShiftedRecordsAreRemoved : Prop :=
  (∀ (i : Instr) (p : Port) (sdi : Level) (s : State) (q : SampleQueue) (r : SampleRecord) (rest : List SampleRecord),
      i = .sampleRecordRemoved ⟨p, sdi⟩ ∨ i = .byteCompletion p (.rise sdi) → s.ports[p].sck = .low →
      s.ports[p].frame.state = .reply → s.ports[p].frame.command = some .takeSamples → s.queues[p] = some q →
      q.shifting = true → q.records = r :: rest → lastByteDue p s →
      let begins (l : List Byte) : Frame := { s.ports[p].frame with
        bits := 0, shiftIn := 0, bytesDone := s.ports[p].frame.bytesDone + 1
        removed := s.ports[p].frame.removed + 1, reply := l, replyAt := s.ports[p].frame.bytesDone + 1 }
      ∃ t, exec i s = .next t ∧ sameBut [.clock p, .frame p, .queue p] s t ∧ t.ports[p].sck = .high
        ∧ (∀ r' more, rest = r' :: more → s.ports[p].frame.removed + 1 < (arg s p 0).toNat →
            t.queues[p] = some { q with records := rest, shifting := true } ∧ t.ports[p].frame = begins r'.bytes)
        ∧ (rest = [] ∨ (arg s p 0).toNat ≤ s.ports[p].frame.removed + 1 →
            t.queues[p] = some { q with records := rest, shifting := false } ∧ t.ports[p].frame = begins [0]))
    ∧ (∀ (i : Instr) (p : Port) (sdi : Level) (s : State) (e : EventRecord) (rest : List EventRecord),
      i = .eventRecordRemoved ⟨p, sdi⟩ ∨ i = .byteCompletion p (.rise sdi) → s.ports[p].sck = .low →
      s.ports[p].frame.state = .reply → s.ports[p].frame.command = some .takeEvents → s.events[p].shifting = true →
      s.events[p].records = e :: rest → lastByteDue p s →
      let begins (l : List Byte) : Frame := { s.ports[p].frame with
        bits := 0, shiftIn := 0, bytesDone := s.ports[p].frame.bytesDone + 1
        removed := s.ports[p].frame.removed + 1, reply := l, replyAt := s.ports[p].frame.bytesDone + 1 }
      ∃ t, exec i s = .next t ∧ sameBut [.clock p, .frame p, .events p] s t ∧ t.ports[p].sck = .high
        ∧ let left := if e.kind = .overflow ∧ 0 < s.events[p].lateLoss then
              rest ++ [{ kind := .overflow, subject := 0, tick := s.events[p].lateTick
                         detail := BitVec.ofNat 16 s.events[p].lateLoss }] else rest
          t.events[p].records = left
          ∧ t.events[p].lateLoss = (if e.kind = .overflow ∧ 0 < s.events[p].lateLoss then 0 else s.events[p].lateLoss)
          ∧ (∀ e' more, left = e' :: more → s.ports[p].frame.removed + 1 < (arg s p 0).toNat →
              t.events[p].shifting = true ∧ t.ports[p].frame = begins e'.bytes)
          ∧ (left = [] ∨ (arg s p 0).toNat ≤ s.ports[p].frame.removed + 1 →
              t.events[p].shifting = false ∧ t.ports[p].frame = begins [0]))
    ∧ (∀ r : SampleRecord,
      let gap := decide (0 < r.dropped)
      let top : Byte := if gap then 0x80 else 0x00
      let c := r.conditions
      let common := [BitVec.ofNat 8 r.channel.val, 0#4 ++ r.value.extractLsb' 8 4, r.value.extractLsb' 0 8,
        r.timestamp.extractLsb' 24 8, r.timestamp.extractLsb' 16 8, r.timestamp.extractLsb' 8 8,
        r.timestamp.extractLsb' 0 8]
      let last := [r.generation, BitVec.ofBool c.above ++ BitVec.ofBool c.below ++ BitVec.ofBool c.crossed
        ++ BitVec.ofBool c.overrun ++ BitVec.ofBool c.preempted ++ BitVec.ofBool c.clipped ++ BitVec.ofBool r.merged
        ++ BitVec.ofBool gap] ++ (if gap then [BitVec.ofNat 8 r.dropped] else [])
      r.bytes = match r.origin with
        | .slot n label delay sequence =>
          [top + 1, BitVec.ofNat 8 n.val, label.extractLsb' 8 8, label.extractLsb' 0 8] ++ common
            ++ [delay.extractLsb' 8 8, delay.extractLsb' 0 8, sequence.extractLsb' 8 8, sequence.extractLsb' 0 8] ++ last
        | .listen n label sequence =>
          [top + 2, BitVec.ofNat 8 n.val, label.extractLsb' 8 8, label.extractLsb' 0 8] ++ common
            ++ [sequence.extractLsb' 8 8, sequence.extractLsb' 0 8] ++ last
        | .demand delay => [top + 3, 0xFF] ++ common ++ [delay.extractLsb' 8 8, delay.extractLsb' 0 8] ++ last)
    ∧ ∀ e : EventRecord, e.bytes =
      [(match e.kind with
          | .watchHit => 1 | .captureRefused => 2 | .queueHeld => 3 | .burstDone => 4 | .slotReleased => 5
          | .channelChanged => 6 | .overflow => 7),
        e.subject, e.tick.extractLsb' 24 8, e.tick.extractLsb' 16 8, e.tick.extractLsb' 8 8, e.tick.extractLsb' 0 8,
        e.detail.extractLsb' 8 8, e.detail.extractLsb' 0 8]

/-- The end of a streaming frame, on a byte boundary or not: OK with the command's detail, or the failing code with detail
0; a record in the middle of being shifted out stays at the head, unmarked; the lease restarts
(R111, R113, R139, R140, R152, R179, R187). -/
def Obligations.StreamingFrameEndReportsTheStream : Prop :=
  ∀ (p : Port) (s : State) (c : Command), s.ports[p].nsel = .low →
    s.ports[p].frame.state = .reply ∨ s.ports[p].frame.state = .spill → s.ports[p].frame.startUp = false →
    s.ports[p].frame.command = some c → c.kind = .streaming → s.ports[p].frame.args.length = c.argCount →
    ∃ t, exec (.streamingFrameEnd p) s = .next t
      ∧ (∀ code, s.ports[p].frame.taken = .refused code → rises p ⟨code, 0⟩ s t)
      ∧ (s.ports[p].frame.taken = .accepted ∨ c = .readTime ∧ s.ports[p].frame.taken = .no →
        (c = .takeSamples ∨ c = .takeEvents → rises p ⟨.ok, BitVec.ofNat 8 s.ports[p].frame.removed⟩ s t)
        ∧ (c = .readBuffer → rises p
            ⟨.ok, BitVec.ofNat 8 (min (s.ports[p].frame.bytesDone - 3) (32 - (arg s p 0).toNat))⟩ s t)
        ∧ (c = .peekLatest ∨ c = .readChannel ∨ c = .watchRead → rises p ⟨.ok, arg s p 0⟩ s t)
        ∧ (c = .readTime → rises p ⟨.ok, 0⟩ s t))
      ∧ sameBut (riseParts p ++ (if c = .takeSamples then [.queue p] else if c = .takeEvents then [.events p] else []))
          s t
      ∧ (c = .takeSamples → t.queues[p] = s.queues[p].map fun q => { q with shifting := false })
      ∧ (c = .takeEvents → t.events[p].shifting = false
        ∧ (s.events[p].shifting = false → t.events[p] = s.events[p])
        ∧ (∀ e rest, s.events[p].shifting = true → s.events[p].records = e :: rest → e.kind = .overflow →
            t.events[p].records = { e with
              detail := BitVec.ofNat 16 (min 65535 (e.detail.toNat + s.events[p].lateLoss)) } :: rest
            ∧ t.events[p].lateLoss = 0)
        ∧ (∀ e rest, s.events[p].shifting = true → s.events[p].records = e :: rest → e.kind ≠ .overflow →
            t.events[p].records = s.events[p].records))

/-- A record offered to a sample queue: hold, space, DROP_NEWEST and DROP_OLDEST (R104, R105, R106, R107). -/
def Obligations.OfferedRecordsMeetHoldSpaceAndPolicy : Prop :=
  ∀ (q : SampleQueue) (holdable : Bool) (r : SampleRecord),
    (q.hold = true → holdable = true →
        q.offer holdable r = { q with pendingGap := min 255 (q.pendingGap + 1) })
      ∧ (q.hold = false ∨ holdable = false →
        (q.records.length < q.depth → q.offer holdable r = { q with
            pendingGap := 0
            records := q.records ++ [if 0 < q.pendingGap then { r with dropped := q.pendingGap } else r] })
        ∧ (q.depth ≤ q.records.length → q.policy = .dropNewest →
            q.offer holdable r = { q with pendingGap := min 255 (q.pendingGap + 1) })
        ∧ (∀ v f rest, q.depth ≤ q.records.length → q.policy = .dropOldest → q.shifting = false →
            q.records = v :: f :: rest → q.offer holdable r = { q with
              pendingGap := 0
              records := { f with dropped := min 255 (f.dropped + (1 + v.dropped)) } :: rest
                ++ [if 0 < q.pendingGap then { r with dropped := q.pendingGap } else r] })
        ∧ (∀ h v f rest, q.depth ≤ q.records.length → q.policy = .dropOldest → q.shifting = true →
            q.records = h :: v :: f :: rest → q.offer holdable r = { q with
              pendingGap := 0
              records := h :: { f with dropped := min 255 (f.dropped + (1 + v.dropped)) } :: rest
                ++ [if 0 < q.pendingGap then { r with dropped := q.pendingGap } else r] }))

/-! ### Watches and events -/

/-- WATCH_SET: the checks of R120 and R121 in order; else the watch is written whole, DISARMED, with hit count 0. Which blocks
fail step 1 of R121, and what the others say, is 11.5, bit by bit. -/
def Obligations.WatchSetWritesTheWatch : Prop :=
  (∀ b0 b1 b2 b3 b4 : Byte, watchBlock b0 b1 b2 b3 b4 = none ↔
      (31 < b0.toNat ∧ b0 ≠ 0xFF) ∨ b2.extractLsb' 0 4 ≠ 0#4 ∨ b3.extractLsb' 2 5 ≠ 0#5 ∨ b3.extractLsb' 0 2 = 3#2)
  ∧ (∀ (b0 b1 b2 b3 b4 : Byte) (x : WatchBlock), watchBlock b0 b1 b2 b3 b4 = some x →
      let term (y : Term) : BitVec 2 := match y with | .any => 0 | .clear => 1 | .set => 2 | .never => 3
      (∀ n, x.selector = .slot n ↔ b0.toNat = n.val) ∧ (x.selector = .anyOwn ↔ b0 = 0xFF)
        ∧ term x.pattern.above = b1.extractLsb' 6 2 ∧ term x.pattern.below = b1.extractLsb' 4 2
        ∧ term x.pattern.crossed = b1.extractLsb' 2 2 ∧ term x.pattern.overrun = b1.extractLsb' 0 2
        ∧ term x.pattern.preempted = b2.extractLsb' 6 2 ∧ term x.pattern.clipped = b2.extractLsb' 4 2
        ∧ x.mode = (if b3.getLsbD 7 then .repeating else .once)
        ∧ (match x.action with | .notify => 0#2 | .capture => 1#2 | .hold => 2#2) = b3.extractLsb' 0 2
        ∧ x.captureByte = b4)
  ∧ ∀ (p : Port) (s : State), settingDue p .watchSet s → s.isOpen p = true →
    let block := watchBlock (arg s p 1) (arg s p 2) (arg s p 3) (arg s p 4) (arg s p 5)
    let own (n : SlotNo) : Prop :=
      s.slots[n].owner = some p ∧ (s.slots[n].state = .stopped ∨ s.slots[n].state = .running)
    ∃ t, exec (.watchSet p) s = .next t
      ∧ (7 < (arg s p 0).toNat ∨ block = none → refusedWith p .badArg s t)
      ∧ ∀ (i : Fin 8) (b : WatchBlock), (arg s p 0).toNat = i.val → block = some b →
        (∀ n, b.selector = .slot n → ¬ own n → refusedWith p .notOwner s t)
        ∧ ((∀ n, b.selector = .slot n → own n) → b.action = .capture →
            (∀ n : SlotNo, b.captureByte.toNat = n.val → own n → s.slots[n].settings.kind ≠ .burst) →
            refusedWith p .badArg s t)
        ∧ (∀ k : SlotNo, (∀ n, b.selector = .slot n → own n) →
            (b.action = .capture → b.captureByte.toNat = k.val ∧ own k ∧ s.slots[k].settings.kind = .burst) → (b.action ≠ .capture → k = 0) →
            accepted p (arg s p 0) [.watch p i] s t
              ∧ t.watches[p][i] =
                { state := .disarmed, selector := b.selector, pattern := b.pattern, mode := b.mode
                  action := b.action, captureSlot := k, hitCount := 0 })

/-- WATCH_ARM, WATCH_DISARM and WATCH_CLEAR of a watch (R120, R122, R123, R124). -/
def Obligations.WatchArmDisarmAndClear : Prop :=
  ∀ (i : Instr) (p : Port) (c : Command) (s : State), settingOf i = some (p, c) →
    c ∈ [Command.watchArm, .watchDisarm, .watchClear] → settingDue p c s → s.isOpen p = true →
    ∃ t, exec i s = .next t
      ∧ (7 < (arg s p 0).toNat → refusedWith p .badArg s t)
      ∧ ∀ w : Fin 8, (arg s p 0).toNat = w.val →
        (c ≠ .watchClear → s.watches[p][w].state = .empty → refusedWith p .badState s t)
        ∧ (c = .watchArm → s.watches[p][w].state ≠ .empty → accepted p (arg s p 0) [.watch p w] s t
            ∧ t.watches[p][w] = { s.watches[p][w] with state := .armed })
        ∧ (c = .watchDisarm → s.watches[p][w].state ≠ .empty → accepted p (arg s p 0) [.watch p w] s t
            ∧ t.watches[p][w] = { s.watches[p][w] with state := .disarmed })
        ∧ (c = .watchClear → accepted p (arg s p 0) [.watch p w] s t ∧ t.watches[p][w] = Watch.empty)

/-- When a watch matches a conversion of slot n (R128). -/
def Obligations.WatchMatches : Prop :=
  ∀ (w : Watch) (n : SlotNo) (c : Conditions), w.isMatch n c = true ↔
    w.state = .armed ∧ (w.selector = .anyOwn ∨ w.selector = .slot n)
      ∧ ∀ x ∈ [(w.pattern.above, c.above), (w.pattern.below, c.below), (w.pattern.crossed, c.crossed),
            (w.pattern.overrun, c.overrun), (w.pattern.preempted, c.preempted), (w.pattern.clipped, c.clipped)],
          match x.1 with
          | .any => True
          | .clear => x.2 = false
          | .set => x.2 = true
          | .never => False

/-- A match of watch w of port p on slot n, carried out: the hit count, WATCH_HIT with the slot and its conditions, then the
action, then SPENT for mode ONCE. HOLD sends QUEUE_HELD when hold was clear. CAPTURE starts a STOPPED own BURST slot as of
the completion tick, and is refused with reason 1 for a RUNNING one and 2 for any other slot
(R129, R130, R131, R132, R133). -/
def Obligations.WatchMatchIsCarriedOut : Prop :=
  ∀ (s : State) (p : Port) (w : Fin 8) (n : SlotNo) (tick : Tick) (c : Conditions), s.isOpen p = true →
    let x := s.watches[p][w]
    let t := carryOutMatch s p w n tick c
    let hit : EventRecord :=
      { kind := .watchHit, subject := BitVec.ofNat 8 w.val, tick := tick
        detail := BitVec.ofNat 8 n.val ++ flagsByte c false false }
    let b := x.captureSlot
    let refusal (reason : Byte) : EventRecord :=
      { kind := .captureRefused, subject := BitVec.ofNat 8 w.val, tick := tick
        detail := BitVec.ofNat 8 b.val ++ reason }
    t.watches[p][w] = { x with
        hitCount := min 65535 (x.hitCount + 1), state := if x.mode = .once then .spent else x.state }
      ∧ (x.action = .notify → t.events[p] = s.events[p].offer hit ∧ sameBut [.watch p w, .events p] s t)
      ∧ (∀ q, x.action = .hold → s.queues[p] = some q → sameBut [.watch p w, .events p, .queue p] s t
        ∧ t.queues[p] = some { q with hold := true }
        ∧ t.events[p] =
          (if q.hold then s.events[p].offer hit
           else (s.events[p].offer hit).offer
            { kind := .queueHeld, subject := BitVec.ofNat 8 w.val, tick := tick
              detail := BitVec.ofNat 16 q.records.length }))
      ∧ (x.action = .capture →
        (s.slots[b].owner = some p → s.slots[b].settings.kind = .burst → s.slots[b].state = .stopped →
          sameBut [.watch p w, .events p, .slot b, .requests] s t ∧ t.events[p] = s.events[p].offer hit
            ∧ t.slots[b] = { s.slots[b] with
                state := .running, burstRemaining := s.slots[b].settings.burstCode.toNat + 1, decimationCount := 0
                windowPos := .unset, pendingFlag := true }
            ∧ t.requests = s.requests ++
              [{ channel := s.slots[b].settings.channel, sampleCode := s.slots[b].settings.sampleCode
                 avgCode := s.slots[b].settings.avgCode, subs := [⟨.slot b, .routine, tick, false, false⟩]
                 preemptCount := 0 }])
        ∧ (s.slots[b].owner = some p → s.slots[b].settings.kind = .burst → s.slots[b].state = .running →
          sameBut [.watch p w, .events p] s t ∧ t.events[p] = (s.events[p].offer hit).offer (refusal 1))
        ∧ (s.slots[b].owner ≠ some p ∨ s.slots[b].settings.kind ≠ .burst ∨ s.slots[b].state = .free
            ∨ s.slots[b].state = .retiring →
          sameBut [.watch p w, .events p] s t ∧ t.events[p] = (s.events[p].offer hit).offer (refusal 2)))

/-- An event offered to an event queue (R138, R140). -/
def Obligations.OfferedEventsMeetOverflow : Prop :=
  ∀ (q : EventQueue) (e : EventRecord),
    ((∀ x ∈ q.records, x.kind ≠ .overflow) → q.records.length < 15 →
        q.offer e = { q with records := q.records ++ [e] })
      ∧ ((∀ x ∈ q.records, x.kind ≠ .overflow) → 15 ≤ q.records.length →
        q.offer e = { q with
          records := q.records ++ [{ kind := .overflow, subject := 0, tick := e.tick, detail := 1 }] })
      ∧ (∀ front o, q.records = front ++ [o] → (∀ x ∈ front, x.kind ≠ .overflow) → o.kind = .overflow →
        ¬ (q.shifting = true ∧ front = []) → q.offer e = { q with
          records := front ++ [{ o with detail := BitVec.ofNat 16 (min 65535 (o.detail.toNat + 1)) }] })
      ∧ ∀ o rest, q.records = o :: rest → o.kind = .overflow → q.shifting = true → q.offer e = { q with
          lateLoss := min 65535 (q.lateLoss + 1), lateTick := if q.lateLoss = 0 then e.tick else q.lateTick }

/-! ### The Scheduler and the converter -/

/-- The expiry of a period timer: next due advances by one period; the overrun rule while a request waits; else a ROUTINE
request that waits, or is selected at once when the converter is IDLE and the list was empty (R35, R37, R42, R46, R57, R58). -/
def Obligations.PeriodTimerExpiryMakesARequest : Prop :=
  ∀ (n : SlotNo) (s : State), s.slots[n].state = .running → s.slots[n].settings.kind = .periodic →
    (s.now - s.slots[n].nextDue).toNat < 2147483648 →
    let x := s.slots[n]
    let sub : SubEntry := ⟨.slot n, .routine, x.nextDue, false, false⟩
    let due := x.nextDue + ticks22 x.settings.period
    let e : PendingEntry :=
      { channel := x.settings.channel, sampleCode := x.settings.sampleCode, avgCode := x.settings.avgCode
        subs := [sub], preemptCount := 0 }
    ∃ t, exec (.periodTimerExpiry n) s = .next t ∧ sameBut [.slot n, .requests, .converter] s t
      ∧ (x.pendingFlag = true → t.conv = s.conv
        ∧ t.slots[n] = { x with nextDue := due, overrunCount := min 65535 (x.overrunCount + 1) }
        ∧ t.requests = s.requests.map fun e =>
            { e with subs := e.subs.map fun y => if y.origin = .slot n then { y with overrun := true } else y })
      ∧ (x.pendingFlag = false → s.conv.phase ≠ .idle ∨ s.requests ≠ [] → t.conv = s.conv
        ∧ t.slots[n] = { x with nextDue := due, pendingFlag := true } ∧ t.requests = s.requests ++ [e])
      ∧ (x.pendingFlag = false → s.conv.phase = .idle → s.requests = [] → t.requests = []
        ∧ t.slots[n] = { x with nextDue := due, pendingFlag := false, inFlightFlag := true }
        ∧ (∃ u, sameBut [.slot n, .requests] s u ∧ u.requests = [e]
          ∧ u.slots[n] = { x with nextDue := due, pendingFlag := true } ∧ selectedFrom u t)
        ∧ ∃ r, t.conv.record = some r ∧ r.subs = [⟨sub, false⟩])

/-- A recognised edge, taken whole (R36, R37). First the edge counters of the RUNNING TRIGGERED slots that it counts for
advance; at its divider a counter is set to 0, and the slot's TRIGGERED entry joins the list, due at the edge tick, or the
overrun rule applies while a request of the slot waits. Then, if an entry was added, one decision is made: a selection at
an IDLE converter (R42), the abandonment of a conversion of a lower class whose preempt count is below 3 (R47, R48, R50, R51,
R22, R70), or none. -/
def Obligations.TriggerEdgeCountsAndPreempts : Prop :=
  ∀ (line : Line) (s : State) (e : Edge), (s.timebase.edges.find? fun x => decide (x.line = line)) = some e →
    let counts (n : SlotNo) : Bool :=
      decide (s.slots[n].state = .running) && decide (s.slots[n].settings.kind = .triggered)
        && decide (s.slots[n].settings.line = line)
        && (decide (s.slots[n].settings.edge = .both)
            || (decide (s.slots[n].settings.edge = .rise) && decide (e.direction = .rise))
            || (decide (s.slots[n].settings.edge = .fall) && decide (e.direction = .fall)))
    let reaches (n : SlotNo) : Bool := counts n && decide (s.slots[n].edgeCount = s.slots[n].settings.dividerCode.toNat)
    let adds (n : SlotNo) : Bool := reaches n && !s.slots[n].pendingFlag
    let overruns (n : SlotNo) : Bool := reaches n && s.slots[n].pendingFlag
    let preempts (r : InFlight) : Prop :=
      s.conv.record = some r ∧ (s.conv.phase = .settle ∨ s.conv.phase = .sample ∨ s.conv.phase = .convert)
        ∧ r.cls ≠ .triggered ∧ r.preemptCount < 3
    ∃ u t : State, exec (.triggerEdge line) s = .next t
      ∧ sameBut ([.timebase, .requests] ++ allSlots) s u
      ∧ u.timebase = { s.timebase with edges := s.timebase.edges.erase e }
      ∧ u.requests =
        (s.requests.map fun (x : PendingEntry) => { x with subs := x.subs.map fun y =>
            { y with overrun := y.overrun || (match y.origin with | .slot n => overruns n | .demand _ => false) } })
          ++ (((List.finRange 32).filter adds).map fun n => ({
              channel := s.slots[n].settings.channel, sampleCode := s.slots[n].settings.sampleCode
              avgCode := s.slots[n].settings.avgCode, preemptCount := 0
              subs := [⟨.slot n, .triggered, e.tick, false, false⟩] } : PendingEntry))
      ∧ (∀ n : SlotNo, u.slots[n] = { s.slots[n] with
          edgeCount :=
            if reaches n then 0 else if counts n then s.slots[n].edgeCount + 1 else s.slots[n].edgeCount
          pendingFlag := s.slots[n].pendingFlag || adds n
          overrunCount := if overruns n then min 65535 (s.slots[n].overrunCount + 1) else s.slots[n].overrunCount })
      ∧ ((∀ n : SlotNo, adds n = false) → t = u)
      ∧ ((∃ n : SlotNo, adds n = true) → s.conv.phase = .idle → selectedFrom u t)
      ∧ (∀ r, (∃ n : SlotNo, adds n = true) → preempts r → abandonedFrom r u t)
      ∧ ((∃ n : SlotNo, adds n = true) → s.conv.phase ≠ .idle → (∀ r, ¬ preempts r) → t = u)

/-- The ends of SETTLE, SAMPLE and CONVERT: the multiplexer connects the inputs of the record's channel, the level at the end
of SAMPLE is held for CONVERT, and each CONVERT adds one code of the transfer (R59, R60, R61, R62). A phase of the converter
ends once its REFCLK periods have all run, and not before (R54, R161). The model's own are the level in femtovolts (log 8), the
length of a phase and its periods that have run (log 6), the start tick set at SETTLE_END (log 16), and the phase that stays
CONVERT after the last CONVERT_END until COMPLETION (log 4). -/
def Obligations.ConverterPhasesRun : Prop :=
  (∀ (s : State) (r : InFlight), s.conv.phase = .settle → phaseAtEnd s → s.conv.record = some r →
      ∃ t, exec .settleEnd s = .next t ∧ sameBut [.converter] s t
        ∧ t.conv = { s.conv with
            phase := .sample, phaseTicks := 2 ^ r.sampleCode.toNat, phasePeriods := 0
            record := some { r with startTick := some s.now } })
    ∧ (∀ (inputs : AnalogInputs) (s : State) (r : InFlight), s.conv.phase = .sample → phaseAtEnd s →
      s.conv.record = some r →
      ∃ t level, exec (.sampleEnd inputs) s = .next t ∧ sameBut [.converter] s t
        ∧ t.conv = { s.conv with
            phase := .convert, phaseTicks := 1, phasePeriods := 0, record := some { r with level := level } }
        ∧ (∀ c : Fin 16, r.channel.val = c.val → r.mode = .single → level = inputs.ain[c])
        ∧ (∀ c d : Fin 16, r.channel.val = c.val → d.val = c.val + 1 → r.mode = .paired →
            level = inputs.ain[c] - inputs.ain[d])
        ∧ ∀ c : Fin 4, r.channel.val = 16 + c.val → level = inputs.internal[c])
    ∧ (∀ (s : State) (r : InFlight), s.conv.phase = .convert → phaseAtEnd s → s.conv.record = some r →
      r.repeatsDone < 2 ^ r.avgCode.toNat →
      ∃ t code, exec .convertEnd s = .next t ∧ sameBut [.converter] s t ∧ code ≤ 4095
        ∧ (∀ k : Nat, 1 ≤ k → k ≤ 4095 → (k ≤ code ↔
            match r.mode, r.span with
            | .single, .full => 2500000000000000 * (k : Int) ≤ r.level * 4096
            | .single, .half => 1250000000000000 * (k : Int) ≤ r.level * 4096
            | .paired, .full => 2500000000000000 * ((k : Int) - 2048) ≤ r.level * 2048
            | .paired, .half => 1250000000000000 * ((k : Int) - 2048) ≤ r.level * 2048))
        ∧ let again : Bool := decide (r.repeatsDone + 1 < 2 ^ r.avgCode.toNat)
          t.conv = { s.conv with
            phase := if again then .sample else .convert
            phaseTicks := if again then 2 ^ r.sampleCode.toNat else s.conv.phaseTicks
            phasePeriods := if again then 0 else s.conv.phasePeriods
            record := some { r with
              runningSum := r.runningSum + code, repeatsDone := r.repeatsDone + 1
              clipped := r.clipped || decide (code = 0) || decide (code = 4095) } })
    ∧ ∀ (i : Instr) (s : State),
      i = .settleEnd ∨ (∃ inputs, i = .sampleEnd inputs) ∨ i = .convertEnd ∨ i = .completion ∨ i = .recoverEnd →
      ¬ phaseAtEnd s → ∃ x, exec i s = .refused x

/-- RECOVER ends in IDLE; when requests wait, the arbiter starts the one that R43 chooses, with every request of the same
conversion merged into it: the highest class and the highest preempt count of them, the configuration as it stands, and
settling by the last-conversion identity (R31, R42, R43, R45, R46, R57, R58, R71). -/
def Obligations.RecoverEndSelectsTheWinner : Prop :=
  ∀ s : State, s.conv.phase = .recover → phaseAtEnd s →
    ∃ t, exec .recoverEnd s = .next t ∧ sameBut ([.requests, .converter] ++ allSlots) s t
      ∧ (s.requests = [] → t.conv = { s.conv with phase := .idle, phaseTicks := 0, phasePeriods := 0 }
          ∧ t.slots = s.slots ∧ t.requests = [])
      ∧ (s.requests ≠ [] → selectedFrom s t)

/-- A completion updates the latest-sample entry of its channel, and of no other, from the record: value, start tick,
generation, count, the lowest counted port, clipped (R64, R68, R86, R87, R88, R89); it changes nothing outside its parts. -/
def Obligations.CompletionUpdatesTheLatestSample : Prop :=
  ∀ (s : State) (r : InFlight) (k : Tick), completionDue s r → r.startTick = some k →
    ∃ t, exec .completion s = .next t ∧ sameBut (completionParts r.channel) s t
      ∧ t.latest[r.channel].valid = true ∧ t.latest[r.channel].timestamp = k
      ∧ t.latest[r.channel].value = BitVec.ofNat 12 (r.runningSum / 2 ^ r.avgCode.toNat)
      ∧ t.latest[r.channel].generation = r.generation ∧ t.latest[r.channel].clipped = r.clipped
      ∧ t.latest[r.channel].count = s.latest[r.channel].count + 1
      ∧ (let countedFor (p : Port) : Prop := ∃ x ∈ r.subs,
            x.sub.origin = .demand p ∨ ∃ n : SlotNo, x.sub.origin = .slot n ∧ x.marked = false
              ∧ s.slots[n].owner = some p ∧ (s.slots[n].state = .stopped ∨ s.slots[n].state = .running)
         (∀ p : Port, t.latest[r.channel].producer = some p ↔ countedFor p ∧ ∀ q : Port, countedFor q → p ≤ q)
          ∧ (t.latest[r.channel].producer = none ↔ ∀ p : Port, ¬ countedFor p))
      ∧ (∀ p : Port, t.sessions[p].demandOutstanding =
          (s.sessions[p].demandOutstanding && !r.subs.any fun x => decide (x.sub.origin = .demand p)))

/-- A completion at each slot: a slot served by R24 has its sequence raised by one, and if it is not BURST its window
position and decimation counter follow R95 and R97; a RETIRING slot that the record names becomes FREE; any other slot that
is not served keeps its sequence and its counts (R22, R24, R25, R95, R97). -/
def Obligations.CompletionServesTheSlots : Prop :=
  ∀ (s : State) (r : InFlight) (n : SlotNo), completionDue s r →
    ∃ t, exec .completion s = .next t
      ∧ (isServed s r n → t.slots[n].sequence = s.slots[n].sequence + 1
          ∧ t.slots[n].settings = s.slots[n].settings ∧ t.slots[n].owner = s.slots[n].owner
          ∧ (s.slots[n].settings.kind ≠ .burst → t.slots[n].state = s.slots[n].state
            ∧ t.slots[n].windowPos = positionRule s.slots[n].settings.window
                (BitVec.ofNat 12 (r.runningSum / 2 ^ r.avgCode.toNat))
            ∧ t.slots[n].decimationCount =
              (if s.slots[n].decimationCount + 1 = s.slots[n].settings.decimationCode.toNat + 1 then 0
               else s.slots[n].decimationCount + 1)))
      ∧ (¬ isServed s r n → s.slots[n].state = .retiring → (∃ x ∈ r.subs, x.sub.origin = .slot n) →
          (∀ e ∈ s.requests, ∀ y ∈ e.subs, y.origin ≠ .slot n) → t.slots[n] = Slot.free)
      ∧ (¬ isServed s r n → s.slots[n].state ≠ .retiring → t.slots[n].sequence = s.slots[n].sequence
          ∧ t.slots[n].overrunCount = s.slots[n].overrunCount ∧ t.slots[n].settings = s.slots[n].settings
          ∧ (s.slots[n].settings.kind ≠ .burst → t.slots[n].state = s.slots[n].state
              ∧ t.slots[n].windowPos = s.slots[n].windowPos
              ∧ t.slots[n].decimationCount = s.slots[n].decimationCount))

/-- What a completion does, part by part, in the order of R24, R93, R136 and R44: the served slots in ascending number, then
the demands in the record, then the RETIRING slots, then the arbiter's selection. Its parts: a served slot's sequence, window
position and decimation counter (R25, R95, R97), its record, a slot record or a LISTEN record, with delay, conditions and
MERGED (R94 to R99), offered to its owner's queue (R104), its owner's watches in index order (R127), and burst accounting
(R26); the demand record (R116); SLOT_RELEASED (R22). And put together, for a completion that serves one slot alone whose
owner's watches are not ARMED: its record in its owner's queue, and BURST_DONE at the end of a burst. -/
def Obligations.CompletionOfOneSlotDeliversItsRecord : Prop :=
  (∀ (s : State) (r : InFlight) (k : Tick), completionDue s r → r.startTick = some k →
      let c : Report :=
        { channel := r.channel, value := BitVec.ofNat 12 (r.runningSum / 2 ^ r.avgCode.toNat)
          generation := r.generation, startTick := k, tick := s.now, clipped := r.clipped, consumers := consumersOf s r }
      ∃ (served : List (SlotNo × Option SubEntry)) (u v w z t : State), exec .completion s = .next t
        ∧ sameBut ([.converter, .latest r.channel] ++ allSlots) s u
        ∧ u.conv = { phase := .idle, record := none, phaseTicks := 0, phasePeriods := 0
                     identity := if r.reconfigured then none else some (r.channel, r.generation) }
        ∧ (∀ n : SlotNo, u.slots[n] =
            { s.slots[n] with inFlightFlag := s.slots[n].inFlightFlag && !namesSlot r n })
        ∧ (served.map fun x => x.1).Pairwise (fun m n => m < n)
        ∧ (∀ n : SlotNo, isServed s r n ↔ ∃ x, (n, x) ∈ served)
        ∧ (∀ (n : SlotNo) (x : SubEntry), (n, some x) ∈ served → x.origin = .slot n ∧ ⟨x, false⟩ ∈ r.subs)
        ∧ (∀ n : SlotNo, (n, none) ∈ served → ∀ x ∈ r.subs, x.marked = false → x.sub.origin ≠ .slot n)
        ∧ v = served.foldl (serveSlot c) u ∧ w = r.subs.foldl (serveDemand c) v
        ∧ (∃ y : State, sameBut allDemands w y
          ∧ (∀ p : Port, y.sessions[p].demandOutstanding =
              (w.sessions[p].demandOutstanding && !r.subs.any fun x => decide (x.sub.origin = .demand p)))
          ∧ retiringReleased r y z)
        ∧ (z.requests = [] → t = z) ∧ (z.requests ≠ [] → selectedFrom z t))
    ∧ (∀ (c : Report) (u : State) (n : SlotNo) (p : Port) (sub : Option SubEntry), u.slots[n].owner = some p →
      let x := u.slots[n]
      let cond := conditionsRule x.settings.window x.windowPos c.value sub c.clipped
      let full := decide (x.decimationCount + 1 = x.settings.decimationCode.toNat + 1)
      let built : SampleRecord :=
        { origin := match sub with
            | some y => .slot n x.settings.label (BitVec.ofNat 16 (min 65535 (c.startTick - y.due).toNat)) (x.sequence + 1)
            | none => .listen n x.settings.label (x.sequence + 1)
          channel := c.channel, value := c.value, timestamp := c.startTick, generation := c.generation
          conditions := cond, merged := decide (1 < c.consumers), dropped := 0 }
      ∃ a : State, sameBut [.slot n, .queue p] u a
        ∧ a.slots[n] = { x with
            sequence := x.sequence + 1, windowPos := positionRule x.settings.window c.value
            decimationCount := if full then 0 else x.decimationCount + 1 }
        ∧ a.queues[p] =
          (if full then u.queues[p].map fun q => q.offer (decide (x.settings.kind ≠ .burst)) built else u.queues[p])
        ∧ let b := evaluateWatches a p n c.tick cond
          let y := b.slots[n]
          let z := serveSlot c u (n, sub)
          (y.settings.kind ≠ .burst ∨ y.state ≠ .running ∨ y.burstRemaining = 0 → z = b)
            ∧ (y.settings.kind = .burst → y.state = .running → 1 < y.burstRemaining → y.pendingFlag = true →
              sameBut [.slot n] b z ∧ z.slots[n] = { y with burstRemaining := y.burstRemaining - 1 })
            ∧ (y.settings.kind = .burst → y.state = .running → 1 < y.burstRemaining → y.pendingFlag = false →
              sameBut [.slot n, .requests] b z
                ∧ z.slots[n] = { y with burstRemaining := y.burstRemaining - 1, pendingFlag := true }
                ∧ z.requests = b.requests ++
                  [{ channel := y.settings.channel, sampleCode := y.settings.sampleCode, avgCode := y.settings.avgCode
                     subs := [⟨.slot n, .routine, c.tick, false, false⟩], preemptCount := 0 }])
            ∧ (y.settings.kind = .burst → y.state = .running → y.burstRemaining = 1 →
              sameBut ([.slot n, .requests] ++ allEvents) b z
                ∧ z.slots[n] = { y with burstRemaining := 0, state := .stopped, pendingFlag := false }
                ∧ z.requests = (if y.pendingFlag then withoutSlot n b.requests else b.requests)
                ∧ ∀ q : Port, z.events[q] =
                  if y.owner = some q ∧ b.isOpen q = true then
                    b.events[q].offer { kind := .burstDone, subject := BitVec.ofNat 8 n.val, tick := c.tick
                                        detail := BitVec.ofNat 16 (y.settings.burstCode.toNat + 1) }
                  else b.events[q]))
    ∧ (∀ (u : State) (p : Port) (n : SlotNo) (tick : Tick) (c : Conditions), evaluateWatches u p n tick c =
      [0, 1, 2, 3, 4, 5, 6, 7].foldl
        (fun (x : State) (w : Fin 8) => if x.watches[p][w].isMatch n c then carryOutMatch x p w n tick c else x) u)
    ∧ (∀ (c : Report) (u : State) (x : FlightEntry),
      (x.marked = true ∨ (∃ n : SlotNo, x.sub.origin = .slot n) → serveDemand c u x = u)
        ∧ ∀ p : Port, x.marked = false → x.sub.origin = .demand p → sameBut [.queue p] u (serveDemand c u x)
          ∧ (serveDemand c u x).queues[p] = u.queues[p].map fun q => q.offer false
            { origin := .demand (BitVec.ofNat 16 (min 65535 (c.startTick - x.sub.due).toNat))
              channel := c.channel, value := c.value, timestamp := c.startTick, generation := c.generation
              conditions := { above := false, below := false, crossed := false, overrun := false
                              preempted := x.sub.preempted, clipped := c.clipped }
              merged := decide (1 < c.consumers), dropped := 0 })
    ∧ ∀ (s : State) (r : InFlight) (k : Tick) (x : SubEntry) (n : SlotNo) (p : Port) (q : SampleQueue),
      completionDue s r → r.startTick = some k → r.subs = [⟨x, false⟩] → x.origin = .slot n →
      s.slots[n].state = .stopped ∨ s.slots[n].state = .running → s.slots[n].owner = some p →
      s.slots[n].settings.kind ≠ .listen → s.queues[p] = some q →
      (∀ m : SlotNo, s.slots[m].state = .running → s.slots[m].settings.kind = .listen →
        s.slots[m].settings.channel ≠ r.channel) →
      (∀ w : Fin 8, s.watches[p][w].state ≠ .armed) →
      let value := BitVec.ofNat 12 (r.runningSum / 2 ^ r.avgCode.toNat)
      let built : SampleRecord :=
        { origin := .slot n s.slots[n].settings.label (BitVec.ofNat 16 (min 65535 (k - x.due).toNat))
            (s.slots[n].sequence + 1)
          channel := r.channel, value := value, timestamp := k, generation := r.generation
          conditions := conditionsRule s.slots[n].settings.window s.slots[n].windowPos value (some x) r.clipped
          merged := false, dropped := 0 }
      let lastOfBurst : Prop :=
        s.slots[n].settings.kind = .burst ∧ s.slots[n].state = .running ∧ s.slots[n].burstRemaining = 1
      ∃ t, exec .completion s = .next t
        ∧ (s.slots[n].decimationCount + 1 = s.slots[n].settings.decimationCode.toNat + 1 →
            t.queues[p] = some (q.offer (decide (s.slots[n].settings.kind ≠ .burst)) built))
        ∧ (s.slots[n].decimationCount + 1 ≠ s.slots[n].settings.decimationCode.toNat + 1 → t.queues[p] = some q)
        ∧ (∀ p' : Port, p' ≠ p → t.queues[p'] = s.queues[p'] ∧ t.events[p'] = s.events[p'])
        ∧ (∀ (p' : Port) (w : Fin 8), t.watches[p'][w] = s.watches[p'][w])
        ∧ (¬ lastOfBurst → t.events[p] = s.events[p])
        ∧ (lastOfBurst → t.slots[n].state = .stopped ∧ t.slots[n].burstRemaining = 0
            ∧ t.slots[n].pendingFlag = false
            ∧ (s.isOpen p = true → t.events[p] = s.events[p].offer
              { kind := .burstDone, subject := BitVec.ofNat 8 n.val, tick := s.now
                detail := BitVec.ofNat 16 (s.slots[n].settings.burstCode.toNat + 1) }))
end

