-- ==== Sys2Proof/Laws/State.lean ====
section
/-! SUPPORT. What each setter of the state leaves in each field: one lemma for each field and setter. -/

namespace Sys2Proof.Machine

/-! ### setHub -/

@[simp] theorem State.setHub_hub (s : State) (x : Hub) : (s.setHub x).hub = x := rfl
@[simp] theorem State.setHub_timebase (s : State) (x : Hub) : (s.setHub x).timebase = s.timebase := rfl
@[simp] theorem State.setHub_ports (s : State) (x : Hub) : (s.setHub x).ports = s.ports := rfl
@[simp] theorem State.setHub_sessions (s : State) (x : Hub) : (s.setHub x).sessions = s.sessions := rfl
@[simp] theorem State.setHub_slots (s : State) (x : Hub) : (s.setHub x).slots = s.slots := rfl
@[simp] theorem State.setHub_requests (s : State) (x : Hub) : (s.setHub x).requests = s.requests := rfl
@[simp] theorem State.setHub_conv (s : State) (x : Hub) : (s.setHub x).conv = s.conv := rfl
@[simp] theorem State.setHub_channels (s : State) (x : Hub) : (s.setHub x).channels = s.channels := rfl
@[simp] theorem State.setHub_latest (s : State) (x : Hub) : (s.setHub x).latest = s.latest := rfl
@[simp] theorem State.setHub_unreserved (s : State) (x : Hub) : (s.setHub x).unreserved = s.unreserved := rfl
@[simp] theorem State.setHub_queues (s : State) (x : Hub) : (s.setHub x).queues = s.queues := rfl
@[simp] theorem State.setHub_watches (s : State) (x : Hub) : (s.setHub x).watches = s.watches := rfl
@[simp] theorem State.setHub_events (s : State) (x : Hub) : (s.setHub x).events = s.events := rfl
@[simp] theorem State.setHub_free (s : State) (x : Hub) : (s.setHub x).free = s.free := rfl
@[simp] theorem State.setHub_pending (s : State) (x : Hub) : (s.setHub x).pending = s.pending := rfl

/-! ### setTimebase -/

@[simp] theorem State.setTimebase_hub (s : State) (x : Timebase) : (s.setTimebase x).hub = s.hub := rfl
@[simp] theorem State.setTimebase_timebase (s : State) (x : Timebase) : (s.setTimebase x).timebase = x := rfl
@[simp] theorem State.setTimebase_ports (s : State) (x : Timebase) : (s.setTimebase x).ports = s.ports := rfl
@[simp] theorem State.setTimebase_sessions (s : State) (x : Timebase) : (s.setTimebase x).sessions = s.sessions := rfl
@[simp] theorem State.setTimebase_slots (s : State) (x : Timebase) : (s.setTimebase x).slots = s.slots := rfl
@[simp] theorem State.setTimebase_requests (s : State) (x : Timebase) : (s.setTimebase x).requests = s.requests := rfl
@[simp] theorem State.setTimebase_conv (s : State) (x : Timebase) : (s.setTimebase x).conv = s.conv := rfl
@[simp] theorem State.setTimebase_channels (s : State) (x : Timebase) : (s.setTimebase x).channels = s.channels := rfl
@[simp] theorem State.setTimebase_latest (s : State) (x : Timebase) : (s.setTimebase x).latest = s.latest := rfl
@[simp] theorem State.setTimebase_unreserved (s : State) (x : Timebase) :
    (s.setTimebase x).unreserved = s.unreserved := rfl
@[simp] theorem State.setTimebase_queues (s : State) (x : Timebase) : (s.setTimebase x).queues = s.queues := rfl
@[simp] theorem State.setTimebase_watches (s : State) (x : Timebase) : (s.setTimebase x).watches = s.watches := rfl
@[simp] theorem State.setTimebase_events (s : State) (x : Timebase) : (s.setTimebase x).events = s.events := rfl
@[simp] theorem State.setTimebase_free (s : State) (x : Timebase) : (s.setTimebase x).free = s.free := rfl
@[simp] theorem State.setTimebase_pending (s : State) (x : Timebase) : (s.setTimebase x).pending = s.pending := rfl

/-! ### setPort -/

@[simp] theorem State.setPort_hub (s : State) (p : Port) (x : PortState) : (s.setPort p x).hub = s.hub := rfl
@[simp] theorem State.setPort_timebase (s : State) (p : Port) (x : PortState) :
    (s.setPort p x).timebase = s.timebase := rfl
@[simp] theorem State.setPort_ports (s : State) (p : Port) (x : PortState) :
    (s.setPort p x).ports = s.ports.set p x := rfl
@[simp] theorem State.setPort_sessions (s : State) (p : Port) (x : PortState) :
    (s.setPort p x).sessions = s.sessions := rfl
@[simp] theorem State.setPort_slots (s : State) (p : Port) (x : PortState) : (s.setPort p x).slots = s.slots := rfl
@[simp] theorem State.setPort_requests (s : State) (p : Port) (x : PortState) :
    (s.setPort p x).requests = s.requests := rfl
@[simp] theorem State.setPort_conv (s : State) (p : Port) (x : PortState) : (s.setPort p x).conv = s.conv := rfl
@[simp] theorem State.setPort_channels (s : State) (p : Port) (x : PortState) :
    (s.setPort p x).channels = s.channels := rfl
@[simp] theorem State.setPort_latest (s : State) (p : Port) (x : PortState) : (s.setPort p x).latest = s.latest := rfl
@[simp] theorem State.setPort_unreserved (s : State) (p : Port) (x : PortState) :
    (s.setPort p x).unreserved = s.unreserved := rfl
@[simp] theorem State.setPort_queues (s : State) (p : Port) (x : PortState) : (s.setPort p x).queues = s.queues := rfl
@[simp] theorem State.setPort_watches (s : State) (p : Port) (x : PortState) :
    (s.setPort p x).watches = s.watches := rfl
@[simp] theorem State.setPort_events (s : State) (p : Port) (x : PortState) : (s.setPort p x).events = s.events := rfl
@[simp] theorem State.setPort_free (s : State) (p : Port) (x : PortState) : (s.setPort p x).free = s.free := rfl
@[simp] theorem State.setPort_pending (s : State) (p : Port) (x : PortState) :
    (s.setPort p x).pending = s.pending := rfl

/-! ### setSession -/

@[simp] theorem State.setSession_hub (s : State) (p : Port) (x : Session) : (s.setSession p x).hub = s.hub := rfl
@[simp] theorem State.setSession_timebase (s : State) (p : Port) (x : Session) :
    (s.setSession p x).timebase = s.timebase := rfl
@[simp] theorem State.setSession_ports (s : State) (p : Port) (x : Session) :
    (s.setSession p x).ports = s.ports := rfl
@[simp] theorem State.setSession_sessions (s : State) (p : Port) (x : Session) :
    (s.setSession p x).sessions = s.sessions.set p x := rfl
@[simp] theorem State.setSession_slots (s : State) (p : Port) (x : Session) :
    (s.setSession p x).slots = s.slots := rfl
@[simp] theorem State.setSession_requests (s : State) (p : Port) (x : Session) :
    (s.setSession p x).requests = s.requests := rfl
@[simp] theorem State.setSession_conv (s : State) (p : Port) (x : Session) : (s.setSession p x).conv = s.conv := rfl
@[simp] theorem State.setSession_channels (s : State) (p : Port) (x : Session) :
    (s.setSession p x).channels = s.channels := rfl
@[simp] theorem State.setSession_latest (s : State) (p : Port) (x : Session) :
    (s.setSession p x).latest = s.latest := rfl
@[simp] theorem State.setSession_unreserved (s : State) (p : Port) (x : Session) :
    (s.setSession p x).unreserved = s.unreserved := rfl
@[simp] theorem State.setSession_queues (s : State) (p : Port) (x : Session) :
    (s.setSession p x).queues = s.queues := rfl
@[simp] theorem State.setSession_watches (s : State) (p : Port) (x : Session) :
    (s.setSession p x).watches = s.watches := rfl
@[simp] theorem State.setSession_events (s : State) (p : Port) (x : Session) :
    (s.setSession p x).events = s.events := rfl
@[simp] theorem State.setSession_free (s : State) (p : Port) (x : Session) : (s.setSession p x).free = s.free := rfl
@[simp] theorem State.setSession_pending (s : State) (p : Port) (x : Session) :
    (s.setSession p x).pending = s.pending := rfl

/-! ### setSlot -/

@[simp] theorem State.setSlot_hub (s : State) (n : SlotNo) (x : Slot) : (s.setSlot n x).hub = s.hub := rfl
@[simp] theorem State.setSlot_timebase (s : State) (n : SlotNo) (x : Slot) :
    (s.setSlot n x).timebase = s.timebase := rfl
@[simp] theorem State.setSlot_ports (s : State) (n : SlotNo) (x : Slot) : (s.setSlot n x).ports = s.ports := rfl
@[simp] theorem State.setSlot_sessions (s : State) (n : SlotNo) (x : Slot) :
    (s.setSlot n x).sessions = s.sessions := rfl
@[simp] theorem State.setSlot_slots (s : State) (n : SlotNo) (x : Slot) :
    (s.setSlot n x).slots = s.slots.set n x := rfl
@[simp] theorem State.setSlot_requests (s : State) (n : SlotNo) (x : Slot) :
    (s.setSlot n x).requests = s.requests := rfl
@[simp] theorem State.setSlot_conv (s : State) (n : SlotNo) (x : Slot) : (s.setSlot n x).conv = s.conv := rfl
@[simp] theorem State.setSlot_channels (s : State) (n : SlotNo) (x : Slot) :
    (s.setSlot n x).channels = s.channels := rfl
@[simp] theorem State.setSlot_latest (s : State) (n : SlotNo) (x : Slot) : (s.setSlot n x).latest = s.latest := rfl
@[simp] theorem State.setSlot_unreserved (s : State) (n : SlotNo) (x : Slot) :
    (s.setSlot n x).unreserved = s.unreserved := rfl
@[simp] theorem State.setSlot_queues (s : State) (n : SlotNo) (x : Slot) : (s.setSlot n x).queues = s.queues := rfl
@[simp] theorem State.setSlot_watches (s : State) (n : SlotNo) (x : Slot) : (s.setSlot n x).watches = s.watches := rfl
@[simp] theorem State.setSlot_events (s : State) (n : SlotNo) (x : Slot) : (s.setSlot n x).events = s.events := rfl
@[simp] theorem State.setSlot_free (s : State) (n : SlotNo) (x : Slot) : (s.setSlot n x).free = s.free := rfl
@[simp] theorem State.setSlot_pending (s : State) (n : SlotNo) (x : Slot) : (s.setSlot n x).pending = s.pending := rfl

/-! ### mapSlots -/

@[simp] theorem State.mapSlots_hub (s : State) (f : SlotNo → Slot → Slot) :
    (s.mapSlots f).hub = s.hub := by simp only [State.mapSlots]
@[simp] theorem State.mapSlots_timebase (s : State) (f : SlotNo → Slot → Slot) :
    (s.mapSlots f).timebase = s.timebase := by simp only [State.mapSlots]
@[simp] theorem State.mapSlots_ports (s : State) (f : SlotNo → Slot → Slot) :
    (s.mapSlots f).ports = s.ports := by simp only [State.mapSlots]
@[simp] theorem State.mapSlots_sessions (s : State) (f : SlotNo → Slot → Slot) :
    (s.mapSlots f).sessions = s.sessions := by simp only [State.mapSlots]
@[simp] theorem State.mapSlots_slots (s : State) (f : SlotNo → Slot → Slot) :
    (s.mapSlots f).slots = Vector.ofFn fun n => f n s.slots[n] := by simp only [State.mapSlots]
@[simp] theorem State.mapSlots_requests (s : State) (f : SlotNo → Slot → Slot) :
    (s.mapSlots f).requests = s.requests := by simp only [State.mapSlots]
@[simp] theorem State.mapSlots_conv (s : State) (f : SlotNo → Slot → Slot) :
    (s.mapSlots f).conv = s.conv := by simp only [State.mapSlots]
@[simp] theorem State.mapSlots_channels (s : State) (f : SlotNo → Slot → Slot) :
    (s.mapSlots f).channels = s.channels := by simp only [State.mapSlots]
@[simp] theorem State.mapSlots_latest (s : State) (f : SlotNo → Slot → Slot) :
    (s.mapSlots f).latest = s.latest := by simp only [State.mapSlots]
@[simp] theorem State.mapSlots_unreserved (s : State) (f : SlotNo → Slot → Slot) :
    (s.mapSlots f).unreserved = s.unreserved := by simp only [State.mapSlots]
@[simp] theorem State.mapSlots_queues (s : State) (f : SlotNo → Slot → Slot) :
    (s.mapSlots f).queues = s.queues := by simp only [State.mapSlots]
@[simp] theorem State.mapSlots_watches (s : State) (f : SlotNo → Slot → Slot) :
    (s.mapSlots f).watches = s.watches := by simp only [State.mapSlots]
@[simp] theorem State.mapSlots_events (s : State) (f : SlotNo → Slot → Slot) :
    (s.mapSlots f).events = s.events := by simp only [State.mapSlots]
@[simp] theorem State.mapSlots_free (s : State) (f : SlotNo → Slot → Slot) :
    (s.mapSlots f).free = s.free := by simp only [State.mapSlots]
@[simp] theorem State.mapSlots_pending (s : State) (f : SlotNo → Slot → Slot) :
    (s.mapSlots f).pending = s.pending := by simp only [State.mapSlots]

/-! ### setRequests -/

@[simp] theorem State.setRequests_hub (s : State) (x : List PendingEntry) : (s.setRequests x).hub = s.hub := rfl
@[simp] theorem State.setRequests_timebase (s : State) (x : List PendingEntry) :
    (s.setRequests x).timebase = s.timebase := rfl
@[simp] theorem State.setRequests_ports (s : State) (x : List PendingEntry) : (s.setRequests x).ports = s.ports := rfl
@[simp] theorem State.setRequests_sessions (s : State) (x : List PendingEntry) :
    (s.setRequests x).sessions = s.sessions := rfl
@[simp] theorem State.setRequests_slots (s : State) (x : List PendingEntry) : (s.setRequests x).slots = s.slots := rfl
@[simp] theorem State.setRequests_requests (s : State) (x : List PendingEntry) : (s.setRequests x).requests = x := rfl
@[simp] theorem State.setRequests_conv (s : State) (x : List PendingEntry) : (s.setRequests x).conv = s.conv := rfl
@[simp] theorem State.setRequests_channels (s : State) (x : List PendingEntry) :
    (s.setRequests x).channels = s.channels := rfl
@[simp] theorem State.setRequests_latest (s : State) (x : List PendingEntry) :
    (s.setRequests x).latest = s.latest := rfl
@[simp] theorem State.setRequests_unreserved (s : State) (x : List PendingEntry) :
    (s.setRequests x).unreserved = s.unreserved := rfl
@[simp] theorem State.setRequests_queues (s : State) (x : List PendingEntry) :
    (s.setRequests x).queues = s.queues := rfl
@[simp] theorem State.setRequests_watches (s : State) (x : List PendingEntry) :
    (s.setRequests x).watches = s.watches := rfl
@[simp] theorem State.setRequests_events (s : State) (x : List PendingEntry) :
    (s.setRequests x).events = s.events := rfl
@[simp] theorem State.setRequests_free (s : State) (x : List PendingEntry) : (s.setRequests x).free = s.free := rfl
@[simp] theorem State.setRequests_pending (s : State) (x : List PendingEntry) :
    (s.setRequests x).pending = s.pending := rfl

/-! ### setConv -/

@[simp] theorem State.setConv_hub (s : State) (x : Converter) : (s.setConv x).hub = s.hub := rfl
@[simp] theorem State.setConv_timebase (s : State) (x : Converter) : (s.setConv x).timebase = s.timebase := rfl
@[simp] theorem State.setConv_ports (s : State) (x : Converter) : (s.setConv x).ports = s.ports := rfl
@[simp] theorem State.setConv_sessions (s : State) (x : Converter) : (s.setConv x).sessions = s.sessions := rfl
@[simp] theorem State.setConv_slots (s : State) (x : Converter) : (s.setConv x).slots = s.slots := rfl
@[simp] theorem State.setConv_requests (s : State) (x : Converter) : (s.setConv x).requests = s.requests := rfl
@[simp] theorem State.setConv_conv (s : State) (x : Converter) : (s.setConv x).conv = x := rfl
@[simp] theorem State.setConv_channels (s : State) (x : Converter) : (s.setConv x).channels = s.channels := rfl
@[simp] theorem State.setConv_latest (s : State) (x : Converter) : (s.setConv x).latest = s.latest := rfl
@[simp] theorem State.setConv_unreserved (s : State) (x : Converter) : (s.setConv x).unreserved = s.unreserved := rfl
@[simp] theorem State.setConv_queues (s : State) (x : Converter) : (s.setConv x).queues = s.queues := rfl
@[simp] theorem State.setConv_watches (s : State) (x : Converter) : (s.setConv x).watches = s.watches := rfl
@[simp] theorem State.setConv_events (s : State) (x : Converter) : (s.setConv x).events = s.events := rfl
@[simp] theorem State.setConv_free (s : State) (x : Converter) : (s.setConv x).free = s.free := rfl
@[simp] theorem State.setConv_pending (s : State) (x : Converter) : (s.setConv x).pending = s.pending := rfl

/-! ### setChannel -/

@[simp] theorem State.setChannel_hub (s : State) (c : Fin 16) (x : ChannelConfig) :
    (s.setChannel c x).hub = s.hub := rfl
@[simp] theorem State.setChannel_timebase (s : State) (c : Fin 16) (x : ChannelConfig) :
    (s.setChannel c x).timebase = s.timebase := rfl
@[simp] theorem State.setChannel_ports (s : State) (c : Fin 16) (x : ChannelConfig) :
    (s.setChannel c x).ports = s.ports := rfl
@[simp] theorem State.setChannel_sessions (s : State) (c : Fin 16) (x : ChannelConfig) :
    (s.setChannel c x).sessions = s.sessions := rfl
@[simp] theorem State.setChannel_slots (s : State) (c : Fin 16) (x : ChannelConfig) :
    (s.setChannel c x).slots = s.slots := rfl
@[simp] theorem State.setChannel_requests (s : State) (c : Fin 16) (x : ChannelConfig) :
    (s.setChannel c x).requests = s.requests := rfl
@[simp] theorem State.setChannel_conv (s : State) (c : Fin 16) (x : ChannelConfig) :
    (s.setChannel c x).conv = s.conv := rfl
@[simp] theorem State.setChannel_channels (s : State) (c : Fin 16) (x : ChannelConfig) :
    (s.setChannel c x).channels = s.channels.set c x := rfl
@[simp] theorem State.setChannel_latest (s : State) (c : Fin 16) (x : ChannelConfig) :
    (s.setChannel c x).latest = s.latest := rfl
@[simp] theorem State.setChannel_unreserved (s : State) (c : Fin 16) (x : ChannelConfig) :
    (s.setChannel c x).unreserved = s.unreserved := rfl
@[simp] theorem State.setChannel_queues (s : State) (c : Fin 16) (x : ChannelConfig) :
    (s.setChannel c x).queues = s.queues := rfl
@[simp] theorem State.setChannel_watches (s : State) (c : Fin 16) (x : ChannelConfig) :
    (s.setChannel c x).watches = s.watches := rfl
@[simp] theorem State.setChannel_events (s : State) (c : Fin 16) (x : ChannelConfig) :
    (s.setChannel c x).events = s.events := rfl
@[simp] theorem State.setChannel_free (s : State) (c : Fin 16) (x : ChannelConfig) :
    (s.setChannel c x).free = s.free := rfl
@[simp] theorem State.setChannel_pending (s : State) (c : Fin 16) (x : ChannelConfig) :
    (s.setChannel c x).pending = s.pending := rfl

/-! ### mapChannels -/

@[simp] theorem State.mapChannels_hub (s : State) (f : ChannelConfig → ChannelConfig) :
    (s.mapChannels f).hub = s.hub := rfl
@[simp] theorem State.mapChannels_timebase (s : State) (f : ChannelConfig → ChannelConfig) :
    (s.mapChannels f).timebase = s.timebase := rfl
@[simp] theorem State.mapChannels_ports (s : State) (f : ChannelConfig → ChannelConfig) :
    (s.mapChannels f).ports = s.ports := rfl
@[simp] theorem State.mapChannels_sessions (s : State) (f : ChannelConfig → ChannelConfig) :
    (s.mapChannels f).sessions = s.sessions := rfl
@[simp] theorem State.mapChannels_slots (s : State) (f : ChannelConfig → ChannelConfig) :
    (s.mapChannels f).slots = s.slots := rfl
@[simp] theorem State.mapChannels_requests (s : State) (f : ChannelConfig → ChannelConfig) :
    (s.mapChannels f).requests = s.requests := rfl
@[simp] theorem State.mapChannels_conv (s : State) (f : ChannelConfig → ChannelConfig) :
    (s.mapChannels f).conv = s.conv := rfl
@[simp] theorem State.mapChannels_channels (s : State) (f : ChannelConfig → ChannelConfig) :
    (s.mapChannels f).channels = s.channels.map f := rfl
@[simp] theorem State.mapChannels_latest (s : State) (f : ChannelConfig → ChannelConfig) :
    (s.mapChannels f).latest = s.latest := rfl
@[simp] theorem State.mapChannels_unreserved (s : State) (f : ChannelConfig → ChannelConfig) :
    (s.mapChannels f).unreserved = s.unreserved := rfl
@[simp] theorem State.mapChannels_queues (s : State) (f : ChannelConfig → ChannelConfig) :
    (s.mapChannels f).queues = s.queues := rfl
@[simp] theorem State.mapChannels_watches (s : State) (f : ChannelConfig → ChannelConfig) :
    (s.mapChannels f).watches = s.watches := rfl
@[simp] theorem State.mapChannels_events (s : State) (f : ChannelConfig → ChannelConfig) :
    (s.mapChannels f).events = s.events := rfl
@[simp] theorem State.mapChannels_free (s : State) (f : ChannelConfig → ChannelConfig) :
    (s.mapChannels f).free = s.free := rfl
@[simp] theorem State.mapChannels_pending (s : State) (f : ChannelConfig → ChannelConfig) :
    (s.mapChannels f).pending = s.pending := rfl

/-! ### setLatest -/

@[simp] theorem State.setLatest_hub (s : State) (c : Channel) (x : LatestEntry) : (s.setLatest c x).hub = s.hub := rfl
@[simp] theorem State.setLatest_timebase (s : State) (c : Channel) (x : LatestEntry) :
    (s.setLatest c x).timebase = s.timebase := rfl
@[simp] theorem State.setLatest_ports (s : State) (c : Channel) (x : LatestEntry) :
    (s.setLatest c x).ports = s.ports := rfl
@[simp] theorem State.setLatest_sessions (s : State) (c : Channel) (x : LatestEntry) :
    (s.setLatest c x).sessions = s.sessions := rfl
@[simp] theorem State.setLatest_slots (s : State) (c : Channel) (x : LatestEntry) :
    (s.setLatest c x).slots = s.slots := rfl
@[simp] theorem State.setLatest_requests (s : State) (c : Channel) (x : LatestEntry) :
    (s.setLatest c x).requests = s.requests := rfl
@[simp] theorem State.setLatest_conv (s : State) (c : Channel) (x : LatestEntry) :
    (s.setLatest c x).conv = s.conv := rfl
@[simp] theorem State.setLatest_channels (s : State) (c : Channel) (x : LatestEntry) :
    (s.setLatest c x).channels = s.channels := rfl
@[simp] theorem State.setLatest_latest (s : State) (c : Channel) (x : LatestEntry) :
    (s.setLatest c x).latest = s.latest.set c x := rfl
@[simp] theorem State.setLatest_unreserved (s : State) (c : Channel) (x : LatestEntry) :
    (s.setLatest c x).unreserved = s.unreserved := rfl
@[simp] theorem State.setLatest_queues (s : State) (c : Channel) (x : LatestEntry) :
    (s.setLatest c x).queues = s.queues := rfl
@[simp] theorem State.setLatest_watches (s : State) (c : Channel) (x : LatestEntry) :
    (s.setLatest c x).watches = s.watches := rfl
@[simp] theorem State.setLatest_events (s : State) (c : Channel) (x : LatestEntry) :
    (s.setLatest c x).events = s.events := rfl
@[simp] theorem State.setLatest_free (s : State) (c : Channel) (x : LatestEntry) :
    (s.setLatest c x).free = s.free := rfl
@[simp] theorem State.setLatest_pending (s : State) (c : Channel) (x : LatestEntry) :
    (s.setLatest c x).pending = s.pending := rfl

/-! ### setUnreserved -/

@[simp] theorem State.setUnreserved_hub (s : State) (x : Nat) : (s.setUnreserved x).hub = s.hub := rfl
@[simp] theorem State.setUnreserved_timebase (s : State) (x : Nat) : (s.setUnreserved x).timebase = s.timebase := rfl
@[simp] theorem State.setUnreserved_ports (s : State) (x : Nat) : (s.setUnreserved x).ports = s.ports := rfl
@[simp] theorem State.setUnreserved_sessions (s : State) (x : Nat) : (s.setUnreserved x).sessions = s.sessions := rfl
@[simp] theorem State.setUnreserved_slots (s : State) (x : Nat) : (s.setUnreserved x).slots = s.slots := rfl
@[simp] theorem State.setUnreserved_requests (s : State) (x : Nat) : (s.setUnreserved x).requests = s.requests := rfl
@[simp] theorem State.setUnreserved_conv (s : State) (x : Nat) : (s.setUnreserved x).conv = s.conv := rfl
@[simp] theorem State.setUnreserved_channels (s : State) (x : Nat) : (s.setUnreserved x).channels = s.channels := rfl
@[simp] theorem State.setUnreserved_latest (s : State) (x : Nat) : (s.setUnreserved x).latest = s.latest := rfl
@[simp] theorem State.setUnreserved_unreserved (s : State) (x : Nat) : (s.setUnreserved x).unreserved = x := rfl
@[simp] theorem State.setUnreserved_queues (s : State) (x : Nat) : (s.setUnreserved x).queues = s.queues := rfl
@[simp] theorem State.setUnreserved_watches (s : State) (x : Nat) : (s.setUnreserved x).watches = s.watches := rfl
@[simp] theorem State.setUnreserved_events (s : State) (x : Nat) : (s.setUnreserved x).events = s.events := rfl
@[simp] theorem State.setUnreserved_free (s : State) (x : Nat) : (s.setUnreserved x).free = s.free := rfl
@[simp] theorem State.setUnreserved_pending (s : State) (x : Nat) : (s.setUnreserved x).pending = s.pending := rfl

/-! ### setQueue -/

@[simp] theorem State.setQueue_hub (s : State) (p : Port) (x : Option SampleQueue) :
    (s.setQueue p x).hub = s.hub := rfl
@[simp] theorem State.setQueue_timebase (s : State) (p : Port) (x : Option SampleQueue) :
    (s.setQueue p x).timebase = s.timebase := rfl
@[simp] theorem State.setQueue_ports (s : State) (p : Port) (x : Option SampleQueue) :
    (s.setQueue p x).ports = s.ports := rfl
@[simp] theorem State.setQueue_sessions (s : State) (p : Port) (x : Option SampleQueue) :
    (s.setQueue p x).sessions = s.sessions := rfl
@[simp] theorem State.setQueue_slots (s : State) (p : Port) (x : Option SampleQueue) :
    (s.setQueue p x).slots = s.slots := rfl
@[simp] theorem State.setQueue_requests (s : State) (p : Port) (x : Option SampleQueue) :
    (s.setQueue p x).requests = s.requests := rfl
@[simp] theorem State.setQueue_conv (s : State) (p : Port) (x : Option SampleQueue) :
    (s.setQueue p x).conv = s.conv := rfl
@[simp] theorem State.setQueue_channels (s : State) (p : Port) (x : Option SampleQueue) :
    (s.setQueue p x).channels = s.channels := rfl
@[simp] theorem State.setQueue_latest (s : State) (p : Port) (x : Option SampleQueue) :
    (s.setQueue p x).latest = s.latest := rfl
@[simp] theorem State.setQueue_unreserved (s : State) (p : Port) (x : Option SampleQueue) :
    (s.setQueue p x).unreserved = s.unreserved := rfl
@[simp] theorem State.setQueue_queues (s : State) (p : Port) (x : Option SampleQueue) :
    (s.setQueue p x).queues = s.queues.set p x := rfl
@[simp] theorem State.setQueue_watches (s : State) (p : Port) (x : Option SampleQueue) :
    (s.setQueue p x).watches = s.watches := rfl
@[simp] theorem State.setQueue_events (s : State) (p : Port) (x : Option SampleQueue) :
    (s.setQueue p x).events = s.events := rfl
@[simp] theorem State.setQueue_free (s : State) (p : Port) (x : Option SampleQueue) :
    (s.setQueue p x).free = s.free := rfl
@[simp] theorem State.setQueue_pending (s : State) (p : Port) (x : Option SampleQueue) :
    (s.setQueue p x).pending = s.pending := rfl

/-! ### setWatches -/

@[simp] theorem State.setWatches_hub (s : State) (p : Port) (x : Vector Watch 8) :
    (s.setWatches p x).hub = s.hub := rfl
@[simp] theorem State.setWatches_timebase (s : State) (p : Port) (x : Vector Watch 8) :
    (s.setWatches p x).timebase = s.timebase := rfl
@[simp] theorem State.setWatches_ports (s : State) (p : Port) (x : Vector Watch 8) :
    (s.setWatches p x).ports = s.ports := rfl
@[simp] theorem State.setWatches_sessions (s : State) (p : Port) (x : Vector Watch 8) :
    (s.setWatches p x).sessions = s.sessions := rfl
@[simp] theorem State.setWatches_slots (s : State) (p : Port) (x : Vector Watch 8) :
    (s.setWatches p x).slots = s.slots := rfl
@[simp] theorem State.setWatches_requests (s : State) (p : Port) (x : Vector Watch 8) :
    (s.setWatches p x).requests = s.requests := rfl
@[simp] theorem State.setWatches_conv (s : State) (p : Port) (x : Vector Watch 8) :
    (s.setWatches p x).conv = s.conv := rfl
@[simp] theorem State.setWatches_channels (s : State) (p : Port) (x : Vector Watch 8) :
    (s.setWatches p x).channels = s.channels := rfl
@[simp] theorem State.setWatches_latest (s : State) (p : Port) (x : Vector Watch 8) :
    (s.setWatches p x).latest = s.latest := rfl
@[simp] theorem State.setWatches_unreserved (s : State) (p : Port) (x : Vector Watch 8) :
    (s.setWatches p x).unreserved = s.unreserved := rfl
@[simp] theorem State.setWatches_queues (s : State) (p : Port) (x : Vector Watch 8) :
    (s.setWatches p x).queues = s.queues := rfl
@[simp] theorem State.setWatches_watches (s : State) (p : Port) (x : Vector Watch 8) :
    (s.setWatches p x).watches = s.watches.set p x := rfl
@[simp] theorem State.setWatches_events (s : State) (p : Port) (x : Vector Watch 8) :
    (s.setWatches p x).events = s.events := rfl
@[simp] theorem State.setWatches_free (s : State) (p : Port) (x : Vector Watch 8) :
    (s.setWatches p x).free = s.free := rfl
@[simp] theorem State.setWatches_pending (s : State) (p : Port) (x : Vector Watch 8) :
    (s.setWatches p x).pending = s.pending := rfl

/-! ### setWatch -/

@[simp] theorem State.setWatch_hub (s : State) (p : Port) (w : Fin 8) (x : Watch) :
    (s.setWatch p w x).hub = s.hub := rfl
@[simp] theorem State.setWatch_timebase (s : State) (p : Port) (w : Fin 8) (x : Watch) :
    (s.setWatch p w x).timebase = s.timebase := rfl
@[simp] theorem State.setWatch_ports (s : State) (p : Port) (w : Fin 8) (x : Watch) :
    (s.setWatch p w x).ports = s.ports := rfl
@[simp] theorem State.setWatch_sessions (s : State) (p : Port) (w : Fin 8) (x : Watch) :
    (s.setWatch p w x).sessions = s.sessions := rfl
@[simp] theorem State.setWatch_slots (s : State) (p : Port) (w : Fin 8) (x : Watch) :
    (s.setWatch p w x).slots = s.slots := rfl
@[simp] theorem State.setWatch_requests (s : State) (p : Port) (w : Fin 8) (x : Watch) :
    (s.setWatch p w x).requests = s.requests := rfl
@[simp] theorem State.setWatch_conv (s : State) (p : Port) (w : Fin 8) (x : Watch) :
    (s.setWatch p w x).conv = s.conv := rfl
@[simp] theorem State.setWatch_channels (s : State) (p : Port) (w : Fin 8) (x : Watch) :
    (s.setWatch p w x).channels = s.channels := rfl
@[simp] theorem State.setWatch_latest (s : State) (p : Port) (w : Fin 8) (x : Watch) :
    (s.setWatch p w x).latest = s.latest := rfl
@[simp] theorem State.setWatch_unreserved (s : State) (p : Port) (w : Fin 8) (x : Watch) :
    (s.setWatch p w x).unreserved = s.unreserved := rfl
@[simp] theorem State.setWatch_queues (s : State) (p : Port) (w : Fin 8) (x : Watch) :
    (s.setWatch p w x).queues = s.queues := rfl
@[simp] theorem State.setWatch_watches (s : State) (p : Port) (w : Fin 8) (x : Watch) :
    (s.setWatch p w x).watches = s.watches.set p (s.watches[p].set w x) := rfl
@[simp] theorem State.setWatch_events (s : State) (p : Port) (w : Fin 8) (x : Watch) :
    (s.setWatch p w x).events = s.events := rfl
@[simp] theorem State.setWatch_free (s : State) (p : Port) (w : Fin 8) (x : Watch) :
    (s.setWatch p w x).free = s.free := rfl
@[simp] theorem State.setWatch_pending (s : State) (p : Port) (w : Fin 8) (x : Watch) :
    (s.setWatch p w x).pending = s.pending := rfl

/-! ### setEvents -/

@[simp] theorem State.setEvents_hub (s : State) (p : Port) (x : EventQueue) : (s.setEvents p x).hub = s.hub := rfl
@[simp] theorem State.setEvents_timebase (s : State) (p : Port) (x : EventQueue) :
    (s.setEvents p x).timebase = s.timebase := rfl
@[simp] theorem State.setEvents_ports (s : State) (p : Port) (x : EventQueue) :
    (s.setEvents p x).ports = s.ports := rfl
@[simp] theorem State.setEvents_sessions (s : State) (p : Port) (x : EventQueue) :
    (s.setEvents p x).sessions = s.sessions := rfl
@[simp] theorem State.setEvents_slots (s : State) (p : Port) (x : EventQueue) :
    (s.setEvents p x).slots = s.slots := rfl
@[simp] theorem State.setEvents_requests (s : State) (p : Port) (x : EventQueue) :
    (s.setEvents p x).requests = s.requests := rfl
@[simp] theorem State.setEvents_conv (s : State) (p : Port) (x : EventQueue) : (s.setEvents p x).conv = s.conv := rfl
@[simp] theorem State.setEvents_channels (s : State) (p : Port) (x : EventQueue) :
    (s.setEvents p x).channels = s.channels := rfl
@[simp] theorem State.setEvents_latest (s : State) (p : Port) (x : EventQueue) :
    (s.setEvents p x).latest = s.latest := rfl
@[simp] theorem State.setEvents_unreserved (s : State) (p : Port) (x : EventQueue) :
    (s.setEvents p x).unreserved = s.unreserved := rfl
@[simp] theorem State.setEvents_queues (s : State) (p : Port) (x : EventQueue) :
    (s.setEvents p x).queues = s.queues := rfl
@[simp] theorem State.setEvents_watches (s : State) (p : Port) (x : EventQueue) :
    (s.setEvents p x).watches = s.watches := rfl
@[simp] theorem State.setEvents_events (s : State) (p : Port) (x : EventQueue) :
    (s.setEvents p x).events = s.events.set p x := rfl
@[simp] theorem State.setEvents_free (s : State) (p : Port) (x : EventQueue) : (s.setEvents p x).free = s.free := rfl
@[simp] theorem State.setEvents_pending (s : State) (p : Port) (x : EventQueue) :
    (s.setEvents p x).pending = s.pending := rfl

/-! ### useFree -/

@[simp] theorem State.useFree_hub (s : State) : (s.useFree).hub = s.hub := rfl
@[simp] theorem State.useFree_timebase (s : State) : (s.useFree).timebase = s.timebase := rfl
@[simp] theorem State.useFree_ports (s : State) : (s.useFree).ports = s.ports := rfl
@[simp] theorem State.useFree_sessions (s : State) : (s.useFree).sessions = s.sessions := rfl
@[simp] theorem State.useFree_slots (s : State) : (s.useFree).slots = s.slots := rfl
@[simp] theorem State.useFree_requests (s : State) : (s.useFree).requests = s.requests := rfl
@[simp] theorem State.useFree_conv (s : State) : (s.useFree).conv = s.conv := rfl
@[simp] theorem State.useFree_channels (s : State) : (s.useFree).channels = s.channels := rfl
@[simp] theorem State.useFree_latest (s : State) : (s.useFree).latest = s.latest := rfl
@[simp] theorem State.useFree_unreserved (s : State) : (s.useFree).unreserved = s.unreserved := rfl
@[simp] theorem State.useFree_queues (s : State) : (s.useFree).queues = s.queues := rfl
@[simp] theorem State.useFree_watches (s : State) : (s.useFree).watches = s.watches := rfl
@[simp] theorem State.useFree_events (s : State) : (s.useFree).events = s.events := rfl
@[simp] theorem State.useFree_free (s : State) : (s.useFree).free = s.free + 1 := rfl
@[simp] theorem State.useFree_pending (s : State) : (s.useFree).pending = s.pending := rfl

/-! ### setPending -/

@[simp] theorem State.setPending_hub (s : State) (x : List Instr) : (s.setPending x).hub = s.hub := rfl
@[simp] theorem State.setPending_timebase (s : State) (x : List Instr) : (s.setPending x).timebase = s.timebase := rfl
@[simp] theorem State.setPending_ports (s : State) (x : List Instr) : (s.setPending x).ports = s.ports := rfl
@[simp] theorem State.setPending_sessions (s : State) (x : List Instr) : (s.setPending x).sessions = s.sessions := rfl
@[simp] theorem State.setPending_slots (s : State) (x : List Instr) : (s.setPending x).slots = s.slots := rfl
@[simp] theorem State.setPending_requests (s : State) (x : List Instr) : (s.setPending x).requests = s.requests := rfl
@[simp] theorem State.setPending_conv (s : State) (x : List Instr) : (s.setPending x).conv = s.conv := rfl
@[simp] theorem State.setPending_channels (s : State) (x : List Instr) : (s.setPending x).channels = s.channels := rfl
@[simp] theorem State.setPending_latest (s : State) (x : List Instr) : (s.setPending x).latest = s.latest := rfl
@[simp] theorem State.setPending_unreserved (s : State) (x : List Instr) :
    (s.setPending x).unreserved = s.unreserved := rfl
@[simp] theorem State.setPending_queues (s : State) (x : List Instr) : (s.setPending x).queues = s.queues := rfl
@[simp] theorem State.setPending_watches (s : State) (x : List Instr) : (s.setPending x).watches = s.watches := rfl
@[simp] theorem State.setPending_events (s : State) (x : List Instr) : (s.setPending x).events = s.events := rfl
@[simp] theorem State.setPending_free (s : State) (x : List Instr) : (s.setPending x).free = s.free := rfl
@[simp] theorem State.setPending_pending (s : State) (x : List Instr) : (s.setPending x).pending = x := rfl

end Sys2Proof.Machine
end

