-- ==== Sys2Proof/Laws/Frame.lean ====
section
/-! SUPPORT. The frame: sameBut composes, each setter touches its own part, and each shared operation touches no more than the parts its lemma lists. -/

namespace Sys2Proof.Machine

/-! ### Tables -/

/-- Another cell of a table is unchanged by a write. -/
theorem getElem_set_other {α : Type} {n : Nat} (v : Vector α n) (i j : Fin n) (x : α) (h : i ≠ j) :
    (v.set i x)[j] = v[j] := by
  have : i.val ≠ j.val := fun e => h (Fin.ext e)
  simp [this]

/-- The written cell of a table holds what was written. -/
theorem getElem_set_same {α : Type} {n : Nat} (v : Vector α n) (i : Fin n) (x : α) : (v.set i x)[i] = x := by
  simp

/-- Every cell of a table after a write. -/
theorem getElem_set_at {α : Type} {n : Nat} (v : Vector α n) (i j : Fin n) (x : α) :
    (v.set i x)[j] = if i = j then x else v[j] := by
  by_cases h : i = j
  · subst h; simp
  · rw [if_neg h]; exact getElem_set_other v i j x h

/-- Every cell of a table built cell by cell. -/
theorem getElem_ofFn_at {α : Type} {n : Nat} (f : Fin n → α) (j : Fin n) : (Vector.ofFn f)[j] = f j := by simp

/-! ### sameBut composes -/

theorem Part.same_refl (x : Part) (s : State) : x.same s s := by cases x <;> simp [Part.same]

theorem Part.same_trans {x : Part} {s t u : State} (h : x.same s t) (k : x.same t u) : x.same s u := by
  cases x <;> simp_all [Part.same]

theorem sameBut_refl (l : List Part) (s : State) : sameBut l s s := fun x _ => x.same_refl s

theorem sameBut_mono {l m : List Part} {s t : State} (h : sameBut l s t) (k : ∀ x ∈ l, x ∈ m) : sameBut m s t :=
  fun x hx => h x fun hl => hx (k x hl)

theorem sameBut_trans {l : List Part} {s t u : State} (h : sameBut l s t) (k : sameBut l t u) : sameBut l s u :=
  fun x hx => Part.same_trans (h x hx) (k x hx)

/-- A fold whose every step stays within the listed parts stays within them. -/
theorem sameBut_foldl {α : Type} {l : List Part} {f : State → α → State} (h : ∀ s a, sameBut l s (f s a))
    (xs : List α) (s : State) : sameBut l s (xs.foldl f s) := by
  induction xs generalizing s with
  | nil => exact sameBut_refl l s
  | cons a xs ih => exact sameBut_trans (h s a) (ih (f s a))

theorem sameBut_ite {l : List Part} {c : Prop} [Decidable c] {s t u : State} (h : sameBut l s t) (k : sameBut l s u) :
    sameBut l s (if c then t else u) := by
  split
  · exact h
  · exact k

/-! ### The setters -/

theorem sameBut_setHub (s : State) (x : Hub) : sameBut [.hub] s (s.setHub x) := by
  intro y hy; cases y <;> simp_all [Part.same]

theorem sameBut_setTimebase (s : State) (x : Timebase) : sameBut [.timebase] s (s.setTimebase x) := by
  intro y hy; cases y <;> simp_all [Part.same]

theorem sameBut_setRequests (s : State) (x : List PendingEntry) : sameBut [.requests] s (s.setRequests x) := by
  intro y hy; cases y <;> simp_all [Part.same]

theorem sameBut_setConv (s : State) (x : Converter) : sameBut [.converter] s (s.setConv x) := by
  intro y hy; cases y <;> simp_all [Part.same]

theorem sameBut_setUnreserved (s : State) (x : Nat) : sameBut [.unreserved] s (s.setUnreserved x) := by
  intro y hy; cases y <;> simp_all [Part.same]

theorem sameBut_useFree (s : State) : sameBut [.free] s s.useFree := by
  intro y hy; cases y <;> simp_all [Part.same]

/-- Six parts of a port, of which a write of the port may keep some. -/
theorem sameBut_setPort (s : State) (p : Port) (x : PortState) (l : List Part)
    (select : .select p ∈ l ∨ x.nsel = s.ports[p].nsel) (clock : .clock p ∈ l ∨ x.sck = s.ports[p].sck)
    (frame : .frame p ∈ l ∨ x.frame = s.ports[p].frame)
    (result : .result p ∈ l ∨ x.result = s.ports[p].result)
    (staging : .staging p ∈ l ∨ x.staging = s.ports[p].staging)
    (readBuf : .readBuf p ∈ l ∨ x.readBuf = s.ports[p].readBuf) : sameBut l s (s.setPort p x) := by
  intro y hy
  cases y <;> first | exact rfl | exact ⟨rfl, rfl⟩ | skip
  all_goals
    rename_i q
    simp only [Part.same, State.setPort_ports, getElem_set_at]
    by_cases h : p = q
    · subst h; simp_all
    · simp [h]

/-- Three parts of a session record, of which a write of it may keep some. -/
theorem sameBut_setSession (s : State) (p : Port) (x : Session) (l : List Part)
    (session : .session p ∈ l ∨ x.state = s.sessions[p].state ∧ x.lease = s.sessions[p].lease)
    (expiry : .expiry p ∈ l ∨ x.expiry = s.sessions[p].expiry)
    (demand : .demand p ∈ l ∨ x.demandOutstanding = s.sessions[p].demandOutstanding) :
    sameBut l s (s.setSession p x) := by
  intro y hy
  cases y <;> first | exact rfl | exact ⟨rfl, rfl⟩ | skip
  all_goals
    rename_i q
    simp only [Part.same, State.setSession_sessions, getElem_set_at]
    by_cases h : p = q
    · subst h; simp_all
    · simp [h]

theorem sameBut_setSlot (s : State) (n : SlotNo) (x : Slot) : sameBut [.slot n] s (s.setSlot n x) := by
  intro y hy
  cases y <;> first | exact rfl | exact ⟨rfl, rfl⟩ | skip
  rename_i m
  have h : n ≠ m := fun e => hy (by simp [e])
  exact getElem_set_other _ _ _ _ h

theorem sameBut_setChannel (s : State) (c : Fin 16) (x : ChannelConfig) : sameBut [.channel c] s (s.setChannel c x) := by
  intro y hy
  cases y <;> first | exact rfl | exact ⟨rfl, rfl⟩ | skip
  rename_i d
  have h : c ≠ d := fun e => hy (by simp [e])
  exact getElem_set_other _ _ _ _ h

theorem sameBut_setLatest (s : State) (c : Channel) (x : LatestEntry) : sameBut [.latest c] s (s.setLatest c x) := by
  intro y hy
  cases y <;> first | exact rfl | exact ⟨rfl, rfl⟩ | skip
  rename_i d
  have h : c ≠ d := fun e => hy (by simp [e])
  exact getElem_set_other _ _ _ _ h

theorem sameBut_setQueue (s : State) (p : Port) (x : Option SampleQueue) : sameBut [.queue p] s (s.setQueue p x) := by
  intro y hy
  cases y <;> first | exact rfl | exact ⟨rfl, rfl⟩ | skip
  rename_i q
  have h : p ≠ q := fun e => hy (by simp [e])
  exact getElem_set_other _ _ _ _ h

theorem sameBut_setEvents (s : State) (p : Port) (x : EventQueue) : sameBut [.events p] s (s.setEvents p x) := by
  intro y hy
  cases y <;> first | exact rfl | exact ⟨rfl, rfl⟩ | skip
  rename_i q
  have h : p ≠ q := fun e => hy (by simp [e])
  exact getElem_set_other _ _ _ _ h

theorem sameBut_setWatches (s : State) (p : Port) (x : Vector Watch 8) (l : List Part)
    (h : ∀ w : Fin 8, .watch p w ∈ l ∨ x[w] = s.watches[p][w]) : sameBut l s (s.setWatches p x) := by
  intro y hy
  cases y <;> first | exact rfl | exact ⟨rfl, rfl⟩ | skip
  rename_i q w
  by_cases e : p = q
  · subst e
    exact (congrArg (fun v : Vector Watch 8 => v[w]) (getElem_set_same s.watches p x)).trans ((h w).resolve_left hy)
  · exact congrArg (fun v : Vector Watch 8 => v[w]) (getElem_set_other s.watches p q x e)

theorem sameBut_setWatch (s : State) (p : Port) (w : Fin 8) (x : Watch) : sameBut [.watch p w] s (s.setWatch p w x) :=
  sameBut_setWatches s p _ _ fun v => by
    by_cases e : w = v
    · exact .inl (by simp [e])
    · exact .inr (getElem_set_other _ _ _ _ e)

/-- A change of slots touches the slots it changes. -/
theorem sameBut_mapSlots (s : State) (f : SlotNo → Slot → Slot) (l : List Part)
    (h : ∀ n, .slot n ∈ l ∨ f n s.slots[n] = s.slots[n]) : sameBut l s (s.mapSlots f) := by
  intro y hy
  cases y <;> try simp only [Part.same, State.mapSlots]
  · exact ⟨trivial, trivial⟩
  · rw [getElem_ofFn_at]; exact (h _).resolve_left hy

/-- A change of channel records touches the records it changes. -/
theorem sameBut_mapChannels (s : State) (f : ChannelConfig → ChannelConfig) (l : List Part)
    (h : ∀ c, .channel c ∈ l ∨ f s.channels[c] = s.channels[c]) : sameBut l s (s.mapChannels f) := by
  intro y hy
  cases y <;> first | exact rfl | exact ⟨rfl, rfl⟩ | skip
  rename_i c
  have := (h c).resolve_left hy
  simpa [Part.same] using this

end Sys2Proof.Machine
end

