-- ==== Sys2Proof/Laws/Rise.lean ====
section
/-! SUPPORT. The ends of a frame: what raiseSelect, setResult, setFrame and leaseRestart leave in each field, and what a set command can answer. -/

namespace Sys2Proof.Machine

/-! ### Fields -/

@[simp] theorem raiseSelect_hub (s : State) (p : Port) : (raiseSelect s p).hub = s.hub := rfl
@[simp] theorem raiseSelect_timebase (s : State) (p : Port) : (raiseSelect s p).timebase = s.timebase := rfl
@[simp] theorem raiseSelect_sessions (s : State) (p : Port) : (raiseSelect s p).sessions = s.sessions := rfl
@[simp] theorem raiseSelect_slots (s : State) (p : Port) : (raiseSelect s p).slots = s.slots := rfl
@[simp] theorem raiseSelect_requests (s : State) (p : Port) : (raiseSelect s p).requests = s.requests := rfl
@[simp] theorem raiseSelect_conv (s : State) (p : Port) : (raiseSelect s p).conv = s.conv := rfl
@[simp] theorem raiseSelect_channels (s : State) (p : Port) : (raiseSelect s p).channels = s.channels := rfl
@[simp] theorem raiseSelect_latest (s : State) (p : Port) : (raiseSelect s p).latest = s.latest := rfl
@[simp] theorem raiseSelect_unreserved (s : State) (p : Port) : (raiseSelect s p).unreserved = s.unreserved := rfl
@[simp] theorem raiseSelect_queues (s : State) (p : Port) : (raiseSelect s p).queues = s.queues := rfl
@[simp] theorem raiseSelect_watches (s : State) (p : Port) : (raiseSelect s p).watches = s.watches := rfl
@[simp] theorem raiseSelect_events (s : State) (p : Port) : (raiseSelect s p).events = s.events := rfl
@[simp] theorem raiseSelect_free (s : State) (p : Port) : (raiseSelect s p).free = s.free := rfl
@[simp] theorem raiseSelect_pending (s : State) (p : Port) : (raiseSelect s p).pending = s.pending := rfl

@[simp] theorem setResult_hub (s : State) (p : Port) (r : ResultReg) : (setResult s p r).hub = s.hub := rfl
@[simp] theorem setResult_timebase (s : State) (p : Port) (r : ResultReg) : (setResult s p r).timebase = s.timebase :=
  rfl
@[simp] theorem setResult_sessions (s : State) (p : Port) (r : ResultReg) : (setResult s p r).sessions = s.sessions :=
  rfl
@[simp] theorem setResult_slots (s : State) (p : Port) (r : ResultReg) : (setResult s p r).slots = s.slots := rfl
@[simp] theorem setResult_requests (s : State) (p : Port) (r : ResultReg) : (setResult s p r).requests = s.requests :=
  rfl
@[simp] theorem setResult_conv (s : State) (p : Port) (r : ResultReg) : (setResult s p r).conv = s.conv := rfl
@[simp] theorem setResult_channels (s : State) (p : Port) (r : ResultReg) : (setResult s p r).channels = s.channels :=
  rfl
@[simp] theorem setResult_latest (s : State) (p : Port) (r : ResultReg) : (setResult s p r).latest = s.latest := rfl
@[simp] theorem setResult_unreserved (s : State) (p : Port) (r : ResultReg) : (setResult s p r).unreserved = s.unreserved :=
  rfl
@[simp] theorem setResult_queues (s : State) (p : Port) (r : ResultReg) : (setResult s p r).queues = s.queues := rfl
@[simp] theorem setResult_watches (s : State) (p : Port) (r : ResultReg) : (setResult s p r).watches = s.watches :=
  rfl
@[simp] theorem setResult_events (s : State) (p : Port) (r : ResultReg) : (setResult s p r).events = s.events := rfl
@[simp] theorem setResult_free (s : State) (p : Port) (r : ResultReg) : (setResult s p r).free = s.free := rfl
@[simp] theorem setResult_pending (s : State) (p : Port) (r : ResultReg) : (setResult s p r).pending = s.pending :=
  rfl

@[simp] theorem setFrame_hub (s : State) (p : Port) (f : Frame) : (setFrame s p f).hub = s.hub := rfl
@[simp] theorem setFrame_timebase (s : State) (p : Port) (f : Frame) : (setFrame s p f).timebase = s.timebase := rfl
@[simp] theorem setFrame_sessions (s : State) (p : Port) (f : Frame) : (setFrame s p f).sessions = s.sessions := rfl
@[simp] theorem setFrame_slots (s : State) (p : Port) (f : Frame) : (setFrame s p f).slots = s.slots := rfl
@[simp] theorem setFrame_requests (s : State) (p : Port) (f : Frame) : (setFrame s p f).requests = s.requests := rfl
@[simp] theorem setFrame_conv (s : State) (p : Port) (f : Frame) : (setFrame s p f).conv = s.conv := rfl
@[simp] theorem setFrame_channels (s : State) (p : Port) (f : Frame) : (setFrame s p f).channels = s.channels := rfl
@[simp] theorem setFrame_latest (s : State) (p : Port) (f : Frame) : (setFrame s p f).latest = s.latest := rfl
@[simp] theorem setFrame_unreserved (s : State) (p : Port) (f : Frame) : (setFrame s p f).unreserved = s.unreserved :=
  rfl
@[simp] theorem setFrame_queues (s : State) (p : Port) (f : Frame) : (setFrame s p f).queues = s.queues := rfl
@[simp] theorem setFrame_watches (s : State) (p : Port) (f : Frame) : (setFrame s p f).watches = s.watches := rfl
@[simp] theorem setFrame_events (s : State) (p : Port) (f : Frame) : (setFrame s p f).events = s.events := rfl
@[simp] theorem setFrame_free (s : State) (p : Port) (f : Frame) : (setFrame s p f).free = s.free := rfl
@[simp] theorem setFrame_pending (s : State) (p : Port) (f : Frame) : (setFrame s p f).pending = s.pending := rfl

@[simp] theorem leaseRestart_hub (s : State) (p : Port) : (leaseRestart s p).hub = s.hub :=
  by unfold leaseRestart; split <;> rfl
@[simp] theorem leaseRestart_timebase (s : State) (p : Port) : (leaseRestart s p).timebase = s.timebase :=
  by unfold leaseRestart; split <;> rfl
@[simp] theorem leaseRestart_ports (s : State) (p : Port) : (leaseRestart s p).ports = s.ports :=
  by unfold leaseRestart; split <;> rfl
@[simp] theorem leaseRestart_slots (s : State) (p : Port) : (leaseRestart s p).slots = s.slots :=
  by unfold leaseRestart; split <;> rfl
@[simp] theorem leaseRestart_requests (s : State) (p : Port) : (leaseRestart s p).requests = s.requests :=
  by unfold leaseRestart; split <;> rfl
@[simp] theorem leaseRestart_conv (s : State) (p : Port) : (leaseRestart s p).conv = s.conv :=
  by unfold leaseRestart; split <;> rfl
@[simp] theorem leaseRestart_channels (s : State) (p : Port) : (leaseRestart s p).channels = s.channels :=
  by unfold leaseRestart; split <;> rfl
@[simp] theorem leaseRestart_latest (s : State) (p : Port) : (leaseRestart s p).latest = s.latest :=
  by unfold leaseRestart; split <;> rfl
@[simp] theorem leaseRestart_unreserved (s : State) (p : Port) : (leaseRestart s p).unreserved = s.unreserved :=
  by unfold leaseRestart; split <;> rfl
@[simp] theorem leaseRestart_queues (s : State) (p : Port) : (leaseRestart s p).queues = s.queues :=
  by unfold leaseRestart; split <;> rfl
@[simp] theorem leaseRestart_watches (s : State) (p : Port) : (leaseRestart s p).watches = s.watches :=
  by unfold leaseRestart; split <;> rfl
@[simp] theorem leaseRestart_events (s : State) (p : Port) : (leaseRestart s p).events = s.events :=
  by unfold leaseRestart; split <;> rfl
@[simp] theorem leaseRestart_free (s : State) (p : Port) : (leaseRestart s p).free = s.free :=
  by unfold leaseRestart; split <;> rfl
@[simp] theorem leaseRestart_pending (s : State) (p : Port) : (leaseRestart s p).pending = s.pending :=
  by unfold leaseRestart; split <;> rfl

@[simp] theorem setClock_hub (s : State) (p : Port) (x : Level) : (setClock s p x).hub = s.hub := rfl
@[simp] theorem setClock_timebase (s : State) (p : Port) (x : Level) : (setClock s p x).timebase = s.timebase := rfl
@[simp] theorem setClock_sessions (s : State) (p : Port) (x : Level) : (setClock s p x).sessions = s.sessions := rfl
@[simp] theorem setClock_slots (s : State) (p : Port) (x : Level) : (setClock s p x).slots = s.slots := rfl
@[simp] theorem setClock_requests (s : State) (p : Port) (x : Level) : (setClock s p x).requests = s.requests := rfl
@[simp] theorem setClock_conv (s : State) (p : Port) (x : Level) : (setClock s p x).conv = s.conv := rfl
@[simp] theorem setClock_channels (s : State) (p : Port) (x : Level) : (setClock s p x).channels = s.channels := rfl
@[simp] theorem setClock_latest (s : State) (p : Port) (x : Level) : (setClock s p x).latest = s.latest := rfl
@[simp] theorem setClock_unreserved (s : State) (p : Port) (x : Level) : (setClock s p x).unreserved = s.unreserved := rfl
@[simp] theorem setClock_queues (s : State) (p : Port) (x : Level) : (setClock s p x).queues = s.queues := rfl
@[simp] theorem setClock_watches (s : State) (p : Port) (x : Level) : (setClock s p x).watches = s.watches := rfl
@[simp] theorem setClock_events (s : State) (p : Port) (x : Level) : (setClock s p x).events = s.events := rfl
@[simp] theorem setClock_free (s : State) (p : Port) (x : Level) : (setClock s p x).free = s.free := rfl
@[simp] theorem setClock_pending (s : State) (p : Port) (x : Level) : (setClock s p x).pending = s.pending := rfl

theorem setClock_port (s : State) (p : Port) (x : Level) :
    (setClock s p x).ports[p] = { s.ports[p] with sck := x } := getElem_set_same _ _ _

theorem setClock_other (s : State) (p q : Port) (x : Level) (h : p ≠ q) : (setClock s p x).ports[q] = s.ports[q] :=
  getElem_set_other _ _ _ _ h

theorem raiseSelect_port (s : State) (p : Port) :
    (raiseSelect s p).ports[p] = { s.ports[p] with nsel := .high, frame := Frame.idle } := getElem_set_same _ _ _

theorem raiseSelect_other (s : State) (p q : Port) (h : p ≠ q) : (raiseSelect s p).ports[q] = s.ports[q] :=
  getElem_set_other _ _ _ _ h

theorem setResult_port (s : State) (p : Port) (r : ResultReg) :
    (setResult s p r).ports[p] = { s.ports[p] with result := r } := getElem_set_same _ _ _

theorem setResult_other (s : State) (p q : Port) (r : ResultReg) (h : p ≠ q) :
    (setResult s p r).ports[q] = s.ports[q] := getElem_set_other _ _ _ _ h

theorem setFrame_port (s : State) (p : Port) (f : Frame) :
    (setFrame s p f).ports[p] = { s.ports[p] with frame := f } := getElem_set_same _ _ _

theorem setFrame_other (s : State) (p q : Port) (f : Frame) (h : p ≠ q) : (setFrame s p f).ports[q] = s.ports[q] :=
  getElem_set_other _ _ _ _ h

/-- Only the last of two frames written to a port remains. -/
theorem setFrame_setFrame (s : State) (p : Port) (f g : Frame) : setFrame (setFrame s p f) p g = setFrame s p g := by
  unfold setFrame State.setPort
  simp [-Fin.getElem_fin, getElem_set_same]

theorem setFrame_setQueue (s : State) (p q : Port) (f : Frame) (x : Option SampleQueue) :
    (setFrame s p f).setQueue q x = setFrame (s.setQueue q x) p f := rfl

theorem setFrame_setEvents (s : State) (p q : Port) (f : Frame) (x : EventQueue) :
    (setFrame s p f).setEvents q x = setFrame (s.setEvents q x) p f := rfl

theorem leaseRestart_session (s : State) (p : Port) : (leaseRestart s p).sessions[p] =
    if s.isOpen p then { s.sessions[p] with expiry := some (leaseTick s p) } else s.sessions[p] := by
  unfold leaseRestart
  split
  · exact getElem_set_same _ _ _
  · rfl

theorem leaseRestart_otherSession (s : State) (p q : Port) (h : p ≠ q) :
    (leaseRestart s p).sessions[q] = s.sessions[q] := by
  unfold leaseRestart
  split
  · exact getElem_set_other _ _ _ _ h
  · rfl

@[simp] theorem leaseRestart_isOpen (s : State) (p q : Port) : (leaseRestart s p).isOpen q = s.isOpen q := by
  unfold State.isOpen
  by_cases h : p = q
  · subst h; rw [leaseRestart_session]; split <;> rfl
  · rw [leaseRestart_otherSession s p q h]

@[simp] theorem raiseSelect_isOpen (s : State) (p q : Port) : (raiseSelect s p).isOpen q = s.isOpen q := rfl
@[simp] theorem raiseSelect_now (s : State) (p : Port) : (raiseSelect s p).now = s.now := rfl
@[simp] theorem setResult_isOpen (s : State) (p q : Port) (r : ResultReg) :
    (setResult s p r).isOpen q = s.isOpen q := rfl
@[simp] theorem setResult_now (s : State) (p : Port) (r : ResultReg) : (setResult s p r).now = s.now := rfl

/-! ### Frames -/

theorem sameBut_raiseSelect (s : State) (p : Port) : sameBut [.select p, .frame p] s (raiseSelect s p) :=
  sameBut_setPort _ _ _ _ (.inl (by simp)) (.inr rfl) (.inl (by simp)) (.inr rfl) (.inr rfl) (.inr rfl)

theorem sameBut_setClock (s : State) (p : Port) (x : Level) : sameBut [.clock p] s (setClock s p x) :=
  sameBut_setPort _ _ _ _ (.inr rfl) (.inl (by simp)) (.inr rfl) (.inr rfl) (.inr rfl) (.inr rfl)

theorem sameBut_setResult (s : State) (p : Port) (r : ResultReg) : sameBut [.result p] s (setResult s p r) :=
  sameBut_setPort _ _ _ _ (.inr rfl) (.inr rfl) (.inr rfl) (.inl (by simp)) (.inr rfl) (.inr rfl)

theorem sameBut_setFrame (s : State) (p : Port) (f : Frame) : sameBut [.frame p] s (setFrame s p f) :=
  sameBut_setPort _ _ _ _ (.inr rfl) (.inr rfl) (.inl (by simp)) (.inr rfl) (.inr rfl) (.inr rfl)

theorem sameBut_leaseRestart (s : State) (p : Port) : sameBut [.expiry p] s (leaseRestart s p) := by
  unfold leaseRestart
  split
  · exact sameBut_setSession _ _ _ _ (.inr ⟨rfl, rfl⟩) (.inl (by simp)) (.inr rfl)
  · exact sameBut_refl _ _

/-! ### What a frame end can answer -/

/-- The next state of a frame end: the rise alone, on an IDLE port, or the row's effect after the rise. -/
theorem atRise_next {p : Port} {row : FrameEnd} {act : Frame → State → State} {s t : State}
    (h : atRise p row act s = .next t) :
    s.ports[p].nsel ≠ .high ∧
      (frameEnd s.ports[p].frame = .abandoned ∧ t = raiseSelect s p
        ∨ frameEnd s.ports[p].frame = row ∧ t = act s.ports[p].frame (raiseSelect s p)) := by
  unfold atRise at h
  simp only at h
  split at h
  · cases h
  · rename_i h1
    refine ⟨h1, ?_⟩
    split at h
    · rename_i h2; cases h; exact .inl ⟨h2, rfl⟩
    · split at h
      · rename_i h3; cases h; exact .inr ⟨h3, rfl⟩
      · cases h

/-- The effect of a set command after the rise: its act, the result register, the lease. -/
def riseEffect (p : Port) (act : List Byte → State → Done) (f : Frame) (s : State) : State :=
  leaseRestart (setResult (act f.args s).1 p (act f.args s).2) p

theorem takeSetting_eq (p : Port) (c : Command) (act : List Byte → State → Done) (s : State) :
    takeSetting p c act s = atRise p (.setting c) (riseEffect p act) s := rfl

/-- The rise that a frame's set command is due at ends it as that command. -/
theorem frameEnd_settingDue {p : Port} {c : Command} {s : State} (h : settingDue p c s) (k : c.kind = .setting) :
    frameEnd s.ports[p].frame = .setting c := by
  obtain ⟨⟨_, h2, h3, h4, h5⟩, h6⟩ := h
  simp [frameEnd, Frame.midByte, h6, h2, h3, h4, h5, k, -Fin.getElem_fin]

/-- A set command that is due is taken whole. -/
theorem takeSetting_due {p : Port} {c : Command} {s : State} (h : settingDue p c s) (k : c.kind = .setting)
    (act : List Byte → State → Done) :
    takeSetting p c act s = .next (riseEffect p act s.ports[p].frame (raiseSelect s p)) := by
  have e := frameEnd_settingDue h k
  unfold takeSetting atRise
  simp [h.1.1, e, riseEffect, -Fin.getElem_fin]

/-- The rise with an act that leaves u and result r: the frame has ended, the result is in, the lease runs. -/
theorem riseEffect_rises {p : Port} {act : List Byte → State → Done} {f : Frame} {s u : State} {r : ResultReg}
    (e : act f.args (raiseSelect s p) = (u, r)) (hn : u.ports[p].nsel = .high) (hf : u.ports[p].frame = Frame.idle)
    (hx : u.isOpen p = false → u.sessions[p].expiry = s.sessions[p].expiry) :
    rises p r s (riseEffect p act f (raiseSelect s p)) := by
  have e1 : riseEffect p act f (raiseSelect s p) = leaseRestart (setResult u p r) p := by unfold riseEffect; rw [e]
  rw [e1]
  refine ⟨?_, ?_, ?_, ?_, ?_⟩
  · rw [leaseRestart_ports, setResult_port]; exact hn
  · rw [leaseRestart_ports, setResult_port]; exact hf
  · rw [leaseRestart_ports, setResult_port]
  · intro h
    rw [leaseRestart_isOpen, setResult_isOpen] at h
    rw [leaseRestart_session, setResult_isOpen, if_pos h]
    have : (leaseRestart (setResult u p r) p).sessions[p].lease = u.sessions[p].lease := by
      rw [leaseRestart_session]; split <;> rfl
    simp only [leaseTick, this, State.now, leaseRestart_timebase, setResult_timebase, setResult_sessions]
  · intro h
    rw [leaseRestart_isOpen, setResult_isOpen] at h
    rw [leaseRestart_session, setResult_isOpen, h]
    exact hx h

/-- The rise with an act that leaves u touches what the act touched, and the rise's own parts. -/
theorem riseEffect_frame {p : Port} {act : List Byte → State → Done} {f : Frame} {s u : State} {r : ResultReg}
    (e : act f.args (raiseSelect s p) = (u, r)) {l : List Part} (hu : sameBut (riseParts p ++ l) (raiseSelect s p) u) :
    sameBut (riseParts p ++ l) s (riseEffect p act f (raiseSelect s p)) := by
  have e1 : riseEffect p act f (raiseSelect s p) = leaseRestart (setResult u p r) p := by unfold riseEffect; rw [e]
  rw [e1]
  refine sameBut_trans (sameBut_mono (sameBut_raiseSelect s p) ?_) (sameBut_trans hu
    (sameBut_trans (sameBut_mono (sameBut_setResult u p r) ?_) (sameBut_mono (sameBut_leaseRestart _ p) ?_)))
  all_goals simp [riseParts]

/-- A refused set command changes nothing but what the rise itself changes. -/
theorem riseEffect_refused {p : Port} {act : List Byte → State → Done} {f : Frame} {s : State} {code : ResultCode}
    (e : act f.args (raiseSelect s p) = refuseWith (raiseSelect s p) code) :
    refusedWith p code s (riseEffect p act f (raiseSelect s p)) := by
  refine ⟨riseEffect_rises e (by rw [raiseSelect_port]) (by rw [raiseSelect_port]) fun _ => rfl, ?_⟩
  have := riseEffect_frame (l := []) e (sameBut_refl _ _)
  simpa using this

/-- An accepted set command touches what its act touches. -/
theorem riseEffect_accepted {p : Port} {act : List Byte → State → Done} {f : Frame} {s u : State} {d : Byte}
    (e : act f.args (raiseSelect s p) = (u, ⟨.ok, d⟩)) {l : List Part} (hu : sameBut l (raiseSelect s p) u)
    (h0 : .select p ∉ l) (h1 : .frame p ∉ l) (h2 : .expiry p ∉ l ∨ u.isOpen p = true) :
    accepted p d l s (riseEffect p act f (raiseSelect s p)) := by
  have hs : u.ports[p].nsel = (raiseSelect s p).ports[p].nsel := hu (.select p) h0
  have hp : u.ports[p].frame = (raiseSelect s p).ports[p].frame := hu (.frame p) h1
  rw [raiseSelect_port] at hs hp
  refine ⟨riseEffect_rises e hs hp ?_, riseEffect_frame e (sameBut_mono hu fun x hx => List.mem_append_right _ hx)⟩
  intro h
  rcases h2 with h2 | h2
  · exact hu (.expiry p) h2
  · rw [h2] at h; cases h

/-- A command that needs a session, while it is OPEN. -/
theorem withSession_open {p : Port} {act : State → Done} {s : State} (h : s.isOpen p = true) :
    withSession p act s = act s := by simp [withSession, h]

/-- A command that needs a session, while it is not OPEN. -/
theorem withSession_closed {p : Port} {act : State → Done} {s : State} (h : s.isOpen p = false) :
    withSession p act s = refuseWith s .noSession := by simp [withSession, h]

/-- A frame end that says where in a byte it stands, and says it right, is the frame end. -/
theorem atRiseIn_eq {p : Port} {mid : Bool} {row : FrameEnd} {act : Frame → State → State} {s : State}
    (h : s.ports[p].frame.state = .idle ∨ s.ports[p].frame.midByte = mid) :
    atRiseIn p mid row act s = atRise p row act s := by
  unfold atRiseIn
  rcases h with h | h <;> simp [h, -Fin.getElem_fin]

/-- The next state of such a frame end is one of the frame end. -/
theorem atRiseIn_next {p : Port} {mid : Bool} {row : FrameEnd} {act : Frame → State → State} {s t : State}
    (h : atRiseIn p mid row act s = .next t) : atRise p row act s = .next t := by
  unfold atRiseIn at h
  split at h
  · cases h
  · exact h

end Sys2Proof.Machine
end

