-- ==== Sys2Proof/Laws/Effects.lean ====
section
/-! SUPPORT. What each shared operation of the blocks can touch: one frame lemma for each. -/

namespace Sys2Proof.Machine

/-! ### The lists of parts -/

@[simp] theorem slot_mem_allSlots (n : SlotNo) : Part.slot n ∈ allSlots := by simp [allSlots]
@[simp] theorem channel_mem_allChannels (c : Fin 16) : Part.channel c ∈ allChannels := by simp [allChannels]
@[simp] theorem queue_mem_allQueues (p : Port) : Part.queue p ∈ allQueues := by simp [allQueues]
@[simp] theorem events_mem_allEvents (p : Port) : Part.events p ∈ allEvents := by simp [allEvents]
@[simp] theorem demand_mem_allDemands (p : Port) : Part.demand p ∈ allDemands := by simp [allDemands]
@[simp] theorem watch_mem_allWatches (p : Port) (w : Fin 8) : Part.watch p w ∈ allWatches := by simp [allWatches]

/-! ### Events -/

theorem sameBut_sendEvent (s : State) (p : Port) (e : EventRecord) : sameBut [.events p] s (sendEvent s p e) :=
  sameBut_ite (sameBut_setEvents _ _ _) (sameBut_refl _ _)

theorem sameBut_sendToOwner (s : State) (o : Option Port) (e : EventRecord) :
    sameBut allEvents s (sendToOwner s o e) := by
  cases o with
  | none => exact sameBut_refl _ _
  | some p => exact sameBut_mono (sameBut_sendEvent s p e) (by simp)

theorem sameBut_decideEvents (s : State) (p : Port) : sameBut [.frame p, .events p] s (decideEvents s p) := by
  unfold decideEvents
  simp only
  split
  · split
    · exact sameBut_trans (sameBut_mono (sameBut_setEvents _ _ _) (by simp))
        (sameBut_mono (sameBut_setFrame _ _ _) (by simp))
    · exact sameBut_mono (sameBut_setFrame _ _ _) (by simp)
  · exact sameBut_mono (sameBut_setFrame _ _ _) (by simp)

/-! ### Requests -/

theorem sameBut_requestSlot (s : State) (n : SlotNo) (due : Tick) :
    sameBut [.slot n, .requests] s (requestSlot s n due) :=
  sameBut_trans (sameBut_mono (sameBut_setRequests _ _) (by simp)) (sameBut_mono (sameBut_setSlot _ _ _) (by simp))

theorem sameBut_overrunSlot (s : State) (n : SlotNo) : sameBut [.slot n, .requests] s (overrunSlot s n) :=
  sameBut_trans (sameBut_mono (sameBut_setRequests _ _) (by simp)) (sameBut_mono (sameBut_setSlot _ _ _) (by simp))

theorem sameBut_withdrawSlot (s : State) (n : SlotNo) : sameBut [.slot n, .requests] s (withdrawSlot s n) :=
  sameBut_trans (sameBut_mono (sameBut_setRequests _ _) (by simp)) (sameBut_mono (sameBut_setSlot _ _ _) (by simp))

/-- The parts that the start of a conversion touches. -/
theorem sameBut_startConversion (s : State) (w : PendingEntry) :
    sameBut ([.requests, .converter] ++ allSlots) s (startConversion s w) :=
  sameBut_trans (sameBut_mono (sameBut_setRequests _ _) (by simp))
    (sameBut_trans (sameBut_mapSlots _ _ _ fun n => .inl (by simp)) (sameBut_mono (sameBut_setConv _ _) (by simp)))

theorem sameBut_select (s : State) : sameBut ([.requests, .converter] ++ allSlots) s (select s) := by
  unfold select
  split
  · exact sameBut_startConversion _ _
  · exact sameBut_refl _ _

theorem sameBut_selectIfIdle (s : State) : sameBut ([.requests, .converter] ++ allSlots) s (selectIfIdle s) :=
  sameBut_ite (sameBut_select s) (sameBut_refl _ _)

theorem sameBut_releaseSlot (s : State) (n : SlotNo) : sameBut (.slot n :: allEvents) s (releaseSlot s n) :=
  sameBut_trans (sameBut_mono (sameBut_sendToOwner _ _ _) fun x hx => List.mem_cons_of_mem _ hx)
    (sameBut_mono (sameBut_setSlot _ _ _) (by simp))

theorem sameBut_releaseSlots (l : List SlotNo) (s : State) :
    sameBut (allSlots ++ allEvents) s (l.foldl releaseSlot s) :=
  sameBut_foldl (fun s n => sameBut_mono (sameBut_releaseSlot s n) (by simp +contextual)) l s

theorem sameBut_returnEntry (s : State) (r : InFlight) : sameBut (.requests :: allSlots) s (returnEntry s r) := by
  unfold returnEntry
  simp only
  exact sameBut_trans (sameBut_mono (sameBut_setRequests _ _) (by simp)) (sameBut_mapSlots _ _ _ fun n => .inl (by simp))

theorem sameBut_endDemands (s : State) (subs : List FlightEntry) (pick : FlightEntry → Bool) :
    sameBut allDemands s (endDemands s subs pick) := by
  intro y hy
  cases y <;> try simp only [Part.same, endDemands]
  · rw [getElem_ofFn_at]; split <;> exact ⟨rfl, rfl⟩
  · rw [getElem_ofFn_at]; split <;> rfl
  · exact absurd (by simp) hy

/-- The parts that an abandonment touches (R48, R70). -/
theorem sameBut_abandon (s : State) (r : InFlight) :
    sameBut ([.requests, .converter] ++ allSlots ++ allEvents ++ allDemands) s (abandon s r) := by
  refine sameBut_trans (sameBut_mono (sameBut_setConv _ _) ?_) (sameBut_trans (sameBut_mono (sameBut_returnEntry _ r) ?_)
    (sameBut_trans (sameBut_mono (sameBut_endDemands _ _ _) ?_) (sameBut_mono (sameBut_releaseSlots _ _) ?_)))
  all_goals intro x hx; simp at hx ⊢; tauto

theorem sameBut_edgeDecision (s : State) :
    sameBut ([.requests, .converter] ++ allSlots ++ allEvents ++ allDemands) s (edgeDecision s) := by
  unfold edgeDecision
  split
  · exact sameBut_mono (sameBut_select s) (by intro x hx; simp at hx ⊢; tauto)
  · split
    · split
      · exact sameBut_abandon _ _
      · exact sameBut_refl _ _
    · exact sameBut_refl _ _

theorem sameBut_expirePeriod (s : State) (n : SlotNo) :
    sameBut ([.requests, .converter] ++ allSlots) s (expirePeriod s n) := by
  unfold expirePeriod
  simp only
  split
  · exact sameBut_trans (sameBut_mono (sameBut_overrunSlot _ _) (by simp)) (sameBut_mono (sameBut_setSlot _ _ _) (by simp))
  · have h : sameBut ([.requests, .converter] ++ allSlots) s
        ((requestSlot s n s.slots[n].nextDue).setSlot n { (requestSlot s n s.slots[n].nextDue).slots[n] with
          nextDue := s.slots[n].nextDue + ticks22 s.slots[n].settings.period }) :=
      sameBut_trans (sameBut_mono (sameBut_requestSlot _ _ _) (by simp)) (sameBut_mono (sameBut_setSlot _ _ _) (by simp))
    split
    · exact sameBut_trans h (sameBut_selectIfIdle _)
    · exact h

theorem sameBut_edgeAtSlot (e : Edge) (s : State) (n : SlotNo) :
    sameBut [.slot n, .requests] s (edgeAtSlot e s n) := by
  unfold edgeAtSlot
  simp only
  split
  · split
    · split
      · exact sameBut_trans (sameBut_mono (sameBut_setSlot _ _ _) (by simp)) (sameBut_overrunSlot _ _)
      · exact sameBut_trans (sameBut_mono (sameBut_setSlot _ _ _) (by simp)) (sameBut_requestSlot _ _ _)
    · exact sameBut_mono (sameBut_setSlot _ _ _) (by simp)
  · exact sameBut_refl _ _

theorem sameBut_takeEdge (e : Edge) (s : State) :
    sameBut ([.requests, .converter] ++ allSlots ++ allEvents ++ allDemands) s (takeEdge e s) := by
  have h : sameBut ([.requests, .converter] ++ allSlots ++ allEvents ++ allDemands) s
      ((List.finRange 32).foldl (edgeAtSlot e) s) :=
    sameBut_foldl (fun s n => sameBut_mono (sameBut_edgeAtSlot e s n) (by simp)) _ _
  unfold takeEdge
  simp only
  split
  · exact sameBut_trans h (sameBut_edgeDecision _)
  · exact h

/-! ### Delivery -/

theorem sameBut_offerRecord (s : State) (p : Port) (b : Bool) (r : SampleRecord) :
    sameBut [.queue p] s (offerRecord s p b r) := by
  unfold offerRecord
  split
  · exact sameBut_setQueue _ _ _
  · exact sameBut_refl _ _

theorem sameBut_decideSamples (s : State) (p : Port) : sameBut [.frame p, .queue p] s (decideSamples s p) := by
  have h (f : Frame) : sameBut [.frame p, .queue p] s (setFrame s p f) :=
    sameBut_mono (sameBut_setFrame _ _ _) (by simp)
  unfold decideSamples
  simp only
  split
  · split
    · split
      · exact sameBut_trans (sameBut_mono (sameBut_setQueue _ _ _) (by simp))
          (sameBut_mono (sameBut_setFrame _ _ _) (by simp))
      · exact h _
    · exact h _
  · exact h _

theorem sameBut_requestDemand (s : State) (p : Port) (c : Channel) (x : BitVec 2) (y : BitVec 3) :
    sameBut [.demand p, .requests] s (requestDemand s p c x y) :=
  sameBut_trans (sameBut_mono (sameBut_setRequests _ _) (by simp))
    (sameBut_setSession _ _ _ _ (.inr ⟨rfl, rfl⟩) (.inr rfl) (.inl (by simp)))

/-! ### Watches -/

theorem sameBut_startBurstAt (s : State) (n : SlotNo) (due : Tick) :
    sameBut [.slot n, .requests] s (startBurstAt s n due) :=
  sameBut_trans (sameBut_mono (sameBut_setSlot _ _ _) (by simp)) (sameBut_requestSlot _ _ _)

theorem sameBut_holdAction (s : State) (p : Port) (w : Fin 8) (tick : Tick) :
    sameBut [.queue p, .events p] s (holdAction s p w tick) := by
  unfold holdAction
  split
  · split
    · exact sameBut_mono (sameBut_setQueue _ _ _) (by simp)
    · exact sameBut_trans (sameBut_mono (sameBut_setQueue _ _ _) (by simp))
        (sameBut_mono (sameBut_sendEvent _ _ _) (by simp))
  · exact sameBut_refl _ _

theorem sameBut_captureAction (s : State) (p : Port) (w : Fin 8) (b : SlotNo) (tick : Tick) :
    sameBut [.slot b, .requests, .events p] s (captureAction s p w b tick) := by
  have h (e : EventRecord) : sameBut [.slot b, .requests, .events p] s (sendEvent s p e) :=
    sameBut_mono (sameBut_sendEvent _ _ _) (by simp)
  unfold captureAction
  simp only
  split
  · exact sameBut_mono (sameBut_startBurstAt _ _ _) (by simp)
  · split
    · exact h _
    · exact h _

/-- The parts that a watch's action touches. -/
theorem sameBut_watchAction (s : State) (p : Port) (w : Fin 8) (x : Watch) (tick : Tick) :
    sameBut [.slot x.captureSlot, .requests, .events p, .queue p] s (watchAction s p w x tick) := by
  unfold watchAction
  split
  · exact sameBut_refl _ _
  · exact sameBut_mono (sameBut_holdAction _ _ _ _) (by simp)
  · exact sameBut_mono (sameBut_captureAction _ _ _ _ _) (by simp)

theorem sameBut_carryOutMatch (s : State) (p : Port) (w : Fin 8) (n : SlotNo) (tick : Tick) (c : Conditions) :
    sameBut [.watch p w, .slot s.watches[p][w].captureSlot, .requests, .events p, .queue p] s
      (carryOutMatch s p w n tick c) := by
  unfold carryOutMatch
  simp only
  split
  · exact sameBut_trans (sameBut_mono (sameBut_setWatch _ _ _ _) (by simp)) (sameBut_trans
      (sameBut_mono (sameBut_sendEvent _ _ _) (by simp)) (sameBut_trans
        (sameBut_mono (sameBut_watchAction _ _ _ _ _) (by simp)) (sameBut_mono (sameBut_setWatch _ _ _ _) (by simp))))
  · exact sameBut_trans (sameBut_mono (sameBut_setWatch _ _ _ _) (by simp)) (sameBut_trans
      (sameBut_mono (sameBut_sendEvent _ _ _) (by simp)) (sameBut_mono (sameBut_watchAction _ _ _ _ _) (by simp)))

/-- The parts that the evaluation of a port's watches touches. -/
def evaluationParts (p : Port) : List Part :=
  [.requests, .queue p, .events p] ++ allSlots ++ (List.finRange 8).map fun w => .watch p w

theorem sameBut_evaluateWatches (s : State) (p : Port) (n : SlotNo) (tick : Tick) (c : Conditions) :
    sameBut (evaluationParts p) s (evaluateWatches s p n tick c) :=
  sameBut_foldl (fun s w => sameBut_ite
    (sameBut_mono (sameBut_carryOutMatch _ _ _ _ _ _) (by simp [evaluationParts])) (sameBut_refl _ _)) _ _

/-! ### Completion -/

theorem sameBut_burstAccounting (s : State) (n : SlotNo) (tick : Tick) :
    sameBut ([.requests] ++ allSlots ++ allEvents) s (burstAccounting s n tick) := by
  unfold burstAccounting
  simp only
  split
  · split
    · split
      · exact sameBut_mono (sameBut_setSlot _ _ _) (by simp)
      · exact sameBut_trans (sameBut_mono (sameBut_setSlot _ _ _) (by simp))
          (sameBut_mono (sameBut_requestSlot _ _ _) (by simp))
    · refine sameBut_trans ?_ (sameBut_trans (sameBut_mono (sameBut_setSlot _ _ _) ?_)
        (sameBut_mono (sameBut_sendToOwner _ _ _) (by simp +contextual)))
      · split
        · exact sameBut_trans (sameBut_mono (sameBut_setSlot _ _ _) (by simp))
            (sameBut_mono (sameBut_withdrawSlot _ _) (by simp))
        · exact sameBut_mono (sameBut_setSlot _ _ _) (by simp)
      · simp
  · exact sameBut_refl _ _

/-- The parts that serving slots and demands touches. -/
def servingParts : List Part := [.requests] ++ allSlots ++ allQueues ++ allWatches ++ allEvents

theorem sameBut_deliverTo (s : State) (c : Report) (n : SlotNo) (t : Slot) (sub : Option SubEntry) :
    sameBut servingParts s (deliverTo s c n t sub) := by
  unfold deliverTo
  simp only
  split
  · refine sameBut_trans ?_ (sameBut_mono (sameBut_evaluateWatches _ _ _ _ _) ?_)
    · exact sameBut_ite (sameBut_mono (sameBut_offerRecord _ _ _ _) (by simp [servingParts])) (sameBut_refl _ _)
    · intro x hx
      simp [evaluationParts, servingParts] at hx ⊢
      rcases hx with rfl | rfl | rfl | h | ⟨w, rfl⟩ <;> simp_all
  · exact sameBut_refl _ _

theorem sameBut_serveSlot (c : Report) (s : State) (x : SlotNo × Option SubEntry) :
    sameBut servingParts s (serveSlot c s x) :=
  sameBut_trans (sameBut_mono (sameBut_setSlot _ _ _) (by simp [servingParts])) (sameBut_trans
    (sameBut_deliverTo _ _ _ _ _) (sameBut_mono (sameBut_burstAccounting _ _ _) (by
      intro x hx; simp [servingParts] at hx ⊢; tauto)))

theorem sameBut_serveDemand (c : Report) (s : State) (x : FlightEntry) :
    sameBut servingParts s (serveDemand c s x) := by
  unfold serveDemand
  split
  · exact sameBut_refl _ _
  · exact sameBut_ite (sameBut_refl _ _) (sameBut_mono (sameBut_offerRecord _ _ _ _) (by simp [servingParts]))

/-- The parts that a completion touches (R69). -/
theorem sameBut_complete (s : State) (r : InFlight) : sameBut (completionParts r.channel) s (complete s r) := by
  have h : ∀ x ∈ servingParts, x ∈ completionParts r.channel := by
    intro x hx; simp [servingParts, completionParts] at hx ⊢; tauto
  refine sameBut_trans (sameBut_mono (sameBut_setConv _ _) (by simp [completionParts])) (sameBut_trans
    (sameBut_mono (sameBut_setLatest _ _ _) (by simp [completionParts])) (sameBut_trans
      (sameBut_mapSlots _ _ _ fun n => .inl (by simp [completionParts])) (sameBut_trans
        (sameBut_foldl (fun s x => sameBut_mono (sameBut_serveSlot _ s x) h) _ _) (sameBut_trans
          (sameBut_foldl (fun s x => sameBut_mono (sameBut_serveDemand _ s x) h) _ _) (sameBut_trans
            (sameBut_mono (sameBut_endDemands _ _ _) ?_) (sameBut_mono (sameBut_releaseSlots _ _) ?_))))))
  all_goals intro x hx; simp [completionParts] at hx ⊢; tauto

/-! ### Slots and channels -/

theorem sameBut_supersede (s : State) (n : SlotNo) : sameBut [.converter] s (supersede s n) := by
  unfold supersede
  split
  · exact sameBut_setConv _ _
  · exact sameBut_refl _ _

theorem sameBut_applyModify (s : State) (n : SlotNo) (x : Settings) :
    sameBut [.slot n, .requests, .converter] s (applyModify s n x) := by
  have h : sameBut [.slot n, .requests, .converter] s (if s.slots[n].pendingFlag then withdrawSlot s n else s) :=
    sameBut_ite (sameBut_mono (sameBut_withdrawSlot _ _) (by simp)) (sameBut_refl _ _)
  refine sameBut_trans ?_ (sameBut_mono (sameBut_setSlot _ _ _) (by simp))
  split
  · exact sameBut_trans h (sameBut_mono (sameBut_supersede _ _) (by simp))
  · exact h

theorem sameBut_disarmOnDelete (s : State) (p : Port) (n : SlotNo) :
    sameBut ((List.finRange 8).map fun w => .watch p w) s (disarmOnDelete s p n) :=
  sameBut_setWatches _ _ _ _ fun w => .inl (by simp)

theorem sameBut_releasePartner (s : State) (p : Port) (c : Fin 16) (m : Mode) :
    sameBut allChannels s (releasePartner s p c m) := by
  unfold releasePartner
  split
  · exact sameBut_ite (sameBut_mono (sameBut_setChannel _ _ _) (by simp)) (sameBut_refl _ _)
  · exact sameBut_refl _ _

theorem sameBut_applyChange (s : State) (p : Port) (c : Fin 16) (m : Mode) (x : Span) (y : BitVec 2) :
    sameBut ([.converter] ++ allChannels ++ allEvents) s (applyChange s p c m x y) := by
  refine sameBut_trans (sameBut_mono (sameBut_setChannel _ _ _) (by simp)) (sameBut_trans
    (sameBut_mono (sameBut_releasePartner _ _ _ _) ?_) (sameBut_trans (sameBut_mono (sameBut_setConv _ _) (by simp))
      (sameBut_foldl (fun s q => sameBut_ite (sameBut_mono (sameBut_sendEvent _ _ _) (by simp)) (sameBut_refl _ _)) _ _)))
  intro x hx; simp at hx ⊢; tauto

/-! ### Sessions -/

/-- The parts that a session end touches, the frame among them (R155). -/
theorem sameBut_sessionEnd (s : State) (p : Port) (after : SessionState) :
    sameBut ([.frame p] ++ sessionParts p) s (sessionEnd s p after) := by
  have h1 (s : State) : sameBut ([.frame p] ++ sessionParts p) s (endRequests s p) :=
    sameBut_trans (sameBut_mono (sameBut_setRequests _ _) (by simp [sessionParts]))
      (sameBut_setSession _ _ _ _ (.inr ⟨rfl, rfl⟩) (.inr rfl) (.inl (by simp [sessionParts])))
  have h2 (s : State) : sameBut ([.frame p] ++ sessionParts p) s (endQueue s p) := by
    unfold endQueue
    split
    · exact sameBut_trans (sameBut_mono (sameBut_setUnreserved _ _) (by simp [sessionParts]))
        (sameBut_mono (sameBut_setQueue _ _ _) (by simp [sessionParts]))
    · exact sameBut_refl _ _
  have h3 (s : State) : sameBut ([.frame p] ++ sessionParts p) s (endWatches s p) :=
    sameBut_trans (sameBut_setWatches _ _ _ _ fun w => .inl (by simp [sessionParts]))
      (sameBut_mono (sameBut_setEvents _ _ _) (by simp [sessionParts]))
  have h4 (s : State) : sameBut ([.frame p] ++ sessionParts p) s (endPort s p) :=
    sameBut_setPort s p _ _ (.inr rfl) (.inr rfl) (.inl (by simp)) (.inr rfl) (.inl (by simp [sessionParts]))
      (.inl (by simp [sessionParts]))
  exact sameBut_trans (h1 s) (sameBut_trans (sameBut_mono (sameBut_setConv _ _) (by simp [sessionParts])) (sameBut_trans
    (sameBut_mapSlots _ _ _ fun n => .inl (by simp [sessionParts])) (sameBut_trans
      (sameBut_mapChannels _ _ _ fun c => .inl (by simp [sessionParts])) (sameBut_trans (h2 _) (sameBut_trans (h3 _)
        (sameBut_trans (h4 _) (sameBut_setSession _ _ _ _ (.inl (by simp [sessionParts]))
          (.inl (by simp [sessionParts])) (.inr rfl))))))))

theorem sameBut_openAccepted (s : State) (p : Port) (a : OpenArgs) :
    sameBut [.session p, .expiry p, .queue p, .unreserved, .staging p, .readBuf p] s (openAccepted s p a) := by
  unfold openAccepted
  simp only
  refine sameBut_trans (sameBut_mono (sameBut_setUnreserved s _) (by simp)) (sameBut_trans
    (sameBut_mono (sameBut_setQueue _ p _) (by simp)) (sameBut_trans (sameBut_setSession _ p _ _ ?_ ?_ ?_)
      (sameBut_setPort _ p _ _ ?_ ?_ ?_ ?_ ?_ ?_)))
  · exact .inl (by simp)
  · exact .inl (by simp)
  · exact .inr rfl
  · exact .inr rfl
  · exact .inr rfl
  · exact .inr rfl
  · exact .inr rfl
  · exact .inl (by simp)
  · exact .inl (by simp)

end Sys2Proof.Machine
end

