-- ==== Sys2Proof/Laws/Dispatch.lean ====
section
/-! SUPPORT. What exec does with each command, by name: one lemma for each constructor, and the step that takes it. -/

namespace Sys2Proof.Machine

/-- The front command is taken on the queue's rest. -/
theorem step_cons {s : State} {c : Instr} {rest : List Instr} (h : s.pending = c :: rest) :
    step s = exec c (s.setPending rest) := by simp [step, h]

/-- An empty queue idles. -/
theorem step_nil {s : State} (h : s.pending = []) : step s = .next s := by simp [step, h]

theorem exec_frameStart (p : Port) (s : State) : exec (.frameStart p) s = execFrameStart p s := rfl
theorem exec_nop (p : Port) (midByte : Bool) (s : State) : exec (.nop p midByte) s = execNop p midByte s := rfl
theorem exec_unknown (p : Port) (midByte : Bool) (s : State) :
    exec (.unknown p midByte) s = execUnknown p midByte s := rfl
theorem exec_cut (p : Port) (midByte : Bool) (s : State) : exec (.cut p midByte) s = execCut p midByte s := rfl
theorem exec_starting (p : Port) (s : State) : exec (.starting p) s = execStarting p s := rfl
theorem exec_lost (p : Port) (s : State) : exec (.lost p) s = execLost p s := rfl
theorem exec_openSession (p : Port) (s : State) : exec (.openSession p) s = execOpen p s := rfl
theorem exec_closeSession (p : Port) (s : State) : exec (.closeSession p) s = execClose p s := rfl
theorem exec_leaseExpiry (p : Port) (s : State) : exec (.leaseExpiry p) s = execLeaseExpiry p s := rfl
theorem exec_stageClear (p : Port) (s : State) : exec (.stageClear p) s = execStageClear p s := rfl
theorem exec_stageWord (p : Port) (s : State) : exec (.stageWord p) s = execStageWord p s := rfl
theorem exec_install (p : Port) (s : State) : exec (.install p) s = execInstall p s := rfl
theorem exec_modify (p : Port) (s : State) : exec (.modify p) s = execModify p s := rfl
theorem exec_delete (p : Port) (s : State) : exec (.delete p) s = execDelete p s := rfl
theorem exec_stop (p : Port) (s : State) : exec (.stop p) s = execStop p s := rfl
theorem exec_run (p : Port) (s : State) : exec (.run p) s = execRun p s := rfl
theorem exec_startBurst (p : Port) (s : State) : exec (.startBurst p) s = execStartBurst p s := rfl
theorem exec_fetch (p : Port) (s : State) : exec (.fetch p) s = execFetch p s := rfl
theorem exec_readBuffer (edge : RisingEdge) (s : State) :
    exec (.readBuffer edge) s = execReadBuffer edge s := rfl
theorem exec_takeSamples (edge : RisingEdge) (s : State) :
    exec (.takeSamples edge) s = execTakeSamples edge s := rfl
theorem exec_sampleRecordRemoved (edge : RisingEdge) (s : State) :
    exec (.sampleRecordRemoved edge) s = execSampleRecordRemoved edge s := rfl
theorem exec_takeEvents (edge : RisingEdge) (s : State) :
    exec (.takeEvents edge) s = execTakeEvents edge s := rfl
theorem exec_eventRecordRemoved (edge : RisingEdge) (s : State) :
    exec (.eventRecordRemoved edge) s = execEventRecordRemoved edge s := rfl
theorem exec_releaseQueue (p : Port) (s : State) : exec (.releaseQueue p) s = execReleaseQueue p s := rfl
theorem exec_readNow (p : Port) (s : State) : exec (.readNow p) s = execReadNow p s := rfl
theorem exec_peekLatest (edge : RisingEdge) (s : State) :
    exec (.peekLatest edge) s = execPeekLatest edge s := rfl
theorem exec_readTime (p : Port) (s : State) : exec (.readTime p) s = execReadTime p s := rfl
theorem exec_claim (p : Port) (s : State) : exec (.claim p) s = execClaim p s := rfl
theorem exec_release (p : Port) (s : State) : exec (.release p) s = execRelease p s := rfl
theorem exec_configure (p : Port) (s : State) : exec (.configure p) s = execConfigure p s := rfl
theorem exec_readChannel (edge : RisingEdge) (s : State) :
    exec (.readChannel edge) s = execReadChannel edge s := rfl
theorem exec_watchSet (p : Port) (s : State) : exec (.watchSet p) s = execWatchSet p s := rfl
theorem exec_watchArm (p : Port) (s : State) : exec (.watchArm p) s = execWatchArm p s := rfl
theorem exec_watchDisarm (p : Port) (s : State) : exec (.watchDisarm p) s = execWatchDisarm p s := rfl
theorem exec_watchClear (p : Port) (s : State) : exec (.watchClear p) s = execWatchClear p s := rfl
theorem exec_watchRead (edge : RisingEdge) (s : State) :
    exec (.watchRead edge) s = execWatchRead edge s := rfl
theorem exec_periodTimerExpiry (n : SlotNo) (s : State) :
    exec (.periodTimerExpiry n) s = execPeriodTimerExpiry n s := rfl
theorem exec_triggerEdge (line : Line) (s : State) : exec (.triggerEdge line) s = execTriggerEdge line s := rfl
theorem exec_settleEnd (s : State) : exec .settleEnd s = execSettleEnd s := rfl
theorem exec_sampleEnd (inputs : AnalogInputs) (s : State) : exec (.sampleEnd inputs) s = execSampleEnd inputs s := rfl
theorem exec_convertEnd (s : State) : exec .convertEnd s = execConvertEnd s := rfl
theorem exec_completion (s : State) : exec .completion s = execCompletion s := rfl
theorem exec_recoverEnd (s : State) : exec .recoverEnd s = execRecoverEnd s := rfl
theorem exec_hubReset (cause : ResetCause) (s : State) : exec (.hubReset cause) s = execHubReset cause s := rfl
theorem exec_endOfStartUp (s : State) : exec .endOfStartUp s = execEndOfStartUp s := rfl
theorem exec_refclkRisingEdge (trga : Level) (trgb : Level) (nrst : Level) (s : State) :
    exec (.refclkRisingEdge trga trgb nrst) s = execRefclkRisingEdge trga trgb nrst s := rfl
theorem exec_resetRelease (cause : ResetCause) (s : State) :
    exec (.resetRelease cause) s = execResetRelease cause s := rfl
theorem exec_byteCompletion (p : Port) (edge : SckEdge) (s : State) :
    exec (.byteCompletion p edge) s = execByteCompletion p edge s := rfl
theorem exec_streamingFrameEnd (p : Port) (s : State) :
    exec (.streamingFrameEnd p) s = execStreamingFrameEnd p s := rfl

end Sys2Proof.Machine
end

