-- ==== Sys2Proof/Laws/Edges.lean ====
section
/-! SUPPORT. The edges of SCKp: what each can touch, the frame that takes a streaming command, the frame whose reply loses a record, and what the rows that name one edge answer. -/

namespace Sys2Proof.Machine

/-! ### The parts an edge touches -/

theorem sameBut_takeStreaming (s : State) (p : Port) (c : Command) : sameBut [.frame p] s (takeStreaming s p c) :=
  sameBut_setFrame _ _ _

theorem sameBut_completeArgument (s : State) (p : Port) (b : Byte) : sameBut [.frame p] s (completeArgument s p b) := by
  unfold completeArgument
  simp only
  split
  · exact sameBut_trans (sameBut_setFrame _ _ _) (sameBut_takeStreaming _ _ _)
  · exact sameBut_setFrame _ _ _

theorem sameBut_removeSample (s : State) (p : Port) : sameBut [.frame p, .queue p] s (removeSample s p) :=
  sameBut_trans (sameBut_mono (sameBut_setQueue _ _ _) (by simp))
    (sameBut_trans (sameBut_mono (sameBut_setFrame _ _ _) (by simp)) (sameBut_decideSamples _ _))

theorem sameBut_removeEvent (s : State) (p : Port) : sameBut [.frame p, .events p] s (removeEvent s p) :=
  sameBut_trans (sameBut_mono (sameBut_setEvents _ _ _) (by simp))
    (sameBut_trans (sameBut_mono (sameBut_setFrame _ _ _) (by simp)) (sameBut_decideEvents _ _))

theorem sameBut_spillIfExhausted (s : State) (p : Port) : sameBut [.frame p] s (spillIfExhausted s p) :=
  sameBut_ite (sameBut_setFrame _ _ _) (sameBut_refl _ _)

/-- A removal touches the frame and the queue of its stream. -/
theorem sameBut_removeRecord (s : State) (p : Port) : sameBut [.frame p, .queue p, .events p] s (removeRecord s p) := by
  unfold removeRecord
  split
  · exact sameBut_mono (sameBut_removeSample _ _) (by simp)
  · exact sameBut_mono (sameBut_removeEvent _ _) (by simp)
  · exact sameBut_refl _ _

/-- A reply's byte touches its frame, and a queue only where a marked record's last byte completes (R112, R139). -/
theorem sameBut_completeReplyByte (s : State) (p : Port) :
    sameBut [.frame p, .queue p, .events p] s (completeReplyByte s p) := by
  have h (u : State) : sameBut [.frame p, .queue p, .events p] u
      (if streamsRecord u p && u.ports[p].frame.recordShiftedOut then removeRecord u p else spillIfExhausted u p) :=
    sameBut_ite (sameBut_removeRecord u p) (sameBut_mono (sameBut_spillIfExhausted u p) (by simp))
  exact sameBut_trans (sameBut_mono (sameBut_setFrame s p _) (by simp)) (h _)

/-- A byte that completes outside a reply touches the frame alone. -/
theorem sameBut_completeByte_frame {s : State} {p : Port} (h : s.ports[p].frame.state ≠ .reply) (b : Byte) :
    sameBut [.frame p] s (completeByte s p b) := by
  unfold completeByte
  simp only
  split
  · exact sameBut_refl _ _
  · exact sameBut_setFrame _ _ _
  · exact sameBut_completeArgument _ _ _
  · rename_i e; exact absurd e h
  · exact sameBut_setFrame _ _ _
  · exact sameBut_setFrame _ _ _

theorem sameBut_completeByte (s : State) (p : Port) (b : Byte) :
    sameBut [.frame p, .queue p, .events p] s (completeByte s p b) := by
  by_cases h : s.ports[p].frame.state = .reply
  · have e : completeByte s p b = completeReplyByte s p := by simp [completeByte, h, -Fin.getElem_fin]
    rw [e]
    exact sameBut_completeReplyByte s p
  · exact sameBut_mono (sameBut_completeByte_frame h b) (by simp)

theorem sameBut_sampleBit (s : State) (p : Port) (x : Level) :
    sameBut [.frame p, .queue p, .events p] s (sampleBit s p x) := by
  unfold sampleBit
  simp only
  split
  · exact sameBut_mono (sameBut_setFrame _ _ _) (by simp)
  · exact sameBut_trans (sameBut_mono (sameBut_setFrame _ _ _) (by simp)) (sameBut_completeByte _ _ _)

/-- What the start of a byte's bit touches: the frame, and the queue that a stream's first decision marks (R112, R139). -/
theorem sameBut_startBit (s : State) (p : Port) : sameBut [.frame p, .queue p, .events p] s (startBit s p) := by
  have h : sameBut [.frame p, .queue p, .events p] s
      (if s.ports[p].frame.timeIsDue then sampleTime s p else firstDecision s p) := by
    refine sameBut_ite (sameBut_mono (sameBut_setFrame _ _ _) (by simp)) ?_
    unfold firstDecision
    simp only
    split
    · split
      · exact sameBut_mono (sameBut_decideSamples _ _) (by simp)
      · exact sameBut_mono (sameBut_decideEvents _ _) (by simp)
      · exact sameBut_refl _ _
    · exact sameBut_refl _ _
  exact sameBut_trans h (sameBut_mono (sameBut_setFrame _ _ _) (by simp))

/-- A rising edge touches the pin, the frame, and the queue of a stream whose record it removes. -/
theorem sameBut_clockRise (s : State) (p : Port) (x : Level) :
    sameBut [.clock p, .frame p, .queue p, .events p] s (clockRise s p x) :=
  have h := sameBut_mono (m := [.clock p, .frame p, .queue p, .events p]) (sameBut_setClock s p .high) (by simp)
  sameBut_ite h (sameBut_trans h (sameBut_mono (sameBut_sampleBit _ _ _) (by simp)))

/-- A falling edge touches the pin, the frame, and the queue of a stream whose first decision it takes. -/
theorem sameBut_clockFall (s : State) (p : Port) :
    sameBut [.clock p, .frame p, .queue p, .events p] s (clockFall s p) :=
  have h := sameBut_mono (m := [.clock p, .frame p, .queue p, .events p]) (sameBut_setClock s p .low) (by simp)
  sameBut_ite h (sameBut_trans h (sameBut_mono (sameBut_startBit _ _) (by simp)))

/-! ### The edge that completes a byte -/

/-- The byte that a rising edge shifts in, in the statements' words and in the model's. -/
theorem shiftBit_eq (f : Frame) (sdi : Level) : shiftBit f.shiftIn sdi = shiftedIn f sdi := by
  cases sdi <;> rfl

/-- An IDLE port takes nothing from a rising edge but the level of the pin (R171, R172). -/
theorem clockRise_idle {s : State} {p : Port} (h : s.ports[p].frame.state = .idle) (sdi : Level) :
    clockRise s p sdi = setClock s p .high := if_pos h

/-- A rising edge that completes no byte: the pin, one more bit (R171). -/
theorem clockRise_shifts {s : State} {p : Port} (hs : s.ports[p].frame.state ≠ .idle) (hb : s.ports[p].frame.bits < 7)
    (sdi : Level) : clockRise s p sdi = setFrame (setClock s p .high) p
      { s.ports[p].frame with
        bits := s.ports[p].frame.bits + 1, shiftIn := shiftedIn s.ports[p].frame sdi } := by
  unfold clockRise sampleBit
  simp only [setClock_port, if_neg hs, if_pos hb, shiftBit_eq]

/-- A rising edge that completes a byte: the pin, the bits, then the byte (R171). -/
theorem clockRise_completes {s : State} {p : Port} (hs : s.ports[p].frame.state ≠ .idle) (hb : s.ports[p].frame.bits = 7)
    (sdi : Level) : clockRise s p sdi =
      completeByte (setFrame (setClock s p .high) p { s.ports[p].frame with bits := 0, shiftIn := 0 }) p
        (shiftedIn s.ports[p].frame sdi) := by
  unfold clockRise sampleBit
  simp only [setClock_port, if_neg hs, hb, shiftBit_eq, Nat.lt_irrefl, if_false]

/-- A streaming command's reply depends on the session, the read buffer, the channels, the store and the watches, not on the
frame or the pin SCKp. -/
theorem streamReply_setFrame (c : Command) (p : Port) (args : List Byte) (s : State) (f : Frame) :
    streamReply c p args (setFrame s p f) = streamReply c p args s := by
  cases c <;> first | rfl | skip
  simp only [streamReply, readBufferReply, setFrame_port]
  rfl

theorem streamReply_setClock (c : Command) (p : Port) (args : List Byte) (s : State) (x : Level) :
    streamReply c p args (setClock s p x) = streamReply c p args s := by
  cases c <;> first | rfl | skip
  simp only [streamReply, readBufferReply, setClock_port]
  rfl

/-- The edge that completes a streaming command's last argument byte takes it: its frame is in REPLY, with the reply that the
rest of the state gives at this edge (R179). -/
theorem clockRise_takes {s : State} {p : Port} {c : Command} (h : takingDue p c s) (k : c.kind = .streaming) (sdi : Level) :
    clockRise s p sdi = setFrame (setClock s p .high) p
      (let f := s.ports[p].frame
       let args := f.args ++ [shiftedIn f sdi]
       { f with
         bits := 0, shiftIn := 0, args := args, bytesDone := f.bytesDone + 1, state := .reply
         taken := (streamReply c p args s).1, reply := (streamReply c p args s).2, replyAt := 3 }) := by
  obtain ⟨_, h2, h3, h4, h5⟩ := h
  have hl : c.argCount ≤ s.ports[p].frame.args.length + 1 := h5.ge
  rw [clockRise_completes (by rw [h2]; exact nofun) h4]
  unfold Frame.command at h3
  unfold completeByte
  simp only [setFrame_port, h2]
  unfold completeArgument
  simp only [setFrame_port, Frame.receiveArgument, Frame.command, h3, List.length_append, List.length_singleton,
    if_pos hl, stateAfterArguments, k, takeStreaming, setFrame_setFrame, streamReply_setFrame, streamReply_setClock]

/-- The edge that completes the last byte of the reply of a frame: its byte is counted, and the marked record, where the frame
streams one, is removed (R112, R139). -/
theorem clockRise_removes {s : State} {p : Port} (hr : s.ports[p].frame.state = .reply) (hm : streamsRecord s p = true)
    (h : lastByteDue p s) (sdi : Level) : clockRise s p sdi = removeRecord (setFrame (setClock s p .high) p
      { s.ports[p].frame with bits := 0, shiftIn := 0, bytesDone := s.ports[p].frame.bytesDone + 1 }) p := by
  obtain ⟨hb, hn⟩ := h
  have hst (f : Frame) (hf : f.code = s.ports[p].frame.code) :
      streamsRecord (setFrame (setClock s p .high) p f) p = true := by
    unfold streamsRecord Frame.command at *
    rw [setFrame_port, hf]
    exact hm
  rw [clockRise_completes (by rw [hr]; exact nofun) hb]
  unfold completeByte
  simp only [setFrame_port, hr]
  unfold completeReplyByte
  simp only [setFrame_port, setFrame_setFrame]
  refine if_pos (Bool.and_eq_true_iff.2 ⟨?_, ?_⟩)
  · exact hst _ rfl
  · exact decide_eq_true hn

/-- An argument byte that takes no streaming command is kept; with the last of a set command's the frame spills (R172). -/
theorem completeArgument_keeps {s : State} {p : Port} {c : Command} (hs : s.ports[p].frame.state = .arguments)
    (hc : s.ports[p].frame.command = some c)
    (hk : c.kind ≠ .streaming ∨ s.ports[p].frame.args.length + 1 < c.argCount) (b : Byte) :
    completeArgument s p b = setFrame s p { s.ports[p].frame with
      args := s.ports[p].frame.args ++ [b], bytesDone := s.ports[p].frame.bytesDone + 1
      state := if s.ports[p].frame.args.length + 1 < c.argCount then .arguments else .spill } := by
  unfold Frame.command at hc
  unfold completeArgument Frame.receiveArgument
  simp only [Frame.command, hc, List.length_append, List.length_singleton]
  by_cases k : s.ports[p].frame.args.length + 1 < c.argCount
  · simp only [if_neg (Nat.not_le.2 k), if_pos k, hs]
  · have hn : stateAfterArguments c = .spill := by
      have := hk.resolve_right k
      revert this
      unfold stateAfterArguments
      cases c.kind <;> simp
    simp only [if_pos (Nat.not_lt.1 k), if_neg k, hn]

/-! ### The rows that name one edge -/

/-- At its taking edge a streaming command answers that rising edge. -/
theorem atTakingEdge_due {c : Command} {e : RisingEdge} {s : State} (h : takingDue e.port c s) :
    atTakingEdge c e s = .next (clockRise s e.port e.sdi) := by
  obtain ⟨h1, h2, h3, h4, h5⟩ := h
  simp [atTakingEdge, Frame.takesNext, h1, h2, h3, h4, h5.ge, -Fin.getElem_fin]

theorem atTakingEdge_next {c : Command} {e : RisingEdge} {s t : State} (h : atTakingEdge c e s = .next t) :
    s.ports[e.port].sck = .low ∧ t = clockRise s e.port e.sdi := by
  unfold atTakingEdge at h
  split at h
  · rename_i k; cases h; exact ⟨k.1, rfl⟩
  · cases h

/-- At its removal edge a removal answers that rising edge. -/
theorem atRemovalEdge_due {c : Command} {e : RisingEdge} {s : State} (hl : s.ports[e.port].sck = .low)
    (hr : s.ports[e.port].frame.state = .reply) (hc : s.ports[e.port].frame.command = some c)
    (hm : streamsRecord s e.port = true) (h : lastByteDue e.port s) :
    atRemovalEdge c e s = .next (clockRise s e.port e.sdi) := by
  simp [atRemovalEdge, removesNext, hl, hr, hc, hm, h.1, h.2, -Fin.getElem_fin]

theorem atRemovalEdge_next {c : Command} {e : RisingEdge} {s t : State} (h : atRemovalEdge c e s = .next t) :
    s.ports[e.port].sck = .low ∧ t = clockRise s e.port e.sdi := by
  unfold atRemovalEdge at h
  split at h
  · rename_i k; cases h; exact ⟨k.1, rfl⟩
  · cases h

theorem execByteCompletion_rise {p : Port} {s : State} (h : s.ports[p].sck = .low) (sdi : Level) :
    execByteCompletion p (.rise sdi) s = .next (clockRise s p sdi) := by
  simp [execByteCompletion, h, -Fin.getElem_fin]

theorem execByteCompletion_fall {p : Port} {s : State} (h : s.ports[p].sck = .high) :
    execByteCompletion p .fall s = .next (clockFall s p) := by
  simp [execByteCompletion, h, -Fin.getElem_fin]

end Sys2Proof.Machine
end

