-- ==== Sys2Proof/Laws/Queues.lean ====
section
/-! SUPPORT. The two kinds of queue keep their shape under every operation, the code of the transfer is a code, and each invariant depends on the parts it names only. -/

namespace Sys2Proof.Machine

theorem hold65535_le (n k : Nat) : hold65535 n k ≤ 65535 := Nat.min_le_left _ _

theorem hold255_le (n k : Nat) : hold255 n k ≤ 255 := Nat.min_le_left _ _

/-- A code of the transfer is at most 4095 (R62). -/
theorem transfer_le (m : Mode) (x : Span) (level : Int) : transfer m x level ≤ 4095 := by
  cases m <;> exact Nat.min_le_left _ _

/-! ### Sample queues (R103 to R107, R112) -/

/-- A new queue with a depth of 16 to 192 and a watermark in range is in range. -/
theorem SampleQueue.new_ok {d w : Nat} (x : DropPolicy) (h1 : 16 ≤ d) (h2 : d ≤ 192) (h3 : 1 ≤ w) (h4 : w ≤ d) :
    (SampleQueue.new d w x).ok := by
  simp [SampleQueue.ok, SampleQueue.new, h1, h2, h3, h4]

theorem SampleQueue.lose_ok {q : SampleQueue} (h : q.ok) : q.lose.ok := by
  unfold SampleQueue.ok SampleQueue.lose at *
  exact ⟨h.1, h.2.1, h.2.2.1, h.2.2.2.1, h.2.2.2.2.1, hold255_le _ _, h.2.2.2.2.2.2⟩

theorem SampleQueue.enter_ok {q : SampleQueue} (h : q.ok) {r : SampleRecord} (hr : r.dropped ≤ 255)
    (room : q.records.length < q.depth) : (q.enter r).ok := by
  obtain ⟨h1, h2, h3, h4, h5, h6, h7, h8⟩ := h
  refine ⟨h1, h2, ?_, h4, h5, Nat.zero_le _, ?_, ?_⟩
  · simp only [SampleQueue.enter, List.length_append, List.length_singleton]; omega
  · intro x hx
    simp only [SampleQueue.enter, List.mem_append, List.mem_singleton] at hx
    rcases hx with hx | rfl
    · exact h7 x hx
    · split
      · exact h6
      · exact hr
  · intro _; simp [SampleQueue.enter]

theorem dropFirst_length (l : List SampleRecord) : (dropFirst l).length = l.length - 1 := by
  match l with
  | [] => rfl
  | [_] => rfl
  | _ :: _ :: _ => rfl

theorem dropFirst_dropped {l : List SampleRecord} (h : ∀ r ∈ l, r.dropped ≤ 255) : ∀ r ∈ dropFirst l, r.dropped ≤ 255 := by
  match l with
  | [] => exact h
  | [_] => intro r hr; cases hr
  | v :: f :: rest =>
    intro r hr
    rcases List.mem_cons.mp hr with rfl | hr
    · exact hold255_le _ _
    · exact h r (by simp [hr])

/-- DROP_OLDEST on a full queue leaves room for one record, with the queue in range (R106). -/
theorem SampleQueue.dropVictim_ok {q : SampleQueue} (h : q.ok) (full : q.depth ≤ q.records.length) :
    q.dropVictim.ok ∧ q.dropVictim.records.length < q.dropVictim.depth := by
  obtain ⟨h1, h2, h3, h4, h5, h6, h7, h8⟩ := h
  unfold SampleQueue.dropVictim
  split
  · rename_i hd rest e1 e2
    have hl : (dropFirst rest).length = rest.length - 1 := dropFirst_length rest
    have hq : q.records.length = rest.length + 1 := by rw [e2]; rfl
    refine ⟨⟨h1, h2, ?_, h4, h5, h6, ?_, ?_⟩, ?_⟩
    · simp only [List.length_cons]; omega
    · intro r hr
      rcases List.mem_cons.mp hr with rfl | hr
      · exact h7 _ (by simp [e2])
      · exact dropFirst_dropped (fun x hx => h7 x (by simp [e2, hx])) r hr
    · intro _; simp
    · simp only [List.length_cons]; omega
  · have hl : (dropFirst q.records).length = q.records.length - 1 := dropFirst_length _
    refine ⟨⟨h1, h2, ?_, h4, h5, h6, dropFirst_dropped h7, ?_⟩, ?_⟩
    · simp only; omega
    · intro _ e
      have : (dropFirst q.records).length = 0 := congrArg List.length e
      omega
    · simp only; omega

/-- An offered record leaves the queue in range (R104). -/
theorem SampleQueue.offer_ok {q : SampleQueue} (h : q.ok) (b : Bool) {r : SampleRecord} (hr : r.dropped ≤ 255) :
    (q.offer b r).ok := by
  unfold SampleQueue.offer
  split
  · exact SampleQueue.lose_ok h
  · split
    · rename_i room; exact SampleQueue.enter_ok h hr room
    · rename_i full
      split
      · exact SampleQueue.lose_ok h
      · have := SampleQueue.dropVictim_ok h (by omega)
        exact SampleQueue.enter_ok this.1 hr this.2

theorem SampleQueue.enter_depth (q : SampleQueue) (r : SampleRecord) : (q.enter r).depth = q.depth := rfl

theorem SampleQueue.dropVictim_depth (q : SampleQueue) : q.dropVictim.depth = q.depth := by
  unfold SampleQueue.dropVictim; split <;> rfl

/-- An offered record never changes the depth. -/
theorem SampleQueue.offer_depth (q : SampleQueue) (b : Bool) (r : SampleRecord) : (q.offer b r).depth = q.depth := by
  unfold SampleQueue.offer
  split
  · rfl
  · split
    · rfl
    · split
      · rfl
      · rw [SampleQueue.enter_depth, SampleQueue.dropVictim_depth]

theorem SampleQueue.removeHead_ok {q : SampleQueue} (h : q.ok) : q.removeHead.ok := by
  obtain ⟨h1, h2, h3, h4, h5, h6, h7, _⟩ := h
  refine ⟨h1, h2, ?_, h4, h5, h6, fun r hr => h7 r (List.mem_of_mem_tail hr), fun e => nomatch e⟩
  simp only [SampleQueue.removeHead, List.length_tail]; omega

/-! ### Event queues (R137 to R140) -/

theorem EventRecord.addLost_kind (e : EventRecord) (k : Nat) : (e.addLost k).kind = e.kind := by
  unfold EventRecord.addLost; split <;> rfl

theorem hasOverflow_eq_false {q : EventQueue} : q.hasOverflow = false ↔ ∀ e ∈ q.records, e.kind ≠ .overflow := by
  simp [EventQueue.hasOverflow]

/-- An offered event leaves the event queue in shape (R138, R140). -/
theorem EventQueue.offer_ok {q : EventQueue} (h : q.ok) (e : EventRecord) : (q.offer e).ok := by
  obtain ⟨h1, h2, h3, h4, h5, h6⟩ := h
  unfold EventQueue.offer
  split
  · rename_i ho
    split
    · rename_i hs
      simp only [Bool.and_eq_true] at hs
      exact ⟨h1, h2, h3, h4, fun _ => hs, hold65535_le _ _⟩
    · refine ⟨by simpa using h1, ?_, ?_, ?_, ?_, h6⟩
      · intro x hx
        simp only [← List.map_dropLast, List.mem_map] at hx
        obtain ⟨y, hy, rfl⟩ := hx
        rw [EventRecord.addLost_kind]
        exact h2 y hy
      · intro hl
        have := h3 (by simpa using hl)
        simpa [EventQueue.hasOverflow, EventRecord.addLost_kind] using this
      · intro hs; simpa using h4 hs
      · intro hl
        have := h5 hl
        refine ⟨this.1, ?_⟩
        have o := this.2
        unfold EventQueue.overflowAtHead at o ⊢
        cases hr : q.records with
        | nil => rw [hr] at o; cases o
        | cons x rest => rw [hr] at o; simpa [EventRecord.addLost_kind] using o
  · rename_i ho
    have hn := hasOverflow_eq_false.mp (by simpa using ho)
    have hz : q.lateLoss = 0 := by
      by_contra hc
      have := (h5 (Nat.pos_of_ne_zero hc)).2
      unfold EventQueue.overflowAtHead at this
      cases hr : q.records with
      | nil => rw [hr] at this; cases this
      | cons x rest => rw [hr] at this; exact hn x (by simp [hr]) (by simpa using this)
    split
    · rename_i hl
      simp only [Config.eventDepth] at hl
      refine ⟨by simp; omega, ?_, ?_, ?_, ?_, h6⟩
      · intro x hx; simp at hx; exact hn x hx
      · intro hl2; simp at hl2; omega
      · intro _; simp
      · intro hp; simp only [hz] at hp; omega
    · rename_i hl
      refine ⟨?_, ?_, ?_, ?_, ?_, h6⟩
      · have h15 : q.records.length ≤ 15 := by
          by_contra hc
          have : q.records.length = 16 := by omega
          rw [h3 this] at ho; exact ho rfl
        simp; omega
      · intro x hx; simp at hx; exact hn x hx
      · intro _; simp [EventQueue.hasOverflow, overflowRecord]
      · intro _; simp
      · intro hp; simp only [hz] at hp; omega

/-! ### What each invariant reads -/

/-- PoolOk reads the unreserved count, the session states and the sample queues. -/
theorem PoolOk_congr {s t : State} (h : PoolOk s) (h1 : t.unreserved = s.unreserved)
    (h2 : ∀ p : Port, t.isOpen p = s.isOpen p) (h3 : t.queues = s.queues) : PoolOk t := by
  unfold PoolOk reservedCells at *
  rw [h1, h3]
  exact ⟨h.1, fun p => by rw [h2]; exact h.2.1 p, h.2.2⟩

/-- EventsOk reads the event queues. -/
theorem EventsOk_congr {s t : State} (h : EventsOk s) (h1 : t.events = s.events) : EventsOk t := by
  unfold EventsOk at *; rw [h1]; exact h

/-- QuotaOk reads the slots. -/
theorem QuotaOk_congr {s t : State} (h : QuotaOk s) (h1 : t.slots = s.slots) : QuotaOk t := by
  unfold QuotaOk ownedCount ownLive at *; rw [h1]; exact h

/-- PairingOk reads the channel records and the slots. -/
theorem PairingOk_congr {s t : State} (h : PairingOk s) (h1 : t.channels = s.channels) (h2 : t.slots = s.slots) :
    PairingOk t := by
  unfold PairingOk at *; rw [h1, h2]; exact h

/-- CountersOk reads the Timebase, the hub's own condition, the bits of each frame, and the periods of the converter. -/
theorem CountersOk_congr {s t : State} (h : CountersOk s) (h1 : t.timebase = s.timebase) (h2 : t.hub = s.hub)
    (h3 : ∀ p : Port, t.ports[p].frame.bits ≤ 7) (h4 : t.conv.phasePeriods ≤ 16 * t.conv.phaseTicks) : CountersOk t := by
  unfold CountersOk at *
  rw [h1, h2]
  exact ⟨h.1, h.2.1, h.2.2.1, h.2.2.2.1, h.2.2.2.2.1, h.2.2.2.2.2.1, h3, h4, h.2.2.2.2.2.2.2.2⟩

/-- DeadlinesOk reads the tick counter, the lease timers of the OPEN sessions, and the armed period timers. -/
theorem DeadlinesOk_congr {s t : State} (h : DeadlinesOk s) (h1 : t.now = s.now) (h2 : t.sessions = s.sessions)
    (h3 : t.slots = s.slots) : DeadlinesOk t := by
  unfold DeadlinesOk at *
  rw [h1, h2, h3]
  exact h

/-- HoldingsOk reads the sessions but for the demand flags, the slots, the channel records, the sample queues, the watches
and the event queues. -/
theorem HoldingsOk_congr {s t : State} (h : HoldingsOk s) (h1 : t.sessions = s.sessions) (h2 : t.slots = s.slots)
    (h3 : t.channels = s.channels) (h4 : t.queues = s.queues) (h5 : t.watches = s.watches) (h6 : t.events = s.events) :
    HoldingsOk t := by
  unfold HoldingsOk State.isOpen at *; rw [h1, h2, h3, h4, h5, h6]; exact h

/-- RequestsOk reads the pending list, the converter, the slots and the demand flags. -/
theorem RequestsOk_congr {s t : State} (h : RequestsOk s) (h1 : t.requests = s.requests) (h2 : t.conv = s.conv)
    (h3 : t.slots = s.slots)
    (h4 : ∀ p : Port, t.sessions[p].demandOutstanding = s.sessions[p].demandOutstanding) : RequestsOk t := by
  unfold RequestsOk ConverterOk waitingCount flightCount at *
  rw [h1, h2, h3]
  exact ⟨h.1, h.2.1, fun p => by rw [h4]; exact h.2.2 p⟩

end Sys2Proof.Machine
end

