-- ==== Sys2Proof/Laws/Time.lean ====
section
/-! SUPPORT. Time: the length of the converter's phases, the end of a phase, and what REFCLK waits for. -/

namespace Sys2Proof.Machine

/-! ### The converter's phases -/

@[simp] theorem enter_phase (v : Converter) (x : Phase) (n : Nat) (r : Option InFlight) :
    (v.enter x n r).phase = x := rfl
@[simp] theorem enter_record (v : Converter) (x : Phase) (n : Nat) (r : Option InFlight) :
    (v.enter x n r).record = r := rfl
@[simp] theorem enter_identity (v : Converter) (x : Phase) (n : Nat) (r : Option InFlight) :
    (v.enter x n r).identity = v.identity := rfl
@[simp] theorem enter_phaseTicks (v : Converter) (x : Phase) (n : Nat) (r : Option InFlight) :
    (v.enter x n r).phaseTicks = n := rfl
@[simp] theorem enter_phasePeriods (v : Converter) (x : Phase) (n : Nat) (r : Option InFlight) :
    (v.enter x n r).phasePeriods = 0 := rfl

@[simp] theorem countPeriod_phase (v : Converter) : v.countPeriod.phase = v.phase := by unfold Converter.countPeriod; split <;> rfl
@[simp] theorem countPeriod_record (v : Converter) : v.countPeriod.record = v.record := by
  unfold Converter.countPeriod; split <;> rfl
@[simp] theorem countPeriod_identity (v : Converter) : v.countPeriod.identity = v.identity := by
  unfold Converter.countPeriod; split <;> rfl
@[simp] theorem countPeriod_phaseTicks (v : Converter) : v.countPeriod.phaseTicks = v.phaseTicks := by
  unfold Converter.countPeriod; split <;> rfl

/-- A phase is over when its periods have all run; IDLE has no end. -/
theorem phaseOver_iff (s : State) : s.conv.phaseOver = true ↔ s.conv.phase ≠ .idle ∧ phaseAtEnd s := by
  unfold Converter.phaseOver phaseAtEnd
  rw [Bool.and_eq_true, decide_eq_true_eq, decide_eq_true_eq]
  rfl

/-- A phase that is not over keeps within its length when one more period runs. -/
theorem countPeriod_le {v : Converter} (h : v.phasePeriods ≤ 16 * v.phaseTicks) (ho : v.phaseOver = false) :
    v.countPeriod.phasePeriods ≤ 16 * v.countPeriod.phaseTicks := by
  unfold Converter.countPeriod
  split
  · exact h
  · rename_i hp
    unfold Converter.phaseOver at ho
    rw [Bool.and_eq_false_iff, decide_eq_false_iff_not, decide_eq_false_iff_not] at ho
    have hn : ¬ 16 * v.phaseTicks ≤ v.phasePeriods := ho.resolve_left (not_not_intro hp)
    show v.phasePeriods + 1 ≤ 16 * v.phaseTicks
    omega

/-- The row of a phase acts on the record at the end of that phase. -/
theorem atPhaseEnd_due {x : Phase} {act : InFlight → Host.Outcome State Fault Refusal} {s : State} {r : InFlight}
    (hx : s.conv.phase = x) (hi : x ≠ .idle) (he : phaseAtEnd s) (hr : s.conv.record = some r) :
    atPhaseEnd x act s = act r := by
  have ho := (phaseOver_iff s).2 ⟨by rw [hx]; exact hi, he⟩
  simp [atPhaseEnd, hr, hx, ho]

/-- Before the end of a phase its row is refused. -/
theorem atPhaseEnd_early {x : Phase} {act : InFlight → Host.Outcome State Fault Refusal} {s : State}
    (he : ¬ phaseAtEnd s) : ∃ e, atPhaseEnd x act s = .refused e := by
  have ho : s.conv.phaseOver = false := by
    cases h : s.conv.phaseOver with
    | false => rfl
    | true => exact absurd ((phaseOver_iff s).1 h).2 he
  unfold atPhaseEnd
  cases s.conv.record with
  | none => exact ⟨_, rfl⟩
  | some r =>
    simp only [ho]
    split
    · exact ⟨_, rfl⟩
    · exact ⟨_, rfl⟩

/-- What the row of a phase answers as a next state: it is that of the record, at the end of that phase. -/
theorem atPhaseEnd_next {x : Phase} {act : InFlight → Host.Outcome State Fault Refusal} {s t : State}
    (h : atPhaseEnd x act s = .next t) :
    ∃ r, s.conv.record = some r ∧ s.conv.phase = x ∧ phaseAtEnd s ∧ act r = .next t := by
  unfold atPhaseEnd at h
  cases hr : s.conv.record with
  | none => simp [hr] at h
  | some r =>
    simp only [hr] at h
    split at h
    · simp at h
    · rename_i hx
      split at h
      · rename_i ho
        exact ⟨r, rfl, by simpa using hx, ((phaseOver_iff s).1 ho).2, h⟩
      · simp at h

/-! ### Deadlines and REFCLK -/

/-- A deadline is reached or not reached (R162). -/
theorem reached_eq_false (now d : Tick) : reached now d = false ↔ notReached now d := by
  simp [reached, notReached]

/-- A deadline less than 2^22 ticks ahead is reached exactly when the current tick is the deadline (R162). -/
theorem reached_iff_eq {now d : Tick} (h : (d - now).toNat < 4194304) : reached now d = true ↔ d = now := by
  simp only [reached, decide_eq_true_eq]
  constructor
  · intro hr; bv_omega
  · rintro rfl; simp

/-- A deadline that is not reached stays within its distance at the next tick (R162). -/
theorem deadline_next {now d : Tick} (h : (d - now).toNat < 4194304) (hn : notReached now d) :
    (d - (now + 1)).toNat < 4194304 := by
  unfold notReached at hn; bv_omega

/-- No timer is due exactly when no armed deadline has been reached. -/
theorem timerDue_eq_false (s : State) : timerDue s = false ↔
    (∀ p : Port, s.sessions[p].state = .opened → ∀ d ∈ s.sessions[p].expiry, notReached s.now d)
      ∧ ∀ n : SlotNo, s.slots[n].state = .running → s.slots[n].settings.kind = .periodic →
          notReached s.now s.slots[n].nextDue := by
  have hl (p : Port) : leaseExpires s p = false ↔
      (s.sessions[p].state = .opened → ∀ d ∈ s.sessions[p].expiry, notReached s.now d) := by
    unfold leaseExpires State.isOpen
    cases s.sessions[p].expiry with
    | none => simp
    | some d => simp [← reached_eq_false]
  have hp (n : SlotNo) : periodExpires s n = false ↔
      (s.slots[n].state = .running → s.slots[n].settings.kind = .periodic → notReached s.now s.slots[n].nextDue) := by
    simp [periodExpires, Slot.timerArmed, ← reached_eq_false]
  simp only [timerDue, Bool.or_eq_false_iff, List.any_eq_false, List.mem_finRange, forall_const, Bool.not_eq_true, hl, hp]

/-- Nothing is due before a REFCLK edge exactly when dueBeforeRefclk names nothing. -/
theorem dueBeforeRefclk_eq_none (s : State) (nrst : Level) : dueBeforeRefclk s nrst = none ↔ refclkFree s nrst := by
  have h1 : s.hub.startUpEndDue = true ↔ startUpOver s.hub := by
    unfold Hub.startUpEndDue startUpOver
    rw [Bool.and_eq_true, Bool.and_eq_true, decide_eq_true_eq, Bool.not_eq_true', and_assoc]
    rfl
  have h2 : s.conv.phaseOver = false ↔ (s.conv.phase ≠ .idle → ¬ phaseAtEnd s) := by
    rw [← Bool.not_eq_true, phaseOver_iff, not_and]
  have h3 : refclkFree s nrst ↔ ¬ s.hub.startUpEndDue = true ∧ ¬ (s.hub.nrstHold = true ∧ nrst = .high)
      ∧ (s.hub.held = false → s.hub.startUp = false →
          s.timebase.edges = [] ∧ timerDue s = false ∧ s.conv.phaseOver = false) := by
    unfold refclkFree
    rw [h1, timerDue_eq_false, h2]
    simp only [and_assoc]
  rw [h3]
  unfold dueBeforeRefclk
  by_cases c1 : s.hub.startUpEndDue = true
  · simp [c1]
  by_cases c2 : s.hub.nrstHold = true ∧ nrst = .high
  · simp [c1, c2]
  rw [if_neg c1, if_neg c2]
  simp only [c1, c2, not_false_eq_true, true_and]
  cases s.hub.held <;> cases s.hub.startUp <;> cases timerDue s <;> cases s.conv.phaseOver <;>
    by_cases c3 : s.timebase.edges = [] <;> simp [c3]

end Sys2Proof.Machine
end

