-- ==== Sys2Proof/WellFormed.lean ====
section
/-! DEFINITION. Which commands are well formed. Ports, slots, lines and levels are bounded by their types; the operands with a range of their own are the input levels of SAMPLE_END. -/

namespace Sys2Proof

/-- The least level of an AIN input in femtovolts: −0.3 V (spec/11_formats_codes_and_electrical_summary.md, 11.9). -/
def minLevel : Int := -300000000000000

/-- The greatest level of an AIN input in femtovolts: AVDD + 0.3 V, with AVDD at most 3.6 V (spec/11, 11.9). -/
def maxLevel : Int := 3900000000000000

/-- The level of an AIN input is one it may carry. The spec bounds no internal source (R63). -/
def levelOk (level : Int) : Bool := decide (minLevel ≤ level) && decide (level ≤ maxLevel)

/-- Well-formedness of a command. -/
def Instr.wf (i : Instr) : Bool :=
  match i with
  | .sampleEnd inputs => inputs.ain.toList.all levelOk
  | .frameStart _ | .nop _ _ | .unknown _ _ | .cut _ _ | .starting _ | .lost _ | .openSession _ | .closeSession _
  | .leaseExpiry _ | .stageClear _ | .stageWord _ | .install _ | .modify _ | .delete _ | .stop _ | .run _
  | .startBurst _ | .fetch _ | .readBuffer _ | .takeSamples _ | .sampleRecordRemoved _ | .takeEvents _
  | .eventRecordRemoved _ | .releaseQueue _ | .readNow _ | .peekLatest _ | .readTime _ | .claim _ | .release _
  | .configure _ | .readChannel _ | .watchSet _ | .watchArm _ | .watchDisarm _ | .watchClear _ | .watchRead _
  | .periodTimerExpiry _ | .triggerEdge _ | .settleEnd | .convertEnd | .completion | .recoverEnd | .hubReset _
  | .endOfStartUp | .refclkRisingEdge _ _ _ | .resetRelease _ | .byteCompletion _ _ | .streamingFrameEnd _ => true

end Sys2Proof
end

