-- ==== Sys2Proof/Tests/Slice0.lean ====
section
/-! SUPPORT. Tests: well-formedness, one step of each command on a small state, and for each statement with hypotheses a state that meets them, clause by clause. -/

namespace Sys2Proof.Machine.Tests

open Sys2Proof Sys2Proof.Machine

set_option Elab.async false

/-! ### Small states -/

/-- Whether an outcome is a next state with a property. -/
def nextWith (o : Host.Outcome State Fault Refusal) (f : State → Bool) : Bool :=
  match o with
  | .next t => f t
  | _ => false

/-- Whether an outcome is a refusal of the queue. -/
def stopsWith (o : Host.Outcome State Fault Refusal) (r : Refusal) : Bool :=
  match o with
  | .refused x => decide (x = r)
  | _ => false

/-- The hub after start-up, at tick 100. -/
def ready : State :=
  { State.reset with
    hub := { supplyHold := false, nrstHold := false, startUp := false, startCount := 3200, nrstLow := 0 }
    timebase := { State.reset.timebase with tick := 100 } }

/-- A sample record. -/
def record0 : SampleRecord :=
  { origin := .demand 7, channel := 3, value := 0x123, timestamp := 50, generation := 0
    conditions := ⟨false, false, false, false, false, false⟩, merged := false, dropped := 0 }

/-- An empty sample queue of 16 records. -/
def queue0 : SampleQueue := SampleQueue.new 16 1 .dropOldest

/-- The ready hub with port 0's session OPEN. -/
def opened : State :=
  { ready with
    sessions := ready.sessions.set 0 { state := .opened, lease := 1, expiry := some 90, demandOutstanding := false }
    queues := ready.queues.set 0 (some queue0)
    unreserved := 368 }

/-- The opened hub with its lease not yet at its end. -/
def leased : State := opened.setSession 0 { opened.sessions[(0 : Port)] with expiry := some 101 }

/-- s with a whole set command at port p's rise. -/
def dueAt (s : State) (p : Port) (c : Command) (args : List Byte) : State :=
  s.setPort p { s.ports[p] with
    nsel := .low
    frame := { Frame.idle with state := .spill, code := some c.code, args := args, bytesDone := 3, sessionNoted := true } }

/-- s with a frame of port p in a state, with a command, its arguments, and a count of completed bytes. -/
def frameAt (s : State) (p : Port) (x : FrameState) (c : Command) (args : List Byte) (done : Nat) : State :=
  s.setPort p { s.ports[p] with
    nsel := .low
    frame := { Frame.idle with
      state := x, code := if x = .head then none else some c.code, args := args, bytesDone := done
      sessionNoted := true } }

/-- s with the pin SCK0 high, after a rising edge. -/
def clockHigh (s : State) : State := setClock s 0 .high

/-- s with streaming command c on port p, seven bits of its argument byte b in. -/
def argumentDue (s : State) (p : Port) (c : Command) (b : Byte) : State :=
  setFrame s p { (frameAt s p .arguments c [] 1).ports[p].frame with bits := 7, shiftIn := b >>> 1 }

/-- The rising edge that brings the last bit of byte b. -/
def lastBit (p : Port) (b : Byte) : RisingEdge := ⟨p, wireBit b 7⟩

/-- Analog inputs with a level of its own on each channel. -/
def inputs0 : AnalogInputs := ⟨Vector.ofFn fun i => (i.val : Int) * 100, Vector.ofFn fun i => (i.val : Int)⟩

/-- s with the frame of port p changed. -/
def editFrame (s : State) (p : Port) (f : Frame → Frame) : State := setFrame s p (f s.ports[p].frame)

/-- Settings of a kind on channel 3. -/
def settings0 (k : Kind) : Settings := { Settings.zero with kind := k, channel := 3, period := 1000 }

/-- A slot of port 0 of a kind in a state. -/
def slot0 (k : Kind) (x : SlotState) : Slot := { Slot.free with state := x, owner := some 0, settings := settings0 k }

/-- The opened hub with slot 5 of port 0. -/
def withSlot (k : Kind) (x : SlotState) : State := opened.setSlot 5 (slot0 k x)

/-- A staging record of a TRIGGERED slot on channel 3 that starts running. -/
def stagedTriggered : Vector (BitVec 32) 4 := #v[0x60030000#32, 0x000003E8#32, 0x00000000#32, 0x00000FFF#32]

/-- s with port 0's staging record. -/
def staged (s : State) (w : Vector (BitVec 32) 4) : State := s.setPort 0 { s.ports[(0 : Port)] with staging := w }

/-- A subscriber entry. -/
def sub0 (o : Origin) (c : Class) : SubEntry := ⟨o, c, 40, false, false⟩

/-- A pending entry on channel 3. -/
def entry0 (o : Origin) (c : Class) : PendingEntry :=
  { channel := 3, sampleCode := 0, avgCode := 0, subs := [sub0 o c], preemptCount := 0 }

/-- An in-flight record on channel 3. -/
def flight0 (subs : List FlightEntry) : InFlight :=
  { cls := .routine, channel := 3, sampleCode := 0, avgCode := 0, preemptCount := 0, subs := subs, mode := .single
    span := .full, extraSettle := 0, generation := 0, settleRequired := true, startTick := some 60, repeatsDone := 0
    runningSum := 0, clipped := false, reconfigured := false, level := 1250000000000000 }

/-- s with the converter at the end of a phase of one tick, with a record. -/
def inPhase (s : State) (x : Phase) (r : InFlight) : State :=
  s.setConv { phase := x, record := some r, identity := none, phaseTicks := 1, phasePeriods := 16 }

/-- s with one period of the converter's phase still to run. -/
def oneShort (s : State) : State := s.setConv { s.conv with phasePeriods := 15 }

/-- The opened hub with the converter at the end of RECOVER. -/
def recovered : State :=
  opened.setConv { phase := .recover, record := none, identity := none, phaseTicks := 1, phasePeriods := 16 }

/-- Slot 5 of port 0, RUNNING, with its conversion at its end. -/
def finishing (k : Kind) : State :=
  inPhase ((withSlot k .running).setSlot 5 { slot0 k .running with inFlightFlag := true, burstRemaining := 1 }) .convert
    { flight0 [⟨sub0 (.slot 5) .routine, false⟩] with repeatsDone := 1, runningSum := 2048 }

/-- An event record. -/
def event0 (k : EventKind) : EventRecord := ⟨k, 5, 70, 0⟩

/-! ### Well-formedness -/

/-- Analog inputs whose AIN15 carries a level. -/
def levelOn15 (x : Int) : AnalogInputs := { inputs0 with ain := inputs0.ain.set 15 x }

theorem test_wf_levelTooHigh : (Instr.sampleEnd (levelOn15 3900000000000001)).wf = false := by decide +kernel
theorem test_wf_levelTooLow : (Instr.sampleEnd (levelOn15 (-300000000000001))).wf = false := by decide +kernel
theorem test_wf_levelBounds : (Instr.sampleEnd (levelOn15 3900000000000000)).wf = true
    ∧ (Instr.sampleEnd (levelOn15 (-300000000000000))).wf = true := by decide +kernel
theorem test_wf_others : (Instr.install 3).wf = true := by decide

/-! ### One step of each command -/

theorem test_frameStart : nextWith (exec (.frameStart 0) opened) (fun t =>
    decide (t.ports[(0 : Port)].frame.state = .head) && decide (t.ports[(0 : Port)].frame.status = 0x81)
      && decide (t.sdo 0 = some .high)) = true := by decide +kernel

theorem test_frameStart_low : stopsWith (exec (.frameStart 0) (dueAt opened 0 .install [0])) .selectAlreadyLow = true := by
  decide +kernel

theorem test_nop : nextWith (exec (.nop 0 false) (frameAt opened 0 .spill .nop [] 1)) (fun t =>
    decide (t.sessions[(0 : Port)].expiry = some 10100) && decide (t.ports[(0 : Port)].result = ⟨.ok, 0⟩)) = true := by
  decide +kernel

theorem test_unknown : nextWith (exec (.unknown 0 false)
    (editFrame (frameAt opened 0 .spill .nop [] 1) 0 fun f => { f with code := some 0x99 })) (fun t =>
      decide (t.ports[(0 : Port)].result = ⟨.unknown, 0x99⟩)) = true := by decide +kernel

theorem test_cut : nextWith (exec (.cut 0 true)
    (editFrame (frameAt opened 0 .arguments .install [] 1) 0 fun f => { f with bits := 3 })) (fun t =>
      decide (t.ports[(0 : Port)].result = ⟨.cut, 0⟩) && decide (t.sessions[(0 : Port)].expiry = some 90)) = true := by
  decide +kernel

theorem test_cut_elsewhere : stopsWith (exec (.cut 0 true) (frameAt opened 0 .arguments .install [] 1))
    .riseElsewhereInByte = true := by decide +kernel

theorem test_starting : nextWith (exec (.starting 1)
    (editFrame (frameAt ready 1 .spill .install [] 1) 1 fun f => { f with startUp := true })) (fun t =>
      decide (t.ports[(1 : Port)].result = ⟨.starting, 0⟩)) = true := by decide +kernel

theorem test_lost : nextWith (exec (.lost 2) (frameAt ready 2 .dead .install [] 1)) (fun t =>
    decide (t.ports[(2 : Port)].result = ⟨.lost, 0⟩)) = true := by decide +kernel

theorem test_open : nextWith (exec (.openSession 1) (dueAt opened 1 .openSession [2, 12, 1, 192])) (fun t =>
    t.isOpen 1 && decide (t.unreserved = 176) && decide (t.sessions[(1 : Port)].expiry = some 20100)
      && decide (t.queues[(1 : Port)] = some (SampleQueue.new 192 192 .dropOldest))) = true := by decide +kernel

theorem test_open_noRoom : nextWith (exec (.openSession 1)
    (dueAt (opened.setUnreserved 15) 1 .openSession [2, 1, 0, 16])) (fun t =>
      decide (t.ports[(1 : Port)].result = ⟨.noRoom, 0⟩)) = true := by decide +kernel

theorem test_close : nextWith (exec (.closeSession 0) (dueAt (withSlot .periodic .running) 0 .closeSession [])) (fun t =>
    !t.isOpen 0 && decide (t.unreserved = 384) && decide (t.slots[(5 : SlotNo)] = Slot.free)) = true := by decide +kernel

theorem test_leaseExpiry : nextWith (exec (.leaseExpiry 0) opened) (fun t =>
    decide (t.sessions[(0 : Port)].state = .lapsed) && decide (t.natt 0 = .low)) = true := by decide +kernel

theorem test_leaseExpiry_early : stopsWith (exec (.leaseExpiry 0)
    (opened.setTimebase { opened.timebase with tick := 89 })) .timerDoesNotExpire = true := by decide +kernel

theorem test_stageClear : nextWith (exec (.stageClear 0) (dueAt (staged opened stagedTriggered) 0 .stageClear []))
    (fun t => decide (t.ports[(0 : Port)].staging = stagingDefaults)) = true := by decide +kernel

theorem test_stageWord : nextWith (exec (.stageWord 0) (dueAt opened 0 .stageWord [3, 0x12, 0x34, 0x56, 0x78])) (fun t =>
    decide (t.ports[(0 : Port)].staging = #v[0, 0x3E8, 0, 0x12345678])) = true := by decide +kernel

theorem test_install : nextWith (exec (.install 0) (dueAt (staged opened stagedTriggered) 0 .install [0xFF])) (fun t =>
    decide (t.slots[(0 : SlotNo)].state = .running) && decide (t.slots[(0 : SlotNo)].settings.channel = 3)
      && decide (t.ports[(0 : Port)].result = ⟨.ok, 0⟩)) = true := by decide +kernel

theorem test_modify : nextWith (exec (.modify 0)
    (dueAt (staged (withSlot .triggered .stopped) stagedTriggered) 0 .modify [5])) (fun t =>
      decide (t.slots[(5 : SlotNo)].settings.kind = .triggered) && decide (t.ports[(0 : Port)].result = ⟨.ok, 5⟩))
    = true := by decide +kernel

theorem test_delete : nextWith (exec (.delete 0) (dueAt (withSlot .listen .running) 0 .delete [5])) (fun t =>
    decide (t.slots[(5 : SlotNo)] = Slot.free)) = true := by decide +kernel

theorem test_stop : nextWith (exec (.stop 0) (dueAt (withSlot .listen .running) 0 .stop [5])) (fun t =>
    decide (t.slots[(5 : SlotNo)].state = .stopped)) = true := by decide +kernel

theorem test_run : nextWith (exec (.run 0) (dueAt (withSlot .periodic .stopped) 0 .run [5])) (fun t =>
    decide (t.slots[(5 : SlotNo)].state = .running) && decide (t.slots[(5 : SlotNo)].nextDue = 100)) = true := by
  decide +kernel

theorem test_startBurst : nextWith (exec (.startBurst 0) (dueAt (withSlot .burst .stopped) 0 .startBurst [5])) (fun t =>
    decide (t.conv.phase = .settle) && t.slots[(5 : SlotNo)].inFlightFlag
      && decide (t.slots[(5 : SlotNo)].burstRemaining = 1)) = true := by decide +kernel

theorem test_fetch : nextWith (exec (.fetch 0) (dueAt (withSlot .listen .running) 0 .fetch [5])) (fun t =>
    decide (t.ports[(0 : Port)].readBuf.toList.take 6 = [5, 2, 0xC0, 3, 0, 0])) = true := by decide +kernel

theorem test_readBuffer : nextWith (exec (.readBuffer (lastBit 0 30)) (argumentDue opened 0 .readBuffer 30)) (fun t =>
    decide (t.ports[(0 : Port)].frame.reply = [0, 0]) && decide (t.ports[(0 : Port)].frame.args = [30])) = true := by decide +kernel

theorem test_takeSamples : nextWith (exec (.takeSamples (lastBit 0 1)) (argumentDue opened 0 .takeSamples 1)) (fun t =>
    decide (t.ports[(0 : Port)].frame.taken = .accepted)) = true := by decide +kernel

/-- Port 0's stream stands one rising edge before the end of the record at the head of a queue. -/
def streamed (c : Command) (s : State) : State :=
  editFrame (frameAt s 0 .reply c [2] 9) 0 fun f =>
    { f with taken := .accepted, reply := List.replicate 7 0, replyAt := 3, bits := 7 }

/-- The opened hub with two sample records, the head marked. -/
def twoSamples : State := opened.setQueue 0 (some { queue0 with records := [record0, record0], shifting := true })

/-- The opened hub with two event records, the head marked. -/
def twoEvents : State :=
  opened.setEvents 0 { EventQueue.empty with records := [event0 .watchHit, event0 .burstDone], shifting := true }

/-- The opened hub with a marked OVERFLOW at the head of port 0's event queue and late losses. -/
def lateOverflow : State :=
  opened.setEvents 0 { EventQueue.empty with
    records := [event0 .overflow], shifting := true, lateLoss := 2, lateTick := 80 }

theorem test_sampleRecordRemoved : nextWith (exec (.sampleRecordRemoved ⟨0, .low⟩) (streamed .takeSamples twoSamples)) (fun t =>
    decide (t.ports[(0 : Port)].frame.removed = 1) && decide (t.ports[(0 : Port)].frame.reply = record0.bytes)) = true := by
  decide +kernel

theorem test_takeEvents : nextWith (exec (.takeEvents (lastBit 0 0)) (argumentDue opened 0 .takeEvents 0)) (fun t =>
    decide (t.ports[(0 : Port)].frame.taken = .refused .badArg)) = true := by decide +kernel

theorem test_eventRecordRemoved : nextWith (exec (.eventRecordRemoved ⟨0, .low⟩) (streamed .takeEvents lateOverflow)) (fun t =>
    decide (t.events[(0 : Port)].records = [overflowRecord 80 2]) && t.events[(0 : Port)].shifting) = true := by
  decide +kernel

theorem test_releaseQueue : nextWith (exec (.releaseQueue 0)
    (dueAt (opened.setQueue 0 (some { queue0 with hold := true, pendingGap := 9 })) 0 .releaseQueue [])) (fun t =>
      decide (t.ports[(0 : Port)].result = ⟨.ok, 9⟩) && !isHeld t.queues[(0 : Port)]) = true := by decide +kernel

theorem test_readNow : nextWith (exec (.readNow 0) (dueAt opened 0 .readNow [19, 3, 4])) (fun t =>
    t.sessions[(0 : Port)].demandOutstanding && decide (t.conv.phase = .settle)) = true := by decide +kernel

theorem test_peekLatest : nextWith (exec (.peekLatest (lastBit 0 19)) (argumentDue opened 0 .peekLatest 19)) (fun t =>
    decide (t.ports[(0 : Port)].frame.reply = [19, 0, 0, 0, 0, 0, 0, 0, 0, 0, 0, 0xFF])) = true := by decide +kernel

theorem test_readTime : nextWith (exec (.readTime 0) (clockHigh (frameAt opened 0 .reply .readTime [] 3))) (fun t =>
    decide (t.ports[(0 : Port)].frame.reply = [0, 0, 0, 100]) && decide (t.ports[(0 : Port)].sck = .low)) = true := by
  decide +kernel

theorem test_claim : nextWith (exec (.claim 0) (dueAt opened 0 .claim [15])) (fun t =>
    decide (t.channels[(15 : Fin 16)].holder = some 0)) = true := by decide +kernel

theorem test_release : nextWith (exec (.release 0) (dueAt opened 0 .release [15])) (fun t =>
    decide (t.ports[(0 : Port)].result = ⟨.notOwner, 0⟩)) = true := by decide +kernel

/-- The opened hub with port 0's claim on channel 2. -/
def claimed : State := opened.setChannel 2 { ChannelConfig.atReset with holder := some 0 }

theorem test_configure : nextWith (exec (.configure 0) (dueAt claimed 0 .configure [2, 0xC3])) (fun t =>
    decide (t.channels[(2 : Fin 16)] = ⟨.paired, .half, 3, some 0, 1⟩)
      && decide (t.ports[(0 : Port)].result = ⟨.ok, 1⟩)) = true := by decide +kernel

theorem test_readChannel : nextWith (exec (.readChannel (lastBit 1 2)) (argumentDue claimed 1 .readChannel 2)) (fun t =>
    decide (t.ports[(1 : Port)].frame.reply = [2, 0, 0, 0])) = true := by decide +kernel

theorem test_watchSet : nextWith (exec (.watchSet 0) (dueAt opened 0 .watchSet [7, 0xFF, 0x80, 0x00, 0x80, 0])) (fun t =>
    decide (t.watches[(0 : Port)][(7 : Fin 8)] =
      ⟨.disarmed, .anyOwn, ⟨.set, .any, .any, .any, .any, .any⟩, .repeating, .notify, 0, 0⟩)) = true := by decide +kernel

/-- The opened hub with watch 7 of port 0 set. -/
def watched (x : WatchState) (m : WatchMode) (a : WatchAction) : State :=
  opened.setWatch 0 7 { Watch.empty with state := x, selector := .anyOwn, mode := m, action := a, captureSlot := 5 }

theorem test_watchArm : nextWith (exec (.watchArm 0)
    (dueAt (watched .spent .once .notify) 0 .watchArm [7])) (fun t =>
      decide (t.watches[(0 : Port)][(7 : Fin 8)].state = .armed)) = true := by decide +kernel

theorem test_watchDisarm : nextWith (exec (.watchDisarm 0) (dueAt opened 0 .watchDisarm [7])) (fun t =>
    decide (t.ports[(0 : Port)].result = ⟨.badState, 0⟩)) = true := by decide +kernel

theorem test_watchClear : nextWith (exec (.watchClear 0)
    (dueAt (watched .armed .once .notify) 0 .watchClear [7])) (fun t =>
      decide (t.watches[(0 : Port)][(7 : Fin 8)] = Watch.empty)) = true := by decide +kernel

theorem test_watchRead : nextWith (exec (.watchRead (lastBit 0 7))
    (argumentDue (watched .armed .repeating .hold) 0 .watchRead 7)) (fun t =>
      decide (t.ports[(0 : Port)].frame.reply = [7, 2, 0xFF, 0, 0, 0x82, 5, 0, 0])) = true := by decide +kernel

theorem test_periodTimerExpiry : nextWith (exec (.periodTimerExpiry 5) (withSlot .periodic .running)) (fun t =>
    decide (t.conv.phase = .settle) && decide (t.slots[(5 : SlotNo)].nextDue = 1000)) = true := by decide +kernel

/-- Slot 5 TRIGGERED on line A, and an edge of line A on its way. -/
def edgeWaiting : State :=
  (withSlot .triggered .running).setTimebase { opened.timebase with edges := [⟨.a, .rise, 99⟩] }

theorem test_triggerEdge : nextWith (exec (.triggerEdge .a)
    (inPhase edgeWaiting .sample (flight0 [⟨sub0 (.demand 0) .demand, false⟩]))) (fun t =>
      decide (t.conv.phase = .recover) && decide (t.requests.length = 2)) = true := by decide +kernel

theorem test_triggerEdge_none : stopsWith (exec (.triggerEdge .b) edgeWaiting) .noRecognisedEdge = true := by
  decide +kernel

theorem test_settleEnd : nextWith (exec .settleEnd (inPhase opened .settle { flight0 [] with startTick := none })) (fun t =>
    decide (t.conv.phase = .sample) && decide (t.conv.record.bind (·.startTick) = some 100)) = true := by decide +kernel

theorem test_settleEnd_early : stopsWith (exec .settleEnd (oneShort (inPhase opened .settle (flight0 []))))
    .phaseNotAtItsEnd = true := by decide +kernel

theorem test_sampleEnd : nextWith (exec (.sampleEnd inputs0) (inPhase opened .sample (flight0 []))) (fun t =>
    decide (t.conv.record.map (·.level) = some 300) && decide (t.conv.phase = .convert)) = true := by decide +kernel

theorem test_sampleEnd_paired : nextWith (exec (.sampleEnd inputs0)
    (inPhase opened .sample { flight0 [] with channel := 14, mode := .paired })) (fun t =>
      decide (t.conv.record.map (·.level) = some (-100))) = true := by decide +kernel

theorem test_convertEnd : nextWith (exec .convertEnd (inPhase opened .convert (flight0 []))) (fun t =>
    decide (t.conv.record.map (·.runningSum) = some 2048)) = true := by decide +kernel

theorem test_completion : nextWith (exec .completion (finishing .burst)) (fun t =>
    decide (t.latest[(3 : Channel)].value = 2048) && decide (t.slots[(5 : SlotNo)].state = .stopped)
      && decide ((t.queues[(0 : Port)].map (·.records.length)) = some 1)
      && decide (t.events[(0 : Port)].records = [⟨.burstDone, 5, 100, 1⟩])) = true := by decide +kernel

theorem test_recoverEnd : nextWith (exec .recoverEnd
    (recovered.setRequests
      [entry0 (.demand 0) .demand, entry0 (.slot 5) .routine])) (fun t =>
        decide (t.requests = []) && decide ((t.conv.record.map (·.cls)) = some .routine)) = true := by decide +kernel

theorem test_hubReset : nextWith (exec (.hubReset .supply) opened) (fun t =>
    t.hub.supplyHold && !t.isOpen 0 && decide (t.unreserved = 384)) = true := by decide +kernel

theorem test_refclk_fourthLow : nextWith (exec (.refclkRisingEdge .low .low .low)
    (leased.setHub { opened.hub with nrstLow := 3 })) (fun t => t.hub.nrstHold && !t.isOpen 0) = true := by decide +kernel

theorem test_resetRelease : nextWith (exec (.resetRelease .supply) State.reset) (fun t => t.hub.startUp) = true := by
  decide +kernel

theorem test_endOfStartUp : nextWith (exec .endOfStartUp (ready.setHub { ready.hub with startUp := true })) (fun t =>
    !t.hub.startUp) = true := by decide +kernel

theorem test_refclkRisingEdge : nextWith (exec (.refclkRisingEdge .high .low .high)
    (ready.setTimebase { ready.timebase with prescaler := 14, detectorA := ⟨.low, 2⟩ })) (fun t =>
      decide (t.timebase.prescaler = 15) && decide (t.timebase.edges = [⟨.a, .rise, 100⟩])) = true := by decide +kernel

theorem test_refclk_countsThePhase : nextWith (exec (.refclkRisingEdge .low .low .high)
    (oneShort (inPhase leased .sample (flight0 [])))) (fun t => decide (t.conv.phasePeriods = 16)) = true := by decide +kernel

theorem test_refclk_waits :
    stopsWith (exec (.refclkRisingEdge .low .low .high) opened) .expiryComesFirst = true
      ∧ stopsWith (exec (.refclkRisingEdge .low .low .high) edgeWaiting) .edgeComesFirst = true
      ∧ stopsWith (exec (.refclkRisingEdge .low .low .high) (inPhase leased .sample (flight0 []))) .phaseEndComesFirst
        = true
      ∧ stopsWith (exec (.refclkRisingEdge .low .low .high) (ready.setHub { ready.hub with nrstHold := true }))
        .resetReleaseComesFirst = true := by decide +kernel

theorem test_byteCompletion : nextWith (exec (.byteCompletion 0 (.rise .low))
    (editFrame (frameAt opened 0 .head .nop [] 0) 0 fun f => { f with bits := 7, shiftIn := 0x08 })) (fun t =>
      decide (t.ports[(0 : Port)].frame.command = some .openSession)
        && decide (t.ports[(0 : Port)].frame.state = .arguments)) = true := by decide +kernel

theorem test_byteCompletion_fall : nextWith (exec (.byteCompletion 0 .fall)
    (clockHigh (editFrame (frameAt opened 0 .head .nop [] 0) 0 fun f => { f with bits := 7, status := 0x81 }))) (fun t =>
      decide (t.sdo 0 = some .high) && decide (t.ports[(0 : Port)].sck = .low)) = true := by decide +kernel

/-- BYTE_COMPLETION of the edge that completes a streaming command's argument takes the command, and any other row than the
command's own is refused there (log 5). -/
theorem test_byteCompletion_takes :
    exec (.byteCompletion 0 (.rise .high)) (argumentDue opened 0 .peekLatest 19)
        = exec (.peekLatest (lastBit 0 19)) (argumentDue opened 0 .peekLatest 19)
      ∧ stopsWith (exec (.readChannel (lastBit 0 19)) (argumentDue opened 0 .peekLatest 19)) .notAtTakingPoint = true :=
  ⟨rfl, by decide +kernel⟩

/-- BYTE_COMPLETION of the edge that completes a marked record's last byte removes the record (log 5). -/
theorem test_byteCompletion_removes :
    exec (.byteCompletion 0 (.rise .low)) (streamed .takeSamples twoSamples)
        = exec (.sampleRecordRemoved ⟨0, .low⟩) (streamed .takeSamples twoSamples)
      ∧ stopsWith (exec (.eventRecordRemoved ⟨0, .low⟩) (streamed .takeSamples twoSamples)) .noRecordShiftedOut = true :=
  ⟨rfl, by decide +kernel⟩

theorem test_streamingFrameEnd : nextWith (exec (.streamingFrameEnd 0)
    (editFrame (streamed .takeSamples twoSamples) 0 fun f => { f with removed := 1 })) (fun t =>
      decide (t.ports[(0 : Port)].result = ⟨.ok, 1⟩) && !samplesShifting t 0) = true := by decide +kernel

theorem test_step_idle : nextWith (step State.reset) (fun t => decide (t = State.reset)) = true := by decide +kernel

/-! ### Hypotheses that are met -/

/-- The opened hub with channel 2 PAIRED and claimed by port 0. -/
def pairedTwo : State := opened.setChannel 2 { ChannelConfig.atReset with mode := .paired, holder := some 0 }

/-- The hub in start-up, with a start-up frame of port 1 in SPILL. -/
def startUpFrame : State :=
  editFrame (frameAt (State.reset.setHub ⟨false, false, true, 7, 0⟩) 1 .spill .install [] 1) 1 fun f =>
    { f with startUp := true }

/-- A hub with slot 5 in flight at the end of its conversion and port 0's demand waiting. -/
def busy : State :=
  ((finishing .burst).setRequests [entry0 (.demand 0) .demand]).setSession 0
    { opened.sessions[(0 : Port)] with demandOutstanding := true }

theorem witness_StepTakesTheFrontCommand :
    State.reset.pending = [] ∧ (State.reset.setPending [.completion]).pending = .completion :: [] := by
  decide +kernel

theorem witness_StepKeepsThePool :
    let s := (streamed .takeSamples twoSamples).setPending [.sampleRecordRemoved ⟨0, .low⟩]
    PoolOk s ∧ nextWith (step s) (fun _ => true) = true := by
  unfold PoolOk SampleQueue.ok; decide +kernel

theorem witness_StepKeepsTheEventQueues :
    let s := (streamed .takeEvents lateOverflow).setPending [.eventRecordRemoved ⟨0, .low⟩]
    EventsOk s ∧ nextWith (step s) (fun _ => true) = true := by
  unfold EventsOk EventQueue.ok; decide +kernel

theorem witness_StepKeepsHoldingsUnderOpenSessions :
    HoldingsOk ((dueAt (withSlot .listen .running) 0 .closeSession []).setPending [.closeSession 0])
      ∧ nextWith (step ((dueAt (withSlot .listen .running) 0 .closeSession []).setPending [.closeSession 0])) (fun _ => true) = true := by
  unfold HoldingsOk; decide +kernel

theorem witness_StepKeepsQuotaPairingCountersAndDeadlines :
    let s := (dueAt (staged pairedTwo stagedTriggered) 0 .install [1]).setPending [.install 0]
    let d := s.setSession 0 leased.sessions[(0 : Port)]
    QuotaOk s ∧ PairingOk s ∧ CountersOk s ∧ DeadlinesOk d ∧ d.isOpen 0 = true ∧ d.sessions[(0 : Port)].expiry = some 101
      ∧ nextWith (step s) (fun _ => true) = true ∧ nextWith (step d) (fun _ => true) = true := by
  intro s d
  have h (l : List Edge) (hl : l = []) (x : Line) : (l.countP fun e => decide (e.line = x)) ≤ 1 := by simp [hl]
  have hd : ∀ p : Port, (d.sessions[p].expiry.all fun x => decide ((x - d.now).toNat < 4194304)) = true := by decide +kernel
  refine ⟨?_, ?_, ⟨?_, ?_, ?_, ?_, ?_, ?_, ?_, ?_, h _ ?_⟩, ⟨fun p _ x hx => ?lease, ?_⟩, ?_, ?_, ?_, ?_⟩
  case lease => simpa using (Option.all_eq_true _ _).1 (hd p) x hx
  all_goals first
    | decide +kernel
    | (unfold QuotaOk; decide +kernel)
    | (unfold PairingOk; decide +kernel)

theorem witness_StepKeepsResetAndStartUpQuiet :
    StartUpOk (startUpFrame.setPending [.starting 1])
      ∧ nextWith (step (startUpFrame.setPending [.starting 1])) (fun _ => true) = true := by
  unfold StartUpOk Frame.startUpOk; decide +kernel

theorem witness_StepKeepsTheLawOfThePendingList :
    RequestsOk (busy.setPending [.completion])
      ∧ nextWith (step (busy.setPending [.completion])) (fun _ => true) = true := by
  unfold RequestsOk ConverterOk InFlight.ok avgOk; decide +kernel

theorem witness_HubResetResetsEveryBlock :
    let s := ready.setHub { ready.hub with nrstLow := 3 }
    fourthLow s.hub .low ∧ refclkFree s .low := by
  simp only [← dueBeforeRefclk_eq_none]; unfold fourthLow; decide +kernel

theorem witness_StartUpBeginsAndEnds :
    let n := ready.setHub { ready.hub with nrstHold := true }
    let u := ready.setHub { ready.hub with startUp := true }
    State.reset.hub.supplyHold = true ∧ n.hub.nrstHold = true
      ∧ u.hub.startUp = true ∧ u.hub.supplyHold = false ∧ u.hub.nrstHold = false ∧ u.hub.startCount = 3200 := by
  decide +kernel

theorem witness_RefclkInResetAndStartUp :
    let n := ready.setHub { ready.hub with nrstHold := true }
    let u := ready.setHub { ready.hub with startUp := true, startCount := 3199 }
    n.hub.nrstHold = true ∧ n.hub.held = true ∧ (n.hub.nrstHold = true → Level.low = .low) ∧ ¬ fourthLow n.hub .low
      ∧ State.reset.hub.held = true ∧ (State.reset.hub.nrstHold = true → Level.high = .low)
      ∧ ¬ fourthLow State.reset.hub .high ∧ u.hub.held = false ∧ u.hub.startUp = true ∧ u.hub.startCount < 3200
      ∧ ¬ fourthLow u.hub .low := by
  unfold fourthLow; decide +kernel

theorem witness_RefclkCountsAndFilters :
    let s := leased.setTimebase { ready.timebase with prescaler := 15, detectorA := ⟨.low, 2⟩, detectorB := ⟨.low, 2⟩ }
    let u := (oneShort (inPhase leased .sample (flight0 []))).setTimebase
      { ready.timebase with prescaler := 14, detectorA := ⟨.low, 1⟩, detectorB := ⟨.low, 0⟩ }
    s.hub.held = false ∧ s.hub.startUp = false ∧ ¬ fourthLow s.hub .low ∧ refclkFree s .low ∧ s.timebase.prescaler = 15
      ∧ s.timebase.detectorA.changes = 2 ∧ s.timebase.detectorB.changes = 2 ∧ s.conv.phase = .idle
      ∧ u.hub.held = false ∧ u.hub.startUp = false ∧ refclkFree u .high ∧ u.timebase.prescaler < 15
      ∧ u.timebase.detectorA.changes ≤ 2 ∧ u.timebase.detectorB.changes ≤ 2 ∧ u.conv.phase ≠ .idle := by
  simp only [← dueBeforeRefclk_eq_none]; unfold fourthLow; decide +kernel

theorem witness_RefclkCountsAndFilters_waits :
    ¬ refclkFree edgeWaiting .high ∧ ¬ refclkFree opened .high
      ∧ ¬ refclkFree (ready.setSlot 5 { slot0 .periodic .running with nextDue := 100 }) .high
      ∧ ¬ refclkFree (inPhase leased .sample (flight0 [])) .high
      ∧ ¬ refclkFree (ready.setHub { ready.hub with startUp := true }) .high
      ∧ ¬ refclkFree (ready.setHub { ready.hub with nrstHold := true }) .high := by
  simp only [← dueBeforeRefclk_eq_none]; decide +kernel

theorem witness_FrameStartSamplesStatusAndResult :
    State.reset.ports[(0 : Port)].nsel = .high ∧ State.reset.hub.held = true
      ∧ ready.ports[(0 : Port)].nsel = .high ∧ ready.hub.held = false := by
  decide +kernel

theorem witness_StatusByteAndOutput_status :
    startUpFrame.hub.startUp = true ∧ opened.hub.startUp = false := by
  decide +kernel

theorem witness_StatusByteAndOutput_output :
    let f (x : FrameState) (n : Nat) := (frameAt opened 0 x .readTime [] n).ports[(0 : Port)].frame
    ready.ports[(0 : Port)].frame.state = .idle ∧ (f .head 0).state ≠ .idle ∧ (f .head 0).state ≠ .dead
      ∧ (f .head 0).bytesDone = 0 ∧ (f .reply 1).bytesDone = 1 ∧ (f .reply 2).bytesDone = 2
      ∧ 3 ≤ (f .reply 3).bytesDone ∧ (f .reply 3).state = .reply ∧ 3 ≤ (f .spill 3).bytesDone
      ∧ (f .spill 3).state ≠ .reply ∧ (f .spill 3).state ≠ .dead ∧ (f .dead 1).state = .dead := by
  decide +kernel

theorem witness_BytesBeforeTheReply :
    let s (x : FrameState) (a : List Byte) (b : Nat) :=
      editFrame (frameAt opened 0 x .openSession a 1) 0 fun f => { f with bits := b }
    let f (x : FrameState) (a : List Byte) (b : Nat) := (s x a b).ports[(0 : Port)].frame
    ready.ports[(0 : Port)].sck = .low ∧ ready.ports[(0 : Port)].frame.state = .idle
      ∧ (s .head [] 7).ports[(0 : Port)].sck = .low ∧ (f .head [] 7).state = .head ∧ (f .head [] 7).bits = 7
      ∧ (f .head [] 6).bits < 7 ∧ (f .arguments [1, 2, 0] 7).state = .arguments
      ∧ (f .arguments [1, 2, 0] 7).command = some .openSession ∧ (f .spill [] 7).state = .spill
      ∧ (f .dead [] 7).state = .dead ∧ (clockHigh (s .dead [] 0)).ports[(0 : Port)].sck = .high := by
  decide +kernel

theorem witness_BytesOfAReply_rise :
    let s := editFrame (streamed .readBuffer opened) 0 fun f => { f with bits := 6 }
    let l := streamed .readBuffer opened
    let m := editFrame (streamed .takeSamples twoSamples) 0 fun f => { f with bytesDone := 8 }
    let e := editFrame (streamed .takeEvents opened) 0 fun f => { f with bytesDone := 3, reply := [0] }
    s.ports[(0 : Port)].frame.state = .reply ∧ s.ports[(0 : Port)].sck = .low ∧ s.ports[(0 : Port)].frame.bits < 7
      ∧ ¬ (streamsRecord s 0 = true ∧ lastByteDue 0 s)
      ∧ l.ports[(0 : Port)].frame.bits = 7 ∧ ¬ (streamsRecord l 0 = true ∧ lastByteDue 0 l)
      ∧ streamsRecord m 0 = true ∧ m.ports[(0 : Port)].frame.bits = 7 ∧ ¬ lastByteDue 0 m
      ∧ ¬ (streamsRecord e 0 = true ∧ lastByteDue 0 e)
      ∧ e.ports[(0 : Port)].frame.taken ≠ .no ∧ 3 ≤ e.ports[(0 : Port)].frame.bytesDone
      ∧ e.ports[(0 : Port)].frame.replyAt + e.ports[(0 : Port)].frame.reply.length
        ≤ e.ports[(0 : Port)].frame.bytesDone + 1 := by
  unfold lastByteDue; decide +kernel

theorem witness_BytesOfAReply_fall :
    let s := clockHigh (editFrame (streamed .takeSamples twoSamples) 0 fun f => { f with bytesDone := 3, bits := 1 })
    let r := clockHigh (frameAt opened 0 .reply .readTime [] 2)
    s.ports[(0 : Port)].frame.state = .reply ∧ s.ports[(0 : Port)].sck = .high
      ∧ s.ports[(0 : Port)].frame.bits ≠ 0 ∧ streamsRecord s 0 = true
      ∧ r.ports[(0 : Port)].frame.bytesDone ≠ 3 ∧ r.ports[(0 : Port)].frame.taken = .no := by
  decide +kernel

/-- A queue stream of port 0 whose byte 3 is about to start, with SCK0 high. -/
def atByte3 (c : Command) (s : State) : State :=
  clockHigh (editFrame (frameAt s 0 .reply c [1] 3) 0 fun f => { f with taken := .accepted })

theorem witness_BytesOfAReply_samples :
    let s := atByte3 .takeSamples opened
    let r := s.setQueue 0 (some { queue0 with records := [record0] })
    s.ports[(0 : Port)].frame.state = .reply ∧ s.ports[(0 : Port)].sck = .high
      ∧ s.ports[(0 : Port)].frame.command = some .takeSamples ∧ s.ports[(0 : Port)].frame.taken = .accepted
      ∧ s.ports[(0 : Port)].frame.bytesDone = 3 ∧ s.ports[(0 : Port)].frame.bits = 0
      ∧ s.queues[(0 : Port)] = some queue0 ∧ queue0.shifting = false ∧ queue0.records = []
      ∧ s.ports[(0 : Port)].frame.removed < (arg s 0 0).toNat
      ∧ r.queues[(0 : Port)] = some { queue0 with records := [record0] }
      ∧ r.ports[(0 : Port)].frame.removed < (arg r 0 0).toNat := by
  decide +kernel

theorem witness_BytesOfAReply_events :
    let s := atByte3 .takeEvents opened
    let r := s.setEvents 0 { EventQueue.empty with records := [event0 .watchHit] }
    s.ports[(0 : Port)].frame.state = .reply ∧ s.ports[(0 : Port)].sck = .high
      ∧ s.ports[(0 : Port)].frame.command = some .takeEvents ∧ s.ports[(0 : Port)].frame.taken = .accepted
      ∧ s.ports[(0 : Port)].frame.bytesDone = 3 ∧ s.ports[(0 : Port)].frame.bits = 0
      ∧ s.events[(0 : Port)].shifting = false ∧ s.events[(0 : Port)].records = []
      ∧ s.ports[(0 : Port)].frame.removed < (arg s 0 0).toNat
      ∧ r.events[(0 : Port)].records = event0 .watchHit :: [] ∧ r.events[(0 : Port)].shifting = false
      ∧ r.ports[(0 : Port)].frame.removed < (arg r 0 0).toNat := by
  decide +kernel

theorem witness_NopKeepsTheResultAndTheSession :
    let s := frameAt opened 0 .spill .nop [] 1
    let m := editFrame s 0 fun f => { f with bits := 7 }
    s.ports[(0 : Port)].nsel = .low ∧ s.ports[(0 : Port)].frame.state = .spill
      ∧ s.ports[(0 : Port)].frame.command = some .nop ∧ s.ports[(0 : Port)].frame.startUp = false ∧ s.isOpen 0 = true
      ∧ (false = true ↔ s.ports[(0 : Port)].frame.bits ≠ 0) ∧ (true = true ↔ m.ports[(0 : Port)].frame.bits ≠ 0) := by
  decide +kernel

theorem witness_FrameEndsWithoutACommand_unknown :
    let s := editFrame (frameAt opened 0 .spill .nop [] 1) 0 fun f => { f with code := some 0x01 }
    let m := editFrame s 0 fun f => { f with bits := 1 }
    s.ports[(0 : Port)].nsel = .low ∧ s.ports[(0 : Port)].frame.state = .spill
      ∧ s.ports[(0 : Port)].frame.startUp = false ∧ s.ports[(0 : Port)].frame.code = some 0x01
      ∧ Command.ofCode 0x01 = none ∧ (false = true ↔ s.ports[(0 : Port)].frame.bits ≠ 0)
      ∧ (true = true ↔ m.ports[(0 : Port)].frame.bits ≠ 0) := by
  decide +kernel

theorem witness_FrameEndsWithoutACommand_cut :
    let h := frameAt opened 0 .head .nop [] 0
    let a := frameAt opened 0 .arguments .openSession [1, 2, 0] 4
    let m := editFrame (dueAt opened 0 .closeSession []) 0 fun f => { f with bits := 1 }
    h.ports[(0 : Port)].nsel = .low ∧ h.ports[(0 : Port)].frame.state = .head ∧ a.ports[(0 : Port)].nsel = .low
      ∧ a.ports[(0 : Port)].frame.startUp = false ∧ a.ports[(0 : Port)].frame.state = .arguments
      ∧ a.ports[(0 : Port)].frame.command = some .openSession
      ∧ a.ports[(0 : Port)].frame.args.length < Command.openSession.argCount
      ∧ (false = true ↔ a.ports[(0 : Port)].frame.bits ≠ 0) ∧ Command.closeSession.kind = .setting
      ∧ argumentsWhole 0 .closeSession m ∧ (true = true ↔ m.ports[(0 : Port)].frame.bits ≠ 0) := by
  unfold argumentsWhole; decide +kernel

theorem witness_FrameEndsWithoutACommand_startingAndLost :
    let l := frameAt opened 0 .dead .install [] 1
    startUpFrame.ports[(1 : Port)].nsel = .low ∧ startUpFrame.ports[(1 : Port)].frame.state = .spill
      ∧ startUpFrame.ports[(1 : Port)].frame.startUp = true
      ∧ startUpFrame.ports[(1 : Port)].frame.command ≠ some .nop ∧ l.ports[(0 : Port)].nsel = .low
      ∧ l.ports[(0 : Port)].frame.state = .dead ∧ l.ports[(0 : Port)].frame.startUp = false := by
  decide +kernel

theorem witness_RiseOnAnIdlePort :
    let s := ready.setPort 0 { ready.ports[(0 : Port)] with nsel := .low }
    settingOf (.install 0) = some (0, .install) ∧ s.ports[(0 : Port)].nsel = .low
      ∧ s.ports[(0 : Port)].frame = Frame.idle := by
  decide +kernel

theorem witness_SetCommandsNeedAnOpenSession :
    let s := dueAt ready 0 .install [0]
    settingOf (.install 0) = some (0, .install) ∧ Command.install ≠ .openSession ∧ settingDue 0 .install s
      ∧ s.isOpen 0 = false := by
  unfold settingDue argumentsWhole; decide +kernel

theorem witness_OpenGivesASession :
    let a (s : State) (d w : Byte) := dueAt s 1 .openSession [1, d, 1, w]
    settingDue 0 .openSession (dueAt opened 0 .openSession [1, 1, 0, 1]) ∧ opened.isOpen 0 = true
      ∧ settingDue 1 .openSession (a ready 13 1) ∧ ready.isOpen 1 = false ∧ ¬ openArgsOk (a ready 13 1) 1
      ∧ ¬ openArgsOk (a ready 1 17) 1 ∧ openArgsOk (a ready 12 192) 1
      ∧ 16 * (arg (a ready 12 192) 1 1).toNat ≤ (a ready 12 192).unreserved
      ∧ openArgsOk (a (ready.setUnreserved 15) 1 16) 1
      ∧ (a (ready.setUnreserved 15) 1 16).unreserved < 16 * (arg (a (ready.setUnreserved 15) 1 16) 1 1).toNat := by
  unfold settingDue argumentsWhole openArgsOk; decide +kernel

theorem witness_CloseTakesEverythingBack :
    let s := dueAt (finishing .burst) 0 .closeSession []
    settingDue 0 .closeSession s ∧ s.isOpen 0 = true := by
  unfold settingDue argumentsWhole; decide +kernel

theorem witness_LeaseExpiryLapsesTheSession :
    let s := frameAt opened 0 .arguments .install [] 1
    let k := frameAt opened 0 .arguments .peekLatest [] 1
    let e := opened.setTimebase { opened.timebase with tick := 90 }
    s.isOpen 0 = true ∧ s.sessions[(0 : Port)].expiry = some 90 ∧ (s.now - 90).toNat < 2147483648
      ∧ (e.now - 90).toNat < 2147483648 ∧ s.ports[(0 : Port)].frame.state ≠ .idle
      ∧ s.ports[(0 : Port)].frame.startUp = false ∧ s.ports[(0 : Port)].frame.command = some .install
      ∧ Command.install.needsSession = true ∧ s.ports[(0 : Port)].frame.sessionNoted = true
      ∧ k.ports[(0 : Port)].frame.command = some .peekLatest ∧ Command.peekLatest.needsSession = false := by
  decide +kernel

theorem witness_StageClearSetsTheDefaults :
    settingDue 0 .stageClear (dueAt opened 0 .stageClear []) ∧ opened.isOpen 0 = true
      ∧ settingDue 1 .stageClear (dueAt opened 1 .stageClear []) ∧ opened.isOpen 1 = false := by
  unfold settingDue argumentsWhole; decide +kernel

theorem witness_StageWordReplacesOneWord :
    let s (i : Byte) := dueAt opened 0 .stageWord [i, 1, 2, 3, 4]
    settingDue 0 .stageWord (s 4) ∧ (s 4).isOpen 0 = true ∧ 3 < (arg (s 4) 0 0).toNat
      ∧ settingDue 0 .stageWord (s 3) ∧ (arg (s 3) 0 0).toNat = (3 : Fin 4).val
      ∧ settingDue 1 .stageWord (dueAt opened 1 .stageWord [3, 1, 2, 3, 4]) ∧ opened.isOpen 1 = false := by
  unfold settingDue argumentsWhole; decide +kernel

theorem witness_SnapshotStreamsReadTheirReply :
    let s (c : Command) (b : Byte) := argumentDue opened 0 c b
    let e (b : Byte) := lastBit 0 b
    let a (c : Command) (b : Byte) := (shiftedIn (s c b).ports[(0 : Port)].frame (e b).sdi).toNat
    takesAtEdge (.readBuffer (e 31)) 0 .readBuffer (e 31).sdi ∧ takesAtEdge (.watchRead (e 7)) 0 .watchRead (e 7).sdi
      ∧ takesAtEdge (.readChannel (e 15)) 0 .readChannel (e 15).sdi
      ∧ takesAtEdge (.peekLatest (e 19)) 0 .peekLatest (e 19).sdi
      ∧ takesAtEdge (.byteCompletion 0 (.rise .high)) 0 .peekLatest .high
      ∧ takingDue 0 .readBuffer (s .readBuffer 31) ∧ a .readBuffer 31 ≤ 31 ∧ (s .readBuffer 31).isOpen 0 = true
      ∧ takingDue 0 .readBuffer (s .readBuffer 32) ∧ 31 < a .readBuffer 32
      ∧ takingDue 0 .watchRead (s .watchRead 7) ∧ a .watchRead 7 = (7 : Fin 8).val
      ∧ takingDue 0 .watchRead (s .watchRead 8) ∧ 7 < a .watchRead 8
      ∧ takingDue 0 .readChannel (s .readChannel 15) ∧ a .readChannel 15 = (15 : Fin 16).val
      ∧ 16 ≤ a .readChannel 16 ∧ a .readChannel 19 ≤ 19 ∧ 19 < a .readChannel 20
      ∧ takingDue 0 .peekLatest (s .peekLatest 19) ∧ a .peekLatest 19 = (19 : Channel).val ∧ 19 < a .peekLatest 20
      ∧ takingDue 1 .readBuffer (argumentDue opened 1 .readBuffer 0)
      ∧ takingDue 1 .watchRead (argumentDue opened 1 .watchRead 0) ∧ opened.isOpen 1 = false := by
  refine ⟨.inr rfl, .inr rfl, .inr rfl, .inr rfl, .inl rfl, ?_⟩
  unfold takingDue; decide +kernel

theorem witness_ReadTimeSamplesTheTick :
    let s := clockHigh (frameAt opened 0 .reply .readTime [] 3)
    s.ports[(0 : Port)].frame.state = .reply ∧ s.ports[(0 : Port)].frame.command = some .readTime
      ∧ s.ports[(0 : Port)].frame.taken = .no ∧ s.ports[(0 : Port)].frame.bytesDone = 3
      ∧ s.ports[(0 : Port)].frame.bits = 0 ∧ s.ports[(0 : Port)].sck = .high := by
  decide +kernel

theorem witness_QueueStreamsAreChecked :
    let s (c : Command) (b : Byte) := argumentDue opened 0 c b
    let a (c : Command) (b : Byte) := shiftedIn (s c b).ports[(0 : Port)].frame (lastBit 0 b).sdi
    takesAtEdge (.takeSamples (lastBit 0 0)) 0 .takeSamples (lastBit 0 0).sdi
      ∧ takesAtEdge (.takeEvents (lastBit 0 1)) 0 .takeEvents (lastBit 0 1).sdi
      ∧ takingDue 0 .takeSamples (s .takeSamples 0) ∧ takingDue 0 .takeEvents (s .takeEvents 1)
      ∧ (s .takeSamples 0).isOpen 0 = true ∧ a .takeSamples 0 = 0 ∧ a .takeEvents 1 ≠ 0
      ∧ takingDue 1 .takeEvents (argumentDue opened 1 .takeEvents 1) ∧ opened.isOpen 1 = false := by
  refine ⟨.inr rfl, .inr rfl, ?_⟩
  unfold takingDue; decide +kernel

theorem witness_SlotCommandRefusals :
    let s (a : Byte) := dueAt (withSlot .burst .retiring) 0 .stop [a]
    settingOf (.stop 0) = some (0, .stop) ∧ settingDue 0 .stop (s 5) ∧ (s 5).isOpen 0 = true
      ∧ 31 < (arg (s 32) 0 0).toNat ∧ (arg (s 31) 0 0).toNat = (31 : SlotNo).val
      ∧ (s 31).slots[(31 : SlotNo)].state = .free ∧ (arg (s 5) 0 0).toNat = (5 : SlotNo).val
      ∧ (s 5).slots[(5 : SlotNo)].owner = some 0 ∧ (s 5).slots[(5 : SlotNo)].state = .retiring := by
  unfold settingDue argumentsWhole; decide +kernel

theorem witness_InstallRefusals_argument :
    let s (a : Byte) (w : Vector (BitVec 32) 4) := dueAt (staged opened w) 0 .install [a]
    settingDue 0 .install (s 32 stagedTriggered) ∧ (s 32 stagedTriggered).isOpen 0 = true
      ∧ 31 < (arg (s 32 stagedTriggered) 0 0).toNat ∧ arg (s 32 stagedTriggered) 0 0 ≠ 0xFF
      ∧ 31 < (arg (s 0xFE stagedTriggered) 0 0).toNat ∧ arg (s 0xFE stagedTriggered) 0 0 ≠ 0xFF
      ∧ stagingBad #v[0, 19, 0, 0xFFF] ∧ ¬ stagingBad stagedTriggered := by
  unfold settingDue argumentsWhole stagingBad; decide +kernel

/-- Each range of a staging record at its limits: bad just outside it, good at it. -/
theorem witness_InstallRefusals_ranges :
    stagingBad #v[0x00140000#32, 20, 0, 0] ∧ ¬ stagingBad #v[0x00130000#32, 20, 0, 0]
      ∧ stagingBad #v[0x05000000#32, 20, 0, 0] ∧ ¬ stagingBad #v[0x04000000#32, 20, 0, 0]
      ∧ ¬ stagingBad #v[0xC7000000#32, 0, 0, 0] ∧ stagingBad #v[0, 20, 20, 0] ∧ ¬ stagingBad #v[0, 20, 19, 0]
      ∧ stagingBad #v[0x40000000#32, 0, 0xC0000000#32, 0] ∧ ¬ stagingBad #v[0x40000000#32, 0, 0x80000000#32, 0]
      ∧ stagingBad #v[0, 20, 0, 0x80010000#32] ∧ ¬ stagingBad #v[0, 20, 0, 0x80010001#32]
      ∧ stagingBad #v[0, 0x80000014#32, 0, 0] ∧ stagingBad #v[0, 20, 0, 0x10000000#32]
      ∧ stagingBad #v[0, 20, 0, 0x00001000#32] := by
  refine ⟨?_, ?_, ?_, ?_, ?_, ?_, ?_, ?_, ?_, ?_, ?_, ?_, ?_, ?_⟩ <;> unfold stagingBad <;> decide +kernel

theorem witness_InstallRefusals_state :
    let s (x : State) (a : Byte) := dueAt (staged x stagedTriggered) 0 .install [a]
    let full := opened.mapSlots fun n _ => if n.val < 16 then slot0 .listen .stopped else Slot.free
    let others := opened.mapSlots fun _ _ => { slot0 .listen .stopped with owner := some 1 }
    (stagedOf stagedTriggered).isSome = true ∧ (s pairedTwo 31).oddPartner 3 = true
      ∧ (s full 31).oddPartner 3 = false ∧ 16 ≤ ownedCount (s full 31) 0
      ∧ ownedCount (s others 0xFF) 0 < 16 ∧ arg (s others 0xFF) 0 0 = 0xFF
      ∧ (∀ n : SlotNo, (s others 0xFF).slots[n].state ≠ .free)
      ∧ (arg (s (withSlot .listen .retiring) 5) 0 0).toNat = (5 : SlotNo).val
      ∧ (s (withSlot .listen .retiring) 5).slots[(5 : SlotNo)].state = .retiring
      ∧ (s (withSlot .listen .stopped) 5).slots[(5 : SlotNo)].state = .stopped := by
  decide +kernel

theorem witness_InstallSetsUpTheSlot :
    let s (a : Byte) := dueAt (staged opened stagedTriggered) 0 .install [a]
    settingDue 0 .install (s 31) ∧ (s 31).isOpen 0 = true ∧ (stagedOf stagedTriggered).isSome = true
      ∧ (s 31).oddPartner 3 = false ∧ ownedCount (s 31) 0 < 16 ∧ (s 31).slots[(31 : SlotNo)].state = .free
      ∧ (arg (s 31) 0 0).toNat = (31 : SlotNo).val ∧ arg (s 0xFF) 0 0 = 0xFF
      ∧ (∀ m : SlotNo, m < 0 → (s 0xFF).slots[m].state ≠ .free) ∧ (s 0xFF).slots[(0 : SlotNo)].state = .free := by
  unfold settingDue argumentsWhole; decide +kernel

theorem witness_SnapshotWordsStageTheSameSettings :
    (stagedOf stagedTriggered).isSome = true ∧ (stagedOf stagingDefaults).isSome = true
      ∧ (stagedOf #v[0xBC130007#32, 0x03C00000#32, 0x3FC00000#32, 0x80010FFF#32]).isSome = true := by
  decide +kernel

theorem witness_ModifyReplacesTheSettings :
    let s (k : Kind) (x : State) := dueAt (staged (x.setSlot 5 (slot0 k .running)) stagedTriggered) 0 .modify [5]
    let m := s .triggered opened
    settingDue 0 .modify m ∧ m.isOpen 0 = true ∧ (arg m 0 0).toNat = (5 : SlotNo).val
      ∧ m.slots[(5 : SlotNo)].owner = some 0 ∧ m.slots[(5 : SlotNo)].state = .running
      ∧ ((stagedOf stagedTriggered).map (·.settings.kind)) = some .triggered
      ∧ ((stagedOf stagedTriggered).map (·.settings.channel)) = some 3
      ∧ m.slots[(5 : SlotNo)].settings.kind = .triggered ∧ m.oddPartner 3 = false
      ∧ (s .listen opened).slots[(5 : SlotNo)].settings.kind = .listen
      ∧ (s .triggered pairedTwo).oddPartner 3 = true ∧ stagedOf #v[0, 19, 0, 0xFFF] = none := by
  unfold settingDue argumentsWhole; decide +kernel

theorem witness_StopStopsTheSlot :
    let s (x : SlotState) := dueAt (withSlot .burst x) 0 .stop [5]
    settingDue 0 .stop (s .running) ∧ (s .running).isOpen 0 = true ∧ (arg (s .running) 0 0).toNat = (5 : SlotNo).val
      ∧ (s .running).slots[(5 : SlotNo)].owner = some 0 ∧ (s .running).slots[(5 : SlotNo)].state = .running
      ∧ settingDue 0 .stop (s .stopped) ∧ (s .stopped).slots[(5 : SlotNo)].state = .stopped := by
  unfold settingDue argumentsWhole; decide +kernel

theorem witness_RunRunsTheSlot :
    let s (k : Kind) (x : SlotState) := dueAt (withSlot k x) 0 .run [5]
    settingDue 0 .run (s .periodic .stopped) ∧ (s .periodic .stopped).isOpen 0 = true
      ∧ (arg (s .periodic .stopped) 0 0).toNat = (5 : SlotNo).val
      ∧ (s .periodic .stopped).slots[(5 : SlotNo)].owner = some 0
      ∧ (s .periodic .stopped).slots[(5 : SlotNo)].state = .stopped
      ∧ (s .periodic .stopped).slots[(5 : SlotNo)].settings.kind ≠ .burst
      ∧ (s .periodic .running).slots[(5 : SlotNo)].state = .running
      ∧ (s .burst .stopped).slots[(5 : SlotNo)].settings.kind = .burst := by
  unfold settingDue argumentsWhole; decide +kernel

theorem witness_StartBurstStartsABurst :
    let s (k : Kind) (x : SlotState) := dueAt (withSlot k x) 0 .startBurst [5]
    let w := (s .burst .stopped).setRequests [entry0 (.demand 1) .demand]
    settingDue 0 .startBurst (s .burst .stopped) ∧ (s .burst .stopped).isOpen 0 = true
      ∧ (arg (s .burst .stopped) 0 0).toNat = (5 : SlotNo).val ∧ (s .burst .stopped).slots[(5 : SlotNo)].owner = some 0
      ∧ (s .burst .stopped).slots[(5 : SlotNo)].settings.kind = .burst
      ∧ (s .burst .stopped).slots[(5 : SlotNo)].state = .stopped ∧ (s .burst .stopped).conv.phase = .idle
      ∧ (s .burst .stopped).requests = [] ∧ w.requests ≠ [] ∧ (s .burst .running).slots[(5 : SlotNo)].state = .running
      ∧ (s .listen .stopped).slots[(5 : SlotNo)].settings.kind ≠ .burst := by
  unfold settingDue argumentsWhole; decide +kernel

theorem witness_DeleteFreesTheSlot :
    let s := dueAt (finishing .burst) 0 .delete [5]
    settingDue 0 .delete s ∧ s.isOpen 0 = true ∧ (arg s 0 0).toNat = (5 : SlotNo).val
      ∧ s.slots[(5 : SlotNo)].owner = some 0 ∧ s.slots[(5 : SlotNo)].state = .running := by
  unfold settingDue argumentsWhole; decide +kernel

theorem witness_FetchFillsTheReadBuffer :
    let s := dueAt (withSlot .listen .retiring) 0 .fetch [5]
    settingDue 0 .fetch s ∧ s.isOpen 0 = true ∧ (arg s 0 0).toNat = (5 : SlotNo).val
      ∧ s.slots[(5 : SlotNo)].owner = some 0 ∧ s.slots[(5 : SlotNo)].state ≠ .free := by
  unfold settingDue argumentsWhole; decide +kernel

theorem witness_ClaimAndReleaseSetTheHolder :
    let s (c : Command) (a : Byte) := dueAt pairedTwo 0 c [a]
    let o := dueAt (opened.setChannel 15 { ChannelConfig.atReset with holder := some 1 }) 0 .claim [15]
    settingDue 0 .claim (s .claim 16) ∧ (s .claim 16).isOpen 0 = true ∧ 15 < (arg (s .claim 16) 0 0).toNat
      ∧ (arg (s .claim 3) 0 0).toNat = (3 : Fin 16).val ∧ (s .claim 3).oddPartner (externalChannel 3) = true
      ∧ (arg o 0 0).toNat = (15 : Fin 16).val ∧ o.channels[(15 : Fin 16)].holder = some 1
      ∧ (s .claim 15).oddPartner (externalChannel 15) = false ∧ (s .claim 15).channels[(15 : Fin 16)].holder = none
      ∧ (s .claim 2).oddPartner (externalChannel 2) = false ∧ (s .claim 2).channels[(2 : Fin 16)].holder = some 0
      ∧ settingDue 0 .release (s .release 15) ∧ (s .release 15).channels[(15 : Fin 16)].holder ≠ some 0
      ∧ (s .release 2).channels[(2 : Fin 16)].holder = some 0 := by
  unfold settingDue argumentsWhole; decide +kernel

theorem witness_ConfigureRefusals_argument :
    let s (a b : Byte) := dueAt claimed 0 .configure [a, b]
    let odd := dueAt (opened.setChannel 15 { ChannelConfig.atReset with holder := some 0 }) 0 .configure [15, 0x80]
    settingDue 0 .configure (s 16 0) ∧ (s 16 0).isOpen 0 = true ∧ 15 < (arg (s 16 0) 0 0).toNat
      ∧ (arg (s 2 4) 0 1).extractLsb' 2 4 ≠ 0#4 ∧ (arg (s 15 0) 0 0).toNat = (15 : Fin 16).val
      ∧ configOfByte (arg (s 15 0) 0 1) = some (.single, .full, 0)
      ∧ (s 15 0).channels[(15 : Fin 16)].holder ≠ some 0 ∧ odd.channels[(15 : Fin 16)].holder = some 0
      ∧ configOfByte (arg odd 0 1) = some (.paired, .full, 0) ∧ (15 : Fin 16).val % 2 = 1
      ∧ (s 2 0).channels[(2 : Fin 16)].holder = some 0 ∧ (s 2 0).channels[(2 : Fin 16)].mode = .single
      ∧ (s 2 0).channels[(2 : Fin 16)].span = .full ∧ (s 2 0).channels[(2 : Fin 16)].extraSettle = 0
      ∧ configOfByte (arg (s 2 0) 0 1) = some (.single, .full, 0) := by
  unfold settingDue argumentsWhole; decide +kernel

theorem witness_ConfigureRefusals_partner :
    let s := dueAt (claimed.setSlot 5 (slot0 .listen .running)) 0 .configure [2, 0x80]
    let h := dueAt (claimed.setChannel 3 { ChannelConfig.atReset with holder := some 1 }) 0 .configure [2, 0x80]
    settingDue 0 .configure s ∧ configOfByte (arg s 0 1) = some (.paired, .full, 0)
      ∧ s.channels[(2 : Fin 16)].holder = some 0 ∧ (2 : Fin 16).val % 2 = 0 ∧ (3 : Fin 16).val = (2 : Fin 16).val + 1
      ∧ s.slots[(5 : SlotNo)].state ≠ .free ∧ s.slots[(5 : SlotNo)].settings.channel.val = (3 : Fin 16).val
      ∧ settingDue 0 .configure h ∧ (1 : Port) ≠ 0 ∧ h.channels[(3 : Fin 16)].holder = some 1 := by
  unfold settingDue argumentsWhole; decide +kernel

theorem witness_ConfigureChangesTheChannel :
    let x := claimed.setChannel 3 { ChannelConfig.atReset with holder := some 0 }
    let s := dueAt x 0 .configure [2, 0xC3]
    settingDue 0 .configure s ∧ s.isOpen 0 = true ∧ (arg s 0 0).toNat = (2 : Fin 16).val
      ∧ configOfByte (arg s 0 1) = some (.paired, .half, 3) ∧ s.channels[(2 : Fin 16)].holder = some 0
      ∧ ¬ (s.channels[(2 : Fin 16)].mode = .paired ∧ s.channels[(2 : Fin 16)].span = .half
        ∧ s.channels[(2 : Fin 16)].extraSettle = 3)
      ∧ (Mode.paired = .paired → (2 : Fin 16).val % 2 = 0 ∧ ∀ d : Fin 16, d.val = (2 : Fin 16).val + 1 →
        (∀ n : SlotNo, s.slots[n].state ≠ .free → s.slots[n].settings.channel.val ≠ d.val)
          ∧ (s.channels[d].holder = none ∨ s.channels[d].holder = some 0)) := by
  unfold settingDue argumentsWhole; decide +kernel

theorem witness_ReleaseQueueClearsTheHold :
    let s := dueAt opened 0 .releaseQueue []
    settingDue 0 .releaseQueue s ∧ s.isOpen 0 = true ∧ s.queues[(0 : Port)] = some queue0 := by
  unfold settingDue argumentsWhole; decide +kernel

theorem witness_ReadNowAddsADemand :
    let s (x : State) (a b c : Byte) := dueAt x 0 .readNow [a, b, c]
    let o := opened.setSession 0 { opened.sessions[(0 : Port)] with demandOutstanding := true }
    let q := opened.setRequests [entry0 (.slot 5) .routine]
    settingDue 0 .readNow (s opened 19 3 4) ∧ opened.isOpen 0 = true ∧ 19 < (arg (s opened 20 3 4) 0 0).toNat
      ∧ 3 < (arg (s opened 19 4 4) 0 1).toNat ∧ 4 < (arg (s opened 19 3 5) 0 2).toNat
      ∧ (arg (s opened 19 3 4) 0 0).toNat = (19 : Channel).val ∧ (arg (s opened 19 3 4) 0 1).toNat ≤ 3
      ∧ (arg (s opened 19 3 4) 0 2).toNat ≤ 4 ∧ (s o 19 3 4).sessions[(0 : Port)].demandOutstanding = true
      ∧ (s opened 19 3 4).sessions[(0 : Port)].demandOutstanding = false
      ∧ (s pairedTwo 3 3 4).oddPartner 3 = true ∧ (s opened 19 3 4).oddPartner 19 = false
      ∧ (s opened 19 3 4).conv.phase = .idle ∧ (s opened 19 3 4).requests = [] ∧ (s q 19 3 4).requests ≠ [] := by
  unfold settingDue argumentsWhole; decide +kernel

theorem witness_ShiftedRecordsAreRemoved_samples :
    let s := streamed .takeSamples twoSamples
    let m := editFrame s 0 fun f => { f with removed := 1 }
    s.ports[(0 : Port)].sck = .low ∧ s.ports[(0 : Port)].frame.state = .reply
      ∧ s.ports[(0 : Port)].frame.command = some .takeSamples
      ∧ s.queues[(0 : Port)] = some { queue0 with records := [record0, record0], shifting := true }
      ∧ lastByteDue 0 s ∧ lastByteDue 0 m
      ∧ s.ports[(0 : Port)].frame.removed + 1 < (arg s 0 0).toNat
      ∧ (arg m 0 0).toNat ≤ m.ports[(0 : Port)].frame.removed + 1 := by
  unfold lastByteDue; decide +kernel

theorem witness_ShiftedRecordsAreRemoved_events :
    let s := streamed .takeEvents twoEvents
    let o := streamed .takeEvents lateOverflow
    s.ports[(0 : Port)].sck = .low ∧ s.ports[(0 : Port)].frame.state = .reply
      ∧ s.ports[(0 : Port)].frame.command = some .takeEvents ∧ s.events[(0 : Port)].shifting = true
      ∧ s.events[(0 : Port)].records = event0 .watchHit :: [event0 .burstDone] ∧ lastByteDue 0 s
      ∧ s.ports[(0 : Port)].frame.removed + 1 < (arg s 0 0).toNat ∧ lastByteDue 0 o
      ∧ o.events[(0 : Port)].records = event0 .overflow :: [] ∧ 0 < o.events[(0 : Port)].lateLoss := by
  unfold lastByteDue; decide +kernel

theorem witness_StreamingFrameEndReportsTheStream :
    let s := streamed .takeSamples twoSamples
    let e := streamed .takeEvents lateOverflow
    let v := streamed .takeEvents twoEvents
    let r := frameAt opened 0 .reply .readTime [] 2
    let n := editFrame (frameAt opened 0 .spill .readChannel [20] 8) 0 fun f => { f with taken := .refused .badArg }
    s.ports[(0 : Port)].nsel = .low ∧ s.ports[(0 : Port)].frame.state = .reply
      ∧ s.ports[(0 : Port)].frame.startUp = false ∧ s.ports[(0 : Port)].frame.command = some .takeSamples
      ∧ Command.takeSamples.kind = .streaming
      ∧ s.ports[(0 : Port)].frame.args.length = Command.takeSamples.argCount
      ∧ s.ports[(0 : Port)].frame.taken = .accepted
      ∧ e.events[(0 : Port)].shifting = true ∧ (event0 .overflow).kind = .overflow
      ∧ v.events[(0 : Port)].records = event0 .watchHit :: [event0 .burstDone]
      ∧ r.ports[(0 : Port)].frame.taken = .no ∧ r.ports[(0 : Port)].frame.args.length = Command.readTime.argCount
      ∧ n.ports[(0 : Port)].frame.taken = .refused .badArg ∧ n.ports[(0 : Port)].frame.state = .spill
      ∧ n.ports[(0 : Port)].frame.args.length = Command.readChannel.argCount := by
  decide +kernel

theorem witness_OfferedRecordsMeetHoldSpaceAndPolicy :
    let full (x : DropPolicy) (m : Bool) : SampleQueue :=
      { queue0 with records := List.replicate 16 record0, policy := x, shifting := m }
    ({ queue0 with hold := true }).hold = true ∧ queue0.hold = false ∧ queue0.records.length < queue0.depth
      ∧ (full .dropNewest false).depth ≤ (full .dropNewest false).records.length
      ∧ (full .dropOldest false).records = record0 :: record0 :: List.replicate 14 record0
      ∧ (full .dropOldest true).records = record0 :: record0 :: record0 :: List.replicate 13 record0 := by
  decide +kernel

theorem witness_WatchSetWritesTheWatch :
    let s (x : State) (i sel act cap : Byte) := dueAt x 0 .watchSet [i, sel, 0, 0, act, cap]
    let b := withSlot .burst .stopped
    settingDue 0 .watchSet (s b 7 5 1 5) ∧ b.isOpen 0 = true ∧ 7 < (arg (s b 8 5 1 5) 0 0).toNat
      ∧ watchBlock 32 0 0 0 0 = none ∧ watchBlock 5 0 0 3 0 = none ∧ watchBlock 5 0 1 0 0 = none
      ∧ watchBlock 5 0 0 4 0 = none
      ∧ watchBlock 31 0x1B 0x90 0x82 9
        = some ⟨.slot 31, ⟨.any, .clear, .set, .never, .set, .clear⟩, .repeating, .hold, 9⟩
      ∧ (arg (s b 7 5 1 5) 0 0).toNat = (7 : Fin 8).val
      ∧ ((watchBlock 5 0 0 1 5).map (·.selector)) = some (.slot 5) ∧ b.slots[(5 : SlotNo)].owner = some 0
      ∧ b.slots[(5 : SlotNo)].state = .stopped ∧ b.slots[(6 : SlotNo)].owner ≠ some 0
      ∧ ((watchBlock 5 0 0 1 5).map (·.action)) = some .capture ∧ b.slots[(5 : SlotNo)].settings.kind = .burst
      ∧ (withSlot .listen .stopped).slots[(5 : SlotNo)].settings.kind ≠ .burst
      ∧ ((watchBlock 0xFF 0 0 0 0).map (·.action)) = some .notify := by
  unfold settingDue argumentsWhole; decide +kernel

theorem witness_WatchArmDisarmAndClear :
    let s (i : Byte) := dueAt (watched .spent .once .notify) 0 .watchArm [i]
    settingOf (.watchArm 0) = some (0, .watchArm) ∧ settingDue 0 .watchArm (s 7) ∧ (s 7).isOpen 0 = true
      ∧ 7 < (arg (s 8) 0 0).toNat ∧ (arg (s 7) 0 0).toNat = (7 : Fin 8).val
      ∧ (s 7).watches[(0 : Port)][(7 : Fin 8)].state ≠ .empty ∧ (s 6).watches[(0 : Port)][(6 : Fin 8)].state = .empty := by
  unfold settingDue argumentsWhole; decide +kernel

theorem witness_WatchMatchIsCarriedOut :
    let s (a : WatchAction) (k : Kind) (x : SlotState) := (watched .armed .once a).setSlot 5 (slot0 k x)
    let action (t : State) := t.watches[(0 : Port)][(7 : Fin 8)].action
    opened.isOpen 0 = true ∧ action (s .notify .listen .running) = .notify ∧ action (s .hold .listen .running) = .hold
      ∧ (s .hold .listen .running).queues[(0 : Port)] = some queue0 ∧ action (s .capture .burst .stopped) = .capture
      ∧ (s .capture .burst .stopped).watches[(0 : Port)][(7 : Fin 8)].captureSlot = 5
      ∧ (s .capture .burst .stopped).slots[(5 : SlotNo)] = slot0 .burst .stopped
      ∧ (s .capture .burst .running).slots[(5 : SlotNo)].state = .running
      ∧ (s .capture .listen .running).slots[(5 : SlotNo)].settings.kind ≠ .burst := by
  decide +kernel

theorem witness_OfferedEventsMeetOverflow :
    let q (n : Nat) : EventQueue := { EventQueue.empty with records := List.replicate n (event0 .watchHit) }
    (∀ x ∈ (q 14).records, x.kind ≠ .overflow) ∧ (q 14).records.length < 15
      ∧ (∀ x ∈ (q 15).records, x.kind ≠ .overflow) ∧ 15 ≤ (q 15).records.length
      ∧ (event0 .overflow).kind = .overflow ∧ lateOverflow.events[(0 : Port)].records = event0 .overflow :: []
      ∧ lateOverflow.events[(0 : Port)].shifting = true := by
  decide +kernel

theorem witness_PeriodTimerExpiryMakesARequest :
    let s := (withSlot .periodic .running).setSlot 5 { slot0 .periodic .running with nextDue := 100 }
    let o := s.setSlot 5 { slot0 .periodic .running with nextDue := 100, pendingFlag := true }
    let w := s.setRequests [entry0 (.demand 0) .demand]
    s.slots[(5 : SlotNo)].state = .running ∧ s.slots[(5 : SlotNo)].settings.kind = .periodic
      ∧ (s.now - s.slots[(5 : SlotNo)].nextDue).toNat < 2147483648 ∧ s.slots[(5 : SlotNo)].pendingFlag = false
      ∧ s.conv.phase = .idle ∧ s.requests = [] ∧ w.requests ≠ [] ∧ o.slots[(5 : SlotNo)].pendingFlag = true := by
  decide +kernel

theorem witness_TriggerEdgeCountsAndPreempts :
    let s (k : Nat) := inPhase edgeWaiting .settle { flight0 [] with preemptCount := k }
    let x := slot0 .triggered .running
    let full := edgeWaiting.setSlot 5 { x with pendingFlag := true }
    let early := edgeWaiting.setSlot 5 { x with settings := { x.settings with dividerCode := 1 } }
    (edgeWaiting.timebase.edges.find? fun x => decide (x.line = .a)) = some ⟨.a, .rise, 99⟩
      ∧ edgeWaiting.slots[(5 : SlotNo)] = x ∧ x.state = .running ∧ x.settings.kind = .triggered
      ∧ x.settings.line = .a ∧ x.settings.edge = .rise ∧ x.edgeCount = x.settings.dividerCode.toNat
      ∧ x.pendingFlag = false ∧ full.slots[(5 : SlotNo)].pendingFlag = true
      ∧ early.slots[(5 : SlotNo)].edgeCount ≠ early.slots[(5 : SlotNo)].settings.dividerCode.toNat
      ∧ edgeWaiting.conv.phase = .idle ∧ (s 2).conv.record = some { flight0 [] with preemptCount := 2 }
      ∧ (s 2).conv.phase = .settle ∧ (flight0 []).cls ≠ .triggered
      ∧ (s 3).conv.record = some { flight0 [] with preemptCount := 3 } := by
  decide +kernel

theorem witness_ConverterPhasesRun :
    let s (x : Phase) := inPhase opened x (flight0 [])
    phaseAtEnd (s .settle) ∧ phaseAtEnd (s .sample) ∧ phaseAtEnd (s .convert) ∧ ¬ phaseAtEnd (oneShort (s .convert))
      ∧ (s .settle).conv.phase = .settle ∧ (s .settle).conv.record = some (flight0 []) ∧ (s .sample).conv.phase = .sample
      ∧ (s .convert).conv.phase = .convert ∧ (flight0 []).repeatsDone < 2 ^ (flight0 []).avgCode.toNat := by
  unfold phaseAtEnd; decide +kernel

theorem witness_RecoverEndSelectsTheWinner :
    let s := recovered
    let w := s.setRequests [entry0 (.slot 5) .routine]
    let i := w.setConv { s.conv with identity := some (3, 0) }
    phaseAtEnd s ∧ s.conv.phase = .recover ∧ s.requests = [] ∧ w.requests ≠ [] ∧ i.conv.phase = .recover
      ∧ i.conv.identity = some (3, (i.channelView 3).generation)
      ∧ w.conv.identity ≠ some (3, (w.channelView 3).generation) := by
  unfold phaseAtEnd; decide +kernel

theorem witness_CompletionUpdatesTheLatestSample :
    let r : InFlight := { flight0 [⟨sub0 (.slot 5) .routine, false⟩] with repeatsDone := 1, runningSum := 2048 }
    completionDue (finishing .listen) r ∧ r.startTick = some 60 := by
  unfold completionDue phaseAtEnd; decide +kernel

theorem witness_CompletionServesTheSlots :
    let r : InFlight := { flight0 [⟨sub0 (.slot 5) .routine, false⟩] with repeatsDone := 1, runningSum := 2048 }
    let f := finishing .periodic
    let g := f.setSlot 5 { slot0 .periodic .retiring with inFlightFlag := true }
    let l := f.setSlot 6 (slot0 .listen .running)
    completionDue f r ∧ isServed f r 5 ∧ f.slots[(5 : SlotNo)].settings.kind ≠ .burst ∧ isServed l r 6
      ∧ ¬ isServed f r 6 ∧ f.slots[(6 : SlotNo)].state ≠ .retiring
      ∧ completionDue g r ∧ ¬ isServed g r 5 ∧ g.slots[(5 : SlotNo)].state = .retiring
      ∧ (∃ x ∈ r.subs, x.sub.origin = .slot 5) ∧ (∀ e ∈ g.requests, ∀ y ∈ e.subs, y.origin ≠ .slot 5) := by
  unfold completionDue phaseAtEnd isServed; decide +kernel

theorem witness_CompletionOfOneSlotDeliversItsRecord_parts :
    let r : InFlight := { flight0 [⟨sub0 (.slot 5) .routine, false⟩] with repeatsDone := 1, runningSum := 2048 }
    let y (k : Nat) (w : Bool) : Slot := { slot0 .burst .running with burstRemaining := k, pendingFlag := w }
    let d : FlightEntry := ⟨sub0 (.demand 0) .demand, false⟩
    completionDue busy r ∧ r.startTick = some 60 ∧ busy.requests ≠ [] ∧ (finishing .burst).requests = []
      ∧ (finishing .burst).slots[(5 : SlotNo)].owner = some 0 ∧ (slot0 .listen .running).settings.kind ≠ .burst
      ∧ (y 2 true).settings.kind = .burst ∧ (y 2 true).state = .running ∧ 1 < (y 2 true).burstRemaining
      ∧ (y 2 true).pendingFlag = true ∧ (y 2 false).pendingFlag = false ∧ (y 1 true).burstRemaining = 1
      ∧ d.marked = false ∧ d.sub.origin = .demand 0 := by
  unfold completionDue phaseAtEnd; decide +kernel

theorem witness_CompletionOfOneSlotDeliversItsRecord :
    let r : InFlight := { flight0 [⟨sub0 (.slot 5) .routine, false⟩] with repeatsDone := 1, runningSum := 2048 }
    let s := finishing .burst
    let d := s.setSlot 5 { slot0 .burst .running with settings := { settings0 .burst with decimationCode := 1 } }
    completionDue s r ∧ r.startTick = some 60 ∧ r.subs = [⟨sub0 (.slot 5) .routine, false⟩]
      ∧ s.slots[(5 : SlotNo)].state = .running ∧ s.slots[(5 : SlotNo)].owner = some 0
      ∧ s.slots[(5 : SlotNo)].settings.kind ≠ .listen ∧ s.queues[(0 : Port)] = some queue0
      ∧ (∀ m : SlotNo, s.slots[m].state = .running → s.slots[m].settings.kind = .listen →
        s.slots[m].settings.channel ≠ r.channel)
      ∧ (∀ w : Fin 8, s.watches[(0 : Port)][w].state ≠ .armed)
      ∧ s.slots[(5 : SlotNo)].decimationCount + 1 = s.slots[(5 : SlotNo)].settings.decimationCode.toNat + 1
      ∧ s.slots[(5 : SlotNo)].burstRemaining = 1 ∧ s.isOpen 0 = true
      ∧ d.slots[(5 : SlotNo)].decimationCount + 1 ≠ d.slots[(5 : SlotNo)].settings.decimationCode.toNat + 1 := by
  unfold completionDue phaseAtEnd; decide +kernel

end Sys2Proof.Machine.Tests
end

