-- ==== Sys2Proof/Proofs/Install.lean ====
section
/-! PROOF. INSTALL: the slot it takes (R13) and what it makes of that slot (R14). -/

namespace Sys2Proof.Machine

/-! ### What the rise of nSELp leaves of what the slot commands read -/

@[simp] theorem raiseSelect_staging (s : State) (p : Port) :
    (raiseSelect s p).ports[p].staging = s.ports[p].staging := by rw [raiseSelect_port]

@[simp] theorem raiseSelect_oddPartner (s : State) (p : Port) (c : Channel) :
    (raiseSelect s p).oddPartner c = s.oddPartner c := rfl

@[simp] theorem raiseSelect_ownedCount (s : State) (p q : Port) :
    ownedCount (raiseSelect s p) q = ownedCount s q := rfl

/-- The rise, the result register and the lease leave the slots as the act left them. -/
@[simp] theorem riseEffect_slots (p : Port) (act : List Byte → State → Done) (f : Frame) (s : State) :
    (riseEffect p act f s).slots = (act f.args s).1.slots := by simp [riseEffect]

/-- A slot command that is due in an OPEN session, succeeds and writes only its slot n is accepted with n as its detail
(R11), and slot n then holds what was written. -/
theorem takeSetting_writesSlot {p : Port} {c : Command} {s : State} {act : List Byte → State → Done} {n : SlotNo}
    {y : Slot} (due : settingDue p c s) (kind : c.kind = .setting) (isOpen : s.isOpen p = true)
    (acts : act s.ports[p].frame.args (raiseSelect s p) = okSlot ((raiseSelect s p).setSlot n y) n) :
    ∃ t, takeSetting p c (fun args => withSession p (act args)) s = .next t
      ∧ accepted p (BitVec.ofNat 8 n.val) [.slot n] s t ∧ t.slots[n] = y := by
  have effect : withSession p (act s.ports[p].frame.args) (raiseSelect s p)
      = okSlot ((raiseSelect s p).setSlot n y) n := by
    rw [withSession_open (by rwa [raiseSelect_isOpen]), acts]
  refine ⟨_, takeSetting_due due kind _, ?_, ?_⟩
  · exact riseEffect_accepted effect (sameBut_setSlot _ n y) (by simp) (by simp) (.inl (by simp))
  · rw [riseEffect_slots, effect]
    exact getElem_set_same _ _ _

/-! ### The slot that INSTALL takes (R13) -/

@[simp] theorem installArg_any : installArg 0xFF = some .any := rfl

/-- A byte that is the number of a slot names that slot: it is not FFh. -/
theorem installArg_number {b : Byte} {n : SlotNo} (h : b.toNat = n.val) : installArg b = some (.number n) := by
  have notAny : b ≠ 0xFF := by
    rintro rfl
    exact absurd n.isLt (by rw [← h]; decide)
  rw [installArg, if_neg notAny]
  simp [slotOfByte, h]

/-- The lowest FREE slot is the one below which no slot is FREE. -/
theorem lowestFree_eq_some {s : State} {n : SlotNo} (free : s.slots[n].state = .free)
    (below : ∀ m : SlotNo, m < n → s.slots[m].state ≠ .free) : lowestFree s = some n := by
  refine List.find?_eq_some_iff_getElem.mpr ⟨decide_eq_true free, n.val, by simp, by simp, fun j hj => ?_⟩
  have h := below ⟨j, hj.trans n.isLt⟩ hj
  simpa [State.isFree] using h

theorem installTarget_number {s : State} {n : SlotNo} (free : s.slots[n].state = .free) :
    installTarget s (.number n) = .ok n := by
  simp only [installTarget, free]

theorem installTarget_any {s : State} {n : SlotNo} (lowest : lowestFree s = some n) :
    installTarget s .any = .ok n := by
  simp only [installTarget, lowest]

/-- The argument byte names the FREE slot n, or it is ANY and n is the lowest FREE slot: then INSTALL takes n. -/
theorem installArg_takes {s : State} {b : Byte} {n : SlotNo} (free : s.slots[n].state = .free)
    (named : b.toNat = n.val ∨ (b = 0xFF ∧ ∀ m : SlotNo, m < n → s.slots[m].state ≠ .free)) :
    ∃ a, installArg b = some a ∧ installTarget s a = .ok n := by
  rcases named with number | ⟨rfl, below⟩
  · exact ⟨.number n, installArg_number number, installTarget_number free⟩
  · exact ⟨.any, installArg_any, installTarget_any (lowestFree_eq_some free below)⟩

/-! ### What INSTALL makes of it (R14) -/

/-- INSTALL whose checks have all passed (R12). -/
theorem install_ok {p : Port} {args : List Byte} {s : State} {x : Staged} {a : SlotArg} {n : SlotNo}
    (named : installArg (argByte args 0) = some a) (stages : stagedOf s.ports[p].staging = some x)
    (unpaired : s.oddPartner x.settings.channel = false) (quota : ownedCount s p < 16)
    (target : installTarget s a = .ok n) :
    install p args s = okSlot (s.setSlot n (installedSlot p s.now x)) n := by
  have inQuota : ¬ Config.slotQuota ≤ ownedCount s p := Nat.not_le.mpr quota
  simp only [install, named, stages, unpaired, inQuota, target, if_false, Bool.false_eq_true]

theorem installState_eq (x : Staged) :
    x.installState = if x.startRunning = true ∧ x.settings.kind ≠ .burst then .running else .stopped := by
  simp [Staged.installState]

/-- A PERIODIC slot is not a BURST slot, so its start setting alone decides whether it runs. -/
theorem installState_running_periodic (x : Staged) :
    (x.installState = .running ∧ x.settings.kind = .periodic)
      ↔ (x.startRunning = true ∧ x.settings.kind = .periodic) := by
  refine and_congr_left fun periodic => ?_
  cases start : x.startRunning <;> simp [installState_eq, start, periodic]

/-- Settles O33: the slot that the argument takes (R13) is written whole (R14), and nothing else is touched. -/
theorem installSetsUpTheSlot : Obligations.InstallSetsUpTheSlot := by
  intro p s x n due isOpen stages unpaired quota free named
  obtain ⟨a, isArg, target⟩ := installArg_takes (s := raiseSelect s p) free named
  have acts : install p s.ports[p].frame.args (raiseSelect s p)
      = okSlot ((raiseSelect s p).setSlot n (installedSlot p s.now x)) n :=
    install_ok isArg (by rwa [raiseSelect_staging]) unpaired quota target
  obtain ⟨t, taken, acc, slot⟩ := takeSetting_writesSlot due rfl isOpen acts
  refine ⟨t, taken, acc, slot.trans ?_⟩
  simp only [installedSlot, Slot.free, installState_running_periodic]
  rw [installState_eq]

end Sys2Proof.Machine
end

