-- ==== Sys2Proof/Proofs/Claims.lean ====
section
/-! PROOF. CLAIM and RELEASE: the checks they share (R76), and the holder they set (R77, R78). -/

namespace Sys2Proof.Machine

/-! ### The channel that the argument byte names (R76) -/

/-- A byte above 15 names no external channel. -/
theorem externalOfByte_none {b : Byte} (above : 15 < b.toNat) : externalOfByte b = none := by
  rw [externalOfByte, dif_neg (by omega)]

theorem externalOfByte_some {b : Byte} {c : Fin 16} (named : b.toNat = c.val) : externalOfByte b = some c := by
  simp [externalOfByte, named]

/-- The detail byte of a command that succeeds on the channel it names is its argument byte. -/
theorem ofNat_named {b : Byte} {c : Fin 16} (named : b.toNat = c.val) : BitVec.ofNat 8 c.val = b := by
  rw [← named, BitVec.ofNat_toNat, BitVec.setWidth_eq]

theorem onExternal_badArg {p : Port} {args : List Byte} {act : Fin 16 → State → Done} {s : State}
    (isOpen : s.isOpen p = true) (above : 15 < (argByte args 0).toNat) :
    onExternal p args act s = refuseWith s .badArg := by
  rw [onExternal, withSession_open isOpen, externalOfByte_none above]

theorem onExternal_acts {p : Port} {args : List Byte} {act : Fin 16 → State → Done} {s : State} {c : Fin 16}
    (isOpen : s.isOpen p = true) (named : (argByte args 0).toNat = c.val) :
    onExternal p args act s = act c s := by
  rw [onExternal, withSession_open isOpen, externalOfByte_some named]

/-! ### A command on an external channel, from its frame to its result (R76, R178) -/

/-- The rise, the result register and the lease leave the channel records as the act left them. -/
@[simp] theorem riseEffect_channels (p : Port) (act : List Byte → State → Done) (f : Frame) (s : State) :
    (riseEffect p act f s).channels = (act f.args s).1.channels := by simp [riseEffect]

/-- What a command on an external channel comes to, when it is due in an OPEN session: BAD_ARG for a byte above 15, and
for channel c the refusal that its act answers, or the record y that its act writes. -/
theorem takeSetting_onExternal {p : Port} {k : Command} {s : State} {act : Fin 16 → State → Done}
    (due : settingDue p k s) (kind : k.kind = .setting) (isOpen : s.isOpen p = true) :
    ∃ t, takeSetting p k (fun args => onExternal p args act) s = .next t
      ∧ (15 < (arg s p 0).toNat → refusedWith p .badArg s t)
      ∧ ∀ c : Fin 16, (arg s p 0).toNat = c.val →
        (∀ code, act c (raiseSelect s p) = refuseWith (raiseSelect s p) code → refusedWith p code s t)
        ∧ ∀ y, act c (raiseSelect s p) = ((raiseSelect s p).setChannel c y, ⟨.ok, BitVec.ofNat 8 c.val⟩) →
          accepted p (arg s p 0) [.channel c] s t ∧ t.channels[c] = y := by
  have stillOpen : (raiseSelect s p).isOpen p = true := by rwa [raiseSelect_isOpen]
  refine ⟨_, takeSetting_due due kind _, fun above => ?badArg, fun c named => ⟨fun code refuses => ?refused,
    fun y writes => ?accepted⟩⟩
  case badArg => exact riseEffect_refused (onExternal_badArg stillOpen above)
  case refused => exact riseEffect_refused ((onExternal_acts stillOpen named).trans refuses)
  case accepted =>
    have effect := (onExternal_acts (act := act) stillOpen named).trans writes
    rw [ofNat_named named] at effect
    refine ⟨riseEffect_accepted effect (sameBut_setChannel _ c y) (by simp) (by simp) (.inl (by simp)), ?_⟩
    rw [riseEffect_channels, effect]
    exact getElem_set_same _ _ _

/-! ### What CLAIM answers (R77) -/

theorem claim_partner {p : Port} {c : Fin 16} {s : State} (partner : s.oddPartner (externalChannel c) = true) :
    claim p c s = refuseWith s .inUse := by
  simp only [claim, partner, if_true]

theorem claim_held {p q : Port} {c : Fin 16} {s : State} (held : s.channels[c].holder = some q) (other : q ≠ p) :
    claim p c s = refuseWith s .inUse := by
  have taken : s.channels[c].holder ≠ none ∧ s.channels[c].holder ≠ some p := by simp [held, other, -Fin.getElem_fin]
  simp only [claim, if_pos taken, ite_self]

theorem claim_takes {p : Port} {c : Fin 16} {s : State} (single : s.oddPartner (externalChannel c) = false)
    (unheld : s.channels[c].holder = none ∨ s.channels[c].holder = some p) :
    claim p c s = (s.setChannel c { s.channels[c] with holder := some p }, ⟨.ok, BitVec.ofNat 8 c.val⟩) := by
  have notTaken : ¬ (s.channels[c].holder ≠ none ∧ s.channels[c].holder ≠ some p) := by tauto
  simp only [claim, single, Bool.false_eq_true, if_false, if_neg notTaken]

/-! ### What RELEASE answers (R78) -/

theorem release_notHeld {p : Port} {c : Fin 16} {s : State} (notHeld : s.channels[c].holder ≠ some p) :
    release p c s = refuseWith s .notOwner := by
  simp only [release, if_pos notHeld]

theorem release_held {p : Port} {c : Fin 16} {s : State} (held : s.channels[c].holder = some p) :
    release p c s = (s.setChannel c { s.channels[c] with holder := none }, ⟨.ok, BitVec.ofNat 8 c.val⟩) := by
  simp only [release, if_neg (not_not_intro held)]

/-- Settles O41: both commands share the checks of R76, and each answer of `claim` (R77) and of `release` (R78) is one
clause. -/
theorem claimAndReleaseSetTheHolder : Obligations.ClaimAndReleaseSetTheHolder := by
  refine ⟨fun p s due isOpen => ?claims, fun p s due isOpen => ?releases⟩
  case claims =>
    obtain ⟨t, taken, badArg, onChannel⟩ := takeSetting_onExternal (act := claim p) due rfl isOpen
    refine ⟨t, taken, badArg, fun c named => ?_⟩
    obtain ⟨refused, written⟩ := onChannel c named
    exact ⟨fun partner => refused _ (claim_partner partner), fun q held other => refused _ (claim_held held other),
      fun single unheld => written _ (claim_takes single unheld)⟩
  case releases =>
    obtain ⟨t, taken, badArg, onChannel⟩ := takeSetting_onExternal (act := release p) due rfl isOpen
    refine ⟨t, taken, badArg, fun c named => ?_⟩
    obtain ⟨refused, written⟩ := onChannel c named
    exact ⟨fun notHeld => refused _ (release_notHeld notHeld), fun held => written _ (release_held held)⟩

end Sys2Proof.Machine
end

