-- ==== Sys2Proof/Proofs/Offer.lean ====
section
/-! PROOF. A record offered to a sample queue: what R104 answers at each of its three steps, and the room that DROP_OLDEST makes (R106). -/

namespace Sys2Proof.Machine

/-! ### The three steps of an offer (R104), with DROP_NEWEST (R105) and DROP_OLDEST (R106) -/

theorem SampleQueue.offer_held {q : SampleQueue} {holdable : Bool} (r : SampleRecord)
    (held : q.hold = true) (kind : holdable = true) : q.offer holdable r = q.lose := by
  simp only [SampleQueue.offer, held, kind, Bool.and_self, if_true]

theorem SampleQueue.offer_space {q : SampleQueue} {holdable : Bool} (r : SampleRecord)
    (passes : q.hold = false ∨ holdable = false) (space : q.records.length < q.depth) :
    q.offer holdable r = q.enter r := by
  simp only [SampleQueue.offer, Bool.and_eq_false_iff.mpr passes, Bool.false_eq_true, if_false, if_pos space]

theorem SampleQueue.offer_dropNewest {q : SampleQueue} {holdable : Bool} (r : SampleRecord)
    (passes : q.hold = false ∨ holdable = false) (full : q.depth ≤ q.records.length)
    (policy : q.policy = .dropNewest) : q.offer holdable r = q.lose := by
  simp only [SampleQueue.offer, Bool.and_eq_false_iff.mpr passes, Bool.false_eq_true, if_false,
    if_neg (Nat.not_lt.mpr full), policy]

theorem SampleQueue.offer_dropOldest {q : SampleQueue} {holdable : Bool} (r : SampleRecord)
    (passes : q.hold = false ∨ holdable = false) (full : q.depth ≤ q.records.length)
    (policy : q.policy = .dropOldest) : q.offer holdable r = q.dropVictim.enter r := by
  simp only [SampleQueue.offer, Bool.and_eq_false_iff.mpr passes, Bool.false_eq_true, if_false,
    if_neg (Nat.not_lt.mpr full), policy]

/-! ### The victim of DROP_OLDEST and its follower (R106) -/

/-- Without the shifting mark the oldest record is the victim. -/
theorem SampleQueue.dropVictim_unmarked {q : SampleQueue} {v f : SampleRecord} {rest : List SampleRecord}
    (unmarked : q.shifting = false) (records : q.records = v :: f :: rest) :
    q.dropVictim = { q with records := { f with dropped := hold255 f.dropped (1 + v.dropped) } :: rest } := by
  simp only [SampleQueue.dropVictim, unmarked, records, dropFirst]

/-- The shifting mark saves the oldest record, and the second oldest is the victim. -/
theorem SampleQueue.dropVictim_marked {q : SampleQueue} {h v f : SampleRecord} {rest : List SampleRecord}
    (marked : q.shifting = true) (records : q.records = h :: v :: f :: rest) :
    q.dropVictim = { q with records := h :: { f with dropped := hold255 f.dropped (1 + v.dropped) } :: rest } := by
  simp only [SampleQueue.dropVictim, marked, records, dropFirst]

/-- Settles O48: each clause is one answer of R104, and under DROP_OLDEST the shifting mark picks the victim (R106). -/
theorem offeredRecordsMeetHoldSpaceAndPolicy : Obligations.OfferedRecordsMeetHoldSpaceAndPolicy := by
  intro q holdable r
  refine ⟨SampleQueue.offer_held r, fun passes => ⟨SampleQueue.offer_space r passes,
    SampleQueue.offer_dropNewest r passes, fun v f rest full policy unmarked records => ?unmarked,
    fun h v f rest full policy marked records => ?marked⟩⟩
  case unmarked =>
    rw [SampleQueue.offer_dropOldest r passes full policy, SampleQueue.dropVictim_unmarked unmarked records]
    rfl
  case marked =>
    rw [SampleQueue.offer_dropOldest r passes full policy, SampleQueue.dropVictim_marked marked records]
    rfl

end Sys2Proof.Machine
end

