-- ==== Sys2Proof/Proofs/EventOffer.lean ====
section
/-! PROOF. An event offered to an event queue: what R138 answers while it holds no OVERFLOW record, and what becomes of the OVERFLOW record that it holds, under the shifting mark or not (R138, R140). -/

namespace Sys2Proof.Machine

/-! ### While the queue holds no OVERFLOW record (R138) -/

theorem EventQueue.offer_room {q : EventQueue} (e : EventRecord) (noOverflow : ∀ x ∈ q.records, x.kind ≠ .overflow)
    (room : q.records.length < 15) : q.offer e = { q with records := q.records ++ [e] } := by
  have free : q.records.length < Config.eventDepth - 1 := room
  simp only [EventQueue.offer, hasOverflow_eq_false.mpr noOverflow, Bool.false_eq_true, if_false, if_pos free]

/-- The last place is OVERFLOW's: it takes the offered event's tick and counts that event as its first loss. -/
theorem EventQueue.offer_lastPlace {q : EventQueue} (e : EventRecord)
    (noOverflow : ∀ x ∈ q.records, x.kind ≠ .overflow) (full : 15 ≤ q.records.length) :
    q.offer e = { q with records := q.records ++ [overflowRecord e.tick 1] } := by
  have notFree : ¬ q.records.length < Config.eventDepth - 1 := Nat.not_lt.mpr full
  simp only [EventQueue.offer, hasOverflow_eq_false.mpr noOverflow, Bool.false_eq_true, if_false, if_neg notFree]

/-! ### While it holds one: the loss is counted in the record, or apart as a late loss (R138, R140) -/

theorem hasOverflow_of_mem {q : EventQueue} {o : EventRecord} (mem : o ∈ q.records) (kind : o.kind = .overflow) :
    q.hasOverflow = true :=
  List.any_eq_true.mpr ⟨o, mem, decide_eq_true kind⟩

theorem EventQueue.offer_counted {q : EventQueue} (e : EventRecord) (overflow : q.hasOverflow = true)
    (unmarked : (q.shifting && q.overflowAtHead) = false) :
    q.offer e = { q with records := q.records.map (·.addLost 1) } := by
  simp only [EventQueue.offer, overflow, unmarked, Bool.false_eq_true, if_true, if_false]

theorem EventQueue.offer_late {q : EventQueue} (e : EventRecord) (overflow : q.hasOverflow = true)
    (marked : (q.shifting && q.overflowAtHead) = true) :
    q.offer e = { q with
      lateLoss := hold65535 q.lateLoss 1, lateTick := if q.lateLoss = 0 then e.tick else q.lateTick } := by
  simp only [EventQueue.offer, overflow, marked, if_true]

/-- Only an OVERFLOW record counts losses. -/
theorem EventRecord.addLost_other {x : EventRecord} (k : Nat) (other : x.kind ≠ .overflow) : x.addLost k = x :=
  if_neg other

theorem EventRecord.addLost_overflow {o : EventRecord} (k : Nat) (kind : o.kind = .overflow) :
    o.addLost k = { o with detail := BitVec.ofNat 16 (min 65535 (o.detail.toNat + k)) } :=
  if_pos kind

/-- A loss counted in a queue whose only OVERFLOW record is the newest changes that record alone. -/
theorem map_addLost_newest {front : List EventRecord} {o : EventRecord} (k : Nat)
    (noOverflow : ∀ x ∈ front, x.kind ≠ .overflow) :
    (front ++ [o]).map (·.addLost k) = front ++ [o.addLost k] := by
  have same : front.map (·.addLost k) = front := by
    rw [List.map_congr_left fun x mem => EventRecord.addLost_other k (noOverflow x mem), List.map_id']
  rw [List.map_append, same, List.map_singleton]

/-- An OVERFLOW record that is the newest is at the head only when nothing stands before it. -/
theorem overflowAtHead_newest {q : EventQueue} {front : List EventRecord} {o : EventRecord}
    (records : q.records = front ++ [o]) (noOverflow : ∀ x ∈ front, x.kind ≠ .overflow) (before : front ≠ []) :
    q.overflowAtHead = false := by
  cases front with
  | nil => exact absurd rfl before
  | cons x rest =>
    have other : x.kind ≠ .overflow := noOverflow x List.mem_cons_self
    simp [EventQueue.overflowAtHead, records, other]

/-- Settles O53: the clauses are the four answers of R138, and the last two part on whether the OVERFLOW record is under the
shifting mark (R140). -/
theorem offeredEventsMeetOverflow : Obligations.OfferedEventsMeetOverflow := by
  intro q e
  refine ⟨q.offer_room e, q.offer_lastPlace e, fun front o records noOverflow kind notMarked => ?counted,
    fun o rest records kind marked => ?late⟩
  case counted =>
    have unmarked : (q.shifting && q.overflowAtHead) = false := by
      by_cases before : front = []
      · rw [Bool.eq_false_iff.mpr fun shifting => notMarked ⟨shifting, before⟩, Bool.false_and]
      · rw [overflowAtHead_newest records noOverflow before, Bool.and_false]
    rw [q.offer_counted e (hasOverflow_of_mem (by simp [records]) kind) unmarked, records,
      map_addLost_newest 1 noOverflow, EventRecord.addLost_overflow 1 kind]
  case late =>
    have head : q.overflowAtHead = true := by simp only [EventQueue.overflowAtHead, records, kind, decide_true]
    exact q.offer_late e (hasOverflow_of_mem (by simp [records]) kind) (by rw [marked, head, Bool.and_self])

end Sys2Proof.Machine
end

