-- ==== Sys2Proof/Proofs/WatchMatch.lean ====
section
/-! PROOF. When a watch matches a conversion (R128), and a match carried out: its hit, its action and its mode (R129 to R133). -/

namespace Sys2Proof.Machine

/-! ### When a watch matches (R128) -/

theorem Selector.covers_iff (x : Selector) (n : SlotNo) : x.covers n = true ↔ x = .anyOwn ∨ x = .slot n := by
  cases x <;> simp [Selector.covers]

/-- The six terms of a pattern, each with the condition that it is about. -/
def Pattern.terms (x : Pattern) (c : Conditions) : List (Term × Bool) :=
  [(x.above, c.above), (x.below, c.below), (x.crossed, c.crossed), (x.overrun, c.overrun),
    (x.preempted, c.preempted), (x.clipped, c.clipped)]

theorem Pattern.holds_iff (x : Pattern) (c : Conditions) :
    x.holds c = true ↔ ∀ y ∈ x.terms c, y.1.holds y.2 = true := by
  simp [Pattern.holds, Pattern.terms, and_assoc]

theorem Watch.isMatch_iff (w : Watch) (n : SlotNo) (c : Conditions) : w.isMatch n c = true ↔
    w.state = .armed ∧ (w.selector = .anyOwn ∨ w.selector = .slot n)
      ∧ ∀ y ∈ w.pattern.terms c, y.1.holds y.2 = true := by
  rw [Watch.isMatch, Bool.and_eq_true, Bool.and_eq_true, decide_eq_true_iff, Selector.covers_iff, Pattern.holds_iff,
    and_assoc]

/-- Settles O51: ARMED, the selector and the six terms; ANY, CLEAR, SET and NEVER are the cases of a term. -/
theorem watchMatches : Obligations.WatchMatches := by
  intro w n c
  refine (w.isMatch_iff n c).trans (and_congr_right fun _ => and_congr_right fun _ => forall₂_congr fun x _ => ?_)
  obtain ⟨term, condition⟩ := x
  cases term <;> simp [Term.holds]

/-! ### A match, step by step (R129) -/

/-- An event sent to a port whose session is OPEN is offered to its event queue (R136). -/
theorem sendEvent_open {s : State} {p : Port} (e : EventRecord) (isOpen : s.isOpen p = true) :
    sendEvent s p e = s.setEvents p (s.events[p].offer e) := if_pos isOpen

/-- The WATCH_HIT event of watch w for a conversion of slot n (R135). -/
def watchHit (w : Fin 8) (n : SlotNo) (tick : Tick) (c : Conditions) : EventRecord :=
  { kind := .watchHit, subject := BitVec.ofNat 8 w.val, tick := tick, detail := watchHitDetail n c }

/-- What steps 1 and 2 of R129 leave in an OPEN session: the hit is counted and WATCH_HIT is offered. -/
def hitNoted (s : State) (p : Port) (w : Fin 8) (n : SlotNo) (tick : Tick) (c : Conditions) : State :=
  (s.setWatch p w { s.watches[p][w] with hitCount := hold65535 s.watches[p][w].hitCount 1 }).setEvents p
    (s.events[p].offer (watchHit w n tick c))

/-- The last step of R129: watch w of port p is SPENT after a match in mode ONCE. -/
def spendOnce (s : State) (p : Port) (w : Fin 8) (mode : WatchMode) : State :=
  match mode with
  | .once => s.setWatch p w { s.watches[p][w] with state := .spent }
  | .repeating => s

theorem carryOutMatch_open {s : State} {p : Port} (w : Fin 8) (n : SlotNo) (tick : Tick) (c : Conditions)
    (isOpen : s.isOpen p = true) : carryOutMatch s p w n tick c =
      spendOnce (watchAction (hitNoted s p w n tick c) p w s.watches[p][w] tick) p w s.watches[p][w].mode := by
  have stillOpen (x : Watch) : (s.setWatch p w x).isOpen p = true := isOpen
  rw [carryOutMatch, sendEvent_open _ (stillOpen _)]
  rfl

/-! ### The hit and the mode -/

theorem hitNoted_isOpen {s : State} {p : Port} (w : Fin 8) (n : SlotNo) (tick : Tick) (c : Conditions)
    (isOpen : s.isOpen p = true) : (hitNoted s p w n tick c).isOpen p = true := isOpen

theorem hitNoted_events (s : State) (p : Port) (w : Fin 8) (n : SlotNo) (tick : Tick) (c : Conditions) :
    (hitNoted s p w n tick c).events[p] = s.events[p].offer (watchHit w n tick c) := getElem_set_same _ _ _

/-- The written watch holds what was written. -/
theorem setWatch_same (s : State) (p : Port) (w : Fin 8) (x : Watch) : (s.setWatch p w x).watches[p][w] = x := by
  simp

theorem hitNoted_watch (s : State) (p : Port) (w : Fin 8) (n : SlotNo) (tick : Tick) (c : Conditions) :
    (hitNoted s p w n tick c).watches[p][w]
      = { s.watches[p][w] with hitCount := hold65535 s.watches[p][w].hitCount 1 } := setWatch_same _ _ _ _

theorem sameBut_hitNoted (s : State) (p : Port) (w : Fin 8) (n : SlotNo) (tick : Tick) (c : Conditions) :
    sameBut [.watch p w, .events p] s (hitNoted s p w n tick c) :=
  sameBut_trans (sameBut_mono (sameBut_setWatch _ _ _ _) (by simp)) (sameBut_mono (sameBut_setEvents _ _ _) (by simp))

theorem spendOnce_watch (s : State) (p : Port) (w : Fin 8) (mode : WatchMode) :
    (spendOnce s p w mode).watches[p][w] =
      { s.watches[p][w] with state := if mode = .once then .spent else s.watches[p][w].state } := by
  cases mode with
  | once => exact setWatch_same _ _ _ _
  | repeating => rfl

theorem sameBut_spendOnce (s : State) (p : Port) (w : Fin 8) (mode : WatchMode) :
    sameBut [.watch p w] s (spendOnce s p w mode) := by
  cases mode with
  | once => exact sameBut_setWatch _ _ _ _
  | repeating => exact sameBut_refl _ _

/-- A match in an OPEN session touches the watch, the events and what its action touches; and what its action left in any
part but the watch stands. -/
theorem carryOutMatch_frame {s u : State} {p : Port} {w : Fin 8} {n : SlotNo} {tick : Tick} {c : Conditions}
    (isOpen : s.isOpen p = true) (acts : watchAction (hitNoted s p w n tick c) p w s.watches[p][w] tick = u)
    {l : List Part} (touched : sameBut ([.watch p w, .events p] ++ l) (hitNoted s p w n tick c) u) :
    sameBut ([.watch p w, .events p] ++ l) s (carryOutMatch s p w n tick c)
      ∧ sameBut [.watch p w] u (carryOutMatch s p w n tick c) := by
  rw [carryOutMatch_open w n tick c isOpen, acts]
  have mode := sameBut_spendOnce u p w s.watches[p][w].mode
  exact ⟨sameBut_trans (sameBut_mono (sameBut_hitNoted s p w n tick c) (by simp))
    (sameBut_trans touched (sameBut_mono mode (by simp))), mode⟩

/-- No action touches the watch itself, so the hit count and the mode alone do. -/
theorem carryOutMatch_watch {s : State} {p : Port} (w : Fin 8) (n : SlotNo) (tick : Tick) (c : Conditions)
    (isOpen : s.isOpen p = true) : (carryOutMatch s p w n tick c).watches[p][w] = { s.watches[p][w] with
      hitCount := hold65535 s.watches[p][w].hitCount 1
      state := if s.watches[p][w].mode = .once then .spent else s.watches[p][w].state } := by
  have kept : (watchAction (hitNoted s p w n tick c) p w s.watches[p][w] tick).watches[p][w]
      = (hitNoted s p w n tick c).watches[p][w] :=
    sameBut_watchAction (hitNoted s p w n tick c) p w s.watches[p][w] tick (.watch p w) (by simp)
  rw [carryOutMatch_open w n tick c isOpen, spendOnce_watch, kept, hitNoted_watch]

/-! ### The actions (R130 to R133) -/

theorem watchAction_notify {x : Watch} (s : State) (p : Port) (w : Fin 8) (tick : Tick) (action : x.action = .notify) :
    watchAction s p w x tick = s := by simp only [watchAction, action]

theorem watchAction_hold {x : Watch} (s : State) (p : Port) (w : Fin 8) (tick : Tick) (action : x.action = .hold) :
    watchAction s p w x tick = holdAction s p w tick := by simp only [watchAction, action]

theorem watchAction_capture {x : Watch} (s : State) (p : Port) (w : Fin 8) (tick : Tick)
    (action : x.action = .capture) : watchAction s p w x tick = captureAction s p w x.captureSlot tick := by
  simp only [watchAction, action]

/-- The QUEUE_HELD event of watch w, with the record count of the queue that it holds (R131). -/
def queueHeld (w : Fin 8) (q : SampleQueue) (tick : Tick) : EventRecord :=
  { kind := .queueHeld, subject := BitVec.ofNat 8 w.val, tick := tick, detail := BitVec.ofNat 16 q.records.length }

/-- HOLD in an OPEN session with a sample queue. -/
theorem holdAction_open {s : State} {p : Port} {q : SampleQueue} (w : Fin 8) (tick : Tick)
    (isOpen : s.isOpen p = true) (queue : s.queues[p] = some q) : holdAction s p w tick =
      if q.hold then s.setQueue p (some { q with hold := true })
      else (s.setQueue p (some { q with hold := true })).setEvents p (s.events[p].offer (queueHeld w q tick)) := by
  have stillOpen (x : Option SampleQueue) : (s.setQueue p x).isOpen p = true := isOpen
  simp only [holdAction, queue, sendEvent_open _ (stillOpen _), State.setQueue_events, queueHeld]

theorem holdAction_queue {s : State} {p : Port} {q : SampleQueue} (w : Fin 8) (tick : Tick)
    (isOpen : s.isOpen p = true) (queue : s.queues[p] = some q) :
    (holdAction s p w tick).queues[p] = some { q with hold := true } := by
  rw [holdAction_open w tick isOpen queue]
  split <;> exact getElem_set_same _ _ _

theorem holdAction_events {s : State} {p : Port} {q : SampleQueue} (w : Fin 8) (tick : Tick)
    (isOpen : s.isOpen p = true) (queue : s.queues[p] = some q) : (holdAction s p w tick).events[p] =
      if q.hold then s.events[p] else s.events[p].offer (queueHeld w q tick) := by
  rw [holdAction_open w tick isOpen queue]
  split
  · rfl
  · exact getElem_set_same _ _ _

theorem captureAction_stopped {s : State} {p : Port} {b : SlotNo} (w : Fin 8) (tick : Tick)
    (owner : s.slots[b].owner = some p) (kind : s.slots[b].settings.kind = .burst)
    (state : s.slots[b].state = .stopped) : captureAction s p w b tick = startBurstAt s b tick :=
  if_pos ⟨owner, kind, state⟩

theorem captureAction_running {s : State} {p : Port} {b : SlotNo} (w : Fin 8) (tick : Tick)
    (owner : s.slots[b].owner = some p) (kind : s.slots[b].settings.kind = .burst)
    (state : s.slots[b].state = .running) :
    captureAction s p w b tick = sendEvent s p (captureRefused w b tick 1) := by
  simp only [captureAction, owner, kind, state, reduceCtorEq, and_false, if_false, and_self, if_true]

theorem captureAction_gone {s : State} {p : Port} {b : SlotNo} (w : Fin 8) (tick : Tick)
    (gone : s.slots[b].owner ≠ some p ∨ s.slots[b].settings.kind ≠ .burst ∨ s.slots[b].state = .free
      ∨ s.slots[b].state = .retiring) :
    captureAction s p w b tick = sendEvent s p (captureRefused w b tick 2) := by
  have notLive (x : SlotState) (live : x = .stopped ∨ x = .running) :
      ¬ (s.slots[b].owner = some p ∧ s.slots[b].settings.kind = .burst ∧ s.slots[b].state = x) := by
    rintro ⟨owner, kind, rfl⟩
    rcases live with state | state <;> simp [owner, kind, state, -Fin.getElem_fin] at gone
  exact (if_neg (notLive _ (.inl rfl))).trans (if_neg (notLive _ (.inr rfl)))

/-- A BURST slot that starts a burst is RUNNING, with its request waiting (R20, R133). -/
theorem startBurstAt_slot (s : State) (b : SlotNo) (due : Tick) : (startBurstAt s b due).slots[b] =
    { s.slots[b] with
      state := .running, burstRemaining := s.slots[b].settings.burstCount, decimationCount := 0, windowPos := .unset
      pendingFlag := true } := by
  simp [startBurstAt, requestSlot]

/-- The request of a new burst is ROUTINE and joins the pending list (R20, R31, R133). -/
theorem startBurstAt_requests {s : State} {b : SlotNo} (due : Tick) (kind : s.slots[b].settings.kind = .burst) :
    (startBurstAt s b due).requests = s.requests ++
      [{ channel := s.slots[b].settings.channel, sampleCode := s.slots[b].settings.sampleCode
         avgCode := s.slots[b].settings.avgCode, subs := [⟨.slot b, .routine, due, false, false⟩]
         preemptCount := 0 }] := by
  simp [startBurstAt, requestSlot, kind, Kind.requestClass, -Fin.getElem_fin, getElem_set_same]

/-! ### A match with each action, carried out -/

section
variable {s : State} {p : Port} {w : Fin 8} {n : SlotNo} {tick : Tick} {c : Conditions} (isOpen : s.isOpen p = true)
include isOpen

/-- NOTIFY does nothing beyond the hit (R130). -/
theorem carryOutMatch_notify (action : s.watches[p][w].action = .notify) :
    let t := carryOutMatch s p w n tick c
    t.events[p] = s.events[p].offer (watchHit w n tick c) ∧ sameBut [.watch p w, .events p] s t := by
  obtain ⟨frame, kept⟩ := carryOutMatch_frame (l := []) isOpen
    (watchAction_notify (hitNoted s p w n tick c) p w tick action) (sameBut_refl _ _)
  exact ⟨(kept (.events p) (by simp)).trans (hitNoted_events ..), frame⟩

/-- HOLD sets hold, and reports it when it was clear (R131). -/
theorem carryOutMatch_hold {q : SampleQueue} (action : s.watches[p][w].action = .hold)
    (queue : s.queues[p] = some q) :
    let t := carryOutMatch s p w n tick c
    let hit := s.events[p].offer (watchHit w n tick c)
    sameBut [.watch p w, .events p, .queue p] s t ∧ t.queues[p] = some { q with hold := true }
      ∧ t.events[p] = if q.hold then hit else hit.offer (queueHeld w q tick) := by
  obtain ⟨frame, kept⟩ := carryOutMatch_frame (l := [.queue p]) isOpen
    (watchAction_hold (hitNoted s p w n tick c) p w tick action) (sameBut_mono (sameBut_holdAction _ _ _ _) (by simp))
  refine ⟨frame, (kept (.queue p) (by simp)).trans (holdAction_queue w tick (hitNoted_isOpen w n tick c isOpen) queue),
    (kept (.events p) (by simp)).trans ?_⟩
  rw [holdAction_events w tick (hitNoted_isOpen w n tick c isOpen) queue, hitNoted_events]

/-- CAPTURE of a STOPPED own BURST slot starts its burst as of the completion tick (R132, R133). -/
theorem carryOutMatch_capture {b : SlotNo} (action : s.watches[p][w].action = .capture)
    (target : s.watches[p][w].captureSlot = b) (owner : s.slots[b].owner = some p)
    (kind : s.slots[b].settings.kind = .burst) (state : s.slots[b].state = .stopped) :
    let t := carryOutMatch s p w n tick c
    sameBut [.watch p w, .events p, .slot b, .requests] s t
      ∧ t.events[p] = s.events[p].offer (watchHit w n tick c) ∧ t.slots[b] = (startBurstAt s b tick).slots[b]
      ∧ t.requests = (startBurstAt s b tick).requests := by
  have acts : watchAction (hitNoted s p w n tick c) p w s.watches[p][w] tick
      = startBurstAt (hitNoted s p w n tick c) b tick := by
    rw [watchAction_capture _ p w tick action, target]
    exact captureAction_stopped w tick owner kind state
  obtain ⟨frame, kept⟩ := carryOutMatch_frame (l := [.slot b, .requests]) isOpen acts
    (sameBut_mono (sameBut_startBurstAt _ _ _) (by simp))
  exact ⟨frame, (kept (.events p) (by simp)).trans (hitNoted_events ..), kept (.slot b) (by simp),
    kept .requests (by simp)⟩

/-- CAPTURE of a slot that cannot start a burst only sends CAPTURE_REFUSED with its reason (R132). -/
theorem carryOutMatch_captureRefused {b : SlotNo} {reason : Byte} (action : s.watches[p][w].action = .capture)
    (target : s.watches[p][w].captureSlot = b)
    (refuses : ∀ u : State, u.slots = s.slots →
      captureAction u p w b tick = sendEvent u p (captureRefused w b tick reason)) :
    let t := carryOutMatch s p w n tick c
    sameBut [.watch p w, .events p] s t
      ∧ t.events[p] = (s.events[p].offer (watchHit w n tick c)).offer (captureRefused w b tick reason) := by
  have acts : watchAction (hitNoted s p w n tick c) p w s.watches[p][w] tick
      = (hitNoted s p w n tick c).setEvents p
        ((hitNoted s p w n tick c).events[p].offer (captureRefused w b tick reason)) := by
    rw [watchAction_capture _ p w tick action, target, refuses (hitNoted s p w n tick c) rfl,
      sendEvent_open _ (hitNoted_isOpen w n tick c isOpen)]
  obtain ⟨frame, kept⟩ := carryOutMatch_frame (l := []) isOpen acts (sameBut_mono (sameBut_setEvents _ _ _) (by simp))
  refine ⟨frame, (kept (.events p) (by simp)).trans ((getElem_set_same _ _ _).trans ?_)⟩
  rw [hitNoted_events]

end

/-- Settles O52: the watch itself, then one clause for each action of R130 to R132. -/
theorem watchMatchIsCarriedOut : Obligations.WatchMatchIsCarriedOut := by
  intro s p w n tick c isOpen
  refine ⟨carryOutMatch_watch w n tick c isOpen, carryOutMatch_notify isOpen, fun q => carryOutMatch_hold isOpen,
    fun action => ⟨fun owner kind state => ?starts, fun owner kind state => ?running, fun gone => ?gone⟩⟩
  case starts =>
    obtain ⟨frame, events, slot, requests⟩ := carryOutMatch_capture isOpen action rfl owner kind state
    exact ⟨frame, events, slot.trans (startBurstAt_slot ..), requests.trans (startBurstAt_requests tick kind)⟩
  case running =>
    exact carryOutMatch_captureRefused isOpen action rfl fun u slots =>
      captureAction_running w tick (by rwa [slots]) (by rwa [slots]) (by rwa [slots])
  case gone =>
    exact carryOutMatch_captureRefused isOpen action rfl fun u slots => captureAction_gone w tick (by rwa [slots])

end Sys2Proof.Machine
end
-- ==== Sys2Proof/Proofs/WatchCommands.lean ====
section
/-! PROOF. WATCH_ARM, WATCH_DISARM and WATCH_CLEAR: the checks that they share (R120), and the watch that each writes (R122 to R124). -/

namespace Sys2Proof.Machine

/-! ### The watch that the argument byte names (R120) -/

/-- A byte above 7 names no watch. -/
theorem watchOfByte_none {b : Byte} (above : 7 < b.toNat) : watchOfByte b = none := by
  rw [watchOfByte, dif_neg (by omega)]

theorem watchOfByte_some {b : Byte} {w : Fin 8} (named : b.toNat = w.val) : watchOfByte b = some w := by
  simp [watchOfByte, named]

section
variable {p : Port} {args : List Byte} {act : Fin 8 → State → Except ResultCode State} {s : State}
  (isOpen : s.isOpen p = true)
include isOpen

theorem onWatch_badArg (above : 7 < (argByte args 0).toNat) : onWatch p args act s = refuseWith s .badArg := by
  rw [onWatch, withSession_open isOpen, watchOfByte_none above]

theorem onWatch_refuses {w : Fin 8} {code : ResultCode} (named : (argByte args 0).toNat = w.val)
    (refuses : act w s = .error code) : onWatch p args act s = refuseWith s code := by
  rw [onWatch, withSession_open isOpen, watchOfByte_some named]
  simp only [refuses]

theorem onWatch_acts {w : Fin 8} {u : State} (named : (argByte args 0).toNat = w.val) (acts : act w s = .ok u) :
    onWatch p args act s = (u, ⟨.ok, argByte args 0⟩) := by
  have detail : BitVec.ofNat 8 w.val = argByte args 0 := ofNat_named (c := w.castLE (by decide)) named
  rw [onWatch, withSession_open isOpen, watchOfByte_some named]
  simp only [acts, detail]

end

/-! ### A watch command, from its frame to its result (R120, R178) -/

/-- The rise, the result register and the lease leave the watches as the act left them. -/
@[simp] theorem riseEffect_watches (p : Port) (act : List Byte → State → Done) (f : Frame) (s : State) :
    (riseEffect p act f s).watches = (act f.args s).1.watches := by simp [riseEffect]

/-- What a watch command comes to, when it is due in an OPEN session: BAD_ARG for a byte above 7, and for watch w the
refusal that its act answers, or the watch y that its act writes. -/
theorem takeSetting_onWatch {p : Port} {k : Command} {s : State} {act : Fin 8 → State → Except ResultCode State}
    (due : settingDue p k s) (kind : k.kind = .setting) (isOpen : s.isOpen p = true) :
    ∃ t, takeSetting p k (fun args => onWatch p args act) s = .next t
      ∧ (7 < (arg s p 0).toNat → refusedWith p .badArg s t)
      ∧ ∀ w : Fin 8, (arg s p 0).toNat = w.val →
        (∀ code, act w (raiseSelect s p) = .error code → refusedWith p code s t)
        ∧ ∀ y, act w (raiseSelect s p) = .ok ((raiseSelect s p).setWatch p w y) →
          accepted p (arg s p 0) [.watch p w] s t ∧ t.watches[p][w] = y := by
  have stillOpen : (raiseSelect s p).isOpen p = true := by rwa [raiseSelect_isOpen]
  refine ⟨_, takeSetting_due due kind _, fun above => ?badArg, fun w named => ⟨fun code refuses => ?refused,
    fun y writes => ?accepted⟩⟩
  case badArg => exact riseEffect_refused (onWatch_badArg stillOpen above)
  case refused => exact riseEffect_refused (onWatch_refuses stillOpen named refuses)
  case accepted =>
    have effect := onWatch_acts stillOpen named writes
    refine ⟨riseEffect_accepted effect (sameBut_setWatch _ p w y) (by simp) (by simp) (.inl (by simp)), ?_⟩
    rw [riseEffect_watches, effect]
    exact setWatch_same _ p w y

/-! ### The three commands (R122 to R124) -/

/-- What each of the three commands does to a watch. -/
def watchAct (p : Port) (c : Command) : Fin 8 → State → Except ResultCode State :=
  match c with
  | .watchArm => watchArm p
  | .watchDisarm => watchDisarm p
  | _ => watchClear p

/-- A row of one of the three commands takes it as a set command on the watch that it names. -/
theorem exec_watchAct {i : Instr} {p : Port} {c : Command} (row : settingOf i = some (p, c))
    (one : c ∈ [Command.watchArm, .watchDisarm, .watchClear]) (s : State) :
    exec i s = takeSetting p c (fun args => onWatch p args (watchAct p c)) s := by
  cases i with
  | watchArm q => cases row; rfl
  | watchDisarm q => cases row; rfl
  | watchClear q => cases row; rfl
  | _ => cases row <;> simp at one

theorem watchArm_empty {p : Port} {w : Fin 8} {s : State} (empty : s.watches[p][w].state = .empty) :
    watchArm p w s = .error .badState := if_pos empty

theorem watchArm_arms {p : Port} {w : Fin 8} {s : State} (used : s.watches[p][w].state ≠ .empty) :
    watchArm p w s = .ok (s.setWatch p w { s.watches[p][w] with state := .armed }) := if_neg used

theorem watchDisarm_empty {p : Port} {w : Fin 8} {s : State} (empty : s.watches[p][w].state = .empty) :
    watchDisarm p w s = .error .badState := if_pos empty

theorem watchDisarm_disarms {p : Port} {w : Fin 8} {s : State} (used : s.watches[p][w].state ≠ .empty) :
    watchDisarm p w s = .ok (s.setWatch p w { s.watches[p][w] with state := .disarmed }) := if_neg used

/-- WATCH_ARM and WATCH_DISARM refuse an EMPTY watch; WATCH_CLEAR refuses none. -/
theorem watchAct_empty {p : Port} {c : Command} {w : Fin 8} {s : State}
    (one : c ∈ [Command.watchArm, .watchDisarm, .watchClear]) (notClear : c ≠ .watchClear)
    (empty : s.watches[p][w].state = .empty) : watchAct p c w s = .error .badState := by
  have two : c = .watchArm ∨ c = .watchDisarm := by simpa [notClear] using one
  rcases two with rfl | rfl
  · exact watchArm_empty empty
  · exact watchDisarm_empty empty

/-- Settles O50: the three commands share the checks of R120, and each of R122 to R124 says which watch is written. -/
theorem watchArmDisarmAndClear : Obligations.WatchArmDisarmAndClear := by
  intro i p c s row one due isOpen
  have kind : c.kind = .setting := by
    have kinds : ∀ c ∈ [Command.watchArm, .watchDisarm, .watchClear], c.kind = .setting := by decide
    exact kinds c one
  obtain ⟨t, taken, badArg, perWatch⟩ := takeSetting_onWatch (act := watchAct p c) due kind isOpen
  refine ⟨t, (exec_watchAct row one s).trans taken, badArg, fun w named => ?_⟩
  obtain ⟨refused, written⟩ := perWatch w named
  refine ⟨fun notClear empty => refused _ (watchAct_empty one notClear empty), ?arm, ?disarm, ?clear⟩
  case arm => rintro rfl used; exact written _ (watchArm_arms used)
  case disarm => rintro rfl used; exact written _ (watchDisarm_disarms used)
  case clear => rintro rfl; exact written _ rfl

end Sys2Proof.Machine
end

