-- ==== Sys2Proof/Proofs/Delete.lean ====
section
/-! PROOF. DELETE of an own slot in STOPPED or RUNNING: its waiting request, the slot itself (R21), and the watches on it (R125). -/

namespace Sys2Proof.Machine

/-! ### The slot that the argument byte names (R11) -/

theorem slotOfByte_some {b : Byte} {n : SlotNo} (named : b.toNat = n.val) : slotOfByte b = some n := by
  simp [slotOfByte, named]

/-- An own slot that the command names, in STOPPED or RUNNING, passes the checks of R11, NOT_OWNER and BAD_STATE. -/
theorem onOwnSlot_acts {p : Port} {args : List Byte} {act : SlotNo → State → Done} {s : State} {n : SlotNo}
    (isOpen : s.isOpen p = true) (named : (argByte args 0).toNat = n.val) (owner : s.slots[n].owner = some p)
    (live : s.slots[n].state = .stopped ∨ s.slots[n].state = .running) :
    onOwnSlot p args (notRetiring act) s = act n s := by
  have notRefused : (s.isFree n || decide (s.slots[n].owner ≠ some p)) = false := by
    rcases live with state | state <;> simp [State.isFree, state, owner, -Fin.getElem_fin]
  have notRetires : s.slots[n].state ≠ .retiring := by
    rcases live with state | state <;> simp [state, -Fin.getElem_fin]
  rw [onOwnSlot, withSession_open isOpen, slotOfByte_some named]
  simp only [notRefused, Bool.false_eq_true, if_false, notRetiring, if_neg notRetires]

/-! ### The waiting request of the slot (R40) -/

theorem withdrawWhere_isFrom_slot (n : SlotNo) (l : List PendingEntry) :
    withdrawWhere (SubEntry.isFrom (.slot n)) l = withoutSlot n l := by
  simp [withdrawWhere, withoutSlot, SubEntry.isFrom]

/-- The state with slot n's request withdrawn, if one waits. -/
def withdrawPending (s : State) (n : SlotNo) : State := if s.slots[n].pendingFlag then withdrawSlot s n else s

theorem sameBut_withdrawPending (s : State) (n : SlotNo) : sameBut [.slot n, .requests] s (withdrawPending s n) :=
  sameBut_ite (sameBut_withdrawSlot s n) (sameBut_refl _ _)

theorem withdrawPending_requests (s : State) (n : SlotNo) : (withdrawPending s n).requests =
    if s.slots[n].pendingFlag then withoutSlot n s.requests else s.requests := by
  unfold withdrawPending
  split
  · exact withdrawWhere_isFrom_slot n s.requests
  · rfl

theorem withdrawPending_slot (s : State) (n : SlotNo) :
    (withdrawPending s n).slots[n] = { s.slots[n] with pendingFlag := false } := by
  unfold withdrawPending
  split
  · exact getElem_set_same _ _ _
  · rename_i notPending
    have cleared : s.slots[n].pendingFlag = false := Bool.eq_false_iff.mpr notPending
    rw [← cleared]

/-! ### The slot and the watches on it (R21, R125) -/

/-- The watch after a DELETE of slot n. -/
def disarmedOnDelete (n : SlotNo) (x : Watch) : Watch :=
  if x.selector = .slot n ∧ (x.state = .armed ∨ x.state = .spent) then { x with state := .disarmed } else x

theorem disarmOnDelete_watch (s : State) (p : Port) (n : SlotNo) (w : Fin 8) :
    (disarmOnDelete s p n).watches[p][w] = disarmedOnDelete n s.watches[p][w] := by
  simp [disarmOnDelete, disarmedOnDelete]

/-- The state that a DELETE of slot n by port p leaves. -/
def deleted (s : State) (p : Port) (n : SlotNo) : State :=
  disarmOnDelete ((withdrawPending s n).setSlot n (deletedSlot (withdrawPending s n).slots[n])) p n

theorem delete_eq (p : Port) (n : SlotNo) (s : State) : delete p n s = okSlot (deleted s p n) n := rfl

theorem sameBut_deleted (s : State) (p : Port) (n : SlotNo) :
    sameBut ([.slot n, .requests] ++ (List.finRange 8).map fun w => .watch p w) s (deleted s p n) :=
  sameBut_trans (sameBut_mono (sameBut_withdrawPending s n) (by simp)) (sameBut_trans
    (sameBut_mono (sameBut_setSlot _ _ _) (by simp)) (sameBut_mono (sameBut_disarmOnDelete _ _ _) (by simp)))

theorem deleted_requests (s : State) (p : Port) (n : SlotNo) : (deleted s p n).requests =
    if s.slots[n].pendingFlag then withoutSlot n s.requests else s.requests := withdrawPending_requests s n

theorem deleted_slot (s : State) (p : Port) (n : SlotNo) : (deleted s p n).slots[n] =
    if s.slots[n].inFlightFlag then { s.slots[n] with state := .retiring, pendingFlag := false } else Slot.free := by
  have written : (deleted s p n).slots[n] = deletedSlot (withdrawPending s n).slots[n] := getElem_set_same _ _ _
  rw [written, withdrawPending_slot, deletedSlot]

theorem deleted_watch (s : State) (p : Port) (n : SlotNo) (w : Fin 8) :
    (deleted s p n).watches[p][w] = disarmedOnDelete n s.watches[p][w] := by
  have kept : (withdrawPending s n).watches[p][w] = s.watches[p][w] :=
    sameBut_withdrawPending s n (.watch p w) (by simp)
  rw [deleted, disarmOnDelete_watch, State.setSlot_watches, kept]

/-- The rise, the result register and the lease leave the pending list as the act left it. -/
@[simp] theorem riseEffect_requests (p : Port) (act : List Byte → State → Done) (f : Frame) (s : State) :
    (riseEffect p act f s).requests = (act f.args s).1.requests := by simp [riseEffect]

/-- Settles O39: DELETE passes its checks, and the state it leaves is read part by part. -/
theorem deleteFreesTheSlot : Obligations.DeleteFreesTheSlot := by
  intro p s n due isOpen named owner live
  have effect : onOwnSlot p s.ports[p].frame.args (notRetiring (delete p)) (raiseSelect s p)
      = okSlot (deleted (raiseSelect s p) p n) n := by
    rw [onOwnSlot_acts (s := raiseSelect s p) isOpen named owner live, delete_eq]
  refine ⟨_, (exec_delete p s).trans (takeSetting_due due rfl _), ?accepted, ?requests, ?slot, fun w => ?watch⟩
  case accepted =>
    exact riseEffect_accepted effect (sameBut_deleted _ p n) (by simp) (by simp) (.inl (by simp))
  case requests =>
    rw [riseEffect_requests, effect]
    exact deleted_requests _ p n
  case slot =>
    rw [riseEffect_slots, effect]
    exact deleted_slot _ p n
  case watch =>
    rw [riseEffect_watches, effect]
    exact deleted_watch _ p n w

end Sys2Proof.Machine
end

