-- ==== Sys2Proof/Proofs/Attention.lean ====
section
/-! PROOF. The attention line nATTNp (R188): one lemma for each of the queue conditions that pull it low. -/

namespace Sys2Proof.Machine

theorem eventsWaiting_iff (q : EventQueue) : eventsWaiting q = true ↔ q.records ≠ [] := by
  simp [eventsWaiting]

theorem atWatermark_iff (q : Option SampleQueue) :
    atWatermark q = true ↔ ∃ x, q = some x ∧ x.watermark ≤ x.records.length := by
  cases q with
  | none => simp [atWatermark]
  | some x => simp [atWatermark]

/-- The line is low exactly when its condition holds. -/
theorem natt_low_iff (s : State) (p : Port) : s.natt p = .low ↔
    (eventsWaiting s.events[p] || atWatermark s.queues[p] || decide (s.sessions[p].state = .lapsed)) = true := by
  unfold State.natt
  split
  case isTrue low => exact iff_of_true rfl low
  case isFalse high => exact iff_of_false (by decide) high

/-- Settles O16: each disjunct of the line's condition is the one that R188 states. -/
theorem attentionLine : Obligations.AttentionLine := by
  intro s p
  rw [natt_low_iff, Bool.or_eq_true, Bool.or_eq_true, eventsWaiting_iff, atWatermark_iff, decide_eq_true_iff, or_assoc]

end Sys2Proof.Machine
end

