-- ==== Sys2Proof/Proofs/Staging.lean ====
section
/-! PROOF. STAGE_CLEAR and STAGE_WORD: the session check, and the staging record that each writes (R185, R186). -/

namespace Sys2Proof.Machine

/-! ### A write of the staging record -/

/-- The state with another staging record at port p. -/
def withStaging (s : State) (p : Port) (w : Vector (BitVec 32) 4) : State :=
  s.setPort p { s.ports[p] with staging := w }

theorem withStaging_staging (s : State) (p : Port) (w : Vector (BitVec 32) 4) :
    (withStaging s p w).ports[p].staging = w := congrArg PortState.staging (getElem_set_same _ _ _)

theorem sameBut_withStaging (s : State) (p : Port) (w : Vector (BitVec 32) 4) :
    sameBut [.staging p] s (withStaging s p w) :=
  sameBut_setPort _ _ _ _ (.inr rfl) (.inr rfl) (.inr rfl) (.inr rfl) (.inl (by simp)) (.inr rfl)

/-- The rise, the result register and the lease leave the staging record as the act left it. -/
@[simp] theorem riseEffect_staging (p : Port) (act : List Byte → State → Done) (f : Frame) (s : State) :
    (riseEffect p act f s).ports[p].staging = (act f.args s).1.ports[p].staging := by
  rw [riseEffect, leaseRestart_ports, setResult_port]

/-- What a command on the staging record comes to, when it is due: NO_SESSION without an OPEN session (R147), and with one
the refusal that its act answers, or the staging record w that its act writes. -/
theorem takeSetting_onStaging {p : Port} {c : Command} {s : State} {act : List Byte → State → Done}
    (due : settingDue p c s) (kind : c.kind = .setting) :
    ∃ t, takeSetting p c (fun args => withSession p (act args)) s = .next t
      ∧ (s.isOpen p = false → refusedWith p .noSession s t)
      ∧ (s.isOpen p = true →
        (∀ code, act s.ports[p].frame.args (raiseSelect s p) = refuseWith (raiseSelect s p) code →
          refusedWith p code s t)
        ∧ ∀ w d, act s.ports[p].frame.args (raiseSelect s p) = (withStaging (raiseSelect s p) p w, ⟨.ok, d⟩) →
          accepted p d [.staging p] s t ∧ t.ports[p].staging = w) := by
  refine ⟨_, takeSetting_due due kind _, fun closed => ?noSession, fun isOpen => ⟨fun code refuses => ?refused,
    fun w d writes => ?accepted⟩⟩
  case noSession => exact riseEffect_refused (withSession_closed (s := raiseSelect s p) closed)
  case refused => exact riseEffect_refused ((withSession_open (s := raiseSelect s p) isOpen).trans refuses)
  case accepted =>
    have effect := (withSession_open (act := act s.ports[p].frame.args) (s := raiseSelect s p) isOpen).trans writes
    refine ⟨riseEffect_accepted effect (sameBut_withStaging _ p w) (by simp) (by simp) (.inl (by simp)), ?_⟩
    rw [riseEffect_staging, effect]
    exact withStaging_staging _ p w

/-! ### STAGE_CLEAR (R185) -/

theorem stageClear_eq (p : Port) (s : State) :
    stageClear p s = (withStaging s p #v[0x00000000#32, 0x000003E8#32, 0x00000000#32, 0x00000FFF#32], ⟨.ok, 0⟩) := rfl

/-- Settles O26: STAGE_CLEAR checks its session and writes the four defaults. -/
theorem stageClearSetsTheDefaults : Obligations.StageClearSetsTheDefaults := by
  intro p s due
  obtain ⟨t, taken, noSession, whenOpen⟩ := takeSetting_onStaging (act := fun _ => stageClear p) due rfl
  refine ⟨t, (exec_stageClear p s).trans taken, noSession, fun isOpen => ?_⟩
  obtain ⟨-, written⟩ := whenOpen isOpen
  exact written _ _ (stageClear_eq p _)

/-! ### STAGE_WORD (R186) -/

/-- A byte above 3 names no staging word. -/
theorem wordIndexOfByte_none {b : Byte} (above : 3 < b.toNat) : wordIndexOfByte b = none := by
  rw [wordIndexOfByte, dif_neg (by omega)]

theorem wordIndexOfByte_some {b : Byte} {i : Fin 4} (named : b.toNat = i.val) : wordIndexOfByte b = some i := by
  simp [wordIndexOfByte, named]

/-- The word of a STAGE_WORD frame is its four data bytes in the order of the wire. -/
theorem stagedWord_eq (args : List Byte) :
    stagedWord args = argByte args 1 ++ argByte args 2 ++ argByte args 3 ++ argByte args 4 := rfl

theorem stageWord_badArg {p : Port} {args : List Byte} {s : State} (above : 3 < (argByte args 0).toNat) :
    stageWord p args s = refuseWith s .badArg := by
  simp only [stageWord, wordIndexOfByte_none above]

theorem stageWord_writes {p : Port} {args : List Byte} {s : State} {i : Fin 4} (named : (argByte args 0).toNat = i.val) :
    stageWord p args s
      = (withStaging s p (s.ports[p].staging.set i (stagedWord args)), ⟨.ok, argByte args 0⟩) := by
  have detail : BitVec.ofNat 8 i.val = argByte args 0 := ofNat_named (c := i.castLE (by decide)) named
  simp only [stageWord, wordIndexOfByte_some named, detail, withStaging]

/-- Settles O27: STAGE_WORD checks its session, then its index, and writes the word that its data bytes spell. -/
theorem stageWordReplacesOneWord : Obligations.StageWordReplacesOneWord := by
  intro p s due
  obtain ⟨t, taken, noSession, whenOpen⟩ := takeSetting_onStaging (act := stageWord p) due rfl
  refine ⟨t, (exec_stageWord p s).trans taken, noSession, fun isOpen above => ?badArg, fun i isOpen named => ?word⟩
  case badArg =>
    obtain ⟨refused, -⟩ := whenOpen isOpen
    exact refused _ (stageWord_badArg above)
  case word =>
    obtain ⟨-, written⟩ := whenOpen isOpen
    obtain ⟨acc, staging⟩ := written _ _ (stageWord_writes named)
    exact ⟨acc, by rw [staging, raiseSelect_staging, stagedWord_eq]; rfl⟩

end Sys2Proof.Machine
end

