-- ==== Sys2Proof/Proofs/StepEffects.lean ====
section
/-! PROOF. What a step can do: the acts of the set commands, the effects that every command is a chain of, and the rule by which an invariant that each effect keeps is kept by every step. -/

namespace Sys2Proof.Machine

/-! ### The acts of the set commands -/

/-- What a set command of port p that is not refused, and does not leave everything as it is, makes of the state: one case
for each of them, with what its checks have established. -/
inductive Act (p : Port) (s : State) : State → Prop
  | opens (a : OpenArgs) (isClosed : s.isOpen p = false) (valid : ∃ b0 b1 b2 b3, openArgs b0 b1 b2 b3 = some a)
      (room : a.depth ≤ s.unreserved) : Act p s (openAccepted s p a)
  | closes (isOpen : s.isOpen p = true) : Act p s (sessionEnd s p .closed)
  | stages (w : Vector (BitVec 32) 4) : Act p s (withStaging s p w)
  | installs (n : SlotNo) (x : Staged) (isOpen : s.isOpen p = true) (staged : ∃ w, stagedOf w = some x)
      (unpaired : s.oddPartner x.settings.channel = false) (quota : ownedCount s p < 16)
      (free : s.slots[n].state = .free) : Act p s (s.setSlot n (installedSlot p s.now x))
  | modifies (n : SlotNo) (x : Staged) (own : ownLive s p n = true) (staged : ∃ w, stagedOf w = some x)
      (kind : x.settings.kind = s.slots[n].settings.kind) (unpaired : s.oddPartner x.settings.channel = false) :
      Act p s (applyModify s n x.settings)
  | deletes (n : SlotNo) (own : ownLive s p n = true) : Act p s (deleted s p n)
  | stops (n : SlotNo) (running : s.slots[n].state = .running) : Act p s (stop n s).1
  | runs (n : SlotNo) (stopped : s.slots[n].state = .stopped) (kind : s.slots[n].settings.kind ≠ .burst) :
      Act p s (s.setSlot n (runningSlot s.now s.slots[n]))
  | bursts (n : SlotNo) (stopped : s.slots[n].state = .stopped) (kind : s.slots[n].settings.kind = .burst) :
      Act p s (startBurst n s).1
  | fetches (n : SlotNo) : Act p s (fetch p n s).1
  | releasesQueue (q : SampleQueue) (queue : s.queues[p] = some q) : Act p s (s.setQueue p (some { q with hold := false }))
  | demands (c : Channel) (x : BitVec 2) (y : BitVec 3) (valid : avgOk y)
      (free : s.sessions[p].demandOutstanding = false) :
      Act p s (if s.requests.isEmpty then selectIfIdle (requestDemand s p c x y) else requestDemand s p c x y)
  | claims (c : Fin 16) (isOpen : s.isOpen p = true) (unpaired : s.oddPartner (externalChannel c) = false) :
      Act p s (s.setChannel c { s.channels[c] with holder := some p })
  | releases (c : Fin 16) : Act p s (s.setChannel c { s.channels[c] with holder := none })
  | configures (c : Fin 16) (m : Mode) (x : Span) (y : BitVec 2) (held : s.channels[c].holder = some p)
      (pairs : m = .paired → c.val % 2 = 0 ∧ ((partnerOf c).map (partnerBusy s p)).getD false = false) :
      Act p s (applyChange s p c m x y)
  | watches (w : Fin 8) (x : Watch) (isOpen : s.isOpen p = true) : Act p s (s.setWatch p w x)

/-- The state that a set command's act leaves is the state itself or that of one of the acts. -/
def Acts (p : Port) (s : State) (d : Done) : Prop := d.1 = s ∨ Act p s d.1

theorem Acts.refused (p : Port) (s : State) (c : ResultCode) : Acts p s (refuseWith s c) := .inl rfl

theorem Acts.withSession {p : Port} {s : State} {act : State → Done} (h : s.isOpen p = true → Acts p s (act s)) :
    Acts p s (withSession p act s) := by
  cases isOpen : s.isOpen p with
  | true => rw [withSession_open isOpen]; exact h isOpen
  | false => rw [withSession_closed isOpen]; exact .refused p s _

theorem openCommand_acts (p : Port) (args : List Byte) (s : State) : Acts p s (openCommand p args s) := by
  unfold openCommand
  split
  · exact .refused p s _
  · rename_i isClosed
    split
    · exact .refused p s _
    · rename_i a valid
      split
      · exact .refused p s _
      · rename_i room
        exact .inr (.opens a (by simpa using isClosed) ⟨_, _, _, _, valid⟩ (Nat.not_lt.mp room))

theorem stageWord_acts (p : Port) (args : List Byte) (s : State) : Acts p s (stageWord p args s) := by
  unfold stageWord
  split
  · exact .refused p s _
  · exact .inr (.stages _)

theorem installTarget_free {s : State} {a : SlotArg} {n : SlotNo} (target : installTarget s a = .ok n) :
    s.slots[n].state = .free := by
  cases a with
  | any =>
    simp only [installTarget] at target
    split at target
    · rename_i m lowest
      cases target
      exact of_decide_eq_true (List.find?_some (p := fun n => s.isFree n) lowest)
    · cases target
  | number m =>
    simp only [installTarget] at target
    split at target <;> cases target
    assumption

theorem install_acts {p : Port} {s : State} (args : List Byte) (isOpen : s.isOpen p = true) :
    Acts p s (install p args s) := by
  unfold install
  split
  · rename_i a x _ staged
    split
    · exact .refused p s _
    · rename_i unpaired
      split
      · exact .refused p s _
      · rename_i quota
        split
        · exact .refused p s _
        · rename_i n target
          exact .inr (.installs n x isOpen ⟨_, staged⟩ (by simpa using unpaired) (Nat.not_le.mp quota)
            (installTarget_free target))
  · exact .refused p s _

/-- A command on an own slot acts on a slot of the port that is not FREE. -/
theorem onOwnSlot_has_acts {p : Port} {args : List Byte} {act : SlotNo → State → Done} {s : State}
    (h : ∀ n : SlotNo, s.isOpen p = true → s.slots[n].owner = some p → s.slots[n].state ≠ .free → Acts p s (act n s)) :
    Acts p s (onOwnSlot p args act s) := by
  refine Acts.withSession fun isOpen => ?_
  split
  · exact .refused p s _
  · rename_i n _
    split
    · exact .refused p s _
    · rename_i own
      simp only [State.isFree, Bool.or_eq_true, decide_eq_true_eq, not_or, Decidable.not_not] at own
      obtain ⟨notFree, owner⟩ := own
      exact h n isOpen owner notFree

theorem ownLive_iff {s : State} {p : Port} {n : SlotNo} : ownLive s p n = true ↔
    s.slots[n].owner = some p ∧ (s.slots[n].state = .stopped ∨ s.slots[n].state = .running) := by
  simp [ownLive]

/-- The commands that refuse a RETIRING slot act on a slot of the port in STOPPED or RUNNING. -/
theorem notRetiring_acts {p : Port} {n : SlotNo} {act : SlotNo → State → Done} {s : State}
    (owner : s.slots[n].owner = some p) (notFree : s.slots[n].state ≠ .free)
    (h : ownLive s p n = true → Acts p s (act n s)) : Acts p s (notRetiring act n s) := by
  unfold notRetiring
  split
  · exact .refused p s _
  · rename_i notRetires
    refine h (ownLive_iff.mpr ⟨owner, ?_⟩)
    cases state : s.slots[n].state with
    | free => exact absurd state notFree
    | stopped => exact .inl rfl
    | running => exact .inr rfl
    | retiring => exact absurd state notRetires

theorem modify_acts {p : Port} {n : SlotNo} {s : State} (own : ownLive s p n = true) : Acts p s (modify p n s) := by
  unfold modify
  split
  · exact .refused p s _
  · rename_i x staged
    split
    · exact .refused p s _
    · rename_i kind
      split
      · exact .refused p s _
      · rename_i unpaired
        exact .inr (.modifies n x own ⟨_, staged⟩ (Decidable.not_not.mp kind) (by simpa using unpaired))

theorem stop_acts (p : Port) (n : SlotNo) (s : State) : Acts p s (stop n s) := by
  by_cases running : s.slots[n].state = .running
  · exact .inr (.stops n running)
  · left; unfold stop; rw [if_neg running]; rfl

theorem run_acts (p : Port) (n : SlotNo) (s : State) : Acts p s (run n s) := by
  unfold run
  simp only
  split
  · exact .refused p s _
  · rename_i kind
    split
    · rename_i stopped; exact .inr (.runs n stopped kind)
    · exact .inl rfl

theorem startBurst_acts {p : Port} {n : SlotNo} {s : State} (own : ownLive s p n = true) :
    Acts p s (startBurst n s) := by
  by_cases refuses : s.slots[n].settings.kind ≠ .burst ∨ s.slots[n].state = .running
  · left; unfold startBurst; simp only [if_pos refuses]; rfl
  · simp only [not_or, Decidable.not_not] at refuses
    obtain ⟨kind, notRunning⟩ := refuses
    exact .inr (.bursts n ((ownLive_iff.mp own).2.resolve_right notRunning) kind)

theorem releaseQueue_acts (p : Port) (s : State) : Acts p s (releaseQueue p s) := by
  unfold releaseQueue
  split
  · rename_i q queue; exact .inr (.releasesQueue q queue)
  · exact .inl rfl

theorem readNowArgs_avgOk {b0 b1 b2 : Byte} {c : Channel} {x : BitVec 2} {y : BitVec 3}
    (h : readNowArgs b0 b1 b2 = some (c, x, y)) : avgOk y := by
  unfold readNowArgs at h
  split at h
  · split at h
    · rename_i range
      cases h
      simp only [avgOk, BitVec.toNat_setWidth]
      omega
    · cases h
  · cases h

theorem readNow_acts (p : Port) (args : List Byte) (s : State) : Acts p s (readNow p args s) := by
  unfold readNow
  split
  · exact .refused p s _
  · rename_i c x y valid
    split
    · exact .refused p s _
    · rename_i free
      split
      · exact .refused p s _
      · exact .inr (.demands c x y (readNowArgs_avgOk valid) (by simpa using free))

theorem onExternal_has_acts {p : Port} {args : List Byte} {act : Fin 16 → State → Done} {s : State}
    (h : ∀ c, s.isOpen p = true → Acts p s (act c s)) : Acts p s (onExternal p args act s) := by
  refine Acts.withSession fun isOpen => ?_
  split
  · exact .refused p s _
  · exact h _ isOpen

theorem claim_acts {p : Port} {s : State} (c : Fin 16) (isOpen : s.isOpen p = true) : Acts p s (claim p c s) := by
  unfold claim
  simp only
  split
  · exact .refused p s _
  · rename_i unpaired
    split
    · exact .refused p s _
    · exact .inr (.claims c isOpen (by simpa using unpaired))

theorem release_acts (p : Port) (c : Fin 16) (s : State) : Acts p s (release p c s) := by
  unfold release
  simp only
  split
  · exact .refused p s _
  · exact .inr (.releases c)

theorem configureChannel_acts (p : Port) (c : Fin 16) (m : Mode) (x : Span) (y : BitVec 2) (s : State) :
    Acts p s (configureChannel p c m x y s) := by
  unfold configureChannel
  simp only
  split
  · exact .refused p s _
  · rename_i held
    split
    · exact .refused p s _
    · rename_i even
      split
      · exact .refused p s _
      · rename_i free
        split
        · exact .inl rfl
        · refine .inr (.configures c m x y (Decidable.not_not.mp held) fun paired => ⟨?_, ?_⟩)
          · have := not_and.mp even paired; omega
          · simpa using not_and.mp free paired

theorem configure_acts (p : Port) (args : List Byte) (s : State) : Acts p s (configure p args s) := by
  unfold configure
  split
  · exact .refused p s _
  · split
    · exact .refused p s _
    · exact configureChannel_acts p _ _ _ _ s

/-- A watch command that succeeds writes one watch. -/
theorem onWatch_has_acts {p : Port} {args : List Byte} {act : Fin 8 → State → Except ResultCode State} {s : State}
    (h : ∀ i u, act i s = .ok u → ∃ x, u = s.setWatch p i x) : Acts p s (onWatch p args act s) := by
  refine Acts.withSession fun isOpen => ?_
  split
  · exact .refused p s _
  · rename_i i _
    split
    · rename_i u acts
      obtain ⟨x, rfl⟩ := h i u acts
      exact .inr (.watches i x isOpen)
    · exact .refused p s _

theorem watchSet_writes {p : Port} {args : List Byte} {i : Fin 8} {s u : State} (h : watchSet p args i s = .ok u) :
    ∃ x, u = s.setWatch p i x := by
  unfold watchSet at h
  split at h
  · cases h
  · split at h
    · cases h
    · split at h
      · cases h
      · cases h; exact ⟨_, rfl⟩

theorem watchArm_writes {p : Port} {i : Fin 8} {s u : State} (h : watchArm p i s = .ok u) :
    ∃ x, u = s.setWatch p i x := by
  unfold watchArm at h
  simp only at h
  split at h <;> cases h
  exact ⟨_, rfl⟩

theorem watchDisarm_writes {p : Port} {i : Fin 8} {s u : State} (h : watchDisarm p i s = .ok u) :
    ∃ x, u = s.setWatch p i x := by
  unfold watchDisarm at h
  simp only at h
  split at h <;> cases h
  exact ⟨_, rfl⟩

theorem watchClear_writes {p : Port} {i : Fin 8} {s u : State} (h : watchClear p i s = .ok u) :
    ∃ x, u = s.setWatch p i x := by
  cases h; exact ⟨_, rfl⟩

/-! ### The effects -/

/-- What a command can do to the state, part by part: a command is a chain of these. -/
inductive Effect (s : State) : State → Prop
  | raises (p : Port) : Effect s (raiseSelect s p)
  | results (p : Port) (r : ResultReg) : Effect s (setResult s p r)
  | leases (p : Port) : Effect s (leaseRestart s p)
  | acts (p : Port) (u : State) (inFrame : s.ports[p].frame.state ≠ .idle) (normal : s.ports[p].frame.startUp = false)
      (act : Act p (raiseSelect s p) u) : Effect s u
  | unmarks (p : Port) (c : Command) (inFrame : s.ports[p].frame.state ≠ .idle)
      (normal : s.ports[p].frame.startUp = false) : Effect s (clearMark (raiseSelect s p) p c)
  | fallsHeld (p : Port) : Effect s (s.setPort p { s.ports[p] with nsel := .low })
  | falls (p : Port) (free : s.hub.held = false) :
      Effect s (s.setPort p { s.ports[p] with nsel := .low, frame := newFrame s p })
  | clockRises (p : Port) (sdi : Level) : Effect s (clockRise s p sdi)
  | clockFalls (p : Port) : Effect s (clockFall s p)
  | lapses (p : Port) (due : leaseExpires s p = true) : Effect s (sessionEnd s p .lapsed)
  | expires (n : SlotNo) (due : periodExpires s n = true) : Effect s (expirePeriod s n)
  | edges (e : Edge) (waits : e ∈ s.timebase.edges) :
      Effect s (takeEdge e (s.setTimebase { s.timebase with edges := s.timebase.edges.erase e }))
  | settled (r : InFlight) (phase : s.conv.phase = .settle) (record : s.conv.record = some r) :
      Effect s (s.setConv (s.conv.enter .sample (sampleTicks r.sampleCode) (some { r with startTick := some s.now })))
  | sampled (r : InFlight) (level : Int) (phase : s.conv.phase = .sample) (record : s.conv.record = some r) :
      Effect s (s.setConv (s.conv.enter .convert convertTicks (some { r with level := level })))
  | repeats (r : InFlight) (phase : s.conv.phase = .convert) (record : s.conv.record = some r)
      (more : r.repeatsDone + 1 < averaging r.avgCode) :
      Effect s (s.setConv (s.conv.enter .sample (sampleTicks r.sampleCode) (some r.repeated)))
  | converted (r : InFlight) (phase : s.conv.phase = .convert) (record : s.conv.record = some r)
      (more : r.repeatsDone < averaging r.avgCode) : Effect s (s.setConv { s.conv with record := some r.repeated })
  | completes (r : InFlight) (phase : s.conv.phase = .convert) (record : s.conv.record = some r) :
      Effect s (select (complete s r))
  | recovers (phase : s.conv.phase = .recover) : Effect s (select (s.setConv (s.conv.enter .idle 0 s.conv.record)))
  | resets (cause : ResetCause) : Effect s (hubReset s cause)
  | resetsByNrst : Effect s (nrstReset s)
  | startsRunning (starting : s.hub.startUp = true) : Effect s (s.setHub { s.hub with startUp := false })
  | refclkHeld (nrst : Level) (noReset : s.hub.resetsAt nrst = false) (held : s.hub.held = true) :
      Effect s (s.setHub { s.hub with nrstLow := s.hub.sampleNrst nrst })
  | refclkStarting (a b nrst : Level) (free : refclkFree s nrst) (noReset : s.hub.resetsAt nrst = false)
      (unheld : s.hub.held = false) (starting : s.hub.startUp = true) :
      Effect s (refclkStartUp (s.setHub { s.hub with nrstLow := s.hub.sampleNrst nrst }) a b)
  | refclkRuns (a b nrst : Level) (free : refclkFree s nrst) (noReset : s.hub.resetsAt nrst = false)
      (unheld : s.hub.held = false) (started : s.hub.startUp = false) :
      Effect s (refclkRunning (s.setHub { s.hub with nrstLow := s.hub.sampleNrst nrst }) a b)
  | supplyReturns (held : s.hub.supplyHold = true) :
      Effect s (s.setHub { s.hub with supplyHold := false }.beginIfFree)
  | nrstReturns (held : s.hub.nrstHold = true) :
      Effect s (s.setHub { s.hub with nrstHold := false, nrstLow := 0 }.beginIfFree)

/-- From s to t leads a chain of effects. -/
abbrev Effects : State → State → Prop := Relation.ReflTransGen Effect

theorem Effect.single {s t : State} (h : Effect s t) : Effects s t := .single h

theorem Effects.then {s t u : State} (h : Effects s t) (k : Effect t u) : Effects s u := h.tail k

/-! ### The ends of a frame as effects -/

/-- The rise that ends a frame as row is the rise alone, or the rise with the row's act. -/
theorem atRise_effects {p : Port} {row : FrameEnd} {act : Frame → State → State} {s t : State}
    (h : atRise p row act s = .next t)
    (acts : frameEnd s.ports[p].frame = row → Effects s (act s.ports[p].frame (raiseSelect s p))) : Effects s t := by
  obtain ⟨-, ⟨-, rfl⟩ | ⟨ends, rfl⟩⟩ := atRise_next h
  · exact (Effect.raises p).single
  · exact acts ends

/-- A frame that ends with a command acting at it is in progress, and did not begin in start-up. -/
theorem frameEnd_acting {f : Frame} {c : Command} (h : frameEnd f = .setting c ∨ frameEnd f = .streaming c) :
    f.state ≠ .idle ∧ f.startUp = false := by
  unfold frameEnd at h
  split at h
  · simp at h
  · simp at h
  · rename_i notIdle _
    refine ⟨notIdle, ?_⟩
    cases startUp : f.startUp with
    | false => rfl
    | true => simp only [startUp, if_true] at h; split at h <;> simp at h

/-- The result register and the lease after a rise. -/
theorem effects_setResult_leaseRestart {s u : State} (h : Effects s u) (p : Port) (r : ResultReg) :
    Effects s (leaseRestart (setResult u p r) p) := (h.then (.results p r)).then (.leases p)

/-- A set command is the rise or its act, with the result and the lease (R178). -/
theorem takeSetting_effects {p : Port} {c : Command} {act : List Byte → State → Done} {s t : State}
    (h : takeSetting p c act s = .next t) (acts : ∀ args u, Acts p u (act args u)) : Effects s t := by
  rw [takeSetting_eq] at h
  refine atRise_effects h fun ends => ?_
  obtain ⟨inFrame, normal⟩ := frameEnd_acting (.inl ends)
  refine effects_setResult_leaseRestart ?_ p _
  rcases acts s.ports[p].frame.args (raiseSelect s p) with same | act
  · rw [same]; exact (Effect.raises p).single
  · exact (Effect.acts p _ inFrame normal act).single

/-- A frame end of the port itself is the rise and a result (R177 to R182). -/
theorem effects_raise_result (s : State) (p : Port) (r : ResultReg) : Effects s (setResult (raiseSelect s p) p r) :=
  (Effect.raises p).single.then (.results p r)

theorem execNop_effects {p : Port} {mid : Bool} {s t : State} (h : execNop p mid s = .next t) : Effects s t := by
  refine atRise_effects (atRiseIn_next h) fun _ => ?_
  split
  · exact (Effect.raises p).single
  · exact (Effect.raises p).single.then (.leases p)

theorem execUnknown_effects {p : Port} {mid : Bool} {s t : State} (h : execUnknown p mid s = .next t) : Effects s t := by
  refine atRise_effects (atRiseIn_next h) fun _ => ?_
  split
  · exact effects_raise_result s p _
  · exact (effects_raise_result s p _).then (.leases p)

theorem execStreamingFrameEnd_effects {p : Port} {s t : State} (h : execStreamingFrameEnd p s = .next t) :
    Effects s t := by
  have ended (c : Command) (h : atRise p (.streaming c) (endStream c p) s = .next t) : Effects s t := by
    refine atRise_effects h fun ends => ?_
    obtain ⟨inFrame, normal⟩ := frameEnd_acting (.inr ends)
    exact effects_setResult_leaseRestart (Effect.unmarks p c inFrame normal).single p _
  unfold execStreamingFrameEnd at h
  split at h
  · exact ended _ h
  · exact ended _ h

/-! ### The edges of SCKp, the converter and the Timebase as effects -/

theorem execFrameStart_effects {p : Port} {s t : State} (h : execFrameStart p s = .next t) : Effects s t := by
  unfold execFrameStart at h
  simp only at h
  split at h
  · cases h
  · split at h
    · cases h; exact (Effect.fallsHeld p).single
    · rename_i free; cases h; exact (Effect.falls p (by simpa using free)).single

theorem execByteCompletion_effects {p : Port} {edge : SckEdge} {s t : State}
    (h : execByteCompletion p edge s = .next t) : Effects s t := by
  cases edge with
  | rise sdi =>
    simp only [execByteCompletion] at h
    split at h <;> cases h
    exact (Effect.clockRises p sdi).single
  | fall =>
    simp only [execByteCompletion] at h
    split at h <;> cases h
    exact (Effect.clockFalls p).single

theorem atTakingEdge_effects {c : Command} {e : RisingEdge} {s t : State} (h : atTakingEdge c e s = .next t) :
    Effects s t := by
  obtain ⟨-, rfl⟩ := atTakingEdge_next h
  exact (Effect.clockRises _ _).single

theorem atRemovalEdge_effects {c : Command} {e : RisingEdge} {s t : State} (h : atRemovalEdge c e s = .next t) :
    Effects s t := by
  obtain ⟨-, rfl⟩ := atRemovalEdge_next h
  exact (Effect.clockRises _ _).single

theorem execReadTime_effects {p : Port} {s t : State} (h : execReadTime p s = .next t) : Effects s t := by
  unfold execReadTime at h
  split at h <;> cases h
  exact (Effect.clockFalls p).single

theorem execLeaseExpiry_effects {p : Port} {s t : State} (h : execLeaseExpiry p s = .next t) : Effects s t := by
  unfold execLeaseExpiry at h
  split at h <;> cases h
  rename_i due
  exact (Effect.lapses p due).single

theorem execPeriodTimerExpiry_effects {n : SlotNo} {s t : State} (h : execPeriodTimerExpiry n s = .next t) :
    Effects s t := by
  unfold execPeriodTimerExpiry at h
  split at h <;> cases h
  rename_i due
  exact (Effect.expires n due).single

theorem execTriggerEdge_effects {line : Line} {s t : State} (h : execTriggerEdge line s = .next t) : Effects s t := by
  unfold execTriggerEdge at h
  split at h <;> cases h
  rename_i e found
  exact (Effect.edges e (List.mem_of_find?_eq_some found)).single

theorem execConvertEnd_effects {s t : State} (h : execConvertEnd s = .next t) : Effects s t := by
  obtain ⟨r, record, phase, -, acts⟩ := atPhaseEnd_next h
  split at acts
  · rename_i more
    split at acts
    · rename_i again; cases acts; exact (Effect.repeats r phase record again).single
    · cases acts; exact (Effect.converted r phase record more).single
  · cases acts

theorem execCompletion_effects {s t : State} (h : execCompletion s = .next t) : Effects s t := by
  obtain ⟨r, record, phase, -, acts⟩ := atPhaseEnd_next h
  split at acts <;> cases acts
  exact (Effect.completes r phase record).single

theorem execRecoverEnd_effects {s t : State} (h : execRecoverEnd s = .next t) : Effects s t := by
  unfold execRecoverEnd at h
  split at h
  · cases h
  · rename_i phase
    split at h <;> cases h
    exact (Effect.recovers (Decidable.not_not.mp phase)).single

theorem execHubReset_effects {cause : ResetCause} {s t : State} (h : execHubReset cause s = .next t) : Effects s t := by
  cases cause with
  | supply => cases h; exact (Effect.resets .supply).single
  | nrst =>
    simp only [execHubReset] at h
    split at h
    · cases h
    · split at h <;> cases h
      exact Effect.resetsByNrst.single

theorem execResetRelease_effects {cause : ResetCause} {s t : State} (h : execResetRelease cause s = .next t) :
    Effects s t := by
  cases cause with
  | supply =>
    simp only [execResetRelease] at h
    split at h <;> cases h
    rename_i held
    exact (Effect.supplyReturns held).single
  | nrst =>
    simp only [execResetRelease] at h
    split at h <;> cases h
    rename_i held
    exact (Effect.nrstReturns held).single

theorem execEndOfStartUp_effects {s t : State} (h : execEndOfStartUp s = .next t) : Effects s t := by
  unfold execEndOfStartUp at h
  split at h <;> cases h
  rename_i ends
  exact (Effect.startsRunning ends.1).single

theorem execRefclkRisingEdge_effects {a b nrst : Level} {s t : State} (h : execRefclkRisingEdge a b nrst s = .next t) :
    Effects s t := by
  unfold execRefclkRisingEdge at h
  simp only at h
  split at h
  · cases h
  · rename_i nothingDue
    have free := (dueBeforeRefclk_eq_none s nrst).mp nothingDue
    split at h
    · cases h; exact Effect.resetsByNrst.single
    · rename_i noReset
      have noReset : s.hub.resetsAt nrst = false := by simpa using noReset
      split at h
      · rename_i held; cases h; exact (Effect.refclkHeld nrst noReset held).single
      · rename_i unheld
        have unheld : s.hub.held = false := by simpa using unheld
        split at h
        · rename_i starting; cases h; exact (Effect.refclkStarting a b nrst free noReset unheld starting).single
        · rename_i started
          cases h
          exact (Effect.refclkRuns a b nrst free noReset unheld (by simpa using started)).single

/-! ### Every command is a chain of effects -/

theorem exec_effects {i : Instr} {s t : State} (h : exec i s = .next t) : Effects s t := by
  cases i with
  | frameStart p =>
    rw [exec_frameStart] at h
    exact execFrameStart_effects h
  | nop p mid =>
    rw [exec_nop] at h
    exact execNop_effects h
  | unknown p mid =>
    rw [exec_unknown] at h
    exact execUnknown_effects h
  | cut p mid =>
    rw [exec_cut] at h
    exact atRise_effects (atRiseIn_next h) fun _ => effects_raise_result s p _
  | starting p =>
    rw [exec_starting] at h
    exact atRise_effects h fun _ => effects_raise_result s p _
  | lost p =>
    rw [exec_lost] at h
    exact atRise_effects h fun _ => effects_raise_result s p _
  | openSession p =>
    rw [exec_openSession] at h
    exact takeSetting_effects h fun args u => openCommand_acts p args u
  | closeSession p =>
    rw [exec_closeSession] at h
    exact takeSetting_effects h fun _ _ => Acts.withSession fun isOpen => .inr (.closes isOpen)
  | leaseExpiry p =>
    rw [exec_leaseExpiry] at h
    exact execLeaseExpiry_effects h
  | stageClear p =>
    rw [exec_stageClear] at h
    exact takeSetting_effects h fun _ _ => Acts.withSession fun _ => .inr (.stages _)
  | stageWord p =>
    rw [exec_stageWord] at h
    exact takeSetting_effects h fun args u => Acts.withSession fun _ => stageWord_acts p args u
  | install p =>
    rw [exec_install] at h
    exact takeSetting_effects h fun args _ => Acts.withSession fun isOpen => install_acts args isOpen
  | modify p =>
    rw [exec_modify] at h
    exact takeSetting_effects h fun _ _ => onOwnSlot_has_acts fun _ _ owner notFree =>
      notRetiring_acts owner notFree modify_acts
  | delete p =>
    rw [exec_delete] at h
    exact takeSetting_effects h fun _ _ => onOwnSlot_has_acts fun n _ owner notFree =>
      notRetiring_acts owner notFree fun own => .inr (.deletes n own)
  | stop p =>
    rw [exec_stop] at h
    exact takeSetting_effects h fun _ _ => onOwnSlot_has_acts fun n _ owner notFree =>
      notRetiring_acts owner notFree fun _ => stop_acts p n _
  | run p =>
    rw [exec_run] at h
    exact takeSetting_effects h fun _ _ => onOwnSlot_has_acts fun n _ owner notFree =>
      notRetiring_acts owner notFree fun _ => run_acts p n _
  | startBurst p =>
    rw [exec_startBurst] at h
    exact takeSetting_effects h fun _ _ => onOwnSlot_has_acts fun _ _ owner notFree =>
      notRetiring_acts owner notFree startBurst_acts
  | fetch p =>
    rw [exec_fetch] at h
    exact takeSetting_effects h fun _ _ => onOwnSlot_has_acts fun n _ _ _ => .inr (.fetches n)
  | readBuffer edge =>
    rw [exec_readBuffer] at h
    exact atTakingEdge_effects h
  | takeSamples edge =>
    rw [exec_takeSamples] at h
    exact atTakingEdge_effects h
  | sampleRecordRemoved edge =>
    rw [exec_sampleRecordRemoved] at h
    exact atRemovalEdge_effects h
  | takeEvents edge =>
    rw [exec_takeEvents] at h
    exact atTakingEdge_effects h
  | eventRecordRemoved edge =>
    rw [exec_eventRecordRemoved] at h
    exact atRemovalEdge_effects h
  | releaseQueue p =>
    rw [exec_releaseQueue] at h
    exact takeSetting_effects h fun _ u => Acts.withSession fun _ => releaseQueue_acts p u
  | readNow p =>
    rw [exec_readNow] at h
    exact takeSetting_effects h fun args u => Acts.withSession fun _ => readNow_acts p args u
  | peekLatest edge =>
    rw [exec_peekLatest] at h
    exact atTakingEdge_effects h
  | readTime p =>
    rw [exec_readTime] at h
    exact execReadTime_effects h
  | claim p =>
    rw [exec_claim] at h
    exact takeSetting_effects h fun _ _ => onExternal_has_acts fun c isOpen => claim_acts c isOpen
  | release p =>
    rw [exec_release] at h
    exact takeSetting_effects h fun _ u => onExternal_has_acts fun c _ => release_acts p c u
  | configure p =>
    rw [exec_configure] at h
    exact takeSetting_effects h fun args u => Acts.withSession fun _ => configure_acts p args u
  | readChannel edge =>
    rw [exec_readChannel] at h
    exact atTakingEdge_effects h
  | watchSet p =>
    rw [exec_watchSet] at h
    exact takeSetting_effects h fun _ _ => onWatch_has_acts fun _ _ => watchSet_writes
  | watchArm p =>
    rw [exec_watchArm] at h
    exact takeSetting_effects h fun _ _ => onWatch_has_acts fun _ _ => watchArm_writes
  | watchDisarm p =>
    rw [exec_watchDisarm] at h
    exact takeSetting_effects h fun _ _ => onWatch_has_acts fun _ _ => watchDisarm_writes
  | watchClear p =>
    rw [exec_watchClear] at h
    exact takeSetting_effects h fun _ _ => onWatch_has_acts fun _ _ => watchClear_writes
  | watchRead edge =>
    rw [exec_watchRead] at h
    exact atTakingEdge_effects h
  | periodTimerExpiry n =>
    rw [exec_periodTimerExpiry] at h
    exact execPeriodTimerExpiry_effects h
  | triggerEdge line =>
    rw [exec_triggerEdge] at h
    exact execTriggerEdge_effects h
  | settleEnd =>
    rw [exec_settleEnd] at h
    obtain ⟨r, record, phase, -, acts⟩ := atPhaseEnd_next h
    cases acts; exact (Effect.settled r phase record).single
  | sampleEnd inputs =>
    rw [exec_sampleEnd] at h
    obtain ⟨r, record, phase, -, acts⟩ := atPhaseEnd_next h
    cases acts; exact (Effect.sampled r _ phase record).single
  | convertEnd =>
    rw [exec_convertEnd] at h
    exact execConvertEnd_effects h
  | completion =>
    rw [exec_completion] at h
    exact execCompletion_effects h
  | recoverEnd =>
    rw [exec_recoverEnd] at h
    exact execRecoverEnd_effects h
  | hubReset cause =>
    rw [exec_hubReset] at h
    exact execHubReset_effects h
  | endOfStartUp =>
    rw [exec_endOfStartUp] at h
    exact execEndOfStartUp_effects h
  | refclkRisingEdge a b nrst =>
    rw [exec_refclkRisingEdge] at h
    exact execRefclkRisingEdge_effects h
  | resetRelease cause =>
    rw [exec_resetRelease] at h
    exact execResetRelease_effects h
  | byteCompletion p edge =>
    rw [exec_byteCompletion] at h
    exact execByteCompletion_effects h
  | streamingFrameEnd p =>
    rw [exec_streamingFrameEnd] at h
    exact execStreamingFrameEnd_effects h

/-- What every effect keeps, a chain of effects keeps. -/
theorem Effects.keeps {Inv : State → Prop} (effect : ∀ s t, Effect s t → Inv s → Inv t) {s t : State}
    (h : Effects s t) (inv : Inv s) : Inv t := by
  induction h with
  | refl => exact inv
  | tail _ last ih => exact effect _ _ last ih

/-- What every effect keeps, and what does not read the queue of waiting commands, every step keeps. -/
theorem step_keeps {Inv : State → Prop} (queue : ∀ s l, Inv s → Inv (s.setPending l))
    (effect : ∀ s t, Effect s t → Inv s → Inv t) {s t : State} (inv : Inv s) (h : step s = .next t) : Inv t := by
  cases pending : s.pending with
  | nil => rw [step_nil pending] at h; cases h; exact inv
  | cons c rest =>
    rw [step_cons pending] at h
    exact (exec_effects h).keeps effect (queue s rest inv)

end Sys2Proof.Machine
end

