-- ==== Sys2Proof/Proofs/SessionEnd.lean ====
section
/-! PROOF. The session end, field by field (R155): what CLOSE (R151) and the expiry of a lease (R153) leave. -/

namespace Sys2Proof.Machine

/-! ### The session end, field by field -/

section
variable (s : State) (p : Port) (after : SessionState)

@[simp] theorem endQueue_slots : (endQueue s p).slots = s.slots := by unfold endQueue; split <;> rfl
@[simp] theorem endQueue_requests : (endQueue s p).requests = s.requests := by unfold endQueue; split <;> rfl
@[simp] theorem endQueue_conv : (endQueue s p).conv = s.conv := by unfold endQueue; split <;> rfl
@[simp] theorem endQueue_channels : (endQueue s p).channels = s.channels := by unfold endQueue; split <;> rfl
@[simp] theorem endQueue_watches : (endQueue s p).watches = s.watches := by unfold endQueue; split <;> rfl
@[simp] theorem endQueue_events : (endQueue s p).events = s.events := by unfold endQueue; split <;> rfl
@[simp] theorem endQueue_sessions : (endQueue s p).sessions = s.sessions := by unfold endQueue; split <;> rfl
@[simp] theorem endQueue_ports : (endQueue s p).ports = s.ports := by unfold endQueue; split <;> rfl

/-- A queue set to what it is leaves the table as it is. -/
theorem set_none_of_none {α : Type} {n : Nat} (v : Vector (Option α) n) (i : Fin n) (h : v[i] = none) :
    v.set i none = v := by rw [← h]; exact Vector.set_getElem_self _

theorem endQueue_queues : (endQueue s p).queues = s.queues.set p none := by
  unfold endQueue
  split
  · rfl
  · rename_i none; exact (set_none_of_none _ _ none).symm

theorem endQueue_unreserved :
    (endQueue s p).unreserved = s.unreserved + ((s.queues[p].map fun q => q.depth).getD 0) := by
  unfold endQueue
  split
  · rename_i q queue; rw [queue]; rfl
  · rename_i none; rw [none]; rfl

/-- The session record of port p when its session has ended. -/
def endedSession : Session :=
  { state := after, lease := 0, expiry := none
    demandOutstanding := s.sessions[p].demandOutstanding && !demandWaiting s p }

theorem sessionEnd_sessions : (sessionEnd s p after).sessions = s.sessions.set p (endedSession s p after) := by
  simp only [sessionEnd, endRecord, endPort, endWatches, endClaims, endFlight, endRequests, State.setSession_sessions,
    State.setPort_sessions, State.setEvents_sessions, State.setWatches_sessions, endQueue_sessions,
    State.mapChannels_sessions, State.mapSlots_sessions, State.setConv_sessions, State.setRequests_sessions,
    getElem_set_same, endedSession]
  exact Vector.set_set ..

theorem sessionEnd_session : (sessionEnd s p after).sessions[p] = endedSession s p after := by
  rw [sessionEnd_sessions]; exact getElem_set_same _ _ _

theorem sessionEnd_isOpen (q : Port) :
    (sessionEnd s p after).isOpen q = if p = q then decide (after = .opened) else s.isOpen q := by
  unfold State.isOpen
  rw [sessionEnd_sessions, getElem_set_at]
  split <;> rfl

theorem sessionEnd_slot (n : SlotNo) : (sessionEnd s p after).slots[n] = slotAtSessionEnd p s.slots[n] := by
  have slots : (sessionEnd s p after).slots = Vector.ofFn fun n => slotAtSessionEnd p s.slots[n] := by
    simp [sessionEnd, endRecord, endPort, endWatches, endClaims, endFlight, endRequests]
  rw [slots, getElem_ofFn_at]

theorem sessionEnd_requests :
    (sessionEnd s p after).requests = withdrawWhere (ownedBy s p) s.requests := by
  simp [sessionEnd, endRecord, endPort, endWatches, endClaims, endFlight, endRequests]

theorem sessionEnd_conv :
    (sessionEnd s p after).conv = { s.conv with record := s.conv.record.map (orphan p) } := by
  simp [sessionEnd, endRecord, endPort, endWatches, endClaims, endFlight, endRequests]

theorem sessionEnd_channel (c : Fin 16) : (sessionEnd s p after).channels[c] =
    if s.channels[c].holder = some p then { s.channels[c] with holder := none } else s.channels[c] := by
  simp [sessionEnd, endRecord, endPort, endWatches, endClaims, endFlight, endRequests]

theorem sessionEnd_queues : (sessionEnd s p after).queues = s.queues.set p none :=
  endQueue_queues _ p

theorem sessionEnd_unreserved :
    (sessionEnd s p after).unreserved = s.unreserved + ((s.queues[p].map fun q => q.depth).getD 0) :=
  endQueue_unreserved _ p

theorem sessionEnd_watches :
    (sessionEnd s p after).watches = s.watches.set p (Vector.replicate 8 Watch.empty) := by
  simp [sessionEnd, endRecord, endPort, endWatches, endClaims, endFlight, endRequests]

theorem sessionEnd_watch (w : Fin 8) : (sessionEnd s p after).watches[p][w] = Watch.empty := by
  rw [sessionEnd_watches]; simp

theorem sessionEnd_events : (sessionEnd s p after).events = s.events.set p EventQueue.empty := by
  simp [sessionEnd, endRecord, endPort, endWatches, endClaims, endFlight, endRequests]

theorem sessionEnd_port : (sessionEnd s p after).ports[p] = { s.ports[p] with
    staging := stagingDefaults, readBuf := readBufferZero, frame := s.ports[p].frame.atSessionEnd } := by
  have ports : (sessionEnd s p after).ports = s.ports.set p { s.ports[p] with
      staging := stagingDefaults, readBuf := readBufferZero, frame := s.ports[p].frame.atSessionEnd } := by
    simp [sessionEnd, endRecord, endPort, endWatches, endClaims, endFlight, endRequests]
  rw [ports]; exact getElem_set_same _ _ _

end

/-! ### What a session end leaves, in the statements' words -/

theorem slotAtSessionEnd_takenBack (p : Port) (x : Slot) : slotTakenBack p x (slotAtSessionEnd p x) := by
  unfold slotTakenBack slotAtSessionEnd
  by_cases own : x.owner = some p
  · rw [if_pos own, if_pos own]
    cases x.state <;> simp
    · split <;> simp_all
    · split <;> simp_all
  · rw [if_neg own, if_neg own]

/-- Each block gives up what port p held (R155). -/
theorem sessionEnd_takesBack (s : State) (p : Port) (after : SessionState) :
    takenBack p after s (sessionEnd s p after) := by
  have session := sessionEnd_session s p after
  have port := sessionEnd_port s p after
  refine ⟨?_, ?_, ?_, ?_, fun n => ?_, sessionEnd_requests s p after, sessionEnd_conv s p after,
    sessionEnd_channel s p after, ?_, sessionEnd_unreserved s p after, sessionEnd_watch s p after, ?_, ?_, ?_⟩
  · rw [session]; rfl
  · rw [session]; rfl
  · rw [session]; rfl
  · rw [session]; rfl
  · rw [sessionEnd_slot]; exact slotAtSessionEnd_takenBack p _
  · rw [sessionEnd_queues]; exact getElem_set_same _ _ _
  · rw [sessionEnd_events]; exact getElem_set_same _ _ _
  · rw [port]
  · rw [port]

/-- What a session end takes back does not depend on the pin and the frame of its port. -/
theorem takenBack_raiseSelect {s t : State} {p : Port} {after : SessionState} (h : takenBack p after (raiseSelect s p) t) :
    takenBack p after s t := h

/-- The result register and the lease of a session that is not OPEN leave what a session end has taken back. -/
theorem takenBack_result {s t : State} {p : Port} {r : ResultReg} (h : takenBack p .closed s t) :
    takenBack p .closed s (leaseRestart (setResult t p r) p) := by
  have same : leaseRestart (setResult t p r) p = setResult t p r := by
    unfold leaseRestart
    rw [if_neg]
    rw [setResult_isOpen]
    simp [State.isOpen, h.1, -Fin.getElem_fin]
  rw [same]
  unfold takenBack at *
  rw [setResult_port]
  exact h

/-- Settles O24: CLOSE of an OPEN session is its session end, with the rise of nSELp around it. -/
theorem closeTakesEverythingBack : Obligations.CloseTakesEverythingBack := by
  intro p s due isOpen
  have effect : withSession p (close p) (raiseSelect s p) = (sessionEnd (raiseSelect s p) p .closed, ⟨.ok, 0⟩) :=
    withSession_open (s := raiseSelect s p) isOpen
  refine ⟨_, (exec_closeSession p s).trans (takeSetting_due due rfl _), ?_⟩
  have left : riseEffect p (fun _ => withSession p (close p)) s.ports[p].frame (raiseSelect s p)
      = leaseRestart (setResult (sessionEnd (raiseSelect s p) p .closed) p ⟨.ok, 0⟩) p := by
    unfold riseEffect; dsimp only; rw [effect]
  rw [left]
  have port : (leaseRestart (setResult (sessionEnd (raiseSelect s p) p .closed) p ⟨.ok, 0⟩) p).ports[p] =
      { s.ports[p] with
        nsel := .high, frame := Frame.idle, result := ⟨.ok, 0⟩, staging := stagingDefaults
        readBuf := readBufferZero } := by
    rw [leaseRestart_ports, setResult_port, sessionEnd_port, raiseSelect_port]
    rfl
  refine ⟨takenBack_result (takenBack_raiseSelect (sessionEnd_takesBack _ p .closed)), ?_, ?_, ?_, ?_⟩
  · rw [port]
  · rw [port]
  · rw [port]
  · have within {l : List Part} {u v : State} (h : sameBut l u v)
        (sub : ∀ x ∈ l, x ∈ [.select p, .frame p, .result p] ++ sessionParts p) := sameBut_mono h sub
    exact sameBut_trans (within (sameBut_raiseSelect s p) (by simp)) (sameBut_trans
      (within (sameBut_sessionEnd _ p .closed) (by simp +contextual)) (sameBut_trans
        (within (sameBut_setResult _ p _) (by simp)) (within (sameBut_leaseRestart _ p) (by simp [sessionParts]))))

/-! ### The frame at the end of its session (R180) -/

theorem becomesDead_iff (f : Frame) : f.becomesDead = true ↔ f.state ≠ .idle ∧ f.startUp = false ∧ f.sessionNoted = true
    ∧ ∃ c, f.command = some c ∧ c.needsSession = true := by
  unfold Frame.becomesDead
  cases f.command <;> simp [and_assoc]

/-- Settles O25: the expiry is the session end, the LAPSED session pulls nATTNp low, and the frame is that of R180. -/
theorem leaseExpiryLapsesTheSession : Obligations.LeaseExpiryLapsesTheSession := by
  intro p s d isOpen armed passed
  have due : leaseExpires s p = true := by
    simp only [leaseExpires, armed, isOpen, reached, passed, decide_true, Bool.and_self]
  have taken : exec (.leaseExpiry p) s = .next (sessionEnd s p .lapsed) := by
    rw [exec_leaseExpiry, execLeaseExpiry, if_pos due]
  have port := sessionEnd_port s p .lapsed
  refine ⟨_, taken, sessionEnd_takesBack s p .lapsed, ?_, sameBut_sessionEnd s p .lapsed, ?_, ?_⟩
  · rw [natt_low_iff, sessionEnd_session]
    simp [endedSession]
  · intro c inFrame normal command needs noted
    have dead : s.ports[p].frame.atSessionEnd = { s.ports[p].frame with state := .dead } :=
      if_pos ((becomesDead_iff _).mpr ⟨inFrame, normal, noted, c, command, needs⟩)
    refine ⟨by rw [port, dead], ?_, by rw [port, dead]; rfl⟩
    unfold State.sdo
    rw [port, dead, if_neg inFrame, if_neg (by simp)]
  · intro kept
    rw [port]
    refine if_neg fun dead => ?_
    obtain ⟨inFrame, normal, noted, c, command, needs⟩ := (becomesDead_iff _).mp dead
    rcases kept with h | h | h | h | ⟨c', h, k⟩ <;> simp_all [-Fin.getElem_fin]

end Sys2Proof.Machine
end

