-- ==== Sys2Proof/Proofs/Pool.lean ====
section
/-! PROOF. Every step keeps the record pool (R101, R102, R103): the effects that write a sample queue leave it in range with its depth, and OPEN and the session end move cells between the pool and a queue. -/

namespace Sys2Proof.Machine

/-! ### The frames of the slot commands and READ_NOW -/

theorem stop_running {s : State} {n : SlotNo} (running : s.slots[n].state = .running) : (stop n s).1 =
    (withdrawPending s n).setSlot n { (withdrawPending s n).slots[n] with
      state := .stopped
      burstRemaining := if (withdrawPending s n).slots[n].settings.kind = .burst then 0
        else (withdrawPending s n).slots[n].burstRemaining } := by
  unfold stop
  rw [if_pos running]
  rfl

theorem sameBut_stop {s : State} {n : SlotNo} (running : s.slots[n].state = .running) :
    sameBut [.slot n, .requests] s (stop n s).1 := by
  rw [stop_running running]
  exact sameBut_trans (sameBut_withdrawPending s n) (sameBut_mono (sameBut_setSlot _ _ _) (by simp))

/-- A START_BURST that its checks let through (R20, R38, R42). -/
theorem startBurst_starts {s : State} {n : SlotNo} (stopped : s.slots[n].state = .stopped)
    (kind : s.slots[n].settings.kind = .burst) : startBurst n s = okSlot
      (if s.requests.isEmpty then selectIfIdle (startBurstAt s n s.now) else startBurstAt s n s.now) n := by
  have passes : ¬ (s.slots[n].settings.kind ≠ .burst ∨ s.slots[n].state = .running) := by
    simp [stopped, kind, -Fin.getElem_fin]
  unfold startBurst
  simp only [if_neg passes]

theorem sameBut_startBurst {s : State} {n : SlotNo} (stopped : s.slots[n].state = .stopped)
    (kind : s.slots[n].settings.kind = .burst) :
    sameBut ([.requests, .converter] ++ allSlots) s (startBurst n s).1 := by
  rw [startBurst_starts stopped kind]
  have started : sameBut ([.requests, .converter] ++ allSlots) s (startBurstAt s n s.now) :=
    sameBut_mono (sameBut_startBurstAt _ _ _) (by simp)
  exact sameBut_ite (sameBut_trans started (sameBut_selectIfIdle _)) started

theorem sameBut_fetch (p : Port) (n : SlotNo) (s : State) : sameBut [.readBuf p] s (fetch p n s).1 :=
  sameBut_setPort _ _ _ _ (.inr rfl) (.inr rfl) (.inr rfl) (.inr rfl) (.inr rfl) (.inl (by simp))

theorem sameBut_demanded (s : State) (p : Port) (c : Channel) (x : BitVec 2) (y : BitVec 3) :
    sameBut ([.demand p, .requests, .converter] ++ allSlots) s
      (if s.requests.isEmpty then selectIfIdle (requestDemand s p c x y) else requestDemand s p c x y) := by
  have demanded : sameBut ([.demand p, .requests, .converter] ++ allSlots) s (requestDemand s p c x y) :=
    sameBut_mono (sameBut_requestDemand _ _ _ _ _) (by simp)
  exact sameBut_ite (sameBut_trans demanded (sameBut_mono (sameBut_selectIfIdle _) (by simp +contextual))) demanded

/-! ### The frames of the Timebase -/

theorem sameBut_refclkRunning (s : State) (a b : Level) :
    sameBut [.timebase, .converter, .free] s (refclkRunning s a b) := by
  have ran (x : Timebase) (y : Converter) : sameBut [.timebase, .converter, .free] s ((s.setTimebase x).setConv y) :=
    sameBut_trans (sameBut_mono (sameBut_setTimebase _ _) (by simp)) (sameBut_mono (sameBut_setConv _ _) (by simp))
  exact sameBut_ite (sameBut_trans (ran _ _) (sameBut_mono (sameBut_useFree _) (by simp))) (ran _ _)

theorem sameBut_refclkStartUp (s : State) (a b : Level) : sameBut [.hub, .timebase] s (refclkStartUp s a b) :=
  sameBut_trans (sameBut_mono (sameBut_setHub _ _) (by simp)) (sameBut_mono (sameBut_setTimebase _ _) (by simp))

theorem sameBut_fall (s : State) (p : Port) (f : Frame) :
    sameBut [.select p, .frame p] s (s.setPort p { s.ports[p] with nsel := .low, frame := f }) :=
  sameBut_setPort _ _ _ _ (.inl (by simp)) (.inr rfl) (.inl (by simp)) (.inr rfl) (.inr rfl) (.inr rfl)

theorem sameBut_fallHeld (s : State) (p : Port) :
    sameBut [.select p] s (s.setPort p { s.ports[p] with nsel := .low }) :=
  sameBut_setPort _ _ _ _ (.inl (by simp)) (.inr rfl) (.inr rfl) (.inr rfl) (.inr rfl) (.inr rfl)

/-! ### What PoolOk reads -/

/-- The parts that PoolOk reads. -/
def Part.ofPool (x : Part) : Bool :=
  match x with
  | .unreserved | .queue _ | .session _ => true
  | _ => false

theorem isOpen_of_same {s t : State} {p : Port} (h : (Part.session p).same s t) : t.isOpen p = s.isOpen p := by
  unfold State.isOpen; rw [h.1]

/-- A change outside its parts keeps PoolOk. -/
theorem PoolOk_frame {l : List Part} {s t : State} (frame : sameBut l s t) (ok : PoolOk s)
    (outside : l.any Part.ofPool = false) : PoolOk t := by
  have kept (x : Part) (h : x.ofPool = true) : x.same s t :=
    frame x fun mem => List.any_eq_false.mp outside x mem h
  have queue (p : Port) : t.queues[p] = s.queues[p] := kept (.queue p) rfl
  unfold PoolOk reservedCells at *
  obtain ⟨cells, opens, ranges⟩ := ok
  simp only [queue, isOpen_of_same (kept (.session _) rfl)]
  exact ⟨(congrArg (· + _) (kept .unreserved rfl)).trans cells, opens, ranges⟩

/-- The cells that a sample queue takes from the pool; a port without a queue takes none (R102). -/
def cellsOf (q : Option SampleQueue) : Nat := (q.map fun q => q.depth).getD 0

/-- Another queue at port p trades its cells for those of the old one. -/
theorem reservedCells_set (s t : State) (p : Port) (x : Option SampleQueue) (h : t.queues = s.queues.set p x) :
    reservedCells t + cellsOf s.queues[p] = reservedCells s + cellsOf x := by
  have cells : (fun q : Port => cellsOf t.queues[q]) = Function.update (fun q => cellsOf s.queues[q]) p (cellsOf x) := by
    funext q
    rw [h, getElem_set_at, Function.update_apply]
    by_cases e : p = q
    · rw [if_pos e, if_pos e.symm]
    · rw [if_neg e, if_neg (Ne.symm e)]
  have sum (u : State) : reservedCells u = ∑ q : Port, cellsOf u.queues[q] := (Fin.sum_univ_def _).symm
  rw [sum, sum, cells, Finset.sum_update_of_mem (Finset.mem_univ p),
    ← Finset.add_sum_erase Finset.univ _ (Finset.mem_univ p), Finset.sdiff_singleton_eq_erase]
  omega

/-! ### Writes of one queue -/

/-- A queue in range that takes the place of one of the same depth. -/
theorem PoolOk_setQueue {s : State} {p : Port} {q x : SampleQueue} (ok : PoolOk s) (queue : s.queues[p] = some q)
    (inRange : x.ok) (depth : x.depth = q.depth) : PoolOk (s.setQueue p (some x)) := by
  obtain ⟨cells, opens, ranges⟩ := ok
  refine ⟨?_, fun r => ?_, fun r => ?_⟩
  · have trade := reservedCells_set s (s.setQueue p (some x)) p (some x) rfl
    simp only [queue, cellsOf, Option.map_some, Option.getD_some, depth] at trade
    rw [State.setQueue_unreserved]
    omega
  · have same : (s.setQueue p (some x)).isOpen r = s.isOpen r := rfl
    rw [same, opens, State.setQueue_queues, getElem_set_at]
    split
    · rename_i e; subst e; rw [queue]; rfl
    · rfl
  · rw [State.setQueue_queues, getElem_set_at]
    split
    · rintro y ⟨⟩; exact inRange
    · exact ranges r

theorem PoolOk_queue {s : State} {p : Port} {q : SampleQueue} (ok : PoolOk s) (queue : s.queues[p] = some q) : q.ok :=
  ok.2.2 p q queue

/-- Hold and the pending-gap count apart, a queue in range needs a head for its shifting mark. -/
theorem SampleQueue.mark_ok {q : SampleQueue} (h : q.ok) (nonempty : q.records ≠ []) : ({ q with shifting := true } : SampleQueue).ok := by
  obtain ⟨h1, h2, h3, h4, h5, h6, h7, -⟩ := h
  exact ⟨h1, h2, h3, h4, h5, h6, h7, fun _ => nonempty⟩

theorem SampleQueue.unmark_ok {q : SampleQueue} (h : q.ok) : ({ q with shifting := false } : SampleQueue).ok := by
  obtain ⟨h1, h2, h3, h4, h5, h6, h7, -⟩ := h
  exact ⟨h1, h2, h3, h4, h5, h6, h7, nofun⟩

theorem SampleQueue.hold_ok {q : SampleQueue} (h : q.ok) (b : Bool) : ({ q with hold := b } : SampleQueue).ok := h

theorem PoolOk_offerRecord {s : State} (p : Port) (b : Bool) {r : SampleRecord} (fresh : r.dropped = 0) (ok : PoolOk s) :
    PoolOk (offerRecord s p b r) := by
  unfold offerRecord
  split
  · rename_i q queue
    exact PoolOk_setQueue ok queue (SampleQueue.offer_ok (PoolOk_queue ok queue) b (by omega)) (q.offer_depth b r)
  · exact ok

theorem PoolOk_setFrame {s : State} (p : Port) (f : Frame) (ok : PoolOk s) : PoolOk (setFrame s p f) :=
  PoolOk_frame (sameBut_setFrame s p f) ok rfl

theorem PoolOk_decideSamples {s : State} (p : Port) (ok : PoolOk s) : PoolOk (decideSamples s p) := by
  unfold decideSamples
  simp only
  split
  · rename_i q queue
    split
    · rename_i r rest records
      split
      · exact PoolOk_setFrame p _ (PoolOk_setQueue ok queue
          (SampleQueue.mark_ok (PoolOk_queue ok queue) (by simp [records])) rfl)
      · exact PoolOk_setFrame p _ ok
    · exact PoolOk_setFrame p _ ok
  · exact PoolOk_setFrame p _ ok

/-- A function of the queue that keeps it in range, with its depth, keeps the pool. -/
theorem PoolOk_mapQueue {s : State} (p : Port) (f : SampleQueue → SampleQueue) (keeps : ∀ q : SampleQueue, q.ok → (f q).ok)
    (depth : ∀ q, (f q).depth = q.depth) (ok : PoolOk s) : PoolOk (s.setQueue p (s.queues[p].map f)) := by
  cases queue : s.queues[p] with
  | some q => exact PoolOk_setQueue ok queue (keeps q (PoolOk_queue ok queue)) (depth q)
  | none =>
    have same : s.setQueue p none = s := by
      have : s.queues.set p none = s.queues := by rw [← queue]; exact Vector.set_getElem_self _
      unfold State.setQueue; rw [this]
    show PoolOk (s.setQueue p none)
    rwa [same]

theorem PoolOk_removeSample {s : State} (p : Port) (ok : PoolOk s) : PoolOk (removeSample s p) :=
  PoolOk_decideSamples p (PoolOk_setFrame p _
    (PoolOk_mapQueue p _ (fun _ => SampleQueue.removeHead_ok) (fun _ => rfl) ok))

theorem PoolOk_clearMark {s : State} (p : Port) (c : Command) (ok : PoolOk s) : PoolOk (clearMark s p c) := by
  unfold clearMark
  split
  · exact PoolOk_mapQueue p _ (fun _ => SampleQueue.unmark_ok) (fun _ => rfl) ok
  · exact PoolOk_frame (sameBut_setEvents _ _ _) ok rfl
  · exact ok

/-! ### The edges of SCKp -/

theorem PoolOk_removeRecord {s : State} (p : Port) (ok : PoolOk s) : PoolOk (removeRecord s p) := by
  unfold removeRecord
  split
  · exact PoolOk_removeSample p ok
  · exact PoolOk_frame (sameBut_mono (sameBut_removeEvent s p) fun _ h => h) ok rfl
  · exact ok

theorem PoolOk_completeByte {s : State} (p : Port) (b : Byte) (ok : PoolOk s) : PoolOk (completeByte s p b) := by
  unfold completeByte
  simp only
  split
  · exact ok
  · exact PoolOk_setFrame p _ ok
  · exact PoolOk_frame (sameBut_completeArgument s p b) ok rfl
  · unfold completeReplyByte
    simp only
    split
    · exact PoolOk_removeRecord p (PoolOk_setFrame p _ ok)
    · exact PoolOk_frame (sameBut_spillIfExhausted _ p) (PoolOk_setFrame p _ ok) rfl
  · exact PoolOk_setFrame p _ ok
  · exact PoolOk_setFrame p _ ok

theorem PoolOk_clockRise {s : State} (p : Port) (sdi : Level) (ok : PoolOk s) : PoolOk (clockRise s p sdi) := by
  have clocked : PoolOk (setClock s p .high) := PoolOk_frame (sameBut_setClock _ _ _) ok rfl
  unfold clockRise sampleBit
  simp only
  split
  · exact clocked
  · split
    · exact PoolOk_setFrame p _ clocked
    · exact PoolOk_completeByte p _ (PoolOk_setFrame p _ clocked)

theorem PoolOk_firstDecision {s : State} (p : Port) (ok : PoolOk s) : PoolOk (firstDecision s p) := by
  unfold firstDecision
  simp only
  split
  · split
    · exact PoolOk_decideSamples p ok
    · exact PoolOk_frame (sameBut_decideEvents s p) ok rfl
    · exact ok
  · exact ok

theorem PoolOk_clockFall {s : State} (p : Port) (ok : PoolOk s) : PoolOk (clockFall s p) := by
  have clocked : PoolOk (setClock s p .low) := PoolOk_frame (sameBut_setClock _ _ _) ok rfl
  unfold clockFall startBit
  simp only
  split
  · exact clocked
  · refine PoolOk_setFrame p _ ?_
    split
    · exact PoolOk_setFrame p _ clocked
    · exact PoolOk_firstDecision p clocked

/-! ### A completion -/

theorem PoolOk_holdAction {s : State} (p : Port) (w : Fin 8) (tick : Tick) (ok : PoolOk s) :
    PoolOk (holdAction s p w tick) := by
  unfold holdAction
  split
  · rename_i q queue
    have held := PoolOk_setQueue ok queue (SampleQueue.hold_ok (PoolOk_queue ok queue) true) rfl
    simp only
    split
    · exact held
    · exact PoolOk_frame (sameBut_sendEvent _ _ _) held rfl
  · exact ok

theorem PoolOk_carryOutMatch {s : State} (p : Port) (w : Fin 8) (n : SlotNo) (tick : Tick) (c : Conditions)
    (ok : PoolOk s) : PoolOk (carryOutMatch s p w n tick c) := by
  have wrote (u : State) (x : Watch) (h : PoolOk u) : PoolOk (u.setWatch p w x) :=
    PoolOk_frame (sameBut_setWatch _ _ _ _) h rfl
  have acted (u : State) (x : Watch) (h : PoolOk u) : PoolOk (watchAction u p w x tick) := by
    unfold watchAction
    split
    · exact h
    · exact PoolOk_holdAction p w tick h
    · exact PoolOk_frame (sameBut_captureAction _ _ _ _ _) h rfl
  unfold carryOutMatch
  simp only
  have hit := acted _ s.watches[p][w] (PoolOk_frame (sameBut_sendEvent _ p
    { kind := .watchHit, subject := BitVec.ofNat 8 w.val, tick := tick, detail := watchHitDetail n c }) (wrote s { s.watches[p][w] with hitCount := hold65535 s.watches[p][w].hitCount 1 } ok) rfl)
  split
  · exact wrote _ _ hit
  · exact hit

/-- What every step of a fold keeps, the fold keeps. -/
theorem foldl_keeps {α : Type} {Inv : State → Prop} {f : State → α → State} (keeps : ∀ s a, Inv s → Inv (f s a))
    (l : List α) {s : State} (inv : Inv s) : Inv (l.foldl f s) := by
  induction l generalizing s with
  | nil => exact inv
  | cons a l ih => exact ih (keeps s a inv)

theorem PoolOk_evaluateWatches {s : State} (p : Port) (n : SlotNo) (tick : Tick) (c : Conditions) (ok : PoolOk s) :
    PoolOk (evaluateWatches s p n tick c) := by
  refine foldl_keeps (fun u w h => ?_) _ ok
  unfold testWatch
  split
  · exact PoolOk_carryOutMatch p w n tick c h
  · exact h

theorem PoolOk_deliverTo {s : State} (c : Report) (n : SlotNo) (t : Slot) (sub : Option SubEntry) (ok : PoolOk s) :
    PoolOk (deliverTo s c n t sub) := by
  unfold deliverTo
  simp only
  split
  · refine PoolOk_evaluateWatches _ _ _ _ ?_
    split
    · exact PoolOk_offerRecord _ _ rfl ok
    · exact ok
  · exact ok

theorem PoolOk_serveSlot (c : Report) {s : State} (x : SlotNo × Option SubEntry) (ok : PoolOk s) :
    PoolOk (serveSlot c s x) := by
  exact PoolOk_frame (sameBut_burstAccounting _ _ _) (PoolOk_deliverTo c _ _ _
    (PoolOk_frame (sameBut_setSlot _ _ _) ok rfl)) rfl

theorem PoolOk_serveDemand (c : Report) {s : State} (x : FlightEntry) (ok : PoolOk s) : PoolOk (serveDemand c s x) := by
  unfold serveDemand
  split
  · exact ok
  · split
    · exact ok
    · exact PoolOk_offerRecord _ _ rfl ok

theorem PoolOk_complete {s : State} (r : InFlight) (ok : PoolOk s) : PoolOk (complete s r) := by
  unfold complete
  refine PoolOk_frame (sameBut_releaseSlots _ _)
    (PoolOk_frame (sameBut_endDemands _ _ _)
      (foldl_keeps (fun _ x => PoolOk_serveDemand _ x) _ (foldl_keeps (fun _ x => PoolOk_serveSlot _ x) _ ?_)) rfl) rfl
  refine PoolOk_frame (sameBut_mapSlots _ _ allSlots fun n => .inl (by simp))
    (PoolOk_frame (sameBut_setLatest _ _ _)
      (PoolOk_frame (sameBut_setConv _ _) ok rfl) rfl) rfl

/-! ### OPEN and the session end -/

/-- A port whose session and queue change together, with the cells of its queue taken from the pool or given back. -/
theorem PoolOk_trade {s t : State} {p : Port} {x : Option SampleQueue} (ok : PoolOk s)
    (queues : t.queues = s.queues.set p x) (cells : t.unreserved + cellsOf x = s.unreserved + cellsOf s.queues[p])
    (opens : t.isOpen p = x.isSome) (others : ∀ q, q ≠ p → t.isOpen q = s.isOpen q) (inRange : ∀ q ∈ x, q.ok) :
    PoolOk t := by
  obtain ⟨total, isOpen, ranges⟩ := ok
  refine ⟨?_, fun r => ?_, fun r => ?_⟩
  · have trade := reservedCells_set s t p x queues
    omega
  · rw [queues, getElem_set_at]
    split
    · rename_i e; exact e ▸ opens
    · rename_i e; rw [others r (Ne.symm e), isOpen]
  · rw [queues, getElem_set_at]
    split
    · exact inRange
    · exact ranges r

theorem openArgs_range {b0 b1 b2 b3 : Byte} {a : OpenArgs} (h : openArgs b0 b1 b2 b3 = some a) :
    16 ≤ a.depth ∧ a.depth ≤ 192 ∧ 1 ≤ a.watermark ∧ a.watermark ≤ a.depth := by
  unfold openArgs at h
  split at h
  · cases h; dsimp only; omega
  · cases h

theorem setSession_isOpen (s : State) (p q : Port) (x : Session) :
    (s.setSession p x).isOpen q = if p = q then decide (x.state = .opened) else s.isOpen q := by
  unfold State.isOpen
  rw [State.setSession_sessions, getElem_set_at]
  split <;> rfl

theorem openAccepted_queues (s : State) (p : Port) (a : OpenArgs) : (openAccepted s p a).queues =
    s.queues.set p (some (SampleQueue.new a.depth a.watermark a.policy)) := rfl

theorem openAccepted_unreserved (s : State) (p : Port) (a : OpenArgs) :
    (openAccepted s p a).unreserved = s.unreserved - a.depth := rfl

theorem openAccepted_isOpen (s : State) (p q : Port) (a : OpenArgs) :
    (openAccepted s p a).isOpen q = if p = q then true else s.isOpen q := by
  refine (setSession_isOpen _ p q _).trans ?_
  split
  · rfl
  · rfl

theorem PoolOk_openAccepted {s : State} {p : Port} {a : OpenArgs} (isClosed : s.isOpen p = false)
    (valid : ∃ b0 b1 b2 b3, openArgs b0 b1 b2 b3 = some a) (room : a.depth ≤ s.unreserved) (ok : PoolOk s) :
    PoolOk (openAccepted s p a) := by
  obtain ⟨_, _, _, _, valid⟩ := valid
  obtain ⟨h1, h2, h3, h4⟩ := openArgs_range valid
  have none : s.queues[p] = none := by
    have := ok.2.1 p
    rw [isClosed] at this
    exact Option.isNone_iff_eq_none.mp (by simpa [-Fin.getElem_fin] using this.symm)
  refine PoolOk_trade ok (openAccepted_queues s p a) ?_ ?_ ?_ ?_
  · rw [openAccepted_unreserved, none]
    simp only [cellsOf, Option.map_some, Option.getD_some, Option.map_none, Option.getD_none, SampleQueue.new]
    omega
  · rw [openAccepted_isOpen, if_pos rfl]; rfl
  · intro q other; rw [openAccepted_isOpen, if_neg (Ne.symm other)]
  · rintro q ⟨⟩; exact SampleQueue.new_ok _ h1 h2 h3 h4

theorem PoolOk_sessionEnd {s : State} (p : Port) {after : SessionState} (ended : after ≠ .opened) (ok : PoolOk s) :
    PoolOk (sessionEnd s p after) := by
  refine PoolOk_trade ok (sessionEnd_queues s p after) (sessionEnd_unreserved s p after) ?_ ?_ nofun
  · rw [sessionEnd_isOpen, if_pos rfl]; simp [ended]
  · intro q other; rw [sessionEnd_isOpen, if_neg (Ne.symm other)]

/-! ### Every effect -/

theorem PoolOk_act {p : Port} {s t : State} (act : Act p s t) (ok : PoolOk s) : PoolOk t := by
  cases act with
  | opens a isClosed valid room => exact PoolOk_openAccepted isClosed valid room ok
  | closes => exact PoolOk_sessionEnd p (by simp) ok
  | stages w => exact PoolOk_frame (sameBut_withStaging s p w) ok rfl
  | installs n x => exact PoolOk_frame (sameBut_setSlot s n _) ok rfl
  | modifies n x => exact PoolOk_frame (sameBut_applyModify s n x.settings) ok rfl
  | deletes n => exact PoolOk_frame (sameBut_deleted s p n) ok rfl
  | stops n running => exact PoolOk_frame (sameBut_stop running) ok rfl
  | runs n => exact PoolOk_frame (sameBut_setSlot s n _) ok rfl
  | bursts n stopped kind => exact PoolOk_frame (sameBut_startBurst stopped kind) ok rfl
  | fetches n => exact PoolOk_frame (sameBut_fetch p n s) ok rfl
  | releasesQueue q queue => exact PoolOk_setQueue ok queue (SampleQueue.hold_ok (PoolOk_queue ok queue) false) rfl
  | demands c x y => exact PoolOk_frame (sameBut_demanded s p c x y) ok rfl
  | claims c => exact PoolOk_frame (sameBut_setChannel s c _) ok rfl
  | releases c => exact PoolOk_frame (sameBut_setChannel s c _) ok rfl
  | configures c m x y => exact PoolOk_frame (sameBut_applyChange s p c m x y) ok rfl
  | watches w x => exact PoolOk_frame (sameBut_setWatch s p w x) ok rfl

/-- The pool right after a hub reset. -/
theorem PoolOk_reset : PoolOk State.reset := by
  refine ⟨by decide, fun p => ?_, fun p q mem => ?_⟩
  · revert p; decide
  · simp [State.reset] at mem

theorem PoolOk_effect (s t : State) (effect : Effect s t) (ok : PoolOk s) : PoolOk t := by
  have raised (p : Port) : PoolOk (raiseSelect s p) := PoolOk_frame (sameBut_raiseSelect s p) ok rfl
  cases effect with
  | raises p => exact raised p
  | results p r => exact PoolOk_frame (sameBut_setResult s p r) ok rfl
  | leases p => exact PoolOk_frame (sameBut_leaseRestart s p) ok rfl
  | acts p u _ _ act => exact PoolOk_act act (raised p)
  | unmarks p c => exact PoolOk_clearMark p c (raised p)
  | fallsHeld p => exact PoolOk_frame (sameBut_fallHeld s p) ok rfl
  | falls p => exact PoolOk_frame (sameBut_fall s p _) ok rfl
  | clockRises p sdi => exact PoolOk_clockRise p sdi ok
  | clockFalls p => exact PoolOk_clockFall p ok
  | lapses p => exact PoolOk_sessionEnd p (by simp) ok
  | expires n => exact PoolOk_frame (sameBut_expirePeriod s n) ok rfl
  | edges e => exact PoolOk_frame (sameBut_takeEdge e _) (PoolOk_frame (sameBut_setTimebase s _) ok rfl) rfl
  | settled | sampled | repeats | converted => exact PoolOk_frame (sameBut_setConv s _) ok rfl
  | completes r => exact PoolOk_frame (sameBut_select _) (PoolOk_complete r ok) rfl
  | recovers => exact PoolOk_frame (sameBut_select _) (PoolOk_frame (sameBut_setConv s _) ok rfl) rfl
  | resets | resetsByNrst => exact PoolOk_congr PoolOk_reset rfl (fun _ => rfl) rfl
  | startsRunning | refclkHeld | supplyReturns | nrstReturns => exact PoolOk_frame (sameBut_setHub s _) ok rfl
  | refclkStarting a b =>
    exact PoolOk_frame (sameBut_refclkStartUp _ a b) (PoolOk_frame (sameBut_setHub s _) ok rfl) rfl
  | refclkRuns a b => exact PoolOk_frame (sameBut_refclkRunning _ a b) (PoolOk_frame (sameBut_setHub s _) ok rfl) rfl

/-- Settles O4: every effect keeps the pool, so every step does. -/
theorem stepKeepsThePool : Obligations.StepKeepsThePool :=
  fun _ _ ok taken => step_keeps (fun _ _ h => h) PoolOk_effect ok taken

end Sys2Proof.Machine
end

