-- ==== Sys2Proof/Proofs/EventShape.lean ====
section
/-! PROOF. Every step keeps the shape of the event queues (R137, R138, R140): an offer, a decision, a removal and an unmarking each leave a queue in shape, and every other effect leaves the queues alone. -/

namespace Sys2Proof.Machine

/-! ### The operations of one queue -/

theorem EventQueue.empty_ok : EventQueue.empty.ok := by
  simp [EventQueue.ok, EventQueue.empty]

/-- The mark goes on a head that exists (R139). -/
theorem EventQueue.mark_ok {q : EventQueue} (h : q.ok) (nonempty : q.records ≠ []) :
    ({ q with shifting := true } : EventQueue).ok := by
  obtain ⟨h1, h2, h3, -, h5, h6⟩ := h
  exact ⟨h1, h2, h3, fun _ => nonempty, fun late => ⟨rfl, (h5 late).2⟩, h6⟩

/-- Late losses are counted only while the head is an OVERFLOW record (R140). -/
theorem EventQueue.lateLoss_eq_zero {q : EventQueue} (h : q.ok) {e : EventRecord} {rest : List EventRecord}
    (records : q.records = e :: rest) (other : e.kind ≠ .overflow) : q.lateLoss = 0 := by
  obtain ⟨-, -, -, -, h5, -⟩ := h
  by_contra late
  have head := (h5 (Nat.pos_of_ne_zero late)).2
  simp [EventQueue.overflowAtHead, records, other] at head

/-- An OVERFLOW record is the newest, so at the head it stands alone (R137). -/
theorem EventQueue.overflow_alone {q : EventQueue} (h : q.ok) {e : EventRecord} {rest : List EventRecord}
    (records : q.records = e :: rest) (overflow : e.kind = .overflow) : rest = [] := by
  obtain ⟨-, h2, -⟩ := h
  by_contra more
  have older : e ∈ q.records.dropLast := by
    rw [records, List.dropLast_cons_of_ne_nil more]
    exact List.mem_cons_self
  exact h2 e older overflow

/-- The records behind the head, unmarked and with no late loss. -/
theorem EventQueue.tail_ok {q : EventQueue} (h : q.ok) {e : EventRecord} {rest : List EventRecord}
    (records : q.records = e :: rest) (late : q.lateLoss = 0) :
    ({ q with records := rest, shifting := false } : EventQueue).ok := by
  obtain ⟨h1, h2, -, -, -, h6⟩ := h
  rw [records] at h1 h2
  simp only [List.length_cons] at h1
  refine ⟨by simp only; omega, fun x mem => ?_, fun full => ?_, nofun, fun pos => ?_, h6⟩
  · refine h2 x ?_
    cases rest with
    | nil => simp at mem
    | cons y more => exact List.mem_cons_of_mem _ mem
  · simp only at full; omega
  · simp only at pos; omega

theorem EventQueue.removeHead_ok {q : EventQueue} (h : q.ok) : q.removeHead.ok := by
  unfold EventQueue.removeHead
  split
  · rename_i none
    obtain ⟨h1, h2, h3, h4, h5, h6⟩ := h
    exact ⟨h1, h2, h3, nofun, fun late => absurd none (h4 (h5 late).1), h6⟩
  · rename_i e rest records
    split
    · rename_i late
      rw [EventQueue.overflow_alone h records late.1]
      exact ⟨by simp, by simp, by simp, nofun, nofun, Nat.zero_le _⟩
    · rename_i notLate
      by_cases overflow : e.kind = .overflow
      · exact EventQueue.tail_ok h records (by have := not_and.mp notLate overflow; omega)
      · exact EventQueue.tail_ok h records (EventQueue.lateLoss_eq_zero h records overflow)

theorem EventQueue.unmark_ok {q : EventQueue} (h : q.ok) : q.unmark.ok := by
  unfold EventQueue.unmark
  split
  · split
    · rename_i none
      obtain ⟨h1, h2, h3, h4, h5, h6⟩ := h
      exact ⟨h1, h2, h3, nofun, fun late => absurd none (h4 (h5 late).1), h6⟩
    · rename_i e rest records
      split
      · rename_i overflow
        rw [EventQueue.overflow_alone h records overflow]
        exact ⟨by simp, by simp, by simp, nofun, nofun, Nat.zero_le _⟩
      · rename_i other
        have late := EventQueue.lateLoss_eq_zero h records other
        obtain ⟨h1, h2, h3, h4, h5, h6⟩ := h
        exact ⟨h1, h2, h3, nofun, fun pos => by simp only [late] at pos; omega, h6⟩
  · exact h

/-! ### What EventsOk reads -/

/-- The parts that EventsOk reads. -/
def Part.ofEvents (x : Part) : Bool :=
  match x with
  | .events _ => true
  | _ => false

/-- A change outside its parts keeps EventsOk. -/
theorem EventsOk_frame {l : List Part} {s t : State} (frame : sameBut l s t) (ok : EventsOk s)
    (outside : l.any Part.ofEvents = false) : EventsOk t := fun p => by
  have kept : t.events[p] = s.events[p] := frame (.events p) fun mem => List.any_eq_false.mp outside _ mem rfl
  rw [kept]; exact ok p

theorem EventsOk_setEvents {s : State} (p : Port) {q : EventQueue} (ok : EventsOk s) (shape : q.ok) :
    EventsOk (s.setEvents p q) := fun r => by
  rw [State.setEvents_events, getElem_set_at]
  split
  · exact shape
  · exact ok r

theorem EventsOk_setFrame {s : State} (p : Port) (f : Frame) (ok : EventsOk s) : EventsOk (setFrame s p f) :=
  EventsOk_frame (sameBut_setFrame s p f) ok rfl

theorem EventsOk_sendEvent {s : State} (p : Port) (e : EventRecord) (ok : EventsOk s) : EventsOk (sendEvent s p e) := by
  unfold sendEvent
  split
  · exact EventsOk_setEvents p ok (EventQueue.offer_ok (ok p) e)
  · exact ok

theorem EventsOk_sendToOwner {s : State} (o : Option Port) (e : EventRecord) (ok : EventsOk s) :
    EventsOk (sendToOwner s o e) := by
  cases o with
  | none => exact ok
  | some p => exact EventsOk_sendEvent p e ok

theorem EventsOk_decideEvents {s : State} (p : Port) (ok : EventsOk s) : EventsOk (decideEvents s p) := by
  unfold decideEvents
  simp only
  split
  · rename_i e rest records
    split
    · exact EventsOk_setFrame p _ (EventsOk_setEvents p ok (EventQueue.mark_ok (ok p) (records ▸ List.cons_ne_nil _ _)))
    · exact EventsOk_setFrame p _ ok
  · exact EventsOk_setFrame p _ ok

/-! ### The edges of SCKp -/

theorem EventsOk_removeRecord {s : State} (p : Port) (ok : EventsOk s) : EventsOk (removeRecord s p) := by
  unfold removeRecord
  split
  · exact EventsOk_frame (sameBut_removeSample s p) ok rfl
  · exact EventsOk_decideEvents p
      (EventsOk_setFrame p _ (EventsOk_setEvents p ok (EventQueue.removeHead_ok (ok p))))
  · exact ok

theorem EventsOk_completeReplyByte {s : State} (p : Port) (ok : EventsOk s) : EventsOk (completeReplyByte s p) := by
  unfold completeReplyByte
  simp only
  split
  · exact EventsOk_removeRecord p (EventsOk_setFrame p _ ok)
  · exact EventsOk_frame (sameBut_spillIfExhausted _ p) (EventsOk_setFrame p _ ok) rfl

theorem EventsOk_completeByte {s : State} (p : Port) (b : Byte) (ok : EventsOk s) : EventsOk (completeByte s p b) := by
  by_cases reply : s.ports[p].frame.state = .reply
  · unfold completeByte
    simp only [reply]
    exact EventsOk_completeReplyByte p ok
  · exact EventsOk_frame (sameBut_completeByte_frame reply b) ok rfl

theorem EventsOk_clockRise {s : State} (p : Port) (sdi : Level) (ok : EventsOk s) : EventsOk (clockRise s p sdi) := by
  have clocked : EventsOk (setClock s p .high) := EventsOk_frame (sameBut_setClock _ _ _) ok rfl
  unfold clockRise sampleBit
  simp only
  split
  · exact clocked
  · split
    · exact EventsOk_setFrame p _ clocked
    · exact EventsOk_completeByte p _ (EventsOk_setFrame p _ clocked)

theorem EventsOk_firstDecision {s : State} (p : Port) (ok : EventsOk s) : EventsOk (firstDecision s p) := by
  unfold firstDecision
  simp only
  split
  · split
    · exact EventsOk_frame (sameBut_decideSamples s p) ok rfl
    · exact EventsOk_decideEvents p ok
    · exact ok
  · exact ok

theorem EventsOk_clockFall {s : State} (p : Port) (ok : EventsOk s) : EventsOk (clockFall s p) := by
  have clocked : EventsOk (setClock s p .low) := EventsOk_frame (sameBut_setClock _ _ _) ok rfl
  unfold clockFall startBit
  simp only
  split
  · exact clocked
  · refine EventsOk_setFrame p _ ?_
    split
    · exact EventsOk_setFrame p _ clocked
    · exact EventsOk_firstDecision p clocked

theorem EventsOk_clearMark {s : State} (p : Port) (c : Command) (ok : EventsOk s) : EventsOk (clearMark s p c) := by
  unfold clearMark
  split
  · exact EventsOk_frame (sameBut_setQueue _ _ _) ok rfl
  · exact EventsOk_setEvents p ok (EventQueue.unmark_ok (ok p))
  · exact ok

/-! ### Watches and a completion -/

theorem EventsOk_watchAction {s : State} (p : Port) (w : Fin 8) (x : Watch) (tick : Tick) (ok : EventsOk s) :
    EventsOk (watchAction s p w x tick) := by
  unfold watchAction
  split
  · exact ok
  · unfold holdAction
    split
    · have held (x : Option SampleQueue) : EventsOk (s.setQueue p x) := EventsOk_frame (sameBut_setQueue s p x) ok rfl
      simp only
      split
      · exact held _
      · exact EventsOk_sendEvent p _ (held _)
    · exact ok
  · unfold captureAction
    simp only
    split
    · exact EventsOk_frame (sameBut_startBurstAt _ _ _) ok rfl
    · split
      · exact EventsOk_sendEvent p _ ok
      · exact EventsOk_sendEvent p _ ok

theorem EventsOk_setWatch {s : State} (p : Port) (w : Fin 8) (x : Watch) (ok : EventsOk s) :
    EventsOk (s.setWatch p w x) := EventsOk_frame (sameBut_setWatch s p w x) ok rfl

theorem EventsOk_carryOutMatch {s : State} (p : Port) (w : Fin 8) (n : SlotNo) (tick : Tick) (c : Conditions)
    (ok : EventsOk s) : EventsOk (carryOutMatch s p w n tick c) := by
  unfold carryOutMatch
  simp only
  split
  · exact EventsOk_setWatch p w _ (EventsOk_watchAction p w _ tick (EventsOk_sendEvent p _ (EventsOk_setWatch p w _ ok)))
  · exact EventsOk_watchAction p w _ tick (EventsOk_sendEvent p _ (EventsOk_setWatch p w _ ok))

theorem EventsOk_evaluateWatches {s : State} (p : Port) (n : SlotNo) (tick : Tick) (c : Conditions) (ok : EventsOk s) :
    EventsOk (evaluateWatches s p n tick c) := by
  refine foldl_keeps (fun u w h => ?_) _ ok
  unfold testWatch
  split
  · exact EventsOk_carryOutMatch p w n tick c h
  · exact h

theorem EventsOk_deliverTo {s : State} (c : Report) (n : SlotNo) (t : Slot) (sub : Option SubEntry) (ok : EventsOk s) :
    EventsOk (deliverTo s c n t sub) := by
  unfold deliverTo
  simp only
  split
  · refine EventsOk_evaluateWatches _ _ _ _ ?_
    split
    · exact EventsOk_frame (sameBut_offerRecord _ _ _ _) ok rfl
    · exact ok
  · exact ok

theorem EventsOk_setSlot {s : State} (n : SlotNo) (x : Slot) (ok : EventsOk s) : EventsOk (s.setSlot n x) :=
  EventsOk_frame (sameBut_setSlot s n x) ok rfl

theorem EventsOk_burstAccounting {s : State} (n : SlotNo) (tick : Tick) (ok : EventsOk s) :
    EventsOk (burstAccounting s n tick) := by
  unfold burstAccounting
  simp only
  split
  · split
    · split
      · exact EventsOk_setSlot n _ ok
      · exact EventsOk_frame (sameBut_requestSlot _ _ _) (EventsOk_setSlot n _ ok) rfl
    · refine EventsOk_sendToOwner _ _ (EventsOk_setSlot n _ ?_)
      split
      · exact EventsOk_frame (sameBut_withdrawSlot _ _) (EventsOk_setSlot n _ ok) rfl
      · exact EventsOk_setSlot n _ ok
  · exact ok

theorem EventsOk_serveSlot (c : Report) {s : State} (x : SlotNo × Option SubEntry) (ok : EventsOk s) :
    EventsOk (serveSlot c s x) :=
  EventsOk_burstAccounting _ _ (EventsOk_deliverTo c _ _ _ (EventsOk_setSlot _ _ ok))

theorem EventsOk_serveDemand (c : Report) {s : State} (x : FlightEntry) (ok : EventsOk s) :
    EventsOk (serveDemand c s x) := by
  unfold serveDemand
  split
  · exact ok
  · split
    · exact ok
    · exact EventsOk_frame (sameBut_offerRecord _ _ _ _) ok rfl

theorem EventsOk_releaseSlots {s : State} (l : List SlotNo) (ok : EventsOk s) : EventsOk (l.foldl releaseSlot s) :=
  foldl_keeps (fun _ n h => EventsOk_setSlot n _ (EventsOk_sendToOwner _ _ h)) l ok

theorem EventsOk_complete {s : State} (r : InFlight) (ok : EventsOk s) : EventsOk (complete s r) := by
  unfold complete
  refine EventsOk_releaseSlots _ (EventsOk_frame (sameBut_endDemands _ _ _) ?_ rfl)
  refine foldl_keeps (fun _ x h => EventsOk_serveDemand _ x h) _
    (foldl_keeps (fun _ x h => EventsOk_serveSlot _ x h) _ ?_)
  exact EventsOk_frame (sameBut_mapSlots _ _ allSlots fun n => .inl (by simp))
    (EventsOk_frame (sameBut_setLatest _ _ _) (EventsOk_frame (sameBut_setConv _ _) ok rfl) rfl) rfl

/-! ### A trigger edge and CONFIGURE -/

theorem EventsOk_abandon {s : State} (r : InFlight) (ok : EventsOk s) : EventsOk (abandon s r) := by
  refine EventsOk_releaseSlots _ (EventsOk_frame (sameBut_endDemands _ _ _) ?_ rfl)
  exact EventsOk_frame (sameBut_returnEntry _ r) (EventsOk_frame (sameBut_setConv s _) ok rfl) rfl

theorem EventsOk_edgeDecision {s : State} (ok : EventsOk s) : EventsOk (edgeDecision s) := by
  unfold edgeDecision
  split
  · exact EventsOk_frame (sameBut_select s) ok rfl
  · split
    · split
      · exact EventsOk_abandon _ ok
      · exact ok
    · exact ok

theorem EventsOk_takeEdge {s : State} (e : Edge) (ok : EventsOk s) : EventsOk (takeEdge e s) := by
  have counted : EventsOk ((List.finRange 32).foldl (edgeAtSlot e) s) :=
    foldl_keeps (fun u n h => EventsOk_frame (sameBut_edgeAtSlot e u n) h rfl) _ ok
  unfold takeEdge
  simp only
  split
  · exact EventsOk_edgeDecision counted
  · exact counted

theorem EventsOk_applyChange {s : State} (p : Port) (c : Fin 16) (m : Mode) (x : Span) (y : BitVec 2) (ok : EventsOk s) :
    EventsOk (applyChange s p c m x y) := by
  unfold applyChange
  refine foldl_keeps (fun u q h => ?_) _ (EventsOk_frame (sameBut_setConv _ _)
    (EventsOk_frame (sameBut_releasePartner _ p c m) (EventsOk_frame (sameBut_setChannel s c _) ok rfl) rfl) rfl)
  unfold notifyChange
  split
  · exact EventsOk_sendEvent q _ h
  · exact h

/-! ### Every effect -/

theorem EventsOk_sessionEnd {s : State} (p : Port) (after : SessionState) (ok : EventsOk s) :
    EventsOk (sessionEnd s p after) := fun q => by
  rw [sessionEnd_events, getElem_set_at]
  split
  · exact EventQueue.empty_ok
  · exact ok q

theorem EventsOk_act {p : Port} {s t : State} (act : Act p s t) (ok : EventsOk s) : EventsOk t := by
  cases act with
  | opens a => exact EventsOk_frame (sameBut_openAccepted s p a) ok rfl
  | closes => exact EventsOk_sessionEnd p _ ok
  | stages w => exact EventsOk_frame (sameBut_withStaging s p w) ok rfl
  | installs n x => exact EventsOk_setSlot n _ ok
  | modifies n x => exact EventsOk_frame (sameBut_applyModify s n x.settings) ok rfl
  | deletes n => exact EventsOk_frame (sameBut_deleted s p n) ok rfl
  | stops n running => exact EventsOk_frame (sameBut_stop running) ok rfl
  | runs n => exact EventsOk_setSlot n _ ok
  | bursts n stopped kind => exact EventsOk_frame (sameBut_startBurst stopped kind) ok rfl
  | fetches n => exact EventsOk_frame (sameBut_fetch p n s) ok rfl
  | releasesQueue q => exact EventsOk_frame (sameBut_setQueue s p _) ok rfl
  | demands c x y => exact EventsOk_frame (sameBut_demanded s p c x y) ok rfl
  | claims c => exact EventsOk_frame (sameBut_setChannel s c _) ok rfl
  | releases c => exact EventsOk_frame (sameBut_setChannel s c _) ok rfl
  | configures c m x y => exact EventsOk_applyChange p c m x y ok
  | watches w x => exact EventsOk_setWatch p w x ok

theorem EventsOk_reset : EventsOk State.reset := fun p => by
  have : State.reset.events[p] = EventQueue.empty := by simp [State.reset]
  rw [this]; exact EventQueue.empty_ok

theorem EventsOk_effect (s t : State) (effect : Effect s t) (ok : EventsOk s) : EventsOk t := by
  have raised (p : Port) : EventsOk (raiseSelect s p) := EventsOk_frame (sameBut_raiseSelect s p) ok rfl
  cases effect with
  | raises p => exact raised p
  | results p r => exact EventsOk_frame (sameBut_setResult s p r) ok rfl
  | leases p => exact EventsOk_frame (sameBut_leaseRestart s p) ok rfl
  | acts p u _ _ act => exact EventsOk_act act (raised p)
  | unmarks p c => exact EventsOk_clearMark p c (raised p)
  | fallsHeld p => exact EventsOk_frame (sameBut_fallHeld s p) ok rfl
  | falls p => exact EventsOk_frame (sameBut_fall s p _) ok rfl
  | clockRises p sdi => exact EventsOk_clockRise p sdi ok
  | clockFalls p => exact EventsOk_clockFall p ok
  | lapses p => exact EventsOk_sessionEnd p _ ok
  | expires n => exact EventsOk_frame (sameBut_expirePeriod s n) ok rfl
  | edges e => exact EventsOk_takeEdge e (EventsOk_frame (sameBut_setTimebase s _) ok rfl)
  | settled | sampled | repeats | converted => exact EventsOk_frame (sameBut_setConv s _) ok rfl
  | completes r => exact EventsOk_frame (sameBut_select _) (EventsOk_complete r ok) rfl
  | recovers => exact EventsOk_frame (sameBut_select _) (EventsOk_frame (sameBut_setConv s _) ok rfl) rfl
  | resets | resetsByNrst => exact EventsOk_congr EventsOk_reset rfl
  | startsRunning | refclkHeld | supplyReturns | nrstReturns => exact EventsOk_frame (sameBut_setHub s _) ok rfl
  | refclkStarting a b =>
    exact EventsOk_frame (sameBut_refclkStartUp _ a b) (EventsOk_frame (sameBut_setHub s _) ok rfl) rfl
  | refclkRuns a b => exact EventsOk_frame (sameBut_refclkRunning _ a b) (EventsOk_frame (sameBut_setHub s _) ok rfl) rfl

/-- Settles O5: every effect keeps the shape of the event queues, so every step does. -/
theorem stepKeepsTheEventQueues : Obligations.StepKeepsTheEventQueues :=
  fun _ _ ok taken => step_keeps (fun _ _ h => h) EventsOk_effect ok taken

end Sys2Proof.Machine
end

