-- ==== Sys2Proof/Proofs/SlotsEvolve.lean ====
section
/-! PROOF. How the slots evolve outside the set commands and the session end: a slot keeps its owner, its settings and its next due tick, and its state but for a BURST slot, which starts and stops; or it becomes FREE (R20, R22, R26, R133). -/

namespace Sys2Proof.Machine

/-- STOPPED or RUNNING (R9). -/
def Slot.live (x : Slot) : Prop := x.state = .stopped ∨ x.state = .running

/-- y is what slot x may become without a set command, a period timer or a session end: FREE without an owner, or of the same
owner, settings and next due tick and in the same state, where a live BURST slot may start or stop. -/
def Slot.evolves (x y : Slot) : Prop :=
  (y.state = .free ∧ y.owner = none)
    ∨ (y.owner = x.owner ∧ y.settings = x.settings ∧ y.nextDue = x.nextDue
      ∧ (y.state = x.state ∨ x.settings.kind = .burst ∧ x.live ∧ y.live))

/-- Every slot of s evolves into that of t. -/
@[irreducible] def slotsEvolve (s t : State) : Prop := ∀ n : SlotNo, s.slots[n].evolves t.slots[n]

/-- What a slot keeps while it evolves in its state. -/
def Slot.setup (x : Slot) : Option Port × Settings × Tick × SlotState := (x.owner, x.settings, x.nextDue, x.state)

theorem Slot.evolves_of_setup {x y : Slot} (setup : y.setup = x.setup) : x.evolves y := by
  simp only [Slot.setup, Prod.mk.injEq] at setup
  obtain ⟨owner, settings, nextDue, state⟩ := setup
  exact .inr ⟨owner, settings, nextDue, .inl state⟩

theorem Slot.evolves_refl (x : Slot) : x.evolves x := Slot.evolves_of_setup rfl

theorem Slot.evolves_free (x : Slot) : x.evolves Slot.free := .inl ⟨rfl, rfl⟩

theorem Slot.evolves_trans {x y z : Slot} (h : x.evolves y) (k : y.evolves z) : x.evolves z := by
  rcases k with free | ⟨owner, settings, nextDue, state⟩
  · exact .inl free
  · rcases h with ⟨isFree, noOwner⟩ | ⟨owner', settings', nextDue', state'⟩
    · refine .inl ⟨?_, owner.trans noOwner⟩
      rcases state with state | ⟨-, live, -⟩
      · exact state.trans isFree
      · rcases live with h | h <;> rw [isFree] at h <;> cases h
    · refine .inr ⟨owner.trans owner', settings.trans settings', nextDue.trans nextDue', ?_⟩
      rcases state with state | ⟨burst, liveY, liveZ⟩
      · rcases state' with state' | ⟨burst, liveX, liveY⟩
        · exact .inl (state.trans state')
        · exact .inr ⟨burst, liveX, by unfold Slot.live at *; rwa [state]⟩
      · refine .inr ⟨settings' ▸ burst, ?_, liveZ⟩
        rcases state' with state' | ⟨-, liveX, -⟩
        · unfold Slot.live at *; rwa [← state']
        · exact liveX

theorem slotsEvolve_iff {s t : State} : slotsEvolve s t ↔ ∀ n : SlotNo, s.slots[n].evolves t.slots[n] := by
  unfold slotsEvolve; exact Iff.rfl

theorem slotsEvolve_refl (s : State) : slotsEvolve s s := slotsEvolve_iff.mpr fun _ => Slot.evolves_refl _

theorem slotsEvolve_trans {s t u : State} (h : slotsEvolve s t) (k : slotsEvolve t u) : slotsEvolve s u :=
  slotsEvolve_iff.mpr fun n => Slot.evolves_trans (slotsEvolve_iff.mp h n) (slotsEvolve_iff.mp k n)

/-- States with the same slots. -/
theorem slotsEvolve_of_eq {s t : State} (h : t.slots = s.slots) : slotsEvolve s t :=
  slotsEvolve_iff.mpr fun n => by rw [h]; exact Slot.evolves_refl _

theorem slotsEvolve_foldl {α : Type} {f : State → α → State} (h : ∀ s a, slotsEvolve s (f s a)) (l : List α)
    (s : State) : slotsEvolve s (l.foldl f s) := by
  induction l generalizing s with
  | nil => exact slotsEvolve_refl s
  | cons a l ih => exact slotsEvolve_trans (h s a) (ih (f s a))

theorem slotsEvolve_ite {c : Prop} [Decidable c] {s t u : State} (h : slotsEvolve s t) (k : slotsEvolve s u) :
    slotsEvolve s (if c then t else u) := by
  split
  · exact h
  · exact k

/-- A write of one slot, in a state that has the slots of s. -/
theorem slotsEvolve_setSlot {s u : State} (same : u.slots = s.slots) {n : SlotNo} {x : Slot}
    (h : s.slots[n].evolves x) : slotsEvolve s (u.setSlot n x) := slotsEvolve_iff.mpr fun m => by
  rw [State.setSlot_slots, getElem_set_at, same]
  split
  · rename_i e; exact e ▸ h
  · exact Slot.evolves_refl _

/-- A change of every slot, in a state that has the slots of s. -/
theorem slotsEvolve_mapSlots {s u : State} (same : u.slots = s.slots) {f : SlotNo → Slot → Slot}
    (h : ∀ n x, Slot.evolves x (f n x)) : slotsEvolve s (u.mapSlots f) := slotsEvolve_iff.mpr fun n => by
  rw [State.mapSlots_slots, getElem_ofFn_at, same]
  exact h n _

/-! ### Requests and conversions -/

/-- The flags and counts of a slot are not its setup. -/
theorem slotsEvolve_requestSlot (s : State) (n : SlotNo) (due : Tick) : slotsEvolve s (requestSlot s n due) := by
  unfold requestSlot
  exact slotsEvolve_setSlot (by rfl) (Slot.evolves_of_setup rfl)

theorem slotsEvolve_overrunSlot (s : State) (n : SlotNo) : slotsEvolve s (overrunSlot s n) := by
  unfold overrunSlot
  exact slotsEvolve_setSlot (by rfl) (Slot.evolves_of_setup rfl)

theorem slotsEvolve_withdrawSlot (s : State) (n : SlotNo) : slotsEvolve s (withdrawSlot s n) := by
  unfold withdrawSlot
  exact slotsEvolve_setSlot (by rfl) (Slot.evolves_of_setup rfl)

theorem slotsEvolve_startConversion (s : State) (w : PendingEntry) : slotsEvolve s (startConversion s w) := by
  unfold startConversion
  refine slotsEvolve_trans (slotsEvolve_mapSlots (s := s) (u := s.setRequests _) (by rfl) ?_)
    (slotsEvolve_of_eq (State.setConv_slots _ _))
  intro n x
  split
  · exact Slot.evolves_of_setup rfl
  · exact Slot.evolves_refl x

theorem slotsEvolve_select (s : State) : slotsEvolve s (select s) := by
  unfold select
  split
  · exact slotsEvolve_startConversion s _
  · exact slotsEvolve_refl s

theorem slotsEvolve_selectIfIdle (s : State) : slotsEvolve s (selectIfIdle s) :=
  slotsEvolve_ite (slotsEvolve_select s) (slotsEvolve_refl s)

theorem slotsEvolve_returnEntry (s : State) (r : InFlight) : slotsEvolve s (returnEntry s r) := by
  unfold returnEntry
  exact slotsEvolve_mapSlots (by rfl) fun _ _ => Slot.evolves_of_setup rfl

theorem sendToOwner_slots (s : State) (o : Option Port) (e : EventRecord) : (sendToOwner s o e).slots = s.slots := by
  unfold sendToOwner
  split
  · unfold sendEvent; split <;> rfl
  · rfl

theorem slotsEvolve_releaseSlot (s : State) (n : SlotNo) : slotsEvolve s (releaseSlot s n) :=
  slotsEvolve_trans (slotsEvolve_of_eq (sendToOwner_slots s _ _)) (slotsEvolve_setSlot rfl (Slot.evolves_free _))

theorem slotsEvolve_endDemands (s : State) (subs : List FlightEntry) (pick : FlightEntry → Bool) :
    slotsEvolve s (endDemands s subs pick) := slotsEvolve_of_eq (by simp only [endDemands])

theorem slotsEvolve_abandon (s : State) (r : InFlight) : slotsEvolve s (abandon s r) := by
  unfold abandon
  refine slotsEvolve_trans ?_ (slotsEvolve_foldl slotsEvolve_releaseSlot _ _)
  refine slotsEvolve_trans ?_ (slotsEvolve_endDemands _ _ _)
  exact slotsEvolve_trans (t := s.setConv _) (slotsEvolve_of_eq (by rfl)) (slotsEvolve_returnEntry _ r)

theorem slotsEvolve_edgeDecision (s : State) : slotsEvolve s (edgeDecision s) := by
  unfold edgeDecision
  split
  · exact slotsEvolve_select s
  · split
    · split
      · exact slotsEvolve_abandon s _
      · exact slotsEvolve_refl s
    · exact slotsEvolve_refl s

theorem slotsEvolve_edgeAtSlot (e : Edge) (s : State) (n : SlotNo) : slotsEvolve s (edgeAtSlot e s n) := by
  have counted (k : Nat) : slotsEvolve s (s.setSlot n { s.slots[n] with edgeCount := k }) :=
    slotsEvolve_setSlot rfl (Slot.evolves_of_setup rfl)
  unfold edgeAtSlot
  simp only
  split
  · split
    · split
      · exact slotsEvolve_trans (counted 0) (slotsEvolve_overrunSlot _ n)
      · exact slotsEvolve_trans (counted 0) (slotsEvolve_requestSlot _ n _)
    · exact counted _
  · exact slotsEvolve_refl s

theorem slotsEvolve_takeEdge (e : Edge) (s : State) : slotsEvolve s (takeEdge e s) := by
  have counted := slotsEvolve_foldl (slotsEvolve_edgeAtSlot e) (List.finRange 32) s
  unfold takeEdge
  simp only
  split
  · exact slotsEvolve_trans counted (slotsEvolve_edgeDecision _)
  · exact counted

/-! ### Watches and completions -/

/-- A STOPPED BURST slot that starts a burst runs (R20, R133). -/
theorem slotsEvolve_startBurstAt {s : State} {n : SlotNo} (due : Tick) (kind : s.slots[n].settings.kind = .burst)
    (stopped : s.slots[n].state = .stopped) : slotsEvolve s (startBurstAt s n due) := by
  unfold startBurstAt
  refine slotsEvolve_trans (slotsEvolve_setSlot rfl ?_) (slotsEvolve_requestSlot _ n due)
  exact .inr ⟨rfl, rfl, rfl, .inr ⟨kind, .inl stopped, .inr rfl⟩⟩

theorem sendEvent_slots (s : State) (p : Port) (e : EventRecord) : (sendEvent s p e).slots = s.slots := by
  unfold sendEvent; split <;> rfl

theorem slotsEvolve_captureAction (s : State) (p : Port) (w : Fin 8) (b : SlotNo) (tick : Tick) :
    slotsEvolve s (captureAction s p w b tick) := by
  unfold captureAction
  simp only
  split
  · rename_i own; exact slotsEvolve_startBurstAt tick own.2.1 own.2.2
  · split
    · exact slotsEvolve_of_eq (sendEvent_slots s p _)
    · exact slotsEvolve_of_eq (sendEvent_slots s p _)

theorem holdAction_slots (s : State) (p : Port) (w : Fin 8) (tick : Tick) : (holdAction s p w tick).slots = s.slots := by
  unfold holdAction
  split
  · simp only
    split
    · rfl
    · exact sendEvent_slots _ p _
  · rfl

theorem slotsEvolve_watchAction (s : State) (p : Port) (w : Fin 8) (x : Watch) (tick : Tick) :
    slotsEvolve s (watchAction s p w x tick) := by
  unfold watchAction
  split
  · exact slotsEvolve_refl s
  · exact slotsEvolve_of_eq (holdAction_slots s p w tick)
  · exact slotsEvolve_captureAction s p w _ tick

theorem slotsEvolve_carryOutMatch (s : State) (p : Port) (w : Fin 8) (n : SlotNo) (tick : Tick) (c : Conditions) :
    slotsEvolve s (carryOutMatch s p w n tick c) := by
  have noted (x : Watch) (e : EventRecord) : slotsEvolve s (sendEvent (s.setWatch p w x) p e) :=
    slotsEvolve_of_eq (sendEvent_slots _ p e)
  unfold carryOutMatch
  simp only
  split
  · refine slotsEvolve_trans ?_ (slotsEvolve_of_eq (State.setWatch_slots _ p w _))
    exact slotsEvolve_trans (noted _ _) (slotsEvolve_watchAction _ p w _ tick)
  · exact slotsEvolve_trans (noted _ _) (slotsEvolve_watchAction _ p w _ tick)

theorem slotsEvolve_evaluateWatches (s : State) (p : Port) (n : SlotNo) (tick : Tick) (c : Conditions) :
    slotsEvolve s (evaluateWatches s p n tick c) :=
  slotsEvolve_foldl (fun u w => slotsEvolve_ite (slotsEvolve_carryOutMatch u p w n tick c) (slotsEvolve_refl u)) _ s

theorem offerRecord_slots (s : State) (p : Port) (b : Bool) (r : SampleRecord) :
    (offerRecord s p b r).slots = s.slots := by
  unfold offerRecord; split <;> rfl

theorem slotsEvolve_deliverTo (s : State) (c : Report) (n : SlotNo) (t : Slot) (sub : Option SubEntry) :
    slotsEvolve s (deliverTo s c n t sub) := by
  unfold deliverTo
  simp only
  split
  · refine slotsEvolve_trans ?_ (slotsEvolve_evaluateWatches _ _ _ _ _)
    exact slotsEvolve_ite (slotsEvolve_of_eq (offerRecord_slots s _ _ _)) (slotsEvolve_refl s)
  · exact slotsEvolve_refl s

/-- The last conversion of a burst stops the slot; any other leaves it as it is (R26). -/
theorem slotsEvolve_burstAccounting (s : State) (n : SlotNo) (tick : Tick) :
    slotsEvolve s (burstAccounting s n tick) := by
  unfold burstAccounting
  simp only
  split
  · rename_i running
    obtain ⟨kind, running, -⟩ := running
    have counted (k : Nat) : slotsEvolve s (s.setSlot n { s.slots[n] with burstRemaining := k }) :=
      slotsEvolve_setSlot rfl (Slot.evolves_of_setup rfl)
    split
    · exact slotsEvolve_ite (counted _) (slotsEvolve_trans (counted _) (slotsEvolve_requestSlot _ n tick))
    · refine slotsEvolve_trans (slotsEvolve_trans ?_ (slotsEvolve_setSlot rfl ?_))
        (slotsEvolve_of_eq (sendToOwner_slots _ _ _))
      · exact slotsEvolve_ite (slotsEvolve_trans (counted _) (slotsEvolve_withdrawSlot _ n)) (counted _)
      · refine .inr ⟨rfl, rfl, rfl, .inr ⟨?_, .inr ?_, .inl rfl⟩⟩
        · split <;> simp [withdrawSlot, kind, -Fin.getElem_fin, getElem_set_same]
        · split <;> simp [withdrawSlot, running, -Fin.getElem_fin, getElem_set_same]
  · exact slotsEvolve_refl s

theorem slotsEvolve_serveSlot (c : Report) (s : State) (x : SlotNo × Option SubEntry) :
    slotsEvolve s (serveSlot c s x) := by
  unfold serveSlot
  refine slotsEvolve_trans ?_ (slotsEvolve_burstAccounting _ _ _)
  refine slotsEvolve_trans ?_ (slotsEvolve_deliverTo _ c _ _ _)
  exact slotsEvolve_setSlot rfl (Slot.evolves_of_setup rfl)

theorem serveDemand_slots (c : Report) (s : State) (x : FlightEntry) : (serveDemand c s x).slots = s.slots := by
  unfold serveDemand
  split
  · rfl
  · split
    · rfl
    · exact offerRecord_slots s _ _ _

theorem slotsEvolve_complete (s : State) (r : InFlight) : slotsEvolve s (complete s r) := by
  unfold complete
  refine slotsEvolve_trans ?_ (slotsEvolve_foldl slotsEvolve_releaseSlot _ _)
  refine slotsEvolve_trans ?_ (slotsEvolve_endDemands _ _ _)
  refine slotsEvolve_trans ?_ (slotsEvolve_foldl (fun u x => slotsEvolve_of_eq (serveDemand_slots _ u x)) _ _)
  refine slotsEvolve_trans ?_ (slotsEvolve_foldl (slotsEvolve_serveSlot _) _ _)
  unfold clearInFlight
  refine slotsEvolve_mapSlots (by rfl) ?_
  intro n x
  split
  · exact Slot.evolves_of_setup rfl
  · exact Slot.evolves_refl x

end Sys2Proof.Machine
end

