-- ==== Sys2Proof/Proofs/ResetValues.lean ====
section
/-! PROOF. The step, the hub-reset values (R29, R53, R72, R92, R118, R144, R158, R168, R183), and the begin and end of start-up (R168 to R170). -/

namespace Sys2Proof.Machine

/-- Settles O1: the two answers of `step`. -/
theorem stepTakesTheFrontCommand : Obligations.StepTakesTheFrontCommand :=
  ⟨fun _ empty => step_nil empty, fun _ _ _ pending => step_cons pending⟩

/-! ### Each table at reset -/

theorem reset_port (p : Port) : State.reset.ports[p] = PortState.atReset .high .low := by simp [State.reset]
theorem reset_session (p : Port) : State.reset.sessions[p] = Session.atReset := by simp [State.reset]
theorem reset_slot (n : SlotNo) : State.reset.slots[n] = Slot.free := by simp [State.reset]
theorem reset_channel (c : Fin 16) : State.reset.channels[c] = ChannelConfig.atReset := by simp [State.reset]
theorem reset_latest (c : Channel) : State.reset.latest[c] = LatestEntry.atReset := by simp [State.reset]
theorem reset_queue (p : Port) : State.reset.queues[p] = none := by simp [State.reset]
theorem reset_watch (p : Port) (w : Fin 8) : State.reset.watches[p][w] = Watch.empty := by simp [State.reset]
theorem reset_events (p : Port) : State.reset.events[p] = EventQueue.empty := by simp [State.reset]

theorem reset_isOpen (p : Port) : State.reset.isOpen p = false := by
  unfold State.isOpen; rw [reset_session]; rfl

theorem reset_sdo (p : Port) : State.reset.sdo p = none := by
  unfold State.sdo; rw [reset_port]; rfl

theorem reset_natt (p : Port) : State.reset.natt p = .high := by
  unfold State.natt; rw [reset_events, reset_queue, reset_session]; rfl

/-- Settles O2: each table of the reset state holds one value throughout. -/
theorem resetHoldsTheHubResetValues : Obligations.ResetHoldsTheHubResetValues := by
  refine ⟨⟨rfl, rfl, rfl, rfl, rfl⟩, fun p => ?port, fun p => ?session, fun n => ?slot, ⟨rfl, rfl, rfl, rfl, rfl⟩,
    reset_channel, reset_latest, fun p w => ?watch, fun p => ?events⟩
  case port =>
    rw [reset_port]
    exact ⟨rfl, rfl, rfl, rfl, reset_sdo p, reset_natt p⟩
  case session =>
    rw [reset_session]
    exact ⟨rfl, rfl, rfl, rfl, reset_queue p⟩
  case slot =>
    rw [reset_slot]
    exact ⟨rfl, rfl, rfl, rfl, rfl, rfl, rfl, rfl, rfl, rfl, rfl, rfl⟩
  case watch =>
    rw [reset_watch]
    exact ⟨rfl, rfl⟩
  case events =>
    rw [reset_events]
    exact ⟨rfl, rfl, rfl⟩

/-! ### The invariants at reset -/

theorem HoldingsOk_reset : HoldingsOk State.reset := fun p _ => by
  rw [reset_session]
  refine ⟨fun n => ?_, fun c => ?_, reset_queue p, reset_watch p, reset_events p, rfl, rfl⟩
  · rw [reset_slot]; exact nofun
  · rw [reset_channel]; exact nofun

theorem reset_ownedCount (p : Port) : ownedCount State.reset p = 0 := by
  unfold ownedCount ownLive
  simp only [reset_slot, List.length_eq_zero_iff, List.filter_eq_nil_iff]
  intro n _
  exact Bool.false_ne_true

theorem QuotaOk_reset : QuotaOk State.reset := fun p => by
  rw [reset_ownedCount]; exact Nat.zero_le _

theorem PairingOk_reset : PairingOk State.reset := fun c d paired => by
  rw [reset_channel] at paired; cases paired

theorem CountersOk_reset : CountersOk State.reset := by
  refine ⟨by decide, by decide, by decide, by decide, by decide, by decide, fun p => ?_, by decide, fun _ => Nat.zero_le _⟩
  rw [reset_port]; exact Nat.zero_le _

theorem DeadlinesOk_reset : DeadlinesOk State.reset := by
  refine ⟨fun p opened => ?_, fun n running => ?_⟩
  · rw [reset_session] at opened; cases opened
  · rw [reset_slot] at running; cases running

theorem StartUpOk_reset : StartUpOk State.reset := by
  refine ⟨fun _ => rfl, fun p => ?_, fun _ p => ?_, nofun, fun _ => ?_⟩
  · rw [reset_port]; exact fun _ => .inl rfl
  · rw [reset_port]; rfl
  · exact ⟨rfl, rfl, rfl, rfl, rfl, rfl, rfl, rfl, rfl, rfl, rfl, rfl, rfl⟩

theorem ConverterOk_reset : ConverterOk State.reset := by
  refine ⟨by decide, nofun, nofun, fun n used => ?_⟩
  rw [reset_slot] at used; exact absurd rfl used

theorem RequestsOk_reset : RequestsOk State.reset := by
  refine ⟨ConverterOk_reset, fun n => ?_, fun p => ?_⟩
  · rw [reset_slot]
    exact ⟨rfl, rfl, nofun, nofun, fun _ => rfl, fun live => by rcases live with h | h <;> cases h⟩
  · rw [reset_session]; rfl

/-- Settles O3: each invariant reads the reset values alone. -/
theorem resetSatisfiesTheInvariants : Obligations.ResetSatisfiesTheInvariants :=
  ⟨PoolOk_reset, EventsOk_reset, HoldingsOk_reset, QuotaOk_reset, PairingOk_reset, CountersOk_reset, DeadlinesOk_reset,
    StartUpOk_reset, RequestsOk_reset⟩

/-! ### A hub reset (R168, R181, R183) -/

/-- What a hub reset leaves of s, for the hub's own condition and Timebase that it gives. -/
def resetLeaves (s : State) (h : Hub) (t : State) : Prop :=
  t.hub = h
    ∧ t.timebase = { prescaler := 0, tick := 0, detectorA := ⟨s.timebase.detectorA.level, 0⟩
                     detectorB := ⟨s.timebase.detectorB.level, 0⟩, edges := [] }
    ∧ (∀ p : Port, t.ports[p].nsel = s.ports[p].nsel ∧ t.ports[p].sck = s.ports[p].sck
        ∧ t.ports[p].frame = Frame.idle ∧ t.ports[p].result = ⟨.ok, 0⟩ ∧ t.ports[p].staging = stagingDefaults
        ∧ t.ports[p].readBuf = readBufferZero)
    ∧ t.sessions = State.reset.sessions ∧ t.slots = State.reset.slots ∧ t.requests = [] ∧ t.conv = Converter.atReset
    ∧ t.channels = State.reset.channels ∧ t.latest = State.reset.latest ∧ t.unreserved = 384
    ∧ t.queues = State.reset.queues ∧ t.watches = State.reset.watches ∧ t.events = State.reset.events
    ∧ t.free = s.free ∧ t.pending = s.pending

theorem hubReset_port (s : State) (cause : ResetCause) (p : Port) :
    (hubReset s cause).ports[p] = PortState.atReset s.ports[p].nsel s.ports[p].sck := by simp [hubReset]

theorem hubReset_leaves (s : State) (cause : ResetCause) : resetLeaves s (s.hub.atReset cause) (hubReset s cause) := by
  refine ⟨rfl, rfl, fun p => ?_, rfl, rfl, rfl, rfl, rfl, rfl, rfl, rfl, rfl, rfl, rfl, rfl⟩
  rw [hubReset_port]
  exact ⟨rfl, rfl, rfl, rfl, rfl, rfl⟩

/-- The nRST sampler begins a reset at its fourth low sample in a row (R168, R193). -/
theorem resetsAt_iff (h : Hub) (nrst : Level) : h.resetsAt nrst = true ↔ fourthLow h nrst := by
  unfold Hub.resetsAt fourthLow
  rw [Bool.and_eq_true, decide_eq_true_eq, Bool.not_eq_true']
  cases nrst with
  | low =>
    have full : min 4 (h.nrstLow + 1) = 4 ↔ 3 ≤ h.nrstLow := by omega
    exact (and_congr_left fun _ => full).trans (and_iff_right rfl).symm
  | high => simp [Hub.sampleNrst, Config.nrstSamples]

theorem resetsAt_eq_false {h : Hub} {nrst : Level} (notFourth : ¬ fourthLow h nrst) : h.resetsAt nrst = false :=
  Bool.eq_false_iff.mpr fun resets => notFourth ((resetsAt_iff h nrst).mp resets)

/-- The two rows that name the REFCLK edge with the fourth low sample both take it as the reset by nRST (log 5). -/
theorem exec_nrstReset {i : Instr} {s : State} (row : i = .hubReset .nrst ∨ ∃ a b : Level, i = .refclkRisingEdge a b .low)
    (fourth : fourthLow s.hub .low) (free : refclkFree s .low) : exec i s = .next (nrstReset s) := by
  have nothingDue := (dueBeforeRefclk_eq_none s .low).mpr free
  have resets := (resetsAt_iff s.hub .low).mpr fourth
  rcases row with rfl | ⟨a, b, rfl⟩
  · simp only [exec_hubReset, execHubReset, nothingDue, resets, if_true]
  · simp only [exec_refclkRisingEdge, execRefclkRisingEdge, nothingDue, resets, if_true]

/-- Settles O10: both causes reset by `hubReset`, the supply at any time and nRST at its fourth low sample. -/
theorem hubResetResetsEveryBlock : Obligations.HubResetResetsEveryBlock := by
  rintro i cause low s (⟨rfl, rfl, rfl⟩ | ⟨row, rfl, rfl, fourth, free⟩)
  · exact ⟨_, exec_hubReset .supply s, hubReset_leaves s .supply⟩
  · exact ⟨_, exec_nrstReset row fourth free, hubReset_leaves (s.setHub { s.hub with nrstLow := 4 }) .nrst⟩

/-! ### The begin and the end of start-up (R168, R169, R170) -/

theorem beginIfFree_eq (h : Hub) : h.beginIfFree =
    if h.supplyHold || h.nrstHold then h else { h with startUp := true, startCount := 0 } := rfl

/-- Settles O11: RESET_RELEASE of each cause, and END_OF_START_UP, each write the hub's own condition alone. -/
theorem startUpBeginsAndEnds : Obligations.StartUpBeginsAndEnds := by
  refine ⟨fun s held => ?supply, fun s held => ?nrst, fun s startUp supply nrst count => ?ends⟩
  case supply =>
    have taken : exec (.resetRelease .supply) s = .next (s.setHub { s.hub with supplyHold := false }.beginIfFree) :=
      if_pos held
    exact ⟨_, taken, beginIfFree_eq _, sameBut_setHub s _⟩
  case nrst =>
    have taken : exec (.resetRelease .nrst) s
        = .next (s.setHub { s.hub with nrstHold := false, nrstLow := 0 }.beginIfFree) := if_pos held
    refine ⟨_, taken, ?_, sameBut_setHub s _⟩
    rw [State.setHub_hub, beginIfFree_eq]
    simp only [Bool.or_false]
  case ends =>
    have free : s.hub.held = false := by simp [Hub.held, supply, nrst]
    exact ⟨_, if_pos ⟨startUp, free, count⟩, rfl, sameBut_setHub s _⟩

/-! ### REFCLK in reset and start-up (R168, R169) -/

theorem sampleNrst_eq (h : Hub) (nrst : Level) : h.sampleNrst nrst = nrstRun h nrst := by
  cases nrst <;> rfl

/-- Where something is due first, REFCLK is refused. -/
theorem exec_refclk_waits {s : State} {a b r : Level} (due : ¬ refclkFree s r) :
    ∃ x, exec (.refclkRisingEdge a b r) s = .refused x := by
  cases first : dueBeforeRefclk s r with
  | none => exact absurd ((dueBeforeRefclk_eq_none s r).mp first) due
  | some x => exact ⟨x, by simp only [exec_refclkRisingEdge, execRefclkRisingEdge, first]⟩

/-- A REFCLK edge that resets nothing, with nothing due before it. -/
theorem exec_refclk_free {s : State} {a b r : Level} (free : refclkFree s r) (notFourth : ¬ fourthLow s.hub r) :
    exec (.refclkRisingEdge a b r) s =
      if s.hub.held then .next (s.setHub { s.hub with nrstLow := nrstRun s.hub r })
      else if s.hub.startUp then .next (refclkStartUp (s.setHub { s.hub with nrstLow := nrstRun s.hub r }) a b)
      else .next (refclkRunning (s.setHub { s.hub with nrstLow := nrstRun s.hub r }) a b) := by
  have nothingDue := (dueBeforeRefclk_eq_none s r).mpr free
  simp only [exec_refclkRisingEdge, execRefclkRisingEdge, nothingDue, resetsAt_eq_false notFourth, sampleNrst_eq,
    Bool.false_eq_true, if_false]

/-- In a held hub only the rise of nRST comes before REFCLK. -/
theorem refclkFree_held {s : State} {r : Level} (held : s.hub.held = true) (low : s.hub.nrstHold = true → r = .low) :
    refclkFree s r := by
  refine ⟨fun ends => ?_, fun ⟨holds, high⟩ => ?_, fun notHeld => ?_⟩
  · exact Bool.false_ne_true (ends.1.symm.trans held)
  · rw [low holds] at high; cases high
  · exact absurd (notHeld.symm.trans held) Bool.false_ne_true

/-- In start-up only its end comes before REFCLK. -/
theorem refclkFree_startUp {s : State} {r : Level} (notHeld : s.hub.held = false) (startUp : s.hub.startUp = true)
    (count : s.hub.startCount < 3200) : refclkFree s r := by
  refine ⟨fun ends => Nat.not_le.mpr count ends.2.2, fun holds => ?_, fun _ running => ?_⟩
  · have : s.hub.held = true := by simp [Hub.held, holds.1]
    exact Bool.false_ne_true (notHeld.symm.trans this)
  · exact absurd (running.symm.trans startUp) Bool.false_ne_true

/-- Settles O12: which of REFCLK's cases a held hub and start-up are. -/
theorem refclkInResetAndStartUp : Obligations.RefclkInResetAndStartUp := by
  refine ⟨fun a b s holds => ?rises, fun a b r s held low notFourth => ?held,
    fun a b r s notHeld startUp count notFourth => ?startUp⟩
  case rises => exact exec_refclk_waits fun free => free.2.1 ⟨holds, rfl⟩
  case held =>
    have taken := exec_refclk_free (a := a) (b := b) (refclkFree_held held low) notFourth
    rw [if_pos held] at taken
    exact ⟨_, taken, rfl, sameBut_setHub s _⟩
  case startUp =>
    have taken := exec_refclk_free (a := a) (b := b) (refclkFree_startUp notHeld startUp count) notFourth
    rw [if_neg (by simp [notHeld]), if_pos startUp] at taken
    refine ⟨_, taken, rfl, rfl, ?_⟩
    exact sameBut_trans (sameBut_mono (sameBut_setHub s _) (by simp)) (sameBut_refclkStartUp _ a b)

/-! ### REFCLK outside reset and start-up (R161, R165, R166) -/

theorem detector_sample_rule (d : Detector) (level : Level) :
    detectorRule d level (d.sample level) := by
  unfold detectorRule Detector.sample Detector.recognises
  refine ⟨fun same => ?_, fun differs few => ?_, fun differs two => ?_⟩
  · rw [if_pos same]
  · rw [if_neg differs, if_neg (by simp [differs, few])]
  · rw [if_neg differs, if_pos (by simp [differs, two])]

theorem detector_edge_rule {d : Detector} (range : d.changes ≤ 2) (line : Line) (level : Level) (k : Tick) :
    d.edge line level k = edgeRule d line level k := by
  have two : 2 ≤ d.changes ↔ d.changes = 2 := by omega
  unfold Detector.edge edgeRule Detector.recognises
  cases level <;> simp [two, directionTo]

/-- The counts of the Timebase at REFCLK (R161). -/
theorem count_rule (t : Timebase) :
    (t.prescaler < 15 → t.count.prescaler = t.prescaler + 1 ∧ t.count.tick = t.tick)
      ∧ (t.prescaler = 15 → t.count.prescaler = 0 ∧ t.count.tick = t.tick + 1) := by
  unfold Timebase.count Timebase.ticks
  refine ⟨fun below => ?_, fun full => ?_⟩
  · rw [if_neg (by simpa using below)]; exact ⟨rfl, rfl⟩
  · rw [if_pos (by simp [full])]; exact ⟨rfl, rfl⟩

/-- An edge carries the tick before or after this REFCLK edge (R166). -/
theorem edgeTick_cases (t : Timebase) (before : Bool) : t.edgeTick before = t.tick ∨ t.edgeTick before = t.count.tick := by
  unfold Timebase.edgeTick Timebase.count
  cases t.ticks <;> cases before <;> simp

theorem refclkRunning_timebase (s : State) (a b : Level) : (refclkRunning s a b).timebase =
    s.timebase.runEdge a b (Config.edgeTickBeforeIncrement s.free) := by
  unfold refclkRunning; simp only; split <;> rfl

theorem refclkRunning_conv (s : State) (a b : Level) : (refclkRunning s a b).conv = s.conv.countPeriod := by
  unfold refclkRunning; simp only; split <;> rfl

theorem refclkRunning_hub (s : State) (a b : Level) : (refclkRunning s a b).hub = s.hub := by
  unfold refclkRunning; simp only; split <;> rfl

theorem countPeriod_eq (v : Converter) :
    v.countPeriod = { v with phasePeriods := if v.phase = .idle then v.phasePeriods else v.phasePeriods + 1 } := by
  unfold Converter.countPeriod; split <;> rfl

/-- Settles O13: REFCLK's last case part by part, and its refusal while something is due. -/
theorem refclkCountsAndFilters : Obligations.RefclkCountsAndFilters := by
  refine ⟨fun a b r s notHeld running notFourth free _ changesA changesB => ?_,
    fun a b r s due => exec_refclk_waits due⟩
  have taken := exec_refclk_free (a := a) (b := b) free notFourth
  rw [if_neg (by simp [notHeld]), if_neg (by simp [running])] at taken
  refine ⟨_, taken, ?_⟩
  have noEdges : s.timebase.edges = [] := (free.2.2 notHeld running).1
  obtain ⟨counts, wraps⟩ := count_rule s.timebase
  rw [refclkRunning_timebase, refclkRunning_conv, refclkRunning_hub]
  refine ⟨rfl, counts, wraps, detector_sample_rule _ a, detector_sample_rule _ b,
    ⟨_, edgeTick_cases s.timebase (Config.edgeTickBeforeIncrement s.free), ?_⟩, countPeriod_eq _, ?_⟩
  · rw [← detector_edge_rule changesA, ← detector_edge_rule changesB]
    show s.timebase.edges ++ _ ++ _ = _
    rw [noEdges]
    rfl
  · exact sameBut_trans (sameBut_mono (sameBut_setHub s _) (by simp))
      (sameBut_mono (sameBut_refclkRunning _ a b) (by simp))

end Sys2Proof.Machine
end

