-- ==== Sys2Proof/Proofs/FrameEnds.lean ====
section
/-! PROOF. The fall of nSELp (R174), and the rises at which no command acts: NOP, UNKNOWN, CUT, STARTING and LOST (R177 to R182), an IDLE port (R181), and a set command without its session (R147). -/

namespace Sys2Proof.Machine

/-! ### The fall of nSELp (R171, R172, R174) -/

theorem driveBit_eq (f : Frame) : f.driveBit = { f with sdo := wireBit f.outByte f.bits } := rfl

/-- The frame that a fall begins, in the words of the statements. -/
theorem newFrame_eq (s : State) (p : Port) : newFrame s p =
    { Frame.idle with
      state := .head, startUp := s.hub.startUp, status := s.statusByte p, resultAtFall := s.ports[p].result
      sdo := wireBit (s.statusByte p) 0 } := rfl

/-- Settles O14: FRAME_START in a held hub moves the pin alone, and otherwise begins `newFrame`. -/
theorem frameStartSamplesStatusAndResult : Obligations.FrameStartSamplesStatusAndResult := by
  intro p s high
  have falls : ¬ s.ports[p].nsel = .low := by rw [high]; exact nofun
  cases held : s.hub.held with
  | true =>
    have taken : exec (.frameStart p) s = .next (s.setPort p { s.ports[p] with nsel := .low }) := by
      simp only [exec_frameStart, execFrameStart, if_neg falls, held, if_true]
    have port : (s.setPort p { s.ports[p] with nsel := .low }).ports[p] = { s.ports[p] with nsel := .low } :=
      getElem_set_same _ _ _
    refine ⟨_, taken, by rw [port], sameBut_mono (sameBut_fallHeld s p) (by simp), fun _ => by rw [port], nofun⟩
  | false =>
    have taken : exec (.frameStart p) s
        = .next (s.setPort p { s.ports[p] with nsel := .low, frame := newFrame s p }) := by
      simp only [exec_frameStart, execFrameStart, if_neg falls, held, Bool.false_eq_true, if_false]
    have port : (s.setPort p { s.ports[p] with nsel := .low, frame := newFrame s p }).ports[p]
        = { s.ports[p] with nsel := .low, frame := newFrame s p } := getElem_set_same _ _ _
    refine ⟨_, taken, by rw [port], sameBut_fall s p _, nofun, fun _ => ?_⟩
    rw [port, newFrame_eq]

/-! ### The ends of a frame (R177) -/

/-- A rise that ends the frame as its row has the row's effect. -/
theorem atRise_ends {p : Port} {row : FrameEnd} {act : Frame → State → State} {s : State}
    (low : s.ports[p].nsel = .low) (ends : frameEnd s.ports[p].frame = row) (inFrame : row ≠ .abandoned) :
    atRise p row act s = .next (act s.ports[p].frame (raiseSelect s p)) := by
  have falls : ¬ s.ports[p].nsel = .high := by rw [low]; exact nofun
  simp only [atRise, if_neg falls, ends, if_neg inFrame, if_true]

/-- On an IDLE port every rise is the pin alone (R181). -/
theorem atRise_idle {p : Port} {row : FrameEnd} {act : Frame → State → State} {s : State}
    (low : s.ports[p].nsel = .low) (idle : s.ports[p].frame.state = .idle) :
    atRise p row act s = .next (raiseSelect s p) := by
  have falls : ¬ s.ports[p].nsel = .high := by rw [low]; exact nofun
  have abandoned : frameEnd s.ports[p].frame = .abandoned := by unfold frameEnd; rw [idle]
  simp only [atRise, if_neg falls, abandoned, if_true]

theorem midByte_eq {f : Frame} {mid : Bool} (h : mid = true ↔ f.bits ≠ 0) : f.midByte = mid := by
  unfold Frame.midByte
  cases mid with
  | true => exact decide_eq_true (h.mp rfl)
  | false => exact decide_eq_false fun ne => Bool.false_ne_true (h.mpr ne)

theorem frameEnd_head {f : Frame} (state : f.state = .head) : frameEnd f = .cut := by
  unfold frameEnd; rw [state]

theorem frameEnd_startUp {f : Frame} (state : f.state = .spill) (startUp : f.startUp = true) :
    frameEnd f = if f.command = some .nop then .nop else .starting := by
  unfold frameEnd; rw [state]; simp only [startUp, if_true]

theorem frameEnd_dead {f : Frame} (state : f.state = .dead) (normal : f.startUp = false) : frameEnd f = .lost := by
  unfold frameEnd; rw [state]; simp only [normal, Bool.false_eq_true, if_false, if_true]

theorem frameEnd_unknown {f : Frame} (state : f.state = .spill) (normal : f.startUp = false) (none : f.command = none) :
    frameEnd f = .unknown := by
  unfold frameEnd; rw [state, none]; simp only [normal, Bool.false_eq_true, if_false, reduceCtorEq]

/-- The states past HEAD of a frame whose command is known (R172). -/
def Frame.pastHead (f : Frame) : Prop := f.state = .arguments ∨ f.state = .reply ∨ f.state = .spill

/-- A frame past HEAD with a known command ends by the kind of the command (R177 to R179). -/
theorem frameEnd_ofNop {f : Frame} (past : f.pastHead) (normal : f.startUp = false) (command : f.command = some .nop) :
    frameEnd f = .nop := by
  unfold frameEnd
  rcases past with state | state | state <;> rw [state, command] <;> simp [normal, Command.kind]

theorem frameEnd_ofSetting {f : Frame} {c : Command} (past : f.pastHead) (normal : f.startUp = false)
    (command : f.command = some c) (kind : c.kind = .setting) :
    frameEnd f = if f.args.length = c.argCount && !f.midByte then .setting c else .cut := by
  unfold frameEnd
  rcases past with state | state | state <;> rw [state, command] <;> simp [normal, kind]

theorem frameEnd_ofStreaming {f : Frame} {c : Command} (past : f.pastHead) (normal : f.startUp = false)
    (command : f.command = some c) (kind : c.kind = .streaming) :
    frameEnd f = if f.args.length = c.argCount then .streaming c else .cut := by
  unfold frameEnd
  rcases past with state | state | state <;> rw [state, command] <;> simp [normal, kind]

theorem frameEnd_nop {f : Frame} (state : f.state = .spill) (command : f.command = some .nop) : frameEnd f = .nop := by
  cases startUp : f.startUp with
  | true => rw [frameEnd_startUp state startUp, if_pos command]
  | false => exact frameEnd_ofNop (.inr (.inr state)) startUp command

/-- Too few argument bytes cut the frame of a command (R178, R179). -/
theorem frameEnd_tooFew {f : Frame} {c : Command} (state : f.state = .arguments) (normal : f.startUp = false)
    (command : f.command = some c) (few : f.args.length < c.argCount) : frameEnd f = .cut := by
  have short : ¬ f.args.length = c.argCount := few.ne
  cases kind : c.kind with
  | nop =>
    have isNop : c = .nop := by revert kind; cases c <;> simp [Command.kind]
    subst isNop
    exact absurd few (Nat.not_lt_zero _)
  | setting => rw [frameEnd_ofSetting (.inl state) normal command kind, if_neg (by simp [short])]
  | streaming => rw [frameEnd_ofStreaming (.inl state) normal command kind, if_neg short]

/-- A rise inside a byte cuts the frame of a set command (R178). -/
theorem frameEnd_insideByte {s : State} {p : Port} {c : Command} (kind : c.kind = .setting) (whole : argumentsWhole p c s)
    (inside : s.ports[p].frame.midByte = true) : frameEnd s.ports[p].frame = .cut := by
  obtain ⟨-, state, normal, command, -⟩ := whole
  rw [frameEnd_ofSetting (.inr (.inr state)) normal command kind, inside, if_neg (by simp)]

/-! ### What the effects of these rows leave -/

/-- A result alone is written: CUT, STARTING and LOST. -/
theorem setResult_raised (s : State) (p : Port) (r : ResultReg) :
    (setResult (raiseSelect s p) p r).ports[p].nsel = .high
      ∧ (setResult (raiseSelect s p) p r).ports[p].frame = Frame.idle
      ∧ (setResult (raiseSelect s p) p r).ports[p].result = r
      ∧ sameBut [.select p, .frame p, .result p] s (setResult (raiseSelect s p) p r) := by
  rw [setResult_port, raiseSelect_port]
  exact ⟨rfl, rfl, rfl, sameBut_trans (sameBut_mono (sameBut_raiseSelect s p) (by simp))
    (sameBut_mono (sameBut_setResult _ p r) (by simp))⟩

/-- A result is written, and the lease restarts. -/
theorem rises_of_result (s : State) (p : Port) (r : ResultReg) :
    rises p r s (leaseRestart (setResult (raiseSelect s p) p r) p)
      ∧ sameBut (riseParts p) s (leaseRestart (setResult (raiseSelect s p) p r) p) := by
  let act : List Byte → State → Done := fun _ u => (u, r)
  have effect : riseEffect p act Frame.idle (raiseSelect s p) = leaseRestart (setResult (raiseSelect s p) p r) p := rfl
  rw [← effect]
  refine ⟨riseEffect_rises (u := raiseSelect s p) rfl (by rw [raiseSelect_port]) (by rw [raiseSelect_port]) fun _ => rfl, ?_⟩
  have frame := riseEffect_frame (act := act) (f := Frame.idle) (l := []) rfl (sameBut_refl _ (raiseSelect s p))
  rwa [List.append_nil] at frame

/-- Settles O20: which frames these four rows end, and the result that each writes. -/
theorem frameEndsWithoutACommand : Obligations.FrameEndsWithoutACommand := by
  refine ⟨fun p mid b s low state normal code unknown place => ?unknown,
    fun p mid s low place cuts => ?cut, fun p s low state startUp notNop => ?starting,
    fun p s low state normal => ?lost⟩
  case unknown =>
    have none : s.ports[p].frame.command = none := by unfold Frame.command; rw [code]; exact unknown
    have taken := (exec_unknown p mid s).trans ((atRiseIn_eq (.inr (midByte_eq place))).trans
      (atRise_ends low (frameEnd_unknown state normal none) nofun))
    refine ⟨_, taken, fun boundary => ?_, fun inside => ?_⟩
    · subst boundary
      rw [code]
      exact rises_of_result s p _
    · subst inside
      exact setResult_raised s p _
  case cut =>
    have ends : frameEnd s.ports[p].frame = .cut := by
      rcases cuts with head | ⟨normal, state, c, command, few⟩ | ⟨inside, c, kind, whole⟩
      · exact frameEnd_head head
      · exact frameEnd_tooFew state normal command few
      · exact frameEnd_insideByte kind whole ((midByte_eq place).trans inside)
    exact ⟨_, (exec_cut p mid s).trans ((atRiseIn_eq (.inr (midByte_eq place))).trans (atRise_ends low ends nofun)),
      setResult_raised s p _⟩
  case starting =>
    have ends : frameEnd s.ports[p].frame = .starting := (frameEnd_startUp state startUp).trans (if_neg notNop)
    exact ⟨_, (exec_starting p s).trans (atRise_ends low ends nofun), setResult_raised s p _⟩
  case lost =>
    exact ⟨_, (exec_lost p s).trans (atRise_ends low (frameEnd_dead state normal) nofun), setResult_raised s p _⟩

/-- Settles O19: a NOP frame ends with the rise, and on a byte boundary outside start-up with the lease's restart. -/
theorem nopKeepsTheResultAndTheSession : Obligations.NopKeepsTheResultAndTheSession := by
  intro p mid s low state command place
  have taken := (exec_nop p mid s).trans ((atRiseIn_eq (.inr (midByte_eq place))).trans
    (atRise_ends low (frameEnd_nop state command) nofun))
  refine ⟨_, taken, ?_⟩
  have raised := sameBut_mono (m := [.select p, .frame p, .expiry p]) (sameBut_raiseSelect s p) (by simp)
  by_cases keeps : (mid || s.ports[p].frame.startUp) = true
  · rw [if_pos keeps, if_neg fun ends => absurd keeps (by rw [ends.1, ends.2.1]; exact nofun)]
    exact ⟨raised, by rw [raiseSelect_port], by rw [raiseSelect_port], rfl⟩
  · rw [if_neg keeps]
    have ends : mid = false ∧ s.ports[p].frame.startUp = false := by simpa using keeps
    refine ⟨sameBut_trans raised (sameBut_mono (sameBut_leaseRestart _ p) (by simp)),
      by rw [leaseRestart_ports, raiseSelect_port], by rw [leaseRestart_ports, raiseSelect_port], ?_⟩
    rw [leaseRestart_session, raiseSelect_isOpen]
    by_cases isOpen : s.isOpen p = true
    · rw [if_pos isOpen, if_pos ⟨ends.1, ends.2, isOpen⟩]; rfl
    · rw [if_neg isOpen, if_neg fun h => isOpen h.2.2]; rfl

/-! ### A rise on an IDLE port (R181) -/

/-- The act of each set command, as its row has it. -/
def settingAct (p : Port) (c : Command) : List Byte → State → Done :=
  match c with
  | .openSession => openCommand p
  | .closeSession => fun _ => withSession p (close p)
  | .stageClear => fun _ => withSession p (stageClear p)
  | .stageWord => fun args => withSession p (stageWord p args)
  | .install => fun args => withSession p (install p args)
  | .modify => fun args => onOwnSlot p args (notRetiring (modify p))
  | .delete => fun args => onOwnSlot p args (notRetiring (delete p))
  | .stop => fun args => onOwnSlot p args (notRetiring stop)
  | .run => fun args => onOwnSlot p args (notRetiring run)
  | .startBurst => fun args => onOwnSlot p args (notRetiring startBurst)
  | .fetch => fun args => onOwnSlot p args (fetch p)
  | .releaseQueue => fun _ => withSession p (releaseQueue p)
  | .readNow => fun args => withSession p (readNow p args)
  | .claim => fun args => onExternal p args (claim p)
  | .release => fun args => onExternal p args (release p)
  | .configure => fun args => withSession p (configure p args)
  | .watchSet => fun args => onWatch p args (watchSet p args)
  | .watchArm => fun args => onWatch p args (watchArm p)
  | .watchDisarm => fun args => onWatch p args (watchDisarm p)
  | .watchClear => fun args => onWatch p args (watchClear p)
  | .nop | .readBuffer | .takeSamples | .takeEvents | .peekLatest | .readTime | .readChannel | .watchRead =>
    fun _ s => refuseWith s .noSession

theorem settingOf_kind {i : Instr} {p : Port} {c : Command} (row : settingOf i = some (p, c)) : c.kind = .setting := by
  cases i <;> cases row <;> rfl

theorem exec_setting {i : Instr} {p : Port} {c : Command} (row : settingOf i = some (p, c)) (s : State) :
    exec i s = takeSetting p c (settingAct p c) s := by
  cases i <;> cases row <;> rfl

theorem onOwnSlot_closed {p : Port} {s : State} (args : List Byte) (act : SlotNo → State → Done)
    (isClosed : s.isOpen p = false) : onOwnSlot p args act s = refuseWith s .noSession := by
  rw [onOwnSlot, withSession_closed isClosed]

theorem onExternal_closed {p : Port} {s : State} (args : List Byte) (act : Fin 16 → State → Done)
    (isClosed : s.isOpen p = false) : onExternal p args act s = refuseWith s .noSession := by
  rw [onExternal, withSession_closed isClosed]

theorem onWatch_closed {p : Port} {s : State} (args : List Byte) (act : Fin 8 → State → Except ResultCode State)
    (isClosed : s.isOpen p = false) : onWatch p args act s = refuseWith s .noSession := by
  rw [onWatch, withSession_closed isClosed]

/-- But for OPEN, every set command begins with the session check (R147). -/
theorem settingAct_closed {p : Port} {c : Command} (notOpen : c ≠ .openSession) (args : List Byte) {s : State}
    (isClosed : s.isOpen p = false) : settingAct p c args s = refuseWith s .noSession := by
  cases c with
  | openSession => exact absurd rfl notOpen
  | nop | readBuffer | takeSamples | takeEvents | peekLatest | readTime | readChannel | watchRead => rfl
  | modify | delete | stop | run | startBurst | fetch => exact onOwnSlot_closed args _ isClosed
  | claim | release => exact onExternal_closed args _ isClosed
  | watchSet | watchArm | watchDisarm => exact onWatch_closed args _ isClosed
  | watchClear => exact onWatch_closed args (watchClear p) isClosed
  | _ => exact withSession_closed isClosed

/-- The rows that name a frame end all answer the rise of the pin on an IDLE port. -/
theorem exec_idleRise {i : Instr} {p : Port} {s : State}
    (row : (∃ c, settingOf i = some (p, c)) ∨ (∃ mid, i = .nop p mid ∨ i = .unknown p mid ∨ i = .cut p mid)
      ∨ i = .starting p ∨ i = .lost p ∨ i = .streamingFrameEnd p)
    (low : s.ports[p].nsel = .low) (idle : s.ports[p].frame.state = .idle) : exec i s = .next (raiseSelect s p) := by
  have anyRow (row : FrameEnd) (act : Frame → State → State) := atRise_idle (row := row) (act := act) low idle
  rcases row with ⟨c, row⟩ | ⟨mid, rfl | rfl | rfl⟩ | rfl | rfl | rfl
  · exact (exec_setting row s).trans (anyRow _ _)
  · exact (atRiseIn_eq (.inl idle)).trans (anyRow _ _)
  · exact (atRiseIn_eq (.inl idle)).trans (anyRow _ _)
  · exact (atRiseIn_eq (.inl idle)).trans (anyRow _ _)
  · exact (exec_starting p s).trans (anyRow _ _)
  · exact (exec_lost p s).trans (anyRow _ _)
  · have abandoned : frameEnd s.ports[p].frame = .abandoned := by unfold frameEnd; rw [idle]
    rw [exec_streamingFrameEnd, execStreamingFrameEnd, abandoned]
    exact anyRow _ _

/-- Settles O21: the frame is IDLE before the rise and after it, so the pin is all that changes. -/
theorem riseOnAnIdlePort : Obligations.RiseOnAnIdlePort := by
  intro i p s row low frame
  refine ⟨_, exec_idleRise row low (by rw [frame]; rfl), by rw [raiseSelect_port], ?_⟩
  exact sameBut_setPort _ _ _ _ (.inl (by simp)) (.inr rfl) (.inr frame.symm) (.inr rfl) (.inr rfl) (.inr rfl)

/-- Settles O22: but for OPEN, every set command begins with the session check. -/
theorem setCommandsNeedAnOpenSession : Obligations.SetCommandsNeedAnOpenSession := by
  intro i p c s row notOpen due isClosed
  exact ⟨_, (exec_setting row s).trans (takeSetting_due due (settingOf_kind row) _),
    riseEffect_refused (settingAct_closed (s := raiseSelect s p) notOpen _ isClosed)⟩

/-! ### OPEN (R148, R149) -/

/-- The arguments that the frame of port p carries for OPEN. -/
def openArgsOf (s : State) (p : Port) : OpenArgs :=
  { lease := arg s p 0, depth := 16 * (arg s p 1).toNat
    policy := if arg s p 2 = 0 then .dropNewest else .dropOldest, watermark := (arg s p 3).toNat }

/-- The reserved bits of the policy byte are 0 exactly when it is 0 or 1. -/
theorem policy_reserved (b : Byte) : b.extractLsb' 1 7 = 0#7 ↔ b.toNat ≤ 1 := by
  rw [← BitVec.toNat_inj, BitVec.extractLsb'_toNat, Nat.shiftRight_eq_div_pow]
  have := b.isLt
  simp only [BitVec.toNat_ofNat]
  omega

theorem openArgs_bad {s : State} {p : Port} (bad : ¬ openArgsOk s p) :
    openArgs (arg s p 0) (arg s p 1) (arg s p 2) (arg s p 3) = none := by
  refine if_neg fun ok => bad ?_
  obtain ⟨lease, depth1, depth12, policy, mark⟩ := ok
  exact ⟨lease, depth1, depth12, (policy_reserved _).mp policy, mark⟩

theorem openArgs_ok {s : State} {p : Port} (ok : openArgsOk s p) :
    openArgs (arg s p 0) (arg s p 1) (arg s p 2) (arg s p 3) = some (openArgsOf s p) := by
  obtain ⟨lease, depth1, depth12, policy, mark⟩ := ok
  refine (if_pos ⟨lease, depth1, depth12, (policy_reserved _).mpr policy, mark⟩).trans ?_
  have bits : arg s p 2 = 0 ∨ arg s p 2 = 1 := by bv_omega
  unfold openArgsOf
  rcases bits with h | h <;> rw [h] <;> rfl

theorem openAccepted_session (s : State) (p : Port) (a : OpenArgs) : (openAccepted s p a).sessions[p] =
    { s.sessions[p] with
      state := .opened, lease := a.lease
      expiry := some (s.now + BitVec.ofNat 32 (a.lease.toNat * Config.leaseUnitTicks)) } := getElem_set_same _ _ _

theorem openAccepted_port (s : State) (p : Port) (a : OpenArgs) : (openAccepted s p a).ports[p] =
    { s.ports[p] with staging := stagingDefaults, readBuf := readBufferZero } := getElem_set_same _ _ _

/-- What an accepted OPEN leaves, the end of its frame included. -/
theorem openAccepted_accepted {s : State} {p : Port} {a : OpenArgs} {act : List Byte → State → Done} {f : Frame}
    (effect : act f.args (raiseSelect s p) = (openAccepted (raiseSelect s p) p a, ⟨.ok, BitVec.ofNat 8 p.val⟩)) :
    let t := riseEffect p act f (raiseSelect s p)
    accepted p (BitVec.ofNat 8 p.val) [.session p, .queue p, .unreserved, .staging p, .readBuf p] s t
      ∧ t.sessions[p].state = .opened ∧ t.sessions[p].lease = a.lease ∧ t.unreserved = s.unreserved - a.depth
      ∧ t.queues[p] = some (SampleQueue.new a.depth a.watermark a.policy)
      ∧ t.ports[p].staging = stagingDefaults ∧ t.ports[p].readBuf = readBufferZero := by
  have opened : (openAccepted (raiseSelect s p) p a).isOpen p = true := by rw [openAccepted_isOpen, if_pos rfl]
  obtain ⟨ends, frame⟩ := riseEffect_accepted effect (sameBut_openAccepted _ p a) (by simp) (by simp) (.inr opened)
  have left : riseEffect p act f (raiseSelect s p)
      = leaseRestart (setResult (openAccepted (raiseSelect s p) p a) p ⟨.ok, BitVec.ofNat 8 p.val⟩) p := by
    unfold riseEffect; rw [effect]
  have session := leaseRestart_session
    (setResult (openAccepted (raiseSelect s p) p a) p ⟨.ok, BitVec.ofNat 8 p.val⟩) p
  rw [setResult_isOpen, if_pos opened, setResult_sessions, openAccepted_session, ← left] at session
  have port : (riseEffect p act f (raiseSelect s p)).ports[p].staging = stagingDefaults
      ∧ (riseEffect p act f (raiseSelect s p)).ports[p].readBuf = readBufferZero := by
    rw [left, leaseRestart_ports, setResult_port, openAccepted_port]; exact ⟨rfl, rfl⟩
  refine ⟨⟨ends, sameBut_mono frame ?_⟩, by rw [session], by rw [session], ?_, ?_, port⟩
  · intro x mem
    simp only [riseParts, List.mem_append, List.mem_cons, List.not_mem_nil, or_false] at mem ⊢
    tauto
  · rw [left, leaseRestart_unreserved, setResult_unreserved, openAccepted_unreserved, raiseSelect_unreserved]
  · rw [left, leaseRestart_queues, setResult_queues, openAccepted_queues]
    exact getElem_set_same _ _ _

/-- Settles O23: the checks of OPEN in order, and what `openAccepted` writes. -/
theorem openGivesASession : Obligations.OpenGivesASession := by
  intro p s due
  refine ⟨_, (exec_openSession p s).trans (takeSetting_due due rfl _), fun isOpen => ?badState, fun isClosed bad => ?badArg,
    fun isClosed ok few => ?noRoom, fun isClosed ok room => ?opens⟩
  case badState => exact riseEffect_refused (if_pos isOpen)
  all_goals have notOpen : ¬ (raiseSelect s p).isOpen p = true := by simp [isClosed]
  case badArg =>
    refine riseEffect_refused ((if_neg notOpen).trans ?_)
    have none := openArgs_bad bad
    unfold arg at none
    rw [none]
  all_goals
    have args := openArgs_ok ok
    unfold arg at args
  case noRoom =>
    refine riseEffect_refused ((if_neg notOpen).trans ?_)
    rw [args]
    exact if_pos few
  case opens =>
    have effect : openCommand p s.ports[p].frame.args (raiseSelect s p)
        = (openAccepted (raiseSelect s p) p (openArgsOf s p), ⟨.ok, BitVec.ofNat 8 p.val⟩) := by
      refine (if_neg notOpen).trans ?_
      rw [args]
      exact if_neg (Nat.not_lt.mpr room)
    exact openAccepted_accepted effect

end Sys2Proof.Machine
end

