-- ==== Sys2Proof/Proofs/FrameBytes.lean ====
section
/-! PROOF. The status byte and SDOp (R173, R174, R192), and the edges of SCKp outside a reply (R171, R172, R176). -/

namespace Sys2Proof.Machine

/-! ### The status byte (R174, R192) -/

/-- The fields of a status byte outside start-up, each where R192 places it. -/
theorem statusFields : ∀ (x : BitVec 2) (events mark hold demand : Bool),
    let b : Byte := x ++ BitVec.ofBool events ++ BitVec.ofBool mark ++ BitVec.ofBool hold ++ BitVec.ofBool demand ++ 0#1 ++ 1#1
    b.extractLsb' 6 2 = x ∧ b.getLsbD 5 = events ∧ b.getLsbD 4 = mark ∧ b.getLsbD 3 = hold ∧ b.getLsbD 2 = demand
      ∧ b.extractLsb' 0 2 = 1#2 := by decide

theorem isHeld_iff (q : Option SampleQueue) : isHeld q = true ↔ ∃ x, q = some x ∧ x.hold = true := by
  cases q with
  | none => simp [isHeld]
  | some x => simp [isHeld]

theorem statusByte_startUp {s : State} (p : Port) (startUp : s.hub.startUp = true) : s.statusByte p = 0x01 :=
  if_pos startUp

theorem statusByte_running {s : State} (p : Port) (running : s.hub.startUp = false) : s.statusByte p =
    sessionBits s.sessions[p].state ++ BitVec.ofBool (s.isOpen p && eventsWaiting s.events[p])
      ++ BitVec.ofBool (s.isOpen p && atWatermark s.queues[p]) ++ BitVec.ofBool (s.isOpen p && isHeld s.queues[p])
      ++ BitVec.ofBool s.sessions[p].demandOutstanding ++ 0#1 ++ 1#1 := by
  unfold State.statusByte
  rw [if_neg (by simp [running])]

/-! ### What a frame drives (R171, R173) -/

theorem sdo_idle {s : State} {p : Port} (idle : s.ports[p].frame.state = .idle) : s.sdo p = none := if_pos idle

theorem sdo_inFrame {s : State} {p : Port} (inFrame : s.ports[p].frame.state ≠ .idle) :
    s.sdo p = some s.ports[p].frame.sdo := if_neg inFrame

theorem outByte_dead {f : Frame} (dead : f.state = .dead) : f.outByte = 0 := by
  unfold Frame.outByte; rw [dead]

/-- The byte that a frame which is not DEAD drives at each position (R173). -/
theorem outByte_live {f : Frame} (live : f.state ≠ .dead) :
    (f.bytesDone = 0 → f.outByte = f.status)
      ∧ (f.bytesDone = 1 → f.outByte = f.resultAtFall.code.byte)
      ∧ (f.bytesDone = 2 → f.outByte = f.resultAtFall.detail)
      ∧ (3 ≤ f.bytesDone → f.state = .reply → f.outByte = f.reply.getD (f.bytesDone - f.replyAt) 0)
      ∧ (3 ≤ f.bytesDone → f.state ≠ .reply → f.outByte = 0) := by
  unfold Frame.outByte
  split
  · rename_i dead; exact absurd dead live
  · refine ⟨fun k => by simp only [k], fun k => by simp only [k], fun k => by simp only [k], fun past reply => ?_, fun past other => ?_⟩
    · split
      · omega
      · omega
      · omega
      · exact if_pos reply
    · split
      · omega
      · omega
      · omega
      · exact if_neg other

/-- Settles O15: the status byte field by field, SDOp, and the byte at each position. -/
theorem statusByteAndOutput : Obligations.StatusByteAndOutput := by
  refine ⟨fun s p => ⟨statusByte_startUp p, fun running => ?status, sdo_idle, sdo_inFrame⟩, by decide,
    fun f => ⟨outByte_live, outByte_dead⟩⟩
  case status =>
    rw [statusByte_running p running]
    obtain ⟨state, events, mark, hold, demand, low⟩ := statusFields (sessionBits s.sessions[p].state)
      (s.isOpen p && eventsWaiting s.events[p]) (s.isOpen p && atWatermark s.queues[p])
      (s.isOpen p && isHeld s.queues[p]) s.sessions[p].demandOutstanding
    refine ⟨state.trans ?_, events, ?_, ?_, demand, low⟩
    · cases s.sessions[p].state <;> rfl
    · rw [mark, Bool.and_eq_true, atWatermark_iff]
    · rw [hold, Bool.and_eq_true, isHeld_iff]

/-! ### Rising edges (R171, R172, R176) -/

/-- Outside a reply a rising edge touches the pin and the frame. -/
theorem sameBut_clockRise_frame {s : State} {p : Port} (notReply : s.ports[p].frame.state ≠ .reply) (sdi : Level) :
    sameBut [.clock p, .frame p] s (clockRise s p sdi) := by
  have pin := sameBut_mono (m := [.clock p, .frame p]) (sameBut_setClock s p .high) (by simp)
  have framed (u : State) (f : Frame) := sameBut_mono (m := [.clock p, .frame p]) (sameBut_setFrame u p f) (by simp)
  unfold clockRise sampleBit
  simp only
  split
  · exact pin
  · split
    · exact sameBut_trans pin (framed _ _)
    · refine sameBut_trans pin (sameBut_trans (framed _ _)
        (sameBut_mono (sameBut_completeByte_frame ?_ _) (by simp)))
      rw [setFrame_port, setClock_port]
      exact notReply

/-- A rising edge leaves the pin high. -/
theorem clockRise_sck (s : State) (p : Port) (sdi : Level) : (clockRise s p sdi).ports[p].sck = .high := by
  have pin : (setClock s p .high).ports[p].sck = .high := by rw [setClock_port]
  unfold clockRise
  simp only
  split
  · exact pin
  · have kept : Part.same (.clock p) (setClock s p .high) (sampleBit (setClock s p .high) p sdi) :=
      sameBut_sampleBit _ p sdi (.clock p) (by simp)
    exact kept.trans pin

/-- What the edge that completes a byte sees of the port: its frame at the byte's end. -/
theorem completing_port (s : State) (p : Port) (f : Frame) :
    (setFrame (setClock s p .high) p f).ports[p] = { s.ports[p] with sck := .high, frame := f } := by
  rw [setFrame_port, setClock_port]

theorem stateAfterHead_eq (startUp : Bool) (b : Byte) : stateAfterHead startUp b =
    match Command.ofCode b with
    | none => .spill
    | some c =>
      if startUp then .spill
      else if 0 < c.argCount then .arguments
      else if c.kind = .streaming then .reply else .spill := by
  unfold stateAfterHead
  cases Command.ofCode b with
  | none => cases startUp <;> rfl
  | some c => cases startUp <;> cases c <;> rfl

/-- What completes with a byte, by the state of the frame (R172, R176). -/
theorem completeByte_head {s : State} {p : Port} (head : s.ports[p].frame.state = .head) (b : Byte) :
    completeByte s p b = setFrame s p (s.ports[p].frame.decodeHead b (s.isOpen p)) := by
  simp only [completeByte, head]

theorem completeByte_arguments {s : State} {p : Port} (state : s.ports[p].frame.state = .arguments) (b : Byte) :
    completeByte s p b = completeArgument s p b := by
  simp only [completeByte, state]

theorem completeByte_counts {s : State} {p : Port}
    (state : s.ports[p].frame.state = .spill ∨ s.ports[p].frame.state = .dead) (b : Byte) :
    completeByte s p b = setFrame s p { s.ports[p].frame with bytesDone := s.ports[p].frame.bytesDone + 1 } := by
  rcases state with state | state <;> simp only [completeByte, state]

theorem completeByte_reply {s : State} {p : Port} (reply : s.ports[p].frame.state = .reply) (b : Byte) :
    completeByte s p b = completeReplyByte s p := by
  simp only [completeByte, reply]

/-- The frame of port p as its byte completes. -/
def byteEnd (s : State) (p : Port) : Frame := { s.ports[p].frame with bits := 0, shiftIn := 0 }

/-- The state in which a rising edge completes a byte of port p. -/
def atByteEnd (s : State) (p : Port) : State := setFrame (setClock s p .high) p (byteEnd s p)

theorem atByteEnd_frame (s : State) (p : Port) : (atByteEnd s p).ports[p].frame = byteEnd s p := by
  rw [atByteEnd, completing_port]

theorem clockRise_atByteEnd {s : State} {p : Port} (inFrame : s.ports[p].frame.state ≠ .idle)
    (last : s.ports[p].frame.bits = 7) (sdi : Level) :
    clockRise s p sdi = completeByte (atByteEnd s p) p (shiftedIn s.ports[p].frame sdi) :=
  clockRise_completes inFrame last sdi

theorem clockRise_head {s : State} {p : Port} (head : s.ports[p].frame.state = .head) (last : s.ports[p].frame.bits = 7)
    (sdi : Level) : (clockRise s p sdi).ports[p].frame = { s.ports[p].frame with
      bits := 0, shiftIn := 0, code := some (shiftedIn s.ports[p].frame sdi), bytesDone := 1, sessionNoted := s.isOpen p
      state := stateAfterHead s.ports[p].frame.startUp (shiftedIn s.ports[p].frame sdi) } := by
  have frame := atByteEnd_frame s p
  rw [clockRise_atByteEnd (by rw [head]; exact nofun) last, completeByte_head (by rw [frame]; exact head), setFrame_port,
    frame]
  rfl

theorem clockRise_argument {s : State} {p : Port} {c : Command} (state : s.ports[p].frame.state = .arguments)
    (last : s.ports[p].frame.bits = 7) (command : s.ports[p].frame.command = some c)
    (keeps : c.kind ≠ .streaming ∨ s.ports[p].frame.args.length + 1 < c.argCount) (sdi : Level) :
    (clockRise s p sdi).ports[p].frame = { s.ports[p].frame with
      bits := 0, shiftIn := 0, args := s.ports[p].frame.args ++ [shiftedIn s.ports[p].frame sdi]
      bytesDone := s.ports[p].frame.bytesDone + 1
      state := if s.ports[p].frame.args.length + 1 < c.argCount then .arguments else .spill } := by
  have frame := atByteEnd_frame s p
  rw [clockRise_atByteEnd (by rw [state]; exact nofun) last, completeByte_arguments (by rw [frame]; exact state),
    completeArgument_keeps (by rw [frame]; exact state) (by rw [frame]; exact command) (by rw [frame]; exact keeps),
    setFrame_port, frame]
  rfl

theorem clockRise_counts {s : State} {p : Port}
    (state : s.ports[p].frame.state = .spill ∨ s.ports[p].frame.state = .dead) (last : s.ports[p].frame.bits = 7)
    (sdi : Level) : (clockRise s p sdi).ports[p].frame = { s.ports[p].frame with
      bits := 0, shiftIn := 0, bytesDone := s.ports[p].frame.bytesDone + 1 } := by
  have frame := atByteEnd_frame s p
  rw [clockRise_atByteEnd (by rcases state with h | h <;> rw [h] <;> exact nofun) last,
    completeByte_counts (by rw [frame]; exact state), setFrame_port, frame]
  rfl

/-! ### Falling edges (R171, R173) -/

/-- Whether a falling edge takes the first decision of a queue stream (R112, R139). -/
def Frame.decidesFirst (f : Frame) : Prop :=
  f.state = .reply ∧ f.bytesDone = 3 ∧ f.bits = 0 ∧ f.taken = .accepted
    ∧ (f.command = some .takeSamples ∨ f.command = some .takeEvents)

theorem firstDecision_none {s : State} {p : Port} (none : ¬ s.ports[p].frame.decidesFirst) : firstDecision s p = s := by
  unfold firstDecision
  simp only
  split
  · rename_i due
    obtain ⟨state, bytes, bits, taken⟩ := due
    split
    · rename_i command; exact absurd ⟨state, bytes, bits, taken, .inl command⟩ none
    · rename_i command; exact absurd ⟨state, bytes, bits, taken, .inr command⟩ none
    · rfl
  · rfl

/-- A falling edge in a frame at which nothing is due as a byte starts drives the next bit. -/
theorem clockFall_drives {s : State} {p : Port} (inFrame : s.ports[p].frame.state ≠ .idle)
    (noTime : s.ports[p].frame.timeIsDue = false) (noDecision : ¬ s.ports[p].frame.decidesFirst) :
    clockFall s p = setFrame (setClock s p .low) p
      { s.ports[p].frame with sdo := wireBit s.ports[p].frame.outByte s.ports[p].frame.bits } := by
  have noFirst : firstDecision (setClock s p .low) p = setClock s p .low :=
    firstDecision_none (by rw [setClock_port]; exact noDecision)
  unfold clockFall startBit
  simp only [if_neg inFrame, setClock_port, noTime, Bool.false_eq_true, if_false, noFirst]
  rfl

theorem timeIsDue_false {f : Frame} (notReply : f.state ≠ .reply) : f.timeIsDue = false := by
  simp [Frame.timeIsDue, notReply]

theorem clockFall_idle {s : State} {p : Port} (idle : s.ports[p].frame.state = .idle) :
    clockFall s p = setClock s p .low := if_pos idle

/-- A change of the pin SCKp and the frame. -/
theorem sameBut_clocked (s : State) (p : Port) (x : Level) (f : Frame) :
    sameBut [.clock p, .frame p] s (setFrame (setClock s p x) p f) :=
  sameBut_trans (sameBut_mono (sameBut_setClock s p x) (by simp)) (sameBut_mono (sameBut_setFrame _ p f) (by simp))

theorem clocked_port (s : State) (p : Port) (x : Level) (f : Frame) :
    (setFrame (setClock s p x) p f).ports[p] = { s.ports[p] with sck := x, frame := f } := by
  rw [setFrame_port, setClock_port]

/-! ### The command table (spec/09, 9.4) and the order of the bits (R171) -/

theorem commandTable_find : ∀ b : Byte, (Command.ofCode b).map (fun c => (c, c.argCount, c.kind, c.needsSession))
    = (commandTable.find? fun x => decide (x.1 = b)).map fun x => x.2 := by decide

/-- One more bit at the low end of a byte. -/
def shiftedBit (x : Byte) (sdi : Level) : Byte := x.extractLsb' 0 7 ++ (if sdi = .high then 1#1 else 0#1)

/-- Shifting into a frame is shifting into its byte. -/
theorem foldl_shiftIn (b : Byte) (l : List Nat) (f : Frame) :
    (l.foldl (fun (g : Frame) (i : Nat) => { g with shiftIn := shiftedIn g (wireBit b i) }) f).shiftIn
      = l.foldl (fun x i => shiftedBit x (wireBit b i)) f.shiftIn := by
  induction l generalizing f with
  | nil => rfl
  | cons i l ih => exact ih _

/-- Eight bits, the most significant first, make the byte. -/
theorem foldl_shiftedBit : ∀ b : Byte, (List.range 8).foldl (fun x i => shiftedBit x (wireBit b i)) 0 = b := by decide

/-- Settles O17: both edges outside a reply, the command table, and the order of the bits. -/
theorem bytesBeforeTheReply : Obligations.BytesBeforeTheReply := by
  refine ⟨fun p s => ⟨fun sdi low notReply => ?rise, fun high notReply => ?fall⟩, commandTable_find, fun f b => ?bits⟩
  case rise =>
    refine ⟨_, (exec_byteCompletion p _ s).trans (execByteCompletion_rise low sdi),
      sameBut_clockRise_frame notReply sdi, clockRise_sck s p sdi, fun idle => ?_, fun inFrame few => ?_,
      fun head last => ?_, fun c state last command keeps => clockRise_argument state last command keeps sdi,
      fun state last => clockRise_counts state last sdi⟩
    · rw [clockRise_idle idle, setClock_port]
    · rw [clockRise_shifts inFrame few, setFrame_port]
    · rw [clockRise_head head last, stateAfterHead_eq] <;> rfl
  case fall =>
    have taken := (exec_byteCompletion p .fall s).trans (execByteCompletion_fall high)
    by_cases idle : s.ports[p].frame.state = .idle
    · rw [clockFall_idle idle] at taken
      refine ⟨_, taken, sameBut_mono (sameBut_setClock s p .low) (by simp), ?_, fun _ => ?_, fun other => absurd idle other⟩
      · rw [setClock_port]
      · rw [setClock_port]
    · rw [clockFall_drives idle (timeIsDue_false notReply) fun due => notReply due.1] at taken
      refine ⟨_, taken, sameBut_clocked s p .low _, ?_, fun other => absurd other idle, fun _ => ?_⟩
      · rw [clocked_port]
      · rw [clocked_port]
  case bits =>
    exact (foldl_shiftIn b _ _).trans (foldl_shiftedBit b)

end Sys2Proof.Machine
end

