-- ==== Sys2Proof/Proofs/FrameReplies.lean ====
section
/-! PROOF. The streams: the edge at which each is taken with its reply (R85, R90, R111, R126, R139, R164, R187), a reply whose bits are out of range, and the end of a streaming frame (R179). -/

namespace Sys2Proof.Machine

/-! ### The edge at which a streaming command is taken (R179) -/

theorem takesAtEdge_kind {c : Command}
    (one : c ∈ [Command.readBuffer, .watchRead, .readChannel, .peekLatest, .takeSamples, .takeEvents]) :
    c.kind = .streaming ∧ c.argCount = 1 := by
  simp only [List.mem_cons, List.not_mem_nil, or_false] at one
  rcases one with rfl | rfl | rfl | rfl | rfl | rfl <;> exact ⟨rfl, rfl⟩

/-- Both rows that name the taking edge answer that rising edge (log 5). -/
theorem exec_takesAtEdge {i : Instr} {p : Port} {c : Command} {sdi : Level} {s : State} (row : takesAtEdge i p c sdi)
    (due : takingDue p c s) : exec i s = .next (clockRise s p sdi) := by
  rcases row with rfl | row
  · exact (exec_byteCompletion p _ s).trans (execByteCompletion_rise due.1 sdi)
  · have taken := atTakingEdge_due (e := ⟨p, sdi⟩) due
    cases c with
    | readBuffer => exact row ▸ taken
    | takeSamples => exact row ▸ taken
    | takeEvents => exact row ▸ taken
    | peekLatest => exact row ▸ taken
    | readChannel => exact row ▸ taken
    | watchRead => exact row ▸ taken
    | _ => exact row.elim

/-- The frame of port p taken by a streaming command of one argument byte, with what became of it and its reply. -/
def takenFrame (f : Frame) (sdi : Level) (x : Taken) (reply : List Byte) : Frame :=
  { f with
    bits := 0, shiftIn := 0, args := [shiftedIn f sdi], bytesDone := f.bytesDone + 1, state := .reply
    taken := x, reply := reply, replyAt := 3 }

/-- The taking edge of a streaming command of one argument byte. -/
theorem clockRise_takesOne {s : State} {p : Port} {c : Command} (due : takingDue p c s) (kind : c.kind = .streaming)
    (one : c.argCount = 1) (sdi : Level) : clockRise s p sdi = setFrame (setClock s p .high) p
      (takenFrame s.ports[p].frame sdi (streamReply c p [shiftedIn s.ports[p].frame sdi] s).1
        (streamReply c p [shiftedIn s.ports[p].frame sdi] s).2) := by
  obtain ⟨-, -, -, -, length⟩ := id due
  have noArgs : s.ports[p].frame.args = [] := List.length_eq_zero_iff.mp (by omega)
  rw [clockRise_takes due kind]
  simp only [noArgs, List.nil_append]
  rfl

/-- What the taking edge answers: the frame, once the reply is known. -/
theorem exec_takesOne {i : Instr} {p : Port} {c : Command} {sdi : Level} {s : State} (row : takesAtEdge i p c sdi)
    (due : takingDue p c s)
    (one : c ∈ [Command.readBuffer, .watchRead, .readChannel, .peekLatest, .takeSamples, .takeEvents]) :
    ∃ t, exec i s = .next t ∧ sameBut [.clock p, .frame p] s t ∧ t.ports[p].sck = .high
      ∧ ∀ x reply, streamReply c p [shiftedIn s.ports[p].frame sdi] s = (x, reply) →
        t.ports[p].frame = takenFrame s.ports[p].frame sdi x reply := by
  obtain ⟨kind, count⟩ := takesAtEdge_kind one
  have taken := exec_takesAtEdge row due
  rw [clockRise_takesOne due kind count] at taken
  refine ⟨_, taken, sameBut_clocked s p .high _, by rw [clocked_port], fun x reply answers => ?_⟩
  rw [clocked_port, answers]

/-! ### TAKE_SAMPLES and TAKE_EVENTS (R111, R139) -/

/-- The checks of the two queue streams, which are the same. -/
theorem queueStreamReply {c : Command} (queue : c = .takeSamples ∨ c = .takeEvents) (p : Port) (b : Byte) (s : State) :
    ∃ k, streamReply c p [b] s =
      (if s.isOpen p = false then .refused .noSession else if b = 0 then .refused .badArg else .accepted,
        List.replicate k 0) := by
  have reply : streamReply c p [b] s = takeSamplesReply p [b] s := by rcases queue with rfl | rfl <;> rfl
  rw [reply]
  unfold takeSamplesReply
  cases isOpen : s.isOpen p with
  | false => exact ⟨1, rfl⟩
  | true =>
    by_cases zero : b = 0
    · subst zero; exact ⟨1, rfl⟩
    · have byte : argByte [b] 0 ≠ 0 := zero
      simp only [Bool.not_true, Bool.false_eq_true, if_false, if_neg byte, if_neg zero, reduceCtorEq]
      exact ⟨0, rfl⟩

/-- Settles O30: the taking edge with the checks of the queue streams. -/
theorem queueStreamsAreChecked : Obligations.QueueStreamsAreChecked := by
  intro i p c sdi s row queue due
  obtain ⟨t, taken, frame, high, answered⟩ := exec_takesOne row due (by rcases queue with rfl | rfl <;> simp)
  obtain ⟨k, reply⟩ := queueStreamReply queue p (shiftedIn s.ports[p].frame sdi) s
  exact ⟨t, taken, frame, high, k, answered _ _ reply⟩

/-! ### The replies of the snapshot streams, byte by byte -/

/-- The number that two fields side by side make. -/
theorem toNat_append_add {m n : Nat} (x : BitVec m) (y : BitVec n) : (x ++ y).toNat = x.toNat * 2 ^ n + y.toNat := by
  rw [BitVec.toNat_append, ← Nat.shiftLeft_add_eq_or_of_lt y.isLt, Nat.shiftLeft_eq]

/-- A conversion value as two bytes (R191). -/
theorem valueBytes_eq (v : BitVec 12) : valueBytes v = [0#4 ++ v.extractLsb' 8 4, v.extractLsb' 0 8] := by
  have bound := v.isLt
  have high : (v.setWidth 16).extractLsb' 8 8 = 0#4 ++ v.extractLsb' 8 4 := by
    refine BitVec.eq_of_toNat_eq (Eq.trans ?_ (toNat_append_add 0#4 (v.extractLsb' 8 4)).symm)
    simp only [BitVec.extractLsb'_toNat, BitVec.toNat_setWidth, BitVec.toNat_ofNat, Nat.shiftRight_eq_div_pow]
    omega
  have low : (v.setWidth 16).extractLsb' 0 8 = v.extractLsb' 0 8 := by
    refine BitVec.eq_of_toNat_eq ?_
    simp only [BitVec.extractLsb'_toNat, BitVec.toNat_setWidth, Nat.shiftRight_eq_div_pow]
    omega
  rw [valueBytes, bytes2, high, low]

theorem bytes2_ofNat (n : Nat) : bytes2 (BitVec.ofNat 16 n) = [BitVec.ofNat 8 (n / 256), BitVec.ofNat 8 n] := by
  have high : (BitVec.ofNat 16 n).extractLsb' 8 8 = BitVec.ofNat 8 (n / 256) := by
    refine BitVec.eq_of_toNat_eq ?_
    simp only [BitVec.extractLsb'_toNat, Nat.shiftRight_eq_div_pow, BitVec.toNat_ofNat]
    omega
  have low : (BitVec.ofNat 16 n).extractLsb' 0 8 = BitVec.ofNat 8 n := by
    refine BitVec.eq_of_toNat_eq ?_
    simp only [BitVec.extractLsb'_toNat, Nat.shiftRight_eq_div_pow, BitVec.toNat_ofNat]
    omega
  rw [bytes2, high, low]

/-- The two pattern bytes of 11.5 hold four terms and two. -/
theorem pattern_high (a b c d e f : BitVec 2) :
    (a ++ b ++ c ++ d ++ e ++ f ++ 0#4).extractLsb' 8 8 = a ++ b ++ c ++ d := by
  refine BitVec.eq_of_toNat_eq (Eq.trans ?_ (toNat_append_add (a ++ b ++ c) d).symm)
  simp only [BitVec.extractLsb'_toNat, toNat_append_add, Nat.shiftRight_eq_div_pow, BitVec.toNat_ofNat]
  omega

theorem pattern_low (a b c d e f : BitVec 2) :
    (a ++ b ++ c ++ d ++ e ++ f ++ 0#4).extractLsb' 0 8 = e ++ f ++ 0#4 := by
  refine BitVec.eq_of_toNat_eq (Eq.trans ?_ (toNat_append_add (e ++ f) 0#4).symm)
  simp only [BitVec.extractLsb'_toNat, toNat_append_add, Nat.shiftRight_eq_div_pow, BitVec.toNat_ofNat]
  omega

/-- The WATCH_READ reply, byte by byte (R126). -/
theorem watchReply_eq (w : Fin 8) (x : Watch) : watchReply w x =
    [BitVec.ofNat 8 w.val, x.state.byte, x.selector.byte,
      x.pattern.above.bits ++ x.pattern.below.bits ++ x.pattern.crossed.bits ++ x.pattern.overrun.bits,
      x.pattern.preempted.bits ++ x.pattern.clipped.bits ++ 0#4, modeActionByte x.mode x.action,
      BitVec.ofNat 8 x.captureSlot.val, BitVec.ofNat 8 (x.hitCount / 256), BitVec.ofNat 8 x.hitCount] := by
  have high := pattern_high x.pattern.above.bits x.pattern.below.bits x.pattern.crossed.bits x.pattern.overrun.bits
    x.pattern.preempted.bits x.pattern.clipped.bits
  have low := pattern_low x.pattern.above.bits x.pattern.below.bits x.pattern.crossed.bits x.pattern.overrun.bits
    x.pattern.preempted.bits x.pattern.clipped.bits
  rw [← high, ← low]
  unfold watchReply
  rw [bytes2_ofNat]
  rfl

/-- The PEEK_LATEST reply, byte by byte (R90). -/
theorem latestReply_eq (s : State) (c : Channel) : latestReply s c =
    let x := s.latest[c]
    [BitVec.ofNat 8 c.val, (if x.valid then 0x80 else 0) + (if x.clipped then 0x40 else 0),
      0#4 ++ x.value.extractLsb' 8 4, x.value.extractLsb' 0 8, x.timestamp.extractLsb' 24 8,
      x.timestamp.extractLsb' 16 8, x.timestamp.extractLsb' 8 8, x.timestamp.extractLsb' 0 8, x.generation,
      x.count.extractLsb' 8 8, x.count.extractLsb' 0 8, portByte x.producer] := by
  have flags : ∀ a b : Bool, (BitVec.ofBool a ++ BitVec.ofBool b ++ 0#6 : Byte)
      = (if a then 0x80 else 0) + (if b then 0x40 else 0) := by decide
  unfold latestReply
  simp only [valueBytes_eq, flags]
  rfl

theorem modeActionByte_eq (m : WatchMode) (a : WatchAction) : modeActionByte m a =
    (match m with | .once => 0x00 | .repeating => 0x80) + (match a with | .notify => 0 | .capture => 1 | .hold => 2) := by
  cases m <;> cases a <;> rfl

theorem readBuffer_closed {p : Port} {b : Byte} {s : State} (isClosed : s.isOpen p = false) :
    streamReply .readBuffer p [b] s = (.refused .noSession, List.replicate (32 - b.toNat) 0) :=
  if_pos (by simp [isClosed])

theorem readBuffer_badArg {p : Port} {b : Byte} {s : State} (isOpen : s.isOpen p = true) (above : 31 < b.toNat) :
    streamReply .readBuffer p [b] s = (.refused .badArg, List.replicate (32 - b.toNat) 0) :=
  (if_neg (by simp [isOpen])).trans (if_pos above)

theorem readBuffer_replies {p : Port} {b : Byte} {s : State} (isOpen : s.isOpen p = true) (within : b.toNat ≤ 31) :
    streamReply .readBuffer p [b] s = (.accepted, s.ports[p].readBuf.toList.drop b.toNat) :=
  (if_neg (by simp [isOpen])).trans (if_neg (by exact Nat.not_lt.mpr within))

theorem watchRead_closed {p : Port} {b : Byte} {s : State} (isClosed : s.isOpen p = false) :
    streamReply .watchRead p [b] s = (.refused .noSession, List.replicate 9 0) :=
  if_pos (by simp [isClosed])

theorem watchRead_badArg {p : Port} {b : Byte} {s : State} (isOpen : s.isOpen p = true) (above : 7 < b.toNat) :
    streamReply .watchRead p [b] s = (.refused .badArg, List.replicate 9 0) := by
  have none : watchOfByte (argByte [b] 0) = none := dif_neg (Nat.not_lt.mpr above)
  refine (if_neg (by simp [isOpen])).trans ?_
  rw [none]

theorem watchRead_replies {p : Port} {b : Byte} {s : State} {w : Fin 8} (isOpen : s.isOpen p = true)
    (named : b.toNat = w.val) : streamReply .watchRead p [b] s = (.accepted, watchReply w s.watches[p][w]) := by
  have some : watchOfByte (argByte [b] 0) = some w := by simp [watchOfByte, argByte, named]
  refine (if_neg (by simp [isOpen])).trans ?_
  rw [some]

theorem channelStream_badArg {c : Command} (channel : c = .readChannel ∨ c = .peekLatest) {p : Port} {b : Byte} {s : State}
    (above : 19 < b.toNat) : ∃ k, streamReply c p [b] s = (.refused .badArg, List.replicate k 0) := by
  have none : channelOfByte (argByte [b] 0) = none := dif_neg (Nat.not_lt.mpr above)
  rcases channel with rfl | rfl
  · exact ⟨4, by simp only [streamReply, readChannelReply, none]⟩
  · exact ⟨12, by simp only [streamReply, peekLatestReply, none]⟩

theorem channelOfByte_some {b : Byte} {c : Channel} (named : b.toNat = c.val) : channelOfByte b = some c := by
  simp [channelOfByte, named]

theorem readChannel_replies {p : Port} {b : Byte} {s : State} {c : Channel} (named : b.toNat = c.val) :
    streamReply .readChannel p [b] s = (.accepted, channelReply s c) := by
  have some : channelOfByte (argByte [b] 0) = some c := channelOfByte_some named
  simp only [streamReply, readChannelReply, some]

theorem peekLatest_replies {p : Port} {b : Byte} {s : State} {c : Channel} (named : b.toNat = c.val) :
    streamReply .peekLatest p [b] s = (.accepted, latestReply s c) := by
  have some : channelOfByte (argByte [b] 0) = some c := channelOfByte_some named
  simp only [streamReply, peekLatestReply, some]

/-- The odd partner of a PAIRED channel, in the words of R80. -/
theorem oddPartner_external (s : State) (d : Fin 16) : s.oddPartner (externalChannel d) =
    decide (∃ e : Fin 16, e.val + 1 = d.val ∧ d.val % 2 = 1 ∧ s.channels[e].mode = .paired) := by
  have bound := d.isLt
  unfold State.oddPartner
  by_cases odd : d.val % 2 = 1
  · rw [dif_pos ⟨bound, odd⟩]
    refine decide_eq_decide.mpr ⟨fun paired => ⟨⟨d.val - 1, by omega⟩, by simp only; omega, odd, paired⟩, ?_⟩
    rintro ⟨e, next, -, paired⟩
    have same : e = ⟨d.val - 1, by omega⟩ := Fin.ext (by simp only; omega)
    rw [same] at paired
    exact paired
  · rw [dif_neg fun h => odd h.2]
    exact (decide_eq_false fun ⟨e, next, isOdd, paired⟩ => odd isOdd).symm

theorem channelView_external (s : State) (d : Fin 16) : s.channelView (externalChannel d) = s.channels[d] :=
  dif_pos d.isLt

/-- The READ_CHANNEL reply of an internal channel (R74). -/
theorem channelReply_internal (s : State) {c : Channel} (internal : 16 ≤ c.val) :
    channelReply s c = [BitVec.ofNat 8 c.val, 0, 0xFF, 0] := by
  have view : s.channelView c = ChannelConfig.atReset := dif_neg (Nat.not_lt.mpr internal)
  have partner : s.oddPartner c = false := dif_neg fun h => Nat.not_lt.mpr internal h.1
  simp only [channelReply, view, partner]
  rfl

/-- Settles O28: the taking edge, with the checks and the reply of each snapshot stream. -/
theorem snapshotStreamsReadTheirReply : Obligations.SnapshotStreamsReadTheirReply := by
  intro i p c sdi s row one due f a completed refusedBy replies
  obtain ⟨t, taken, frame, high, answered⟩ := exec_takesOne row due (by
    simp only [List.mem_cons, List.not_mem_nil, or_false] at one ⊢; tauto)
  refine ⟨t, taken, frame, high, ?closed, ?bufferBad, ?buffer, ?watchBad, ?watch, ?channelBad, ?external, ?internal,
    ?latest⟩
  case closed =>
    rintro (rfl | rfl) isClosed
    · exact ⟨_, answered _ _ (readBuffer_closed isClosed)⟩
    · exact ⟨_, answered _ _ (watchRead_closed isClosed)⟩
  case bufferBad => rintro rfl isOpen above; exact ⟨_, answered _ _ (readBuffer_badArg isOpen above)⟩
  case buffer => rintro rfl isOpen within; exact answered _ _ (readBuffer_replies isOpen within)
  case watchBad => rintro rfl isOpen above; exact ⟨_, answered _ _ (watchRead_badArg isOpen above)⟩
  case watch =>
    rintro w rfl isOpen named
    refine answered _ _ ((watchRead_replies isOpen named).trans ?_)
    rw [watchReply_eq, modeActionByte_eq]
    rfl
  case channelBad =>
    intro channel above
    obtain ⟨k, reply⟩ := channelStream_badArg channel (p := p) (s := s) above
    exact ⟨k, answered _ _ reply⟩
  case external =>
    rintro d rfl named
    refine answered _ _ ((readChannel_replies (c := externalChannel d) named).trans ?_)
    unfold channelReply
    rw [channelView_external, oddPartner_external]
    rfl
  case internal =>
    rintro rfl above within
    have named : (shiftedIn f sdi).toNat = (⟨a, by omega⟩ : Channel).val := rfl
    refine answered _ _ ((readChannel_replies named).trans ?_)
    rw [channelReply_internal s above, ← named, BitVec.ofNat_toNat, BitVec.setWidth_eq]
  case latest =>
    rintro d rfl named
    refine answered _ _ ((peekLatest_replies named).trans ?_)
    rw [latestReply_eq]
    rfl

/-! ### READ_TIME (R164) -/

theorem timeIsDue_true {f : Frame} (state : f.state = .reply) (command : f.command = some .readTime) (untaken : f.taken = .no)
    (bytes : f.bytesDone = 3) (bits : f.bits = 0) : f.timeIsDue = true := by
  simp [Frame.timeIsDue, state, command, untaken, bytes, bits]

/-- The falling edge that starts byte 3 of a READ_TIME frame samples the tick counter and drives its first bit. -/
theorem clockFall_samplesTime {s : State} {p : Port} (inReply : s.ports[p].frame.state = .reply)
    (due : s.ports[p].frame.timeIsDue = true) : clockFall s p = setFrame (setClock s p .low) p
      ({ s.ports[p].frame with taken := .accepted, reply := bytes4 s.now, replyAt := 3 } : Frame).driveBit := by
  unfold clockFall startBit sampleTime
  have inFrame : ¬ s.ports[p].frame.state = .idle := by rw [inReply]; exact nofun
  simp only [if_neg inFrame, setClock_port, due, if_true, setFrame_port, setFrame_setFrame]
  rfl

/-- The first bit of a tick on the wire is its most significant. -/
theorem getMsbD_tick (tick : Tick) : (tick.extractLsb' 24 8).getMsbD 0 = tick.getLsbD 31 := by
  simp [BitVec.getMsbD]

/-- Settles O29: READ_TIME's falling edge, which its own row names as well. -/
theorem readTimeSamplesTheTick : Obligations.ReadTimeSamplesTheTick := by
  intro i p s row state command untaken bytes bits high
  have due := timeIsDue_true state command untaken bytes bits
  have taken : exec i s = .next (clockFall s p) := by
    rcases row with rfl | rfl
    · exact (exec_readTime p s).trans (if_pos ⟨high, due⟩)
    · exact (exec_byteCompletion p .fall s).trans (execByteCompletion_fall high)
  rw [clockFall_samplesTime state due] at taken
  refine ⟨_, taken, sameBut_clocked s p .low _, by rw [clocked_port], ?_⟩
  rw [clocked_port, driveBit_eq]
  have first : ({ s.ports[p].frame with taken := .accepted, reply := bytes4 s.now, replyAt := 3 } : Frame).outByte
      = s.timebase.tick.extractLsb' 24 8 := by
    have live : s.ports[p].frame.state ≠ .dead := by rw [state]; exact nofun
    obtain ⟨-, -, -, reply, -⟩ := outByte_live
      (f := { s.ports[p].frame with taken := .accepted, reply := bytes4 s.now, replyAt := 3 }) live
    rw [reply bytes.ge state]
    simp only [bytes]
    rfl
  rw [first]
  simp only [bits, wireBit, getMsbD_tick]
  rfl

/-! ### A frame whose bits are out of range -/

/-- A TAKE_SAMPLES frame in its reply with eight bits counted since its last byte, which no rising edge leaves. -/
def strayFrame : Frame :=
  { Frame.idle with
    state := .reply, bits := 8, bytesDone := 3, code := some 0x30, args := [1], taken := .accepted, reply := [0]
    replyAt := 3 }

/-- A port with that frame, and a marked record in its queue. -/
def strayState : State :=
  (State.reset.setPort 0 { PortState.atReset .low .low with frame := strayFrame }).setQueue 0
    (some { SampleQueue.new 16 1 .dropNewest with
      records := [buildRecord ⟨0, 0, 0, 0, 0, false, 1⟩ (.demand 0) ⟨false, false, false, false, false, false⟩]
      shifting := true })

/-- The next rising edge removes the record. -/
theorem strayState_removes :
    ((clockRise strayState 0 .low).queues[(0 : Port)].map fun q => q.records.length) = some 0 := by decide

/-- Refutes O18: with `bits` above 7 the next byte completes although `lastByteDue` (bits = 7) does not hold, and the
record leaves the queue, which the frame condition excludes. No invariant of the hub is assumed there. -/
theorem not_bytesOfAReply : ¬ Obligations.BytesOfAReply := by
  intro claim
  obtain ⟨rise, -⟩ := claim 0 strayState rfl
  obtain ⟨t, taken, frame, -⟩ := rise .low rfl fun due => absurd due.2.1 (by decide)
  cases taken.symm.trans ((exec_byteCompletion 0 _ strayState).trans (execByteCompletion_rise rfl .low))
  have kept : (clockRise strayState 0 .low).queues[(0 : Port)] = strayState.queues[(0 : Port)] :=
    frame (.queue 0) (by decide)
  have empty := strayState_removes
  rw [kept] at empty
  exact absurd empty (by decide)

end Sys2Proof.Machine
end

