-- ==== Sys2Proof/Proofs/StreamRecords.lean ====
section
/-! PROOF. The records of the queue streams: their removal as their last byte is shifted out (R112, R139, R140), their bytes (spec/11, 11.6 and 11.7), and the end of a streaming frame (R179). -/

namespace Sys2Proof.Machine

/-! ### A removal's edge -/

/-- The frame of port p once the last byte of the reply has been counted. -/
def countedFrame (s : State) (p : Port) : Frame :=
  { s.ports[p].frame with bits := 0, shiftIn := 0, bytesDone := s.ports[p].frame.bytesDone + 1 }

/-- The state in which the removal is made. -/
def counted1 (s : State) (p : Port) : State := setFrame (setClock s p .high) p (countedFrame s p)

theorem counted1_frame (s : State) (p : Port) : (counted1 s p).ports[p].frame = countedFrame s p := by
  rw [counted1, clocked_port]

/-- The frame when the removal has been made and a decision has given it the reply l. -/
def nextReply (s : State) (p : Port) (l : List Byte) : Frame :=
  { countedFrame s p with
    removed := s.ports[p].frame.removed + 1, reply := l, replyAt := s.ports[p].frame.bytesDone + 1 }

/-- Whether the decision after the removal may begin another record (R112). -/
theorem mayRemoveMore_iff (f : Frame) : f.mayRemoveMore = true ↔ f.removed < (argByte f.args 0).toNat := by
  simp [Frame.mayRemoveMore]

/-! ### A decision of each stream (R112, R139) -/

theorem decideSamples_begins {s : State} {p : Port} {q : SampleQueue} {r : SampleRecord} {more : List SampleRecord}
    (queue : s.queues[p] = some q) (records : q.records = r :: more) (may : s.ports[p].frame.mayRemoveMore = true) :
    decideSamples s p
      = setFrame (s.setQueue p (some { q with shifting := true })) p (s.ports[p].frame.beginRecord r.bytes) := by
  simp only [decideSamples, queue, records, may, if_true]

theorem decideSamples_ends {s : State} {p : Port} {q : SampleQueue} (queue : s.queues[p] = some q)
    (last : q.records = [] ∨ ¬ s.ports[p].frame.mayRemoveMore = true) :
    decideSamples s p = setFrame s p s.ports[p].frame.beginEndMarker := by
  cases records : q.records with
  | nil => simp only [decideSamples, queue, records]
  | cons r more =>
    have stops := last.resolve_left (by rw [records]; exact List.cons_ne_nil _ _)
    simp only [decideSamples, queue, records, if_neg stops]

theorem decideEvents_begins {s : State} {p : Port} {e : EventRecord} {more : List EventRecord}
    (records : s.events[p].records = e :: more) (may : s.ports[p].frame.mayRemoveMore = true) : decideEvents s p
      = setFrame (s.setEvents p { s.events[p] with shifting := true }) p (s.ports[p].frame.beginRecord e.bytes) := by
  simp only [decideEvents, records, may, if_true]

theorem decideEvents_ends {s : State} {p : Port}
    (last : s.events[p].records = [] ∨ ¬ s.ports[p].frame.mayRemoveMore = true) :
    decideEvents s p = setFrame s p s.ports[p].frame.beginEndMarker := by
  cases records : s.events[p].records with
  | nil => simp only [decideEvents, records]
  | cons e more =>
    have stops := last.resolve_left (by rw [records]; exact List.cons_ne_nil _ _)
    simp only [decideEvents, records, if_neg stops]

/-! ### The removal of a sample record (R112) -/

/-- The state after the head left the sample queue, before the next decision. -/
def sampleGone (s : State) (p : Port) (q : SampleQueue) : State :=
  setFrame ((counted1 s p).setQueue p (some q.removeHead)) p
    { countedFrame s p with removed := s.ports[p].frame.removed + 1 }

theorem sampleGone_frame (s : State) (p : Port) (q : SampleQueue) : (sampleGone s p q).ports[p].frame =
    { countedFrame s p with removed := s.ports[p].frame.removed + 1 } := by
  rw [sampleGone, setFrame_port]

theorem sampleGone_queue (s : State) (p : Port) (q : SampleQueue) :
    (sampleGone s p q).queues[p] = some q.removeHead := getElem_set_same _ _ _

theorem clockRise_removesSample {s : State} {p : Port} {q : SampleQueue} (state : s.ports[p].frame.state = .reply)
    (command : s.ports[p].frame.command = some .takeSamples) (queue : s.queues[p] = some q) (marked : q.shifting = true)
    (last : lastByteDue p s) (sdi : Level) :
    streamsRecord s p = true ∧ clockRise s p sdi = decideSamples (sampleGone s p q) p := by
  have streams : streamsRecord s p = true := by simp only [streamsRecord, command, samplesShifting, queue, marked]
  refine ⟨streams, (clockRise_removes state streams last sdi).trans ?_⟩
  show removeRecord (counted1 s p) p = _
  have still : (countedFrame s p).command = some .takeSamples := command
  have sameQueue : (counted1 s p).queues[p] = some q := queue
  simp only [removeRecord, counted1_frame, still, removeSample, sameQueue, Option.map_some]
  rfl

/-- Both rows that name a removal's edge answer that rising edge (log 5). -/
theorem exec_removal {i row : Instr} {p : Port} {c : Command} {sdi : Level} {s : State}
    (named : i = row ∨ i = .byteCompletion p (.rise sdi)) (isRow : exec row s = atRemovalEdge c ⟨p, sdi⟩ s)
    (low : s.ports[p].sck = .low) (state : s.ports[p].frame.state = .reply)
    (command : s.ports[p].frame.command = some c) (streams : streamsRecord s p = true) (last : lastByteDue p s) :
    exec i s = .next (clockRise s p sdi) := by
  rcases named with rfl | rfl
  · exact isRow.trans (atRemovalEdge_due (e := ⟨p, sdi⟩) low state command streams last)
  · exact (exec_byteCompletion p _ s).trans (execByteCompletion_rise low sdi)

theorem sameBut_sampleGone (s : State) (p : Port) (q : SampleQueue) :
    sameBut [.clock p, .frame p, .queue p] s (decideSamples (sampleGone s p q) p) :=
  sameBut_trans (sameBut_mono (sameBut_clocked s p .high _) (by simp)) (sameBut_trans
    (sameBut_mono (sameBut_setQueue _ p _) (by simp)) (sameBut_trans
      (sameBut_mono (sameBut_setFrame _ p _) (by simp)) (sameBut_mono (sameBut_decideSamples _ p) (by simp))))

/-- The queue and the frame that the decision after a sample record's removal leaves. -/
theorem sampleGone_decides (s : State) (p : Port) (q : SampleQueue) {rest : List SampleRecord} {r : SampleRecord}
    (records : q.records = r :: rest) :
    let t := decideSamples (sampleGone s p q) p
    (∀ r' more, rest = r' :: more → s.ports[p].frame.removed + 1 < (arg s p 0).toNat →
        t.queues[p] = some { q with records := rest, shifting := true } ∧ t.ports[p].frame = nextReply s p r'.bytes)
      ∧ (rest = [] ∨ (arg s p 0).toNat ≤ s.ports[p].frame.removed + 1 →
        t.queues[p] = some { q with records := rest, shifting := false } ∧ t.ports[p].frame = nextReply s p [0]) := by
  have queue := sampleGone_queue s p q
  have frame := sampleGone_frame s p q
  have gone : q.removeHead = { q with records := rest, shifting := false } := by
    rw [SampleQueue.removeHead, records, List.tail_cons]
  have may : (sampleGone s p q).ports[p].frame.mayRemoveMore = true
      ↔ s.ports[p].frame.removed + 1 < (arg s p 0).toNat := by
    rw [mayRemoveMore_iff, frame]; rfl
  refine ⟨fun r' more isRest below => ?_, fun last => ?_⟩
  · rw [decideSamples_begins queue (by rw [gone]; exact isRest) (may.mpr below), setFrame_port, frame, gone]
    exact ⟨getElem_set_same _ _ _, rfl⟩
  · rw [decideSamples_ends queue, setFrame_port, setFrame_queues, queue, frame, gone]
    · exact ⟨rfl, rfl⟩
    · rw [gone, may]
      exact last.imp_right Nat.not_lt.mpr

/-! ### The removal of an event record (R139, R140) -/

/-- The state after the head left the event queue, before the next decision. -/
def eventGone (s : State) (p : Port) : State :=
  setFrame ((counted1 s p).setEvents p s.events[p].removeHead) p
    { countedFrame s p with removed := s.ports[p].frame.removed + 1 }

theorem eventGone_frame (s : State) (p : Port) : (eventGone s p).ports[p].frame =
    { countedFrame s p with removed := s.ports[p].frame.removed + 1 } := by
  rw [eventGone, setFrame_port]

theorem eventGone_events (s : State) (p : Port) : (eventGone s p).events[p] = s.events[p].removeHead :=
  getElem_set_same _ _ _

theorem clockRise_removesEvent {s : State} {p : Port} (state : s.ports[p].frame.state = .reply)
    (command : s.ports[p].frame.command = some .takeEvents) (marked : s.events[p].shifting = true)
    (last : lastByteDue p s) (sdi : Level) :
    streamsRecord s p = true ∧ clockRise s p sdi = decideEvents (eventGone s p) p := by
  have streams : streamsRecord s p = true := by simp only [streamsRecord, command, marked]
  refine ⟨streams, (clockRise_removes state streams last sdi).trans ?_⟩
  show removeRecord (counted1 s p) p = _
  have still : (countedFrame s p).command = some .takeEvents := command
  simp only [removeRecord, counted1_frame, still, removeEvent]
  rfl

theorem sameBut_eventGone (s : State) (p : Port) :
    sameBut [.clock p, .frame p, .events p] s (decideEvents (eventGone s p) p) :=
  sameBut_trans (sameBut_mono (sameBut_clocked s p .high _) (by simp)) (sameBut_trans
    (sameBut_mono (sameBut_setEvents _ p _) (by simp)) (sameBut_trans
      (sameBut_mono (sameBut_setFrame _ p _) (by simp)) (sameBut_mono (sameBut_decideEvents _ p) (by simp))))

/-- The queue after its head has left: a late OVERFLOW record takes the place of an OVERFLOW head (R139, R140). -/
theorem removeHead_parts {q : EventQueue} {e : EventRecord} {rest : List EventRecord} (records : q.records = e :: rest) :
    q.removeHead.records = (if e.kind = .overflow ∧ 0 < q.lateLoss then
        rest ++ [{ kind := .overflow, subject := 0, tick := q.lateTick, detail := BitVec.ofNat 16 q.lateLoss }] else rest)
      ∧ q.removeHead.lateLoss = (if e.kind = .overflow ∧ 0 < q.lateLoss then 0 else q.lateLoss)
      ∧ q.removeHead.shifting = false := by
  unfold EventQueue.removeHead
  rw [records]
  simp only
  split
  · exact ⟨rfl, rfl, rfl⟩
  · exact ⟨rfl, rfl, rfl⟩

/-- The queue and the frame that the decision after an event record's removal leaves. -/
theorem eventGone_decides (s : State) (p : Port) :
    let t := decideEvents (eventGone s p) p
    let left := s.events[p].removeHead.records
    t.events[p].records = left ∧ t.events[p].lateLoss = s.events[p].removeHead.lateLoss
      ∧ (∀ e' more, left = e' :: more → s.ports[p].frame.removed + 1 < (arg s p 0).toNat →
        t.events[p].shifting = true ∧ t.ports[p].frame = nextReply s p e'.bytes)
      ∧ (left = [] ∨ (arg s p 0).toNat ≤ s.ports[p].frame.removed + 1 →
        t.events[p].shifting = s.events[p].removeHead.shifting ∧ t.ports[p].frame = nextReply s p [0]) := by
  have events := eventGone_events s p
  have frame := eventGone_frame s p
  have may : (eventGone s p).ports[p].frame.mayRemoveMore = true
      ↔ s.ports[p].frame.removed + 1 < (arg s p 0).toNat := by
    rw [mayRemoveMore_iff, frame]; rfl
  have begins {e' : EventRecord} {more : List EventRecord} (isLeft : s.events[p].removeHead.records = e' :: more)
      (below : s.ports[p].frame.removed + 1 < (arg s p 0).toNat) :
      (decideEvents (eventGone s p) p).events[p] = { s.events[p].removeHead with shifting := true }
        ∧ (decideEvents (eventGone s p) p).ports[p].frame = nextReply s p e'.bytes := by
    rw [decideEvents_begins (by rw [events]; exact isLeft) (may.mpr below), setFrame_port, frame, events]
    exact ⟨getElem_set_same _ _ _, rfl⟩
  have ends (last : s.events[p].removeHead.records = [] ∨ (arg s p 0).toNat ≤ s.ports[p].frame.removed + 1) :
      (decideEvents (eventGone s p) p).events[p] = s.events[p].removeHead
        ∧ (decideEvents (eventGone s p) p).ports[p].frame = nextReply s p [0] := by
    rw [decideEvents_ends, setFrame_port, setFrame_events, events, frame]
    · exact ⟨rfl, rfl⟩
    · rw [events, may]
      exact last.imp_right Nat.not_lt.mpr
  have kept : (decideEvents (eventGone s p) p).events[p].records = s.events[p].removeHead.records
      ∧ (decideEvents (eventGone s p) p).events[p].lateLoss = s.events[p].removeHead.lateLoss := by
    cases left : s.events[p].removeHead.records with
    | nil => obtain ⟨same, -⟩ := ends (.inl left); rw [same]; exact ⟨left, rfl⟩
    | cons e' more =>
      by_cases below : s.ports[p].frame.removed + 1 < (arg s p 0).toNat
      · obtain ⟨same, -⟩ := begins left below; rw [same]; exact ⟨left, rfl⟩
      · obtain ⟨same, -⟩ := ends (.inr (Nat.not_lt.mp below)); rw [same]; exact ⟨left, rfl⟩
  refine ⟨kept.1, kept.2, fun e' more isLeft below => ?_, fun last => ?_⟩
  · obtain ⟨same, reply⟩ := begins isLeft below
    exact ⟨by rw [same], reply⟩
  · obtain ⟨same, reply⟩ := ends last
    exact ⟨by rw [same], reply⟩

/-! ### The bytes of the records (spec/11, 11.6 and 11.7) -/

/-- The descriptor byte is the sum of bit 7 and the variant's number. -/
theorem flagAndVariant_eq : ∀ (gap : Bool) (variant : BitVec 2),
    BitVec.ofBool gap ++ 0#5 ++ variant = (if gap then (0x80 : Byte) else 0x00) + variant.setWidth 8 := by
  decide

theorem descriptor_of_origin (r : SampleRecord) : r.descriptor = (if r.gap then (0x80 : Byte) else 0x00) +
    BitVec.setWidth 8 (match r.origin with | .slot .. => 1#2 | .listen .. => 2#2 | .demand .. => 3#2) :=
  flagAndVariant_eq _ _

theorem eventBytes_eq (e : EventRecord) : e.bytes =
    [(match e.kind with
        | .watchHit => 1 | .captureRefused => 2 | .queueHeld => 3 | .burstDone => 4 | .slotReleased => 5
        | .channelChanged => 6 | .overflow => 7),
      e.subject, e.tick.extractLsb' 24 8, e.tick.extractLsb' 16 8, e.tick.extractLsb' 8 8, e.tick.extractLsb' 0 8,
      e.detail.extractLsb' 8 8, e.detail.extractLsb' 0 8] := by
  unfold EventRecord.bytes EventKind.byte
  cases e.kind <;> rfl

/-- Settles O46: the removal in each queue, and the layouts of the two kinds of record. -/
theorem shiftedRecordsAreRemoved : Obligations.ShiftedRecordsAreRemoved := by
  refine ⟨fun i p sdi s q r rest named low state command queue marked records last => ?sample,
    fun i p sdi s e rest named low state command marked records last => ?event, fun r => ?sampleBytes, eventBytes_eq⟩
  case sample =>
    obtain ⟨streams, rises⟩ := clockRise_removesSample state command queue marked last sdi
    have taken := exec_removal named (exec_sampleRecordRemoved _ s) low state command streams last
    refine ⟨_, taken, ?_, clockRise_sck s p sdi, ?_⟩
    · rw [rises]; exact sameBut_sampleGone s p q
    · rw [rises]; exact sampleGone_decides s p q records
  case event =>
    obtain ⟨streams, rises⟩ := clockRise_removesEvent state command marked last sdi
    have taken := exec_removal named (exec_eventRecordRemoved _ s) low state command streams last
    refine ⟨_, taken, ?_, clockRise_sck s p sdi, ?_⟩
    · rw [rises]; exact sameBut_eventGone s p
    · obtain ⟨left, late, unmarked⟩ := removeHead_parts records
      have decides := eventGone_decides s p
      simp only [left, late, unmarked] at decides
      rw [rises]
      exact decides
  case sampleBytes =>
    have top := descriptor_of_origin r
    cases origin : r.origin with
    | slot n label delay sequence =>
      simp only [origin] at top
      simp only [SampleRecord.bytes, origin, top, SampleRecord.tailBytes, valueBytes_eq]
      rfl
    | listen n label sequence =>
      simp only [origin] at top
      simp only [SampleRecord.bytes, origin, top, SampleRecord.tailBytes, valueBytes_eq]
      rfl
    | demand delay =>
      simp only [origin] at top
      simp only [SampleRecord.bytes, origin, top, SampleRecord.tailBytes, valueBytes_eq]
      rfl

/-! ### The end of a streaming frame (R113, R139, R140, R179) -/

/-- The part that a stream's mark stands in. -/
def markParts (p : Port) (c : Command) : List Part :=
  if c = .takeSamples then [.queue p] else if c = .takeEvents then [.events p] else []

theorem sameBut_clearMark (s : State) (p : Port) (c : Command) : sameBut (markParts p c) s (clearMark s p c) := by
  cases c
  case takeSamples => exact sameBut_setQueue _ _ _
  case takeEvents => exact sameBut_setEvents _ _ _
  all_goals exact sameBut_refl _ _

theorem clearMark_ports (s : State) (p : Port) (c : Command) : (clearMark s p c).ports = s.ports := by
  cases c <;> rfl

theorem clearMark_sessions (s : State) (p : Port) (c : Command) : (clearMark s p c).sessions = s.sessions := by
  cases c <;> rfl

/-- The end of a streaming frame: its result, and the mark that a cut record leaves. -/
theorem endStream_leaves (s : State) (p : Port) (c : Command) :
    let t := endStream c p s.ports[p].frame (raiseSelect s p)
    rises p (s.ports[p].frame.streamResult c) s t ∧ sameBut (riseParts p ++ markParts p c) s t := by
  let act : List Byte → State → Done := fun _ u => (clearMark u p c, s.ports[p].frame.streamResult c)
  have effect : riseEffect p act Frame.idle (raiseSelect s p) = endStream c p s.ports[p].frame (raiseSelect s p) := rfl
  have port : (clearMark (raiseSelect s p) p c).ports[p] = (raiseSelect s p).ports[p] := by rw [clearMark_ports]
  simp only [← effect]
  refine ⟨riseEffect_rises rfl (by rw [port, raiseSelect_port]) (by rw [port, raiseSelect_port])
    fun _ => by rw [clearMark_sessions]; rfl, riseEffect_frame rfl ?_⟩
  exact sameBut_mono (sameBut_clearMark _ p c) fun _ mem => List.mem_append_right _ mem

/-- A stream that ends leaves no mark; an OVERFLOW record at the head gets the losses that waited (R113, R139, R140). -/
theorem EventQueue.unmark_leaves (q : EventQueue) : q.unmark.shifting = false
    ∧ (q.shifting = false → q.unmark = q)
    ∧ (∀ e rest, q.shifting = true → q.records = e :: rest → e.kind = .overflow →
        q.unmark.records = { e with detail := BitVec.ofNat 16 (min 65535 (e.detail.toNat + q.lateLoss)) } :: rest
          ∧ q.unmark.lateLoss = 0)
    ∧ ∀ e rest, q.shifting = true → q.records = e :: rest → e.kind ≠ .overflow → q.unmark.records = q.records := by
  unfold EventQueue.unmark
  cases marked : q.shifting with
  | false => exact ⟨marked, fun _ => rfl, nofun, nofun⟩
  | true =>
    cases records : q.records with
    | nil => exact ⟨rfl, nofun, nofun, nofun⟩
    | cons e rest =>
      by_cases overflow : e.kind = .overflow
      · simp only [if_true, if_pos overflow, EventRecord.addLost, hold65535]
        refine ⟨trivial, nofun, fun e' rest' _ same _ => ?_, fun e' rest' _ same other => ?_⟩
        · cases same; exact ⟨rfl, trivial⟩
        · cases same; exact absurd overflow other
      · simp only [if_true, if_neg overflow]
        refine ⟨trivial, nofun, fun e' rest' _ same kind => ?_, fun _ _ _ _ _ => trivial⟩
        cases same; exact absurd kind overflow

/-- Settles O47: the result of a streaming frame, and the mark it leaves. -/
theorem streamingFrameEndReportsTheStream : Obligations.StreamingFrameEndReportsTheStream := by
  intro p s c low state normal command kind args
  have ends : frameEnd s.ports[p].frame = .streaming c :=
    (frameEnd_ofStreaming (.inr state) normal command kind).trans (if_pos args)
  have taken : exec (.streamingFrameEnd p) s = .next (endStream c p s.ports[p].frame (raiseSelect s p)) := by
    rw [exec_streamingFrameEnd, execStreamingFrameEnd, ends]
    exact atRise_ends low ends nofun
  obtain ⟨rose, kept⟩ := endStream_leaves s p c
  refine ⟨_, taken, fun code refused => ?_, fun accepted => ?_, kept, fun isSamples => ?_, fun isEvents => ?_⟩
  · rwa [Frame.streamResult, refused] at rose
  · have result : s.ports[p].frame.streamResult c = ⟨.ok, s.ports[p].frame.streamDetail c⟩ := by
      rcases accepted with taken | ⟨-, taken⟩ <;> rw [Frame.streamResult, taken]
    rw [result] at rose
    refine ⟨fun which => ?_, fun which => ?_, fun which => ?_, fun which => ?_⟩
    · rcases which with rfl | rfl <;> exact rose
    · subst which; exact rose
    · rcases which with rfl | rfl | rfl <;> exact rose
    · subst which; exact rose
  · subst isSamples
    have queue : (clearMark (raiseSelect s p) p .takeSamples).queues[p] = s.queues[p].map fun q =>
        { q with shifting := false } := getElem_set_same _ _ _
    rw [← queue, endStream, leaseRestart_queues, setResult_queues]
  · subst isEvents
    have events : (endStream .takeEvents p s.ports[p].frame (raiseSelect s p)).events[p] = s.events[p].unmark := by
      rw [endStream, leaseRestart_events, setResult_events]
      exact getElem_set_same _ _ _
    rw [events]
    exact s.events[p].unmark_leaves

end Sys2Proof.Machine
end

