-- ==== Sys2Proof/Proofs/Holdings.lean ====
section
/-! PROOF. Every step keeps that a port without an OPEN session holds nothing (R10, R79, R146, R155): what gives a port something finds its session OPEN, and the session end takes everything back. -/

namespace Sys2Proof.Machine

/-! ### What HoldingsOk reads -/

/-- No slot of t has an owner that it did not have in s. -/
def ownersKept (s t : State) : Prop :=
  ∀ (n : SlotNo) (p : Port), t.slots[n].owner = some p → s.slots[n].owner = some p

/-- An evolving slot has no new owner. -/
theorem Slot.evolves_owner {x y : Slot} {p : Port} (h : x.evolves y) (owner : y.owner = some p) :
    x.owner = some p := by
  rcases h with ⟨-, none⟩ | ⟨same, -⟩
  · rw [none] at owner; cases owner
  · rwa [same] at owner

theorem ownersKept_of_evolve {s t : State} (h : slotsEvolve s t) : ownersKept s t :=
  fun n _ owner => Slot.evolves_owner (slotsEvolve_iff.mp h n) owner

theorem ownersKept_of_eq {s t : State} (h : t.slots = s.slots) : ownersKept s t :=
  ownersKept_of_evolve (slotsEvolve_of_eq h)

theorem ownersKept_trans {s t u : State} (h : ownersKept s t) (k : ownersKept t u) : ownersKept s u :=
  fun n p owner => h n p (k n p owner)

/-- A write of one slot that gives it no new owner. -/
theorem ownersKept_setSlot {s : State} {n : SlotNo} {x : Slot}
    (h : ∀ p, x.owner = some p → s.slots[n].owner = some p) : ownersKept s (s.setSlot n x) := fun m p owner => by
  rw [State.setSlot_slots, getElem_set_at] at owner
  split at owner
  · rename_i e; exact e ▸ h p owner
  · exact owner

/-- What a step gives to no port that is without an OPEN session after it keeps HoldingsOk. -/
theorem HoldingsOk_gains {s t : State} (ok : HoldingsOk s) (gains : ∀ p : Port, t.isOpen p = false →
    s.isOpen p = false ∧ (∀ n : SlotNo, t.slots[n].owner = some p → s.slots[n].owner = some p)
      ∧ (∀ c : Fin 16, t.channels[c].holder = some p → s.channels[c].holder = some p) ∧ t.queues[p] = s.queues[p]
      ∧ (∀ w : Fin 8, t.watches[p][w] = s.watches[p][w]) ∧ t.events[p] = s.events[p]
      ∧ t.sessions[p].lease = s.sessions[p].lease ∧ t.sessions[p].expiry = s.sessions[p].expiry) :
    HoldingsOk t := fun p isClosed => by
  obtain ⟨before, owners, holders, queue, watch, events, lease, expiry⟩ := gains p isClosed
  obtain ⟨noSlot, noClaim, noQueue, noWatch, noEvent, noLease, noExpiry⟩ := ok p before
  exact ⟨fun n owner => noSlot n (owners n owner), fun c holder => noClaim c (holders c holder), queue.trans noQueue,
    fun w => (watch w).trans (noWatch w), events.trans noEvent, lease.trans noLease, expiry.trans noExpiry⟩

/-- The port whose holdings a part is, of the parts that HoldingsOk reads beside the slots and the channels. -/
def Part.holding (x : Part) : Option Port :=
  match x with
  | .session p | .expiry p | .queue p | .watch p _ | .events p => some p
  | _ => none

/-- The parts that HoldingsOk reads, but for the slots. -/
def Part.ofHoldings (x : Part) : Bool :=
  match x with
  | .channel _ => true
  | _ => x.holding.isSome

/-- A change of the holdings of one port alone, whose session is OPEN after it. -/
theorem HoldingsOk_ofOpen {l : List Part} {s t : State} {p : Port} (frame : sameBut l s t) (isOpen : t.isOpen p = true)
    (owners : ∀ (n : SlotNo) (q : Port), p ≠ q → t.slots[n].owner = some q → s.slots[n].owner = some q)
    (holders : ∀ (c : Fin 16) (q : Port), p ≠ q → t.channels[c].holder = some q → s.channels[c].holder = some q)
    (ok : HoldingsOk s) (ofPort : (l.all fun x => x.holding.all (· = p)) = true) : HoldingsOk t := by
  refine HoldingsOk_gains ok fun q isClosed => ?_
  have other : p ≠ q := fun e => by subst e; exact Bool.false_ne_true (isClosed.symm.trans isOpen)
  have kept (x : Part) (h : x.holding = some q) : x.same s t := frame x fun mem => by
    have only := List.all_eq_true.mp ofPort x mem
    rw [h, Option.all_some, decide_eq_true_eq] at only
    exact other only.symm
  exact ⟨(isOpen_of_same (kept (.session q) rfl)).symm.trans isClosed, fun n => owners n q other,
    fun c => holders c q other, kept (.queue q) rfl, fun w => kept (.watch q w) rfl, kept (.events q) rfl,
    (kept (.session q) rfl).2, kept (.expiry q) rfl⟩

/-- A change outside its parts, of slots that get no new owner, keeps HoldingsOk. -/
theorem HoldingsOk_owners {l : List Part} {s t : State} (frame : sameBut l s t) (owners : ownersKept s t)
    (ok : HoldingsOk s) (outside : l.any Part.ofHoldings = false) : HoldingsOk t := by
  have kept (x : Part) (h : x.ofHoldings = true) : x.same s t :=
    frame x fun mem => List.any_eq_false.mp outside x mem h
  refine HoldingsOk_gains ok fun p isClosed => ⟨(isOpen_of_same (kept (.session p) rfl)).symm.trans isClosed,
    fun n => owners n p, fun c holder => ?_, kept (.queue p) rfl, fun w => kept (.watch p w) rfl, kept (.events p) rfl,
    (kept (.session p) rfl).2, kept (.expiry p) rfl⟩
  have channel : t.channels[c] = s.channels[c] := kept (.channel c) rfl
  rwa [channel] at holder

/-- A change outside its parts and the slots keeps HoldingsOk. -/
theorem HoldingsOk_frame {l : List Part} {s t : State} (frame : sameBut l s t) (evolve : slotsEvolve s t)
    (ok : HoldingsOk s) (outside : l.any Part.ofHoldings = false) : HoldingsOk t :=
  HoldingsOk_owners frame (ownersKept_of_evolve evolve) ok outside

/-! ### Writes for a port whose session is OPEN -/

theorem HoldingsOk_setQueue {s : State} {p : Port} (x : Option SampleQueue) (isOpen : s.isOpen p = true)
    (ok : HoldingsOk s) : HoldingsOk (s.setQueue p x) := fun q isClosed => by
  have other : p ≠ q := fun e => by subst e; exact Bool.false_ne_true (isClosed.symm.trans isOpen)
  have held := ok q isClosed
  rw [← getElem_set_other s.queues p q x other] at held
  exact held

theorem HoldingsOk_setEvents {s : State} {p : Port} (x : EventQueue) (isOpen : s.isOpen p = true)
    (ok : HoldingsOk s) : HoldingsOk (s.setEvents p x) := fun q isClosed => by
  have other : p ≠ q := fun e => by subst e; exact Bool.false_ne_true (isClosed.symm.trans isOpen)
  have held := ok q isClosed
  rw [← getElem_set_other s.events p q x other] at held
  exact held

theorem HoldingsOk_setWatch {s : State} {p : Port} (w : Fin 8) (x : Watch) (isOpen : s.isOpen p = true)
    (ok : HoldingsOk s) : HoldingsOk (s.setWatch p w x) := fun q isClosed => by
  have other : p ≠ q := fun e => by subst e; exact Bool.false_ne_true (isClosed.symm.trans isOpen)
  have held := ok q isClosed
  have same := getElem_set_other s.watches p q (s.watches[p].set w x) other
  rw [← same] at held
  exact held

/-- A port that has a queue, an event, or a watch that is not EMPTY has an OPEN session. -/
theorem HoldingsOk.isOpen_of_queue {s : State} (ok : HoldingsOk s) {p : Port} {q : SampleQueue}
    (queue : s.queues[p] = some q) : s.isOpen p = true := by
  by_contra isClosed
  obtain ⟨-, -, none, -⟩ := ok p (by simpa using isClosed)
  rw [none] at queue; cases queue

theorem HoldingsOk.isOpen_of_events {s : State} (ok : HoldingsOk s) {p : Port} (events : s.events[p] ≠ EventQueue.empty) :
    s.isOpen p = true := by
  by_contra isClosed
  obtain ⟨-, -, -, -, empty, -⟩ := ok p (by simpa using isClosed)
  exact events empty

theorem HoldingsOk.isOpen_of_watch {s : State} (ok : HoldingsOk s) {p : Port} {w : Fin 8}
    (used : s.watches[p][w] ≠ Watch.empty) : s.isOpen p = true := by
  by_contra isClosed
  obtain ⟨-, -, -, empty, -⟩ := ok p (by simpa using isClosed)
  exact used (empty w)

theorem HoldingsOk_setFrame {s : State} (p : Port) (f : Frame) (ok : HoldingsOk s) : HoldingsOk (setFrame s p f) :=
  HoldingsOk_frame (sameBut_setFrame s p f) (slotsEvolve_of_eq rfl) ok rfl

theorem HoldingsOk_sendEvent {s : State} (p : Port) (e : EventRecord) (ok : HoldingsOk s) :
    HoldingsOk (sendEvent s p e) := by
  unfold sendEvent
  split
  · rename_i isOpen; exact HoldingsOk_setEvents _ isOpen ok
  · exact ok

theorem HoldingsOk_sendToOwner {s : State} (o : Option Port) (e : EventRecord) (ok : HoldingsOk s) :
    HoldingsOk (sendToOwner s o e) := by
  cases o with
  | none => exact ok
  | some p => exact HoldingsOk_sendEvent p e ok

/-- A queue's own operation never makes a queue for a port that has none. -/
theorem HoldingsOk_mapQueue {s : State} (p : Port) (f : SampleQueue → SampleQueue) (ok : HoldingsOk s) :
    HoldingsOk (s.setQueue p (s.queues[p].map f)) := by
  cases queue : s.queues[p] with
  | some q => exact HoldingsOk_setQueue _ (ok.isOpen_of_queue queue) ok
  | none =>
    have same : s.setQueue p none = s := by
      unfold State.setQueue; rw [set_none_of_none _ p queue]
    show HoldingsOk (s.setQueue p none)
    rwa [same]

/-- An operation of event queues that leaves the empty queue empty gives no event to a port without a session. -/
theorem HoldingsOk_mapEvents {s : State} (p : Port) (f : EventQueue → EventQueue)
    (keepsEmpty : f EventQueue.empty = EventQueue.empty) (ok : HoldingsOk s) :
    HoldingsOk (s.setEvents p (f s.events[p])) := by
  by_cases empty : s.events[p] = EventQueue.empty
  · have same : s.setEvents p (f s.events[p]) = s := by
      have : s.events.set p (f s.events[p]) = s.events := by
        rw [empty, keepsEmpty, ← empty]; exact Vector.set_getElem_self _
      unfold State.setEvents; rw [this]
    rwa [same]
  · exact HoldingsOk_setEvents _ (ok.isOpen_of_events empty) ok

theorem HoldingsOk_decideSamples {s : State} (p : Port) (ok : HoldingsOk s) : HoldingsOk (decideSamples s p) := by
  unfold decideSamples
  simp only
  split
  · rename_i q queue
    split
    · split
      · exact HoldingsOk_setFrame p _ (HoldingsOk_setQueue _ (ok.isOpen_of_queue queue) ok)
      · exact HoldingsOk_setFrame p _ ok
    · exact HoldingsOk_setFrame p _ ok
  · exact HoldingsOk_setFrame p _ ok

theorem HoldingsOk_decideEvents {s : State} (p : Port) (ok : HoldingsOk s) : HoldingsOk (decideEvents s p) := by
  unfold decideEvents
  simp only
  split
  · rename_i e rest records
    have some : s.events[p] ≠ EventQueue.empty := fun empty => by
      rw [empty] at records; cases records
    split
    · exact HoldingsOk_setFrame p _ (HoldingsOk_setEvents _ (ok.isOpen_of_events some) ok)
    · exact HoldingsOk_setFrame p _ ok
  · exact HoldingsOk_setFrame p _ ok

/-! ### The edges of SCKp -/

theorem HoldingsOk_removeRecord {s : State} (p : Port) (ok : HoldingsOk s) : HoldingsOk (removeRecord s p) := by
  unfold removeRecord
  split
  · exact HoldingsOk_decideSamples p (HoldingsOk_setFrame p _ (HoldingsOk_mapQueue p _ ok))
  · exact HoldingsOk_decideEvents p (HoldingsOk_setFrame p _ (HoldingsOk_mapEvents p EventQueue.removeHead rfl ok))
  · exact ok

/-- A change of the frame of a port alone. -/
theorem HoldingsOk_frameOnly {s t : State} {p : Port} (frame : sameBut [.frame p] s t) (ok : HoldingsOk s) :
    HoldingsOk t :=
  HoldingsOk_owners frame (fun n q owner => by
    have slot : t.slots[n] = s.slots[n] := frame (.slot n) (by simp)
    rwa [slot] at owner) ok rfl

theorem HoldingsOk_completeReplyByte {s : State} (p : Port) (ok : HoldingsOk s) : HoldingsOk (completeReplyByte s p) := by
  unfold completeReplyByte
  simp only
  split
  · exact HoldingsOk_removeRecord p (HoldingsOk_setFrame p _ ok)
  · exact HoldingsOk_frameOnly (sameBut_spillIfExhausted _ p) (HoldingsOk_setFrame p _ ok)

theorem HoldingsOk_completeByte {s : State} (p : Port) (b : Byte) (ok : HoldingsOk s) :
    HoldingsOk (completeByte s p b) := by
  by_cases reply : s.ports[p].frame.state = .reply
  · unfold completeByte
    simp only [reply]
    exact HoldingsOk_completeReplyByte p ok
  · exact HoldingsOk_frameOnly (sameBut_completeByte_frame reply b) ok

theorem HoldingsOk_setClock {s : State} (p : Port) (x : Level) (ok : HoldingsOk s) : HoldingsOk (setClock s p x) :=
  HoldingsOk_frame (sameBut_setClock s p x) (slotsEvolve_of_eq rfl) ok rfl

theorem HoldingsOk_clockRise {s : State} (p : Port) (sdi : Level) (ok : HoldingsOk s) :
    HoldingsOk (clockRise s p sdi) := by
  have clocked := HoldingsOk_setClock p .high ok
  unfold clockRise sampleBit
  simp only
  split
  · exact clocked
  · split
    · exact HoldingsOk_setFrame p _ clocked
    · exact HoldingsOk_completeByte p _ (HoldingsOk_setFrame p _ clocked)

theorem HoldingsOk_firstDecision {s : State} (p : Port) (ok : HoldingsOk s) : HoldingsOk (firstDecision s p) := by
  unfold firstDecision
  simp only
  split
  · split
    · exact HoldingsOk_decideSamples p ok
    · exact HoldingsOk_decideEvents p ok
    · exact ok
  · exact ok

theorem HoldingsOk_clockFall {s : State} (p : Port) (ok : HoldingsOk s) : HoldingsOk (clockFall s p) := by
  have clocked := HoldingsOk_setClock p .low ok
  unfold clockFall startBit
  simp only
  split
  · exact clocked
  · refine HoldingsOk_setFrame p _ ?_
    split
    · exact HoldingsOk_setFrame p _ clocked
    · exact HoldingsOk_firstDecision p clocked

theorem HoldingsOk_clearMark {s : State} (p : Port) (c : Command) (ok : HoldingsOk s) : HoldingsOk (clearMark s p c) := by
  unfold clearMark
  split
  · exact HoldingsOk_mapQueue p _ ok
  · exact HoldingsOk_mapEvents p EventQueue.unmark rfl ok
  · exact ok

/-! ### Watches and a completion -/

theorem HoldingsOk_watchAction {s : State} (p : Port) (w : Fin 8) (x : Watch) (tick : Tick) (ok : HoldingsOk s) :
    HoldingsOk (watchAction s p w x tick) := by
  unfold watchAction
  split
  · exact ok
  · unfold holdAction
    split
    · rename_i q queue
      have held (x : Option SampleQueue) := HoldingsOk_setQueue x (ok.isOpen_of_queue queue) ok
      simp only
      split
      · exact held _
      · exact HoldingsOk_sendEvent p _ (held _)
    · exact ok
  · unfold captureAction
    simp only
    split
    · rename_i own
      exact HoldingsOk_frame (sameBut_startBurstAt _ _ _) (slotsEvolve_startBurstAt tick own.2.1 own.2.2) ok rfl
    · split
      · exact HoldingsOk_sendEvent p _ ok
      · exact HoldingsOk_sendEvent p _ ok

theorem watchAction_isOpen (s : State) (p q : Port) (w : Fin 8) (x : Watch) (tick : Tick) :
    (watchAction s p w x tick).isOpen q = s.isOpen q :=
  isOpen_of_same (sameBut_watchAction s p w x tick (.session q) (by simp))

theorem sendEvent_isOpen (s : State) (p q : Port) (e : EventRecord) : (sendEvent s p e).isOpen q = s.isOpen q :=
  isOpen_of_same (sameBut_sendEvent s p e (.session q) (by simp))

/-- Only a watch that is not EMPTY matches, so the port of a match has an OPEN session. -/
theorem HoldingsOk_carryOutMatch {s : State} {p : Port} (w : Fin 8) (n : SlotNo) (tick : Tick) (c : Conditions)
    (isOpen : s.isOpen p = true) (ok : HoldingsOk s) : HoldingsOk (carryOutMatch s p w n tick c) := by
  have noted (x : Watch) (e : EventRecord) : HoldingsOk (sendEvent (s.setWatch p w x) p e) :=
    HoldingsOk_sendEvent p e (HoldingsOk_setWatch w x isOpen ok)
  unfold carryOutMatch
  simp only
  split
  · refine HoldingsOk_setWatch w _ ?_ (HoldingsOk_watchAction p w _ tick (noted _ _))
    rw [watchAction_isOpen, sendEvent_isOpen]
    exact isOpen
  · exact HoldingsOk_watchAction p w _ tick (noted _ _)

theorem HoldingsOk_evaluateWatches {s : State} (p : Port) (n : SlotNo) (tick : Tick) (c : Conditions)
    (ok : HoldingsOk s) : HoldingsOk (evaluateWatches s p n tick c) := by
  refine foldl_keeps (fun u w h => ?_) _ ok
  unfold testWatch
  split
  · rename_i isMatch
    have used : u.watches[p][w] ≠ Watch.empty := fun empty => by
      rw [empty] at isMatch
      have armed := ((Watch.isMatch_iff _ n c).mp isMatch).1
      cases armed
    exact HoldingsOk_carryOutMatch w n tick c (h.isOpen_of_watch used) h
  · exact h

theorem HoldingsOk_offerRecord {s : State} (p : Port) (b : Bool) (r : SampleRecord) (ok : HoldingsOk s) :
    HoldingsOk (offerRecord s p b r) := by
  unfold offerRecord
  split
  · rename_i q queue; exact HoldingsOk_setQueue _ (ok.isOpen_of_queue queue) ok
  · exact ok

theorem HoldingsOk_deliverTo {s : State} (c : Report) (n : SlotNo) (t : Slot) (sub : Option SubEntry)
    (ok : HoldingsOk s) : HoldingsOk (deliverTo s c n t sub) := by
  unfold deliverTo
  simp only
  split
  · refine HoldingsOk_evaluateWatches _ _ _ _ ?_
    split
    · exact HoldingsOk_offerRecord _ _ _ ok
    · exact ok
  · exact ok

/-- A write of a slot that evolves. -/
theorem HoldingsOk_setSlot {s : State} {n : SlotNo} {x : Slot} (h : s.slots[n].evolves x) (ok : HoldingsOk s) :
    HoldingsOk (s.setSlot n x) :=
  HoldingsOk_frame (sameBut_setSlot s n x) (slotsEvolve_setSlot rfl h) ok rfl

theorem HoldingsOk_requestSlot {s : State} (n : SlotNo) (due : Tick) (ok : HoldingsOk s) :
    HoldingsOk (requestSlot s n due) :=
  HoldingsOk_frame (sameBut_requestSlot s n due) (slotsEvolve_requestSlot s n due) ok rfl

theorem HoldingsOk_withdrawSlot {s : State} (n : SlotNo) (ok : HoldingsOk s) : HoldingsOk (withdrawSlot s n) :=
  HoldingsOk_frame (sameBut_withdrawSlot s n) (slotsEvolve_withdrawSlot s n) ok rfl

theorem HoldingsOk_burstAccounting {s : State} (n : SlotNo) (tick : Tick) (ok : HoldingsOk s) :
    HoldingsOk (burstAccounting s n tick) := by
  have ownSlot {u : State} {x : Slot} (h : HoldingsOk u) (same : x.owner = u.slots[n].owner) :
      HoldingsOk (u.setSlot n x) :=
    HoldingsOk_owners (sameBut_setSlot u n x) (ownersKept_setSlot fun _ owner => same.symm.trans owner) h rfl
  unfold burstAccounting
  simp only
  split
  · have counted (k : Nat) : HoldingsOk (s.setSlot n { s.slots[n] with burstRemaining := k }) := ownSlot ok rfl
    split
    · split
      · exact counted _
      · exact HoldingsOk_requestSlot n _ (counted _)
    · refine HoldingsOk_sendToOwner _ _ (ownSlot ?_ rfl)
      split
      · exact HoldingsOk_withdrawSlot n (counted _)
      · exact counted _
  · exact ok

theorem HoldingsOk_serveSlot (c : Report) {s : State} (x : SlotNo × Option SubEntry) (ok : HoldingsOk s) :
    HoldingsOk (serveSlot c s x) :=
  HoldingsOk_burstAccounting _ _ (HoldingsOk_deliverTo c _ _ _ (HoldingsOk_setSlot (Slot.evolves_of_setup rfl) ok))

theorem HoldingsOk_serveDemand (c : Report) {s : State} (x : FlightEntry) (ok : HoldingsOk s) :
    HoldingsOk (serveDemand c s x) := by
  unfold serveDemand
  split
  · exact ok
  · split
    · exact ok
    · exact HoldingsOk_offerRecord _ _ _ ok

theorem HoldingsOk_releaseSlots {s : State} (l : List SlotNo) (ok : HoldingsOk s) :
    HoldingsOk (l.foldl releaseSlot s) :=
  foldl_keeps (fun _ _ h => HoldingsOk_setSlot (Slot.evolves_free _) (HoldingsOk_sendToOwner _ _ h)) l ok

/-- A change outside its parts that leaves the slots. -/
theorem HoldingsOk_sameSlots {l : List Part} {s t : State} (frame : sameBut l s t) (slots : t.slots = s.slots)
    (ok : HoldingsOk s) (outside : l.any Part.ofHoldings = false) : HoldingsOk t :=
  HoldingsOk_owners frame (ownersKept_of_eq slots) ok outside

theorem HoldingsOk_endDemands {s : State} (subs : List FlightEntry) (pick : FlightEntry → Bool) (ok : HoldingsOk s) :
    HoldingsOk (endDemands s subs pick) :=
  HoldingsOk_frame (sameBut_endDemands s subs pick) (slotsEvolve_endDemands s subs pick) ok rfl

theorem HoldingsOk_setConv {s : State} (x : Converter) (ok : HoldingsOk s) : HoldingsOk (s.setConv x) :=
  HoldingsOk_sameSlots (sameBut_setConv s x) rfl ok rfl

theorem HoldingsOk_complete {s : State} (r : InFlight) (ok : HoldingsOk s) : HoldingsOk (complete s r) := by
  unfold complete
  refine HoldingsOk_releaseSlots _ (HoldingsOk_endDemands _ _ ?_)
  refine foldl_keeps (fun _ x h => HoldingsOk_serveDemand _ x h) _
    (foldl_keeps (fun _ x h => HoldingsOk_serveSlot _ x h) _ ?_)
  refine HoldingsOk_frame (sameBut_mapSlots _ _ allSlots fun n => .inl (by simp)) (slotsEvolve_mapSlots rfl fun n x => ?_)
    (HoldingsOk_sameSlots (sameBut_setLatest _ _ _) rfl (HoldingsOk_setConv _ ok) rfl) rfl
  split
  · exact Slot.evolves_of_setup rfl
  · exact Slot.evolves_refl x

theorem HoldingsOk_select {s : State} (ok : HoldingsOk s) : HoldingsOk (select s) :=
  HoldingsOk_frame (sameBut_select s) (slotsEvolve_select s) ok rfl

/-! ### A trigger edge and CONFIGURE -/

theorem HoldingsOk_abandon {s : State} (r : InFlight) (ok : HoldingsOk s) : HoldingsOk (abandon s r) :=
  HoldingsOk_releaseSlots _ (HoldingsOk_endDemands _ _
    (HoldingsOk_frame (sameBut_returnEntry _ r) (slotsEvolve_returnEntry _ r) (HoldingsOk_setConv _ ok) rfl))

theorem HoldingsOk_edgeDecision {s : State} (ok : HoldingsOk s) : HoldingsOk (edgeDecision s) := by
  unfold edgeDecision
  split
  · exact HoldingsOk_select ok
  · split
    · split
      · exact HoldingsOk_abandon _ ok
      · exact ok
    · exact ok

theorem HoldingsOk_takeEdge {s : State} (e : Edge) (ok : HoldingsOk s) : HoldingsOk (takeEdge e s) := by
  have counted : HoldingsOk ((List.finRange 32).foldl (edgeAtSlot e) s) := foldl_keeps (fun u n h =>
    HoldingsOk_frame (sameBut_edgeAtSlot e u n) (slotsEvolve_edgeAtSlot e u n) h rfl) _ ok
  unfold takeEdge
  simp only
  split
  · exact HoldingsOk_edgeDecision counted
  · exact counted

/-- A write of a channel that gives it no new holder. -/
theorem HoldingsOk_setChannel {s : State} {c : Fin 16} {x : ChannelConfig} (ok : HoldingsOk s)
    (h : ∀ p, x.holder = some p → s.channels[c].holder = some p) : HoldingsOk (s.setChannel c x) :=
  HoldingsOk_gains ok fun p isClosed => ⟨isClosed, fun _ owner => owner, fun d holder => by
    rw [State.setChannel_channels, getElem_set_at] at holder
    split at holder
    · rename_i e; exact e ▸ h p holder
    · exact holder, rfl, fun _ => rfl, rfl, rfl, rfl⟩

theorem HoldingsOk_releasePartner {s : State} (p : Port) (c : Fin 16) (m : Mode) (ok : HoldingsOk s) :
    HoldingsOk (releasePartner s p c m) := by
  unfold releasePartner
  split
  · split
    · exact HoldingsOk_setChannel ok nofun
    · exact ok
  · exact ok

theorem HoldingsOk_applyChange {s : State} (p : Port) (c : Fin 16) (m : Mode) (x : Span) (y : BitVec 2)
    (ok : HoldingsOk s) : HoldingsOk (applyChange s p c m x y) := by
  unfold applyChange
  refine foldl_keeps (fun u q h => ?_) _ (HoldingsOk_setConv _
    (HoldingsOk_releasePartner p c m (HoldingsOk_setChannel ok fun _ holder => holder)))
  unfold notifyChange
  split
  · exact HoldingsOk_sendEvent q _ h
  · exact h

/-! ### The set commands -/

theorem sessionEnd_otherSession {s : State} {p q : Port} (after : SessionState) (h : p ≠ q) :
    (sessionEnd s p after).sessions[q] = s.sessions[q] := by
  rw [sessionEnd_sessions, getElem_set_other _ _ _ _ h]

/-- The session end gives no slot an owner, and takes every slot of its port (R146). -/
theorem slotAtSessionEnd_owner {p q : Port} {x : Slot} (owner : (slotAtSessionEnd p x).owner = some q) :
    q ≠ p ∧ x.owner = some q := by
  unfold slotAtSessionEnd at owner
  split at owner
  · cases state : x.state <;> cases flight : x.inFlightFlag <;> simp [state, flight, Slot.free] at owner
  · rename_i other
    exact ⟨fun e => other (e ▸ owner), owner⟩

/-- The session end takes everything back from its port, and nothing from another (R146). -/
theorem HoldingsOk_sessionEnd {s : State} (p : Port) {after : SessionState} (ends : after ≠ .opened) (ok : HoldingsOk s) :
    HoldingsOk (sessionEnd s p after) := fun q isClosed => by
  by_cases e : p = q
  · subst e
    refine ⟨fun n => ?_, fun c => ?_, ?_, sessionEnd_watch s p after, ?_, ?_, ?_⟩
    · rw [sessionEnd_slot]; exact fun owner => (slotAtSessionEnd_owner owner).1 rfl
    · rw [sessionEnd_channel]
      split
      · exact nofun
      · assumption
    · rw [sessionEnd_queues]; exact getElem_set_same _ _ _
    · rw [sessionEnd_events]; exact getElem_set_same _ _ _
    · rw [sessionEnd_session]; rfl
    · rw [sessionEnd_session]; rfl
  · rw [sessionEnd_isOpen, if_neg e] at isClosed
    obtain ⟨noSlot, noClaim, noQueue, noWatch, noEvent, noLease, noExpiry⟩ := ok q isClosed
    refine ⟨fun n => ?_, fun c => ?_, ?_, fun w => ?_, ?_, ?_, ?_⟩
    · rw [sessionEnd_slot]; exact fun owner => noSlot n (slotAtSessionEnd_owner owner).2
    · rw [sessionEnd_channel]
      split
      · exact nofun
      · exact noClaim c
    · rw [sessionEnd_queues, getElem_set_other _ _ _ _ e]; exact noQueue
    · rw [sessionEnd_watches, getElem_set_other _ _ _ _ e]; exact noWatch w
    · rw [sessionEnd_events, getElem_set_other _ _ _ _ e]; exact noEvent
    · rw [sessionEnd_otherSession after e]; exact noLease
    · rw [sessionEnd_otherSession after e]; exact noExpiry

/-- A port that owns a slot has an OPEN session. -/
theorem HoldingsOk.isOpen_of_owner {s : State} (ok : HoldingsOk s) {p : Port} {n : SlotNo}
    (owner : s.slots[n].owner = some p) : s.isOpen p = true := by
  by_contra isClosed
  obtain ⟨noSlot, -⟩ := ok p (by simpa using isClosed)
  exact noSlot n owner

theorem ownersKept_withdrawPending (s : State) (n : SlotNo) : ownersKept s (withdrawPending s n) := by
  unfold withdrawPending
  split
  · exact ownersKept_of_evolve (slotsEvolve_withdrawSlot s n)
  · exact ownersKept_of_eq rfl

theorem supersede_slots (s : State) (n : SlotNo) : (supersede s n).slots = s.slots := by
  unfold supersede
  split <;> rfl

/-- A modified slot keeps its owner (R16). -/
theorem modifiedSlot_owner (now : Tick) (x : Settings) (t : Slot) : (modifiedSlot now x t).owner = t.owner := by
  unfold modifiedSlot
  simp only
  split
  · split <;> rfl
  · rfl

theorem ownersKept_applyModify (s : State) (n : SlotNo) (x : Settings) : ownersKept s (applyModify s n x) := by
  have withdrawn : ownersKept s (if s.slots[n].pendingFlag then withdrawSlot s n else s) :=
    ownersKept_withdrawPending s n
  unfold applyModify
  refine ownersKept_trans withdrawn (ownersKept_trans (ownersKept_of_eq ?_) (ownersKept_setSlot fun p owner => ?_))
  · split
    · exact supersede_slots _ n
    · rfl
  · rwa [modifiedSlot_owner] at owner

theorem runningSlot_owner (now : Tick) (t : Slot) : (runningSlot now t).owner = t.owner := by
  unfold runningSlot
  simp only
  split <;> rfl

theorem deletedSlot_owner {t : Slot} {p : Port} (owner : (deletedSlot t).owner = some p) : t.owner = some p := by
  unfold deletedSlot at owner
  split at owner
  · exact owner
  · cases owner

theorem ownersKept_deleted (s : State) (p : Port) (n : SlotNo) : ownersKept s (deleted s p n) :=
  ownersKept_trans (ownersKept_withdrawPending s n) (ownersKept_trans
    (ownersKept_setSlot fun _ owner => deletedSlot_owner owner) (ownersKept_of_eq rfl))

theorem deleted_channels (s : State) (p : Port) (n : SlotNo) : (deleted s p n).channels = s.channels := by
  unfold deleted disarmOnDelete withdrawPending
  split <;> rfl

theorem ownersKept_stop {s : State} {n : SlotNo} (running : s.slots[n].state = .running) :
    ownersKept s (stop n s).1 := by
  rw [stop_running running]
  exact ownersKept_trans (ownersKept_withdrawPending s n) (ownersKept_setSlot fun _ owner => owner)

theorem slotsEvolve_startBurst {s : State} {n : SlotNo} (stopped : s.slots[n].state = .stopped)
    (kind : s.slots[n].settings.kind = .burst) : slotsEvolve s (startBurst n s).1 := by
  rw [startBurst_starts stopped kind]
  have started := slotsEvolve_startBurstAt s.now kind stopped
  exact slotsEvolve_ite (slotsEvolve_trans started (slotsEvolve_selectIfIdle _)) started

theorem slotsEvolve_demanded (s : State) (p : Port) (c : Channel) (x : BitVec 2) (y : BitVec 3) :
    slotsEvolve s (if s.requests.isEmpty then selectIfIdle (requestDemand s p c x y) else requestDemand s p c x y) :=
  have demanded : slotsEvolve s (requestDemand s p c x y) := slotsEvolve_of_eq rfl
  slotsEvolve_ite (slotsEvolve_trans demanded (slotsEvolve_selectIfIdle _)) demanded

theorem slotsEvolve_refclkRunning (s : State) (a b : Level) : slotsEvolve s (refclkRunning s a b) :=
  slotsEvolve_of_eq (by unfold refclkRunning; simp only; split <;> rfl)

theorem ownersKept_expirePeriod (s : State) (n : SlotNo) : ownersKept s (expirePeriod s n) := by
  have due {u : State} (h : slotsEvolve s u) (x : Tick) : ownersKept s (u.setSlot n { u.slots[n] with nextDue := x }) :=
    ownersKept_trans (ownersKept_of_evolve h) (ownersKept_setSlot fun _ owner => owner)
  unfold expirePeriod
  simp only
  split
  · exact due (slotsEvolve_overrunSlot s n) _
  · have requested := due (slotsEvolve_requestSlot s n s.slots[n].nextDue)
    split
    · exact ownersKept_trans (requested _) (ownersKept_of_evolve (slotsEvolve_selectIfIdle _))
    · exact requested _

theorem HoldingsOk_act {p : Port} {s t : State} (act : Act p s t) (ok : HoldingsOk s) : HoldingsOk t := by
  cases act with
  | opens a =>
    exact HoldingsOk_ofOpen (sameBut_openAccepted s p a) (by rw [openAccepted_isOpen, if_pos rfl])
      (fun _ _ _ owner => owner) (fun _ _ _ holder => holder) ok (by simp [Part.holding])
  | closes => exact HoldingsOk_sessionEnd p nofun ok
  | stages w => exact HoldingsOk_sameSlots (sameBut_withStaging s p w) rfl ok rfl
  | installs n x isOpen =>
    refine HoldingsOk_ofOpen (sameBut_setSlot s n _) isOpen (fun m q other owner => ?_) (fun _ _ _ holder => holder) ok rfl
    rw [State.setSlot_slots, getElem_set_at] at owner
    split at owner
    · cases owner; exact absurd rfl other
    · exact owner
  | modifies n x => exact HoldingsOk_owners (sameBut_applyModify s n x.settings) (ownersKept_applyModify s n _) ok rfl
  | deletes n own =>
    have isOpen : (deleted s p n).isOpen p = true := by
      rw [isOpen_of_same (sameBut_deleted s p n (.session p) (by simp))]
      exact ok.isOpen_of_owner (ownLive_iff.mp own).1
    exact HoldingsOk_ofOpen (sameBut_deleted s p n) isOpen (fun m q _ => ownersKept_deleted s p n m q)
      (fun c q _ holder => by rwa [deleted_channels] at holder) ok (by simp [Part.holding])
  | stops n running => exact HoldingsOk_owners (sameBut_stop running) (ownersKept_stop running) ok rfl
  | runs n =>
    exact HoldingsOk_owners (sameBut_setSlot s n _)
      (ownersKept_setSlot fun _ owner => (runningSlot_owner _ _).symm.trans owner) ok rfl
  | bursts n stopped kind =>
    exact HoldingsOk_frame (sameBut_startBurst stopped kind) (slotsEvolve_startBurst stopped kind) ok rfl
  | fetches n => exact HoldingsOk_sameSlots (sameBut_fetch p n s) rfl ok rfl
  | releasesQueue q queue => exact HoldingsOk_setQueue _ (ok.isOpen_of_queue queue) ok
  | demands c x y => exact HoldingsOk_frame (sameBut_demanded s p c x y) (slotsEvolve_demanded s p c x y) ok rfl
  | claims c isOpen =>
    refine HoldingsOk_ofOpen (sameBut_setChannel s c _) isOpen (fun _ _ _ owner => owner) (fun d q other holder => ?_) ok rfl
    rw [State.setChannel_channels, getElem_set_at] at holder
    split at holder
    · cases holder; exact absurd rfl other
    · exact holder
  | releases c => exact HoldingsOk_setChannel ok nofun
  | configures c m x y => exact HoldingsOk_applyChange p c m x y ok
  | watches w x isOpen => exact HoldingsOk_setWatch w x isOpen ok

/-! ### Every effect -/

theorem HoldingsOk_leaseRestart {s : State} (p : Port) (ok : HoldingsOk s) : HoldingsOk (leaseRestart s p) := by
  cases isOpen : s.isOpen p with
  | true =>
    exact HoldingsOk_ofOpen (sameBut_leaseRestart s p) (by rwa [leaseRestart_isOpen]) (fun n q _ owner => by simpa using owner)
      (fun c q _ holder => by simpa using holder) ok (by simp [Part.holding])
  | false =>
    have same : leaseRestart s p = s := if_neg (by rw [isOpen]; exact Bool.false_ne_true)
    rwa [same]

theorem HoldingsOk_effect (s t : State) (effect : Effect s t) (ok : HoldingsOk s) : HoldingsOk t := by
  have raised (p : Port) : HoldingsOk (raiseSelect s p) := HoldingsOk_sameSlots (sameBut_raiseSelect s p) rfl ok rfl
  have hub (x : Hub) : HoldingsOk (s.setHub x) := HoldingsOk_sameSlots (sameBut_setHub s x) rfl ok rfl
  cases effect with
  | raises p => exact raised p
  | results p r => exact HoldingsOk_sameSlots (sameBut_setResult s p r) rfl ok rfl
  | leases p => exact HoldingsOk_leaseRestart p ok
  | acts p u _ _ act => exact HoldingsOk_act act (raised p)
  | unmarks p c => exact HoldingsOk_clearMark p c (raised p)
  | fallsHeld p => exact HoldingsOk_sameSlots (sameBut_fallHeld s p) rfl ok rfl
  | falls p => exact HoldingsOk_sameSlots (sameBut_fall s p _) rfl ok rfl
  | clockRises p sdi => exact HoldingsOk_clockRise p sdi ok
  | clockFalls p => exact HoldingsOk_clockFall p ok
  | lapses p => exact HoldingsOk_sessionEnd p nofun ok
  | expires n => exact HoldingsOk_owners (sameBut_expirePeriod s n) (ownersKept_expirePeriod s n) ok rfl
  | edges e => exact HoldingsOk_takeEdge e (HoldingsOk_sameSlots (sameBut_setTimebase s _) rfl ok rfl)
  | settled | sampled | repeats | converted => exact HoldingsOk_setConv _ ok
  | completes r => exact HoldingsOk_select (HoldingsOk_complete r ok)
  | recovers => exact HoldingsOk_select (HoldingsOk_setConv _ ok)
  | resets | resetsByNrst => exact HoldingsOk_congr HoldingsOk_reset rfl rfl rfl rfl rfl rfl
  | startsRunning | refclkHeld | supplyReturns | nrstReturns => exact hub _
  | refclkStarting a b => exact HoldingsOk_sameSlots (sameBut_refclkStartUp _ a b) rfl (hub _) rfl
  | refclkRuns a b => exact HoldingsOk_frame (sameBut_refclkRunning _ a b) (slotsEvolve_refclkRunning _ a b) (hub _) rfl

/-- Settles O6: every effect keeps that a port without an OPEN session holds nothing, so every step does. -/
theorem stepKeepsHoldingsUnderOpenSessions : Obligations.StepKeepsHoldingsUnderOpenSessions :=
  fun _ _ ok taken => step_keeps (fun _ _ h => h) HoldingsOk_effect ok taken

end Sys2Proof.Machine
end

