-- ==== Sys2Proof/Proofs/FrameKept.lean ====
section
/-! PROOF. What the edges of SCKp keep of the port's frame, for StartUpOk and CountersOk: its kind, its bits within a byte, and the place of a frame that began in start-up (R171, R182). -/

namespace Sys2Proof.Machine

/-- The frame of port p is in t of the kind, and within the byte, that it was in s. -/
def sameKindAndBits (p : Port) (s t : State) : Prop :=
  t.ports[p].frame.startUp = s.ports[p].frame.startUp ∧ t.ports[p].frame.bits = s.ports[p].frame.bits

theorem sameKindAndBits_refl (p : Port) (s : State) : sameKindAndBits p s s := ⟨rfl, rfl⟩

theorem sameKindAndBits_trans {p : Port} {s t u : State} (h : sameKindAndBits p s t) (k : sameKindAndBits p t u) :
    sameKindAndBits p s u := ⟨k.1.trans h.1, k.2.trans h.2⟩

theorem sameKindAndBits_setFrame {p : Port} {s u : State} {f : Frame} (startUp : f.startUp = s.ports[p].frame.startUp)
    (bits : f.bits = s.ports[p].frame.bits) : sameKindAndBits p s (setFrame u p f) := by
  unfold sameKindAndBits
  rw [setFrame_port]
  exact ⟨startUp, bits⟩

/-! ### The bytes of a frame -/

theorem sameKindAndBits_decideSamples (s : State) (p : Port) : sameKindAndBits p s (decideSamples s p) := by
  unfold decideSamples
  simp only
  split
  · split
    · split
      · exact sameKindAndBits_setFrame rfl rfl
      · exact sameKindAndBits_setFrame rfl rfl
    · exact sameKindAndBits_setFrame rfl rfl
  · exact sameKindAndBits_setFrame rfl rfl

theorem sameKindAndBits_decideEvents (s : State) (p : Port) : sameKindAndBits p s (decideEvents s p) := by
  unfold decideEvents
  simp only
  split
  · split
    · exact sameKindAndBits_setFrame rfl rfl
    · exact sameKindAndBits_setFrame rfl rfl
  · exact sameKindAndBits_setFrame rfl rfl

theorem sameKindAndBits_removeRecord (s : State) (p : Port) : sameKindAndBits p s (removeRecord s p) := by
  unfold removeRecord removeSample removeEvent
  simp only
  split
  · refine sameKindAndBits_trans ?_ (sameKindAndBits_decideSamples _ p)
    exact sameKindAndBits_setFrame rfl rfl
  · refine sameKindAndBits_trans ?_ (sameKindAndBits_decideEvents _ p)
    exact sameKindAndBits_setFrame rfl rfl
  · exact sameKindAndBits_refl p s

theorem sameKindAndBits_spillIfExhausted (s : State) (p : Port) : sameKindAndBits p s (spillIfExhausted s p) := by
  unfold spillIfExhausted
  split
  · exact sameKindAndBits_setFrame rfl rfl
  · exact sameKindAndBits_refl p s

theorem sameKindAndBits_completeReplyByte (s : State) (p : Port) : sameKindAndBits p s (completeReplyByte s p) := by
  unfold completeReplyByte
  simp only
  split
  · refine sameKindAndBits_trans ?_ (sameKindAndBits_removeRecord _ p)
    exact sameKindAndBits_setFrame rfl rfl
  · refine sameKindAndBits_trans ?_ (sameKindAndBits_spillIfExhausted _ p)
    exact sameKindAndBits_setFrame rfl rfl

theorem receiveArgument_kindAndBits (f : Frame) (b : Byte) :
    (f.receiveArgument b).startUp = f.startUp ∧ (f.receiveArgument b).bits = f.bits := by
  unfold Frame.receiveArgument
  simp only
  split
  · split <;> exact ⟨rfl, rfl⟩
  · exact ⟨rfl, rfl⟩

theorem sameKindAndBits_completeArgument (s : State) (p : Port) (b : Byte) :
    sameKindAndBits p s (completeArgument s p b) := by
  obtain ⟨startUp, bits⟩ := receiveArgument_kindAndBits s.ports[p].frame b
  have received : sameKindAndBits p s (setFrame s p (s.ports[p].frame.receiveArgument b)) :=
    sameKindAndBits_setFrame startUp bits
  unfold completeArgument
  simp only
  split
  · exact sameKindAndBits_trans received (sameKindAndBits_setFrame rfl rfl)
  · exact received

theorem sameKindAndBits_completeByte (s : State) (p : Port) (b : Byte) : sameKindAndBits p s (completeByte s p b) := by
  unfold completeByte
  simp only
  split
  · exact sameKindAndBits_refl p s
  · exact sameKindAndBits_setFrame rfl rfl
  · exact sameKindAndBits_completeArgument s p b
  · exact sameKindAndBits_completeReplyByte s p
  · exact sameKindAndBits_setFrame rfl rfl
  · exact sameKindAndBits_setFrame rfl rfl

/-! ### The edges of SCKp -/

/-- A rising edge that finds seven bits, or more, completes a byte. -/
theorem clockRise_ofFull {s : State} {p : Port} (inFrame : s.ports[p].frame.state ≠ .idle)
    (full : ¬ s.ports[p].frame.bits < 7) (sdi : Level) :
    clockRise s p sdi = completeByte (atByteEnd s p) p (shiftedIn s.ports[p].frame sdi) := by
  unfold clockRise sampleBit
  simp only [setClock_port, if_neg inFrame, if_neg full, shiftBit_eq]
  rfl

/-- After a rising edge the frame is of the kind that it was, and holds at most seven bits if it held no more (R171). -/
theorem clockRise_kindAndBits (s : State) (p : Port) (sdi : Level) :
    (clockRise s p sdi).ports[p].frame.startUp = s.ports[p].frame.startUp
      ∧ (s.ports[p].frame.bits ≤ 7 → (clockRise s p sdi).ports[p].frame.bits ≤ 7) := by
  by_cases idle : s.ports[p].frame.state = .idle
  · rw [clockRise_idle idle, setClock_port]; exact ⟨rfl, id⟩
  · by_cases few : s.ports[p].frame.bits < 7
    · rw [clockRise_shifts idle few, setFrame_port]; exact ⟨rfl, fun _ => few⟩
    · rw [clockRise_ofFull idle few]
      obtain ⟨startUp, bits⟩ := sameKindAndBits_completeByte (atByteEnd s p) p (shiftedIn s.ports[p].frame sdi)
      rw [startUp, bits, atByteEnd_frame]
      exact ⟨rfl, fun _ => Nat.zero_le 7⟩

theorem sameKindAndBits_firstDecision (s : State) (p : Port) : sameKindAndBits p s (firstDecision s p) := by
  unfold firstDecision
  simp only
  split
  · split
    · exact sameKindAndBits_decideSamples s p
    · exact sameKindAndBits_decideEvents s p
    · exact sameKindAndBits_refl p s
  · exact sameKindAndBits_refl p s

theorem sameKindAndBits_clockFall (s : State) (p : Port) : sameKindAndBits p s (clockFall s p) := by
  have clocked : sameKindAndBits p s (setClock s p .low) := by
    unfold sameKindAndBits; rw [setClock_port]; exact ⟨rfl, rfl⟩
  unfold clockFall startBit
  simp only
  split
  · exact clocked
  · refine sameKindAndBits_trans (t := if _ then _ else _) ?_ (sameKindAndBits_setFrame rfl rfl)
    split
    · exact sameKindAndBits_trans clocked (sameKindAndBits_setFrame rfl rfl)
    · exact sameKindAndBits_trans clocked (sameKindAndBits_firstDecision _ p)

end Sys2Proof.Machine
end

