-- ==== Sys2Proof/Proofs/StartUp.lean ====
section
/-! PROOF. Every step keeps reset and start-up quiet (R158, R159, R168, R169, R181, R182): what changes a block finds something in it that no hub-reset value has, so the hub is neither held nor in start-up. -/

namespace Sys2Proof.Machine

/-! ### A hub that is neither held nor in start-up -/

/-- The hub is neither held in a reset nor in start-up. -/
def awake (s : State) : Prop := s.hub.held = false ∧ s.hub.startUp = false

theorem awake_or_quiet (s : State) : awake s ∨ (s.hub.held = true ∨ s.hub.startUp = true) := by
  unfold awake
  cases s.hub.held <;> cases s.hub.startUp <;> simp

/-- While the hub is quiet a port has no frame, or one that began in start-up. -/
theorem StartUpOk.frame_ofQuiet {s : State} (ok : StartUpOk s) (quiet : s.hub.held = true ∨ s.hub.startUp = true)
    (p : Port) : s.ports[p].frame.state = .idle ∨ s.ports[p].frame.startUp = true := by
  obtain ⟨-, -, held, starting, -⟩ := ok
  rcases quiet with h | h
  · exact .inl (held h p)
  · exact starting h p

theorem StartUpOk.awake_of_frame {s : State} (ok : StartUpOk s) {p : Port} (inFrame : s.ports[p].frame.state ≠ .idle)
    (normal : s.ports[p].frame.startUp = false) : awake s := by
  refine (awake_or_quiet s).resolve_right fun quiet => ?_
  rcases ok.frame_ofQuiet quiet p with idle | startUp
  · exact inFrame idle
  · exact Bool.false_ne_true (normal.symm.trans startUp)

theorem StartUpOk.awake_of_open {s : State} (ok : StartUpOk s) {p : Port} (isOpen : s.isOpen p = true) : awake s := by
  refine (awake_or_quiet s).resolve_right fun quiet => ?_
  obtain ⟨-, -, -, -, blocks⟩ := ok
  obtain ⟨-, -, -, sessions, -⟩ := blocks quiet
  have closed : s.isOpen p = State.reset.isOpen p := by unfold State.isOpen; rw [sessions]
  rw [reset_isOpen] at closed
  exact Bool.false_ne_true (closed.symm.trans isOpen)

theorem StartUpOk.awake_of_slot {s : State} (ok : StartUpOk s) {n : SlotNo} (used : s.slots[n].state ≠ .free) :
    awake s := by
  refine (awake_or_quiet s).resolve_right fun quiet => ?_
  obtain ⟨-, -, -, -, blocks⟩ := ok
  obtain ⟨-, -, -, -, slots, -⟩ := blocks quiet
  rw [slots, reset_slot] at used
  exact used rfl

theorem StartUpOk.awake_of_conv {s : State} (ok : StartUpOk s) (runs : s.conv ≠ Converter.atReset) : awake s := by
  refine (awake_or_quiet s).resolve_right fun quiet => ?_
  obtain ⟨-, -, -, -, blocks⟩ := ok
  obtain ⟨-, -, -, -, -, -, conv, -⟩ := blocks quiet
  exact runs conv

theorem StartUpOk.awake_of_edge {s : State} (ok : StartUpOk s) {e : Edge} (waits : e ∈ s.timebase.edges) : awake s := by
  refine (awake_or_quiet s).resolve_right fun quiet => ?_
  obtain ⟨-, -, -, -, blocks⟩ := ok
  obtain ⟨-, -, none, -⟩ := blocks quiet
  rw [none] at waits
  cases waits

/-! ### How StartUpOk is kept -/

/-- While the hub is neither held nor in start-up, only the frames count. -/
theorem StartUpOk_awake {s t : State} (isAwake : awake s) (hub : t.hub = s.hub)
    (frames : ∀ p : Port, t.ports[p].frame.startUpOk) : StartUpOk t := by
  obtain ⟨free, started⟩ := isAwake
  unfold StartUpOk
  rw [hub, free, started]
  exact ⟨nofun, frames, nofun, nofun, fun quiet => by simp at quiet⟩

/-- The blocks that stand at their hub-reset values while the hub is held or in start-up are the same in two states. -/
def sameBlocks (s t : State) : Prop :=
  t.timebase.tick = s.timebase.tick ∧ t.timebase.prescaler = s.timebase.prescaler
    ∧ t.timebase.edges = s.timebase.edges ∧ t.sessions = s.sessions ∧ t.slots = s.slots ∧ t.requests = s.requests
    ∧ t.conv = s.conv ∧ t.channels = s.channels ∧ t.latest = s.latest ∧ t.unreserved = s.unreserved
    ∧ t.queues = s.queues ∧ t.watches = s.watches ∧ t.events = s.events

theorem sameBlocks_refl (s : State) : sameBlocks s s :=
  ⟨rfl, rfl, rfl, rfl, rfl, rfl, rfl, rfl, rfl, rfl, rfl, rfl, rfl⟩

/-- What stands at the hub-reset values stays there while the blocks are the same. -/
theorem StartUpOk.blocks_of_same {s t : State} (ok : StartUpOk s) (quiet : s.hub.held = true ∨ s.hub.startUp = true)
    (same : sameBlocks s t) :
    t.timebase.tick = 0 ∧ t.timebase.prescaler = 0 ∧ t.timebase.edges = []
      ∧ t.sessions = State.reset.sessions ∧ t.slots = State.reset.slots ∧ t.requests = [] ∧ t.conv = Converter.atReset
      ∧ t.channels = State.reset.channels ∧ t.latest = State.reset.latest ∧ t.unreserved = 384
      ∧ t.queues = State.reset.queues ∧ t.watches = State.reset.watches ∧ t.events = State.reset.events := by
  obtain ⟨-, -, -, -, blocks⟩ := ok
  obtain ⟨tick, prescaler, edges, sessions, slots, requests, conv, channels, latest, cells, queues, watches, events⟩ := same
  rw [tick, prescaler, edges, sessions, slots, requests, conv, channels, latest, cells, queues, watches, events]
  exact blocks quiet

/-- What a frame may become in reset and in start-up: an absent frame stays absent, and a start-up frame stays one. -/
def Frame.goesOn (f g : Frame) : Prop :=
  (f.startUpOk → g.startUpOk) ∧ (f.state = .idle → g.state = .idle)
    ∧ (f.startUp = true → g.state = .idle ∨ g.startUp = true)

theorem Frame.goesOn_refl (f : Frame) : f.goesOn f := ⟨id, id, .inr⟩

theorem Frame.goesOn_idle (f : Frame) : f.goesOn Frame.idle := ⟨fun _ _ => .inl rfl, fun _ => rfl, fun _ => .inl rfl⟩

/-- Frames that go on, and the same blocks. -/
theorem StartUpOk_goesOn {s t : State} (ok : StartUpOk s) (hub : t.hub = s.hub) (same : sameBlocks s t)
    (frames : ∀ p : Port, s.ports[p].frame.goesOn t.ports[p].frame) : StartUpOk t := by
  have blocks := fun quiet => ok.blocks_of_same quiet same
  obtain ⟨heldStarts, startUpOks, held, starting, -⟩ := ok
  unfold StartUpOk
  rw [hub]
  refine ⟨heldStarts, fun p => (frames p).1 (startUpOks p), fun isHeld p => (frames p).2.1 (held isHeld p),
    fun starts p => ?_, blocks⟩
  rcases starting starts p with idle | startUp
  · exact .inl ((frames p).2.1 idle)
  · exact (frames p).2.2 startUp

/-- A change of the ports alone, of whose frames only that of port p may change. -/
theorem StartUpOk_onePort {s t : State} {p : Port} (ok : StartUpOk s) (hub : t.hub = s.hub) (same : sameBlocks s t)
    (others : ∀ q, p ≠ q → t.ports[q].frame = s.ports[q].frame)
    (frame : s.ports[p].frame.goesOn t.ports[p].frame) : StartUpOk t :=
  StartUpOk_goesOn ok hub same fun q => by
    by_cases e : p = q
    · exact e ▸ frame
    · rw [others q e]; exact Frame.goesOn_refl _

/-- Another condition of the hub that is held no longer than the old one, and not in start-up without it. -/
theorem StartUpOk_setHub {s : State} {x : Hub} (ok : StartUpOk s) (held : x.held = true → s.hub.held = true)
    (startUp : x.startUp = true → s.hub.held = true ∨ s.hub.startUp = true)
    (apart : x.held = true → x.startUp = false) : StartUpOk (s.setHub x) := by
  obtain ⟨-, startUpOks, absent, starting, blocks⟩ := ok
  refine ⟨apart, startUpOks, fun isHeld => absent (held isHeld), fun starts p => ?_, fun quiet => blocks ?_⟩
  · rcases startUp starts with isHeld | starts
    · exact .inl (absent isHeld p)
    · exact starting starts p
  · rcases quiet with isHeld | starts
    · exact .inl (held isHeld)
    · exact startUp starts

/-! ### The edges of SCKp -/

/-- Where a frame that began in start-up stands, no decision and no reply is near. -/
theorem Frame.startUpOk_notReply {f : Frame} (h : f.state = .idle ∨ f.startUp = true ∧ f.startUpOk) :
    f.state ≠ .reply := by
  rcases h with idle | ⟨startUp, place⟩
  · rw [idle]; exact nofun
  · rcases place startUp with h | h | h <;> rw [h] <;> exact nofun

theorem sameBlocks_completeByte {s : State} {p : Port} (state : s.ports[p].frame.state = .head
      ∨ s.ports[p].frame.state = .spill ∨ s.ports[p].frame.state = .dead) (b : Byte) :
    sameBlocks s (completeByte s p b) := by
  rcases state with head | counts
  · rw [completeByte_head head]; exact sameBlocks_refl _
  · rw [completeByte_counts counts]; exact sameBlocks_refl _

/-- A rising edge in an absent frame, or in one that began in start-up. -/
theorem clockRise_goesOn {s : State} {p : Port} (quiet : s.ports[p].frame.state = .idle ∨ s.ports[p].frame.startUp = true)
    (place : s.ports[p].frame.startUpOk) (sdi : Level) :
    sameBlocks s (clockRise s p sdi) ∧ s.ports[p].frame.goesOn (clockRise s p sdi).ports[p].frame := by
  by_cases idle : s.ports[p].frame.state = .idle
  · rw [clockRise_idle idle, setClock_port]; exact ⟨sameBlocks_refl _, Frame.goesOn_refl _⟩
  · have startUp := quiet.resolve_left idle
    have frame := atByteEnd_frame s p
    by_cases few : s.ports[p].frame.bits < 7
    · rw [clockRise_shifts idle few, setFrame_port]; exact ⟨sameBlocks_refl _, id, id, .inr⟩
    · have state := (place startUp).resolve_left idle
      have blocks := sameBlocks_completeByte (s := atByteEnd s p) (p := p)
        (by rw [frame]; exact state.imp_right .inl) (shiftedIn s.ports[p].frame sdi)
      have kind := (clockRise_kindAndBits s p sdi).1
      rw [clockRise_ofFull idle few] at kind ⊢
      refine ⟨blocks, fun _ _ => .inr (.inr ?_), fun absent => absurd absent idle, fun _ => .inr (kind.trans startUp)⟩
      rcases state with head | spill
      · rw [completeByte_head (by rw [frame]; exact head), setFrame_port, frame]
        show stateAfterHead s.ports[p].frame.startUp _ = _
        rw [startUp]
        rfl
      · rw [completeByte_counts (.inl (by rw [frame]; exact spill)), setFrame_port, frame]
        exact spill

theorem clockFall_goesOn {s : State} {p : Port} (notReply : s.ports[p].frame.state ≠ .reply) :
    sameBlocks s (clockFall s p) ∧ s.ports[p].frame.goesOn (clockFall s p).ports[p].frame := by
  by_cases idle : s.ports[p].frame.state = .idle
  · rw [clockFall_idle idle, setClock_port]; exact ⟨sameBlocks_refl _, Frame.goesOn_refl _⟩
  · rw [clockFall_drives idle (timeIsDue_false notReply) fun due => notReply due.1, clocked_port]
    exact ⟨sameBlocks_refl _, id, id, .inr⟩

/-- The frames after an edge of SCKp while the hub is awake: a frame that began in start-up goes on as in start-up. -/
theorem StartUpOk_clockRise {s : State} (p : Port) (sdi : Level) (ok : StartUpOk s) : StartUpOk (clockRise s p sdi) := by
  have frame := sameBut_clockRise s p sdi
  have hub : (clockRise s p sdi).hub = s.hub := frame .hub (by simp)
  have others (q : Port) (other : p ≠ q) : (clockRise s p sdi).ports[q].frame = s.ports[q].frame :=
    frame (.frame q) (by simpa using Ne.symm other)
  have startUpOks := ok.2.1
  rcases awake_or_quiet s with isAwake | quiet
  · refine StartUpOk_awake isAwake hub fun q => ?_
    by_cases e : p = q
    · subst e
      intro startUp
      rw [(clockRise_kindAndBits s p sdi).1] at startUp
      have goes := (clockRise_goesOn (.inr startUp) (startUpOks p) sdi).2
      exact goes.1 (startUpOks p) (by rwa [(clockRise_kindAndBits s p sdi).1])
    · rw [others q e]; exact startUpOks q
  · obtain ⟨blocks, goes⟩ := clockRise_goesOn (ok.frame_ofQuiet quiet p) (startUpOks p) sdi
    exact StartUpOk_onePort ok hub blocks others goes

theorem StartUpOk_clockFall {s : State} (p : Port) (ok : StartUpOk s) : StartUpOk (clockFall s p) := by
  have frame := sameBut_clockFall s p
  have hub : (clockFall s p).hub = s.hub := frame .hub (by simp)
  have others (q : Port) (other : p ≠ q) : (clockFall s p).ports[q].frame = s.ports[q].frame :=
    frame (.frame q) (by simpa using Ne.symm other)
  have startUpOks := ok.2.1
  rcases awake_or_quiet s with isAwake | quiet
  · refine StartUpOk_awake isAwake hub fun q => ?_
    by_cases e : p = q
    · subst e
      intro startUp
      have kind := (sameKindAndBits_clockFall s p).1
      have notReply := Frame.startUpOk_notReply (.inr ⟨kind.symm.trans startUp, startUpOks p⟩)
      exact (clockFall_goesOn notReply).2.1 (startUpOks p) startUp
    · rw [others q e]; exact startUpOks q
  · have notReply := Frame.startUpOk_notReply ((ok.frame_ofQuiet quiet p).imp_right fun h => ⟨h, startUpOks p⟩)
    obtain ⟨blocks, goes⟩ := clockFall_goesOn notReply
    exact StartUpOk_onePort ok hub blocks others goes

/-! ### What leaves the hub and the frames -/

/-- The parts that StartUpOk reads while the hub is awake. -/
def Part.ofStartUp (x : Part) : Bool :=
  match x with
  | .hub | .frame _ => true
  | _ => false

/-- A change outside the hub and the frames while the hub is awake. -/
theorem StartUpOk_frame {l : List Part} {s t : State} (frame : sameBut l s t) (isAwake : awake s) (ok : StartUpOk s)
    (outside : l.any Part.ofStartUp = false) : StartUpOk t := by
  have kept (x : Part) (h : x.ofStartUp = true) : x.same s t :=
    frame x fun mem => List.any_eq_false.mp outside x mem h
  refine StartUpOk_awake isAwake (kept .hub rfl) fun p => ?_
  have same : t.ports[p].frame = s.ports[p].frame := kept (.frame p) rfl
  rw [same]
  exact ok.2.1 p

/-- A session end in a frame that began in start-up leaves the frame as it is (R182). -/
theorem Frame.atSessionEnd_startUpOk {f : Frame} (h : f.startUpOk) : f.atSessionEnd.startUpOk := by
  unfold Frame.atSessionEnd
  split
  · rename_i dies
    obtain ⟨-, normal, -⟩ := (becomesDead_iff f).mp dies
    exact fun startUp => absurd (normal.symm.trans startUp) Bool.false_ne_true
  · exact h

theorem StartUpOk_sessionEnd {s : State} (p : Port) (after : SessionState) (isAwake : awake s) (ok : StartUpOk s) :
    StartUpOk (sessionEnd s p after) := by
  have frame := sameBut_sessionEnd s p after
  refine StartUpOk_awake isAwake (frame .hub (by simp [sessionParts, allSlots, allChannels])) fun q => ?_
  by_cases e : p = q
  · subst e; rw [sessionEnd_port]; exact Frame.atSessionEnd_startUpOk (ok.2.1 p)
  · have same : (sessionEnd s p after).ports[q].frame = s.ports[q].frame :=
      frame (.frame q) (by simpa [sessionParts, allSlots, allChannels] using Ne.symm e)
    rw [same]; exact ok.2.1 q

theorem StartUpOk_act {p : Port} {s t : State} (act : Act p s t) (isAwake : awake s) (ok : StartUpOk s) :
    StartUpOk t := by
  cases act with
  | opens a => exact StartUpOk_frame (sameBut_openAccepted s p a) isAwake ok rfl
  | closes => exact StartUpOk_sessionEnd p _ isAwake ok
  | stages w => exact StartUpOk_frame (sameBut_withStaging s p w) isAwake ok rfl
  | installs n x => exact StartUpOk_frame (sameBut_setSlot s n _) isAwake ok rfl
  | modifies n x => exact StartUpOk_frame (sameBut_applyModify s n x.settings) isAwake ok rfl
  | deletes n => exact StartUpOk_frame (sameBut_deleted s p n) isAwake ok rfl
  | stops n running => exact StartUpOk_frame (sameBut_stop running) isAwake ok rfl
  | runs n => exact StartUpOk_frame (sameBut_setSlot s n _) isAwake ok rfl
  | bursts n stopped kind => exact StartUpOk_frame (sameBut_startBurst stopped kind) isAwake ok rfl
  | fetches n => exact StartUpOk_frame (sameBut_fetch p n s) isAwake ok rfl
  | releasesQueue q => exact StartUpOk_frame (sameBut_setQueue s p _) isAwake ok rfl
  | demands c x y => exact StartUpOk_frame (sameBut_demanded s p c x y) isAwake ok rfl
  | claims c => exact StartUpOk_frame (sameBut_setChannel s c _) isAwake ok rfl
  | releases c => exact StartUpOk_frame (sameBut_setChannel s c _) isAwake ok rfl
  | configures c m x y => exact StartUpOk_frame (sameBut_applyChange s p c m x y) isAwake ok rfl
  | watches w x => exact StartUpOk_frame (sameBut_setWatch s p w x) isAwake ok rfl

/-! ### Resets and start-up -/

/-- A hub reset begins a reset with every block at its hub-reset values (R168). -/
theorem StartUpOk_hubReset (s : State) (cause : ResetCause) : StartUpOk (hubReset s cause) := by
  have port (p : Port) : (hubReset s cause).ports[p].frame = Frame.idle := by rw [hubReset_port]; rfl
  refine ⟨fun _ => rfl, fun p => ?_, fun _ p => ?_, nofun, fun _ => ?_⟩
  · rw [port]; exact fun _ => .inl rfl
  · rw [port]; rfl
  · exact ⟨rfl, rfl, rfl, rfl, rfl, rfl, rfl, rfl, rfl, rfl, rfl, rfl, rfl⟩

theorem Hub.beginIfFree_held (h : Hub) : h.beginIfFree.held = h.held := by
  unfold Hub.beginIfFree
  split <;> rfl

/-- A start-up begins only of a hub that is not held (R168, R169). -/
theorem Hub.beginIfFree_startUp {h : Hub} (apart : h.held = true → h.startUp = false) (held : h.beginIfFree.held = true) :
    h.beginIfFree.startUp = false := by
  rw [Hub.beginIfFree_held] at held
  have still : h.beginIfFree = h := if_pos held
  rw [still]
  exact apart held

/-- The release of one cause of a reset (R168). -/
theorem StartUpOk_released {s : State} {x : Hub} (ok : StartUpOk s) (was : s.hub.held = true)
    (startUp : x.startUp = s.hub.startUp) : StartUpOk (s.setHub x.beginIfFree) :=
  StartUpOk_setHub ok (fun _ => was) (fun _ => .inl was)
    (Hub.beginIfFree_startUp fun _ => startUp.trans (ok.1 was))

/-- A low sample of nRST counts, in a hub that is otherwise as it was. -/
theorem StartUpOk_sampled {s : State} (k : Nat) (ok : StartUpOk s) :
    StartUpOk (s.setHub { s.hub with nrstLow := k }) := StartUpOk_setHub ok id .inr ok.1

theorem StartUpOk_refclkStartUp {s : State} (a b : Level) (ok : StartUpOk s) : StartUpOk (refclkStartUp s a b) :=
  StartUpOk_goesOn (s := s.setHub { s.hub with startCount := s.hub.startCount + 1 }) (StartUpOk_setHub ok id .inr ok.1)
    rfl (sameBlocks_refl _) fun _ => Frame.goesOn_refl _

/-- A frame that begins while the hub is not held: in start-up it is a start-up frame, and it stands in HEAD. -/
theorem StartUpOk_fall {s : State} (p : Port) (free : s.hub.held = false) (ok : StartUpOk s) :
    StartUpOk (s.setPort p { s.ports[p] with nsel := .low, frame := newFrame s p }) := by
  have port : (s.setPort p { s.ports[p] with nsel := .low, frame := newFrame s p }).ports[p].frame = newFrame s p := by
    rw [State.setPort_ports, getElem_set_same]
  have others (q : Port) (other : p ≠ q) :
      (s.setPort p { s.ports[p] with nsel := .low, frame := newFrame s p }).ports[q] = s.ports[q] :=
    getElem_set_other _ _ _ _ other
  obtain ⟨apart, startUpOks, -, starting, blocks⟩ := ok
  refine ⟨apart, fun q => ?_, fun held => absurd (free.symm.trans held) Bool.false_ne_true, fun starts q => ?_, blocks⟩
  · by_cases e : p = q
    · subst e; rw [port]; exact fun _ => .inr (.inl rfl)
    · rw [others q e]; exact startUpOks q
  · by_cases e : p = q
    · subst e; rw [port]; exact .inr starts
    · rw [others q e]; exact starting starts q

/-! ### Every effect -/

/-- A lease timer expires when it is armed, of an OPEN session, and has reached its tick (R152, R153). -/
theorem leaseExpires_iff {s : State} {p : Port} : leaseExpires s p = true ↔
    ∃ d, s.sessions[p].expiry = some d ∧ s.isOpen p = true ∧ reached s.now d = true := by
  unfold leaseExpires
  cases s.sessions[p].expiry <;> simp

/-- A period timer expires of a RUNNING PERIODIC slot whose next due tick is reached (R34, R35). -/
theorem periodExpires_iff {s : State} {n : SlotNo} : periodExpires s n = true ↔
    s.slots[n].state = .running ∧ s.slots[n].settings.kind = .periodic ∧ reached s.now s.slots[n].nextDue = true := by
  simp [periodExpires, Slot.timerArmed, and_assoc]

theorem StartUpOk_leaseRestart {s : State} (p : Port) (ok : StartUpOk s) : StartUpOk (leaseRestart s p) := by
  cases isOpen : s.isOpen p with
  | true => exact StartUpOk_frame (sameBut_leaseRestart s p) (ok.awake_of_open isOpen) ok rfl
  | false =>
    have same : leaseRestart s p = s := if_neg (by rw [isOpen]; exact Bool.false_ne_true)
    rwa [same]

theorem StartUpOk_raiseSelect {s : State} (p : Port) (ok : StartUpOk s) : StartUpOk (raiseSelect s p) :=
  StartUpOk_onePort ok rfl (sameBlocks_refl s) (fun q other => by rw [raiseSelect_other s p q other])
    (by rw [raiseSelect_port]; exact Frame.goesOn_idle _)

theorem StartUpOk_effect (s t : State) (effect : Effect s t) (ok : StartUpOk s) : StartUpOk t := by
  have running {r : InFlight} (record : s.conv.record = some r) : awake s :=
    ok.awake_of_conv fun atReset => by rw [atReset] at record; cases record
  cases effect with
  | raises p => exact StartUpOk_raiseSelect p ok
  | results p r =>
    exact StartUpOk_onePort ok rfl (sameBlocks_refl s) (fun q other => by rw [setResult_other s p q r other])
      (by rw [setResult_port]; exact Frame.goesOn_refl _)
  | leases p => exact StartUpOk_leaseRestart p ok
  | acts p u inFrame normal act =>
    exact StartUpOk_act act (s := raiseSelect s p) (ok.awake_of_frame inFrame normal) (StartUpOk_raiseSelect p ok)
  | unmarks p c inFrame normal =>
    have isAwake : awake (raiseSelect s p) := ok.awake_of_frame inFrame normal
    refine StartUpOk_frame (sameBut_clearMark _ p c) isAwake (StartUpOk_raiseSelect p ok) ?_
    cases c <;> rfl
  | fallsHeld p =>
    refine StartUpOk_onePort (p := p) ok rfl (sameBlocks_refl s) (fun q other => ?_) ?_
    · rw [State.setPort_ports, getElem_set_other _ _ _ _ other]
    · rw [State.setPort_ports, getElem_set_same]; exact Frame.goesOn_refl _
  | falls p free => exact StartUpOk_fall p free ok
  | clockRises p sdi => exact StartUpOk_clockRise p sdi ok
  | clockFalls p => exact StartUpOk_clockFall p ok
  | lapses p due =>
    obtain ⟨_, -, isOpen, -⟩ := leaseExpires_iff.mp due
    exact StartUpOk_sessionEnd p _ (ok.awake_of_open isOpen) ok
  | expires n due =>
    obtain ⟨runs, -⟩ := periodExpires_iff.mp due
    have used : s.slots[n].state ≠ .free := by rw [runs]; exact nofun
    exact StartUpOk_frame (sameBut_expirePeriod s n) (ok.awake_of_slot used) ok rfl
  | edges e waits =>
    have isAwake := ok.awake_of_edge waits
    exact StartUpOk_frame (sameBut_takeEdge e _) isAwake (StartUpOk_frame (sameBut_setTimebase s _) isAwake ok rfl) rfl
  | settled r _ record | sampled r _ _ record | repeats r _ record | converted r _ record =>
    exact StartUpOk_frame (sameBut_setConv s _) (running record) ok rfl
  | completes r _ record =>
    have completed := StartUpOk_frame (sameBut_complete s r) (running record) ok rfl
    have isAwake : awake (complete s r) := by
      unfold awake; rw [sameBut_complete s r .hub (by simp [completionParts, allSlots, allQueues, allWatches, allEvents, allDemands])]; exact running record
    exact StartUpOk_frame (sameBut_select _) isAwake completed rfl
  | recovers phase =>
    have isAwake : awake s := ok.awake_of_conv fun atReset => by rw [atReset] at phase; cases phase
    exact StartUpOk_frame (sameBut_select _) isAwake (StartUpOk_frame (sameBut_setConv s _) isAwake ok rfl) rfl
  | resets cause => exact StartUpOk_hubReset s cause
  | resetsByNrst => exact StartUpOk_hubReset _ .nrst
  | startsRunning starting =>
    exact StartUpOk_setHub ok id nofun fun _ => rfl
  | refclkHeld => exact StartUpOk_sampled _ ok
  | refclkStarting a b => exact StartUpOk_refclkStartUp a b (StartUpOk_sampled _ ok)
  | refclkRuns a b nrst _ _ unheld started =>
    exact StartUpOk_frame (sameBut_refclkRunning _ a b) ⟨unheld, started⟩ (StartUpOk_sampled _ ok) rfl
  | supplyReturns held => exact StartUpOk_released ok (by simp [Hub.held, held]) rfl
  | nrstReturns held => exact StartUpOk_released ok (by simp [Hub.held, held]) rfl

/-- Settles O8: every effect keeps reset and start-up quiet, so every step does. -/
theorem stepKeepsResetAndStartUpQuiet : Obligations.StepKeepsResetAndStartUpQuiet :=
  fun _ _ ok taken => step_keeps (fun _ _ h => h) StartUpOk_effect ok taken

end Sys2Proof.Machine
end

