-- ==== Sys2Proof/Proofs/SlotsKept.lean ====
section
/-! PROOF. What a step gives a slot (R10, R15, R16, R35, R80): outside INSTALL, MODIFY, RUN and the expiry of its period timer, a slot of no port becomes one of a port, no FREE slot gets a channel and no deadline moves. -/

namespace Sys2Proof.Machine

/-! ### Slots that are given nothing -/

/-- y is what slot x may become without being set up: of a port in STOPPED or RUNNING, in use with a channel, or RUNNING with a
deadline only as x was. -/
def Slot.keeps (x y : Slot) : Prop :=
  (∀ p : Port, y.live → y.owner = some p → x.live ∧ x.owner = some p)
    ∧ (y.state ≠ .free → x.state ≠ .free ∧ y.settings.channel = x.settings.channel)
    ∧ (y.state = .running → y.settings.kind = .periodic →
        x.state = .running ∧ x.settings.kind = .periodic ∧ y.nextDue = x.nextDue)

theorem Slot.live_iff {x : Slot} : x.live ↔ x.state = .stopped ∨ x.state = .running := Iff.rfl

theorem Slot.keeps_of_evolves {x y : Slot} (h : x.evolves y) : x.keeps y := by
  rcases h with ⟨free, -⟩ | ⟨owner, settings, nextDue, state⟩
  · refine ⟨fun p live => ?_, fun used => absurd free used, fun runs => ?_⟩
    · rcases live with h | h <;> rw [free] at h <;> cases h
    · rw [free] at runs; cases runs
  · unfold Slot.keeps
    rw [owner, settings, nextDue]
    rcases state with state | ⟨burst, liveX, -⟩
    · rw [state, Slot.live_iff, Slot.live_iff, state]
      exact ⟨fun p live own => ⟨live, own⟩, fun used => ⟨used, rfl⟩, fun runs periodic => ⟨runs, periodic, rfl⟩⟩
    · refine ⟨fun p _ own => ⟨liveX, own⟩, fun _ => ⟨fun free => ?_, rfl⟩, fun _ periodic => ?_⟩
      · rcases liveX with h | h <;> rw [free] at h <;> cases h
      · rw [periodic] at burst; cases burst

theorem Slot.keeps_refl (x : Slot) : x.keeps x := Slot.keeps_of_evolves (Slot.evolves_refl x)

theorem Slot.keeps_free (x : Slot) : x.keeps Slot.free := Slot.keeps_of_evolves (Slot.evolves_free x)

/-- Every slot of s keeps in t. -/
def slotsKeep (s t : State) : Prop := ∀ n : SlotNo, s.slots[n].keeps t.slots[n]

theorem slotsKeep_of_evolve {s t : State} (h : slotsEvolve s t) : slotsKeep s t :=
  fun n => Slot.keeps_of_evolves (slotsEvolve_iff.mp h n)

theorem slotsKeep_of_eq {s t : State} (h : t.slots = s.slots) : slotsKeep s t :=
  slotsKeep_of_evolve (slotsEvolve_of_eq h)

/-- The slots are the same in both states of a change that touches none. -/
theorem slotsKeep_of_frame {l : List Part} {s t : State} (frame : sameBut l s t) (outside : ∀ n, Part.slot n ∉ l) :
    slotsKeep s t := fun n => by
  have same : t.slots[n] = s.slots[n] := frame (.slot n) (outside n)
  rw [same]; exact Slot.keeps_refl _

theorem slotsKeep_set {s t : State} {n : SlotNo} {y : Slot} (slots : t.slots = s.slots.set n y)
    (h : s.slots[n].keeps y) : slotsKeep s t := fun m => by
  rw [slots, getElem_set_at]
  split
  · rename_i e; exact e ▸ h
  · exact Slot.keeps_refl _

/-! ### The slots after the set commands -/

/-- The slot alone loses its flag when its request is withdrawn (R32). -/
theorem withdrawPending_slots (s : State) (n : SlotNo) :
    (withdrawPending s n).slots = s.slots.set n { s.slots[n] with pendingFlag := false } := by
  unfold withdrawPending
  split
  · rfl
  · rename_i notPending
    have same : { s.slots[n] with pendingFlag := false } = s.slots[n] := by
      rw [← Bool.eq_false_iff.mpr notPending]
    rw [same]
    exact (Vector.set_getElem_self _).symm

/-- A slot written after its request was withdrawn. -/
theorem withdrawPending_setSlot (s : State) (n : SlotNo) (y : Slot) :
    ((withdrawPending s n).setSlot n y).slots = s.slots.set n y := by
  rw [State.setSlot_slots, withdrawPending_slots, Vector.set_set]

theorem stop_slots {s : State} {n : SlotNo} (running : s.slots[n].state = .running) :
    ∃ y, (stop n s).1.slots = s.slots.set n y ∧ y.state = .stopped ∧ y.owner = s.slots[n].owner
      ∧ y.settings = s.slots[n].settings := by
  rw [stop_running running]
  rw [withdrawPending_slot]
  exact ⟨_, withdrawPending_setSlot s n _, rfl, rfl, rfl⟩

theorem deleted_slots (s : State) (p : Port) (n : SlotNo) :
    (deleted s p n).slots = s.slots.set n (deletedSlot { s.slots[n] with pendingFlag := false }) := by
  unfold deleted
  rw [withdrawPending_slot]
  exact withdrawPending_setSlot s n _

theorem applyModify_slots (s : State) (n : SlotNo) (x : Settings) : (applyModify s n x).slots =
    s.slots.set n (modifiedSlot s.now x { s.slots[n] with pendingFlag := false }) := by
  have superseded : (if s.slots[n].inFlightFlag then supersede (withdrawPending s n) n else withdrawPending s n).slots
      = (withdrawPending s n).slots := by
    split
    · exact supersede_slots _ n
    · rfl
  show (State.setSlot (if s.slots[n].inFlightFlag then supersede (withdrawPending s n) n else withdrawPending s n) n
    (modifiedSlot s.now x (if s.slots[n].inFlightFlag then supersede (withdrawPending s n) n
      else withdrawPending s n).slots[n])).slots = _
  rw [State.setSlot_slots, superseded, withdrawPending_slot, withdrawPending_slots, Vector.set_set]

/-- A deleted slot is of no port in STOPPED or RUNNING, and RETIRING keeps its channel (R18). -/
theorem deletedSlot_keeps (x : Slot) (used : x.state ≠ .free) :
    x.keeps (deletedSlot { x with pendingFlag := false }) := by
  unfold deletedSlot
  split
  · exact ⟨fun p live => (by rcases live with h | h <;> cases h), fun _ => ⟨used, rfl⟩, nofun⟩
  · exact Slot.keeps_free x

/-- The session end leaves a slot RETIRING, FREE, or as it was (R146). -/
theorem slotAtSessionEnd_keeps (p : Port) (x : Slot) : x.keeps (slotAtSessionEnd p x) := by
  unfold slotAtSessionEnd
  split
  · have retires (h : x.live) :
        x.keeps (if x.inFlightFlag then { x with state := .retiring, owner := none, pendingFlag := false } else Slot.free) := by
      split
      · refine ⟨fun q _ => nofun, fun _ => ⟨fun free => ?_, rfl⟩, nofun⟩
        rcases h with h | h <;> rw [free] at h <;> cases h
      · exact Slot.keeps_free x
    have ownerless : x.keeps { x with owner := none } :=
      ⟨fun q _ => nofun, fun used => ⟨used, rfl⟩, fun runs periodic => ⟨runs, periodic, rfl⟩⟩
    split
    · rename_i stopped; exact retires (.inl stopped)
    · rename_i running; exact retires (.inr running)
    · exact ownerless
    · exact ownerless
  · exact Slot.keeps_refl x

theorem slotsKeep_sessionEnd (s : State) (p : Port) (after : SessionState) : slotsKeep s (sessionEnd s p after) :=
  fun n => by rw [sessionEnd_slot]; exact slotAtSessionEnd_keeps p _

/-! ### The slots that a step sets up -/

/-- What INSTALL, MODIFY and RUN of port p make of slot n (R11, R16, R15). -/
inductive SlotSetUp (p : Port) (s : State) (n : SlotNo) : Slot → Prop
  | installs (x : Staged) (unpaired : s.oddPartner x.settings.channel = false) (quota : ownedCount s p < 16)
      (free : s.slots[n].state = .free) : SlotSetUp p s n (installedSlot p s.now x)
  | modifies (x : Settings) (own : ownLive s p n = true) (kind : x.kind = s.slots[n].settings.kind)
      (unpaired : s.oddPartner x.channel = false) :
      SlotSetUp p s n (modifiedSlot s.now x { s.slots[n] with pendingFlag := false })
  | runs (stopped : s.slots[n].state = .stopped) : SlotSetUp p s n (runningSlot s.now s.slots[n])

theorem slotsKeep_deleted {s : State} {p : Port} {n : SlotNo} (own : ownLive s p n = true) :
    slotsKeep s (deleted s p n) := by
  refine slotsKeep_set (deleted_slots s p n) (deletedSlot_keeps _ fun free => ?_)
  rcases (ownLive_iff.mp own).2 with h | h <;> rw [free] at h <;> cases h

theorem slotsKeep_stop {s : State} {n : SlotNo} (running : s.slots[n].state = .running) : slotsKeep s (stop n s).1 := by
  obtain ⟨y, slots, stopped, owner, settings⟩ := stop_slots running
  refine slotsKeep_set slots ⟨fun q _ own => ⟨.inr running, owner.symm.trans own⟩, fun _ => ⟨?_, ?_⟩, fun runs => ?_⟩
  · rw [running]; exact nofun
  · rw [settings]
  · rw [stopped] at runs; cases runs

/-- A set command's act sets up one slot, or gives no slot anything. -/
theorem Act.slots {p : Port} {s t : State} (act : Act p s t) :
    slotsKeep s t ∨ ∃ n y, SlotSetUp p s n y ∧ t.slots = s.slots.set n y := by
  cases act with
  | installs n x _ _ unpaired quota free => exact .inr ⟨n, _, .installs x unpaired quota free, rfl⟩
  | modifies n x own _ kind unpaired => exact .inr ⟨n, _, .modifies x.settings own kind unpaired, applyModify_slots s n _⟩
  | runs n stopped => exact .inr ⟨n, _, .runs stopped, rfl⟩
  | closes => exact .inl (slotsKeep_sessionEnd s p _)
  | deletes n own => exact .inl (slotsKeep_deleted own)
  | stops n running => exact .inl (slotsKeep_stop running)
  | bursts n stopped kind => exact .inl (slotsKeep_of_evolve (slotsEvolve_startBurst stopped kind))
  | demands c x y => exact .inl (slotsKeep_of_evolve (slotsEvolve_demanded s p c x y))
  | configures c m x y => exact .inl (slotsKeep_of_frame (sameBut_applyChange s p c m x y) (by simp [allChannels, allEvents]))
  | opens | stages | fetches | releasesQueue | claims | releases | watches => exact .inl (slotsKeep_of_eq rfl)

/-- The slot of a request or of an overrun, written once more. -/
theorem requestSlot_setSlot (s : State) (n : SlotNo) (due : Tick) (y : Slot) :
    ((requestSlot s n due).setSlot n y).slots = s.slots.set n y := by
  simp only [requestSlot, State.setSlot_slots, State.setRequests_slots, Vector.set_set]

theorem overrunSlot_setSlot (s : State) (n : SlotNo) (y : Slot) :
    ((overrunSlot s n).setSlot n y).slots = s.slots.set n y := by
  simp only [overrunSlot, State.setSlot_slots, State.setRequests_slots, Vector.set_set]

theorem requestSlot_slot (s : State) (n : SlotNo) (due : Tick) :
    (requestSlot s n due).slots[n] = { s.slots[n] with pendingFlag := true } := getElem_set_same _ _ _

theorem overrunSlot_slot (s : State) (n : SlotNo) :
    (overrunSlot s n).slots[n] = { s.slots[n] with overrunCount := hold65535 s.slots[n].overrunCount 1 } :=
  getElem_set_same _ _ _

/-- Two writes of one slot that agree in what a slot keeps. -/
theorem slotsEvolve_written {s u : State} {n : SlotNo} {x y : Slot} (slots : u.slots = s.slots.set n y)
    (same : x.setup = y.setup) : slotsEvolve (s.setSlot n x) u := slotsEvolve_iff.mpr fun m => by
  rw [slots, State.setSlot_slots, getElem_set_at, getElem_set_at]
  split
  · exact Slot.evolves_of_setup same.symm
  · exact Slot.evolves_refl _

/-- The slot whose period timer has expired: its next due tick is a period later (R35). -/
def Slot.nextPeriod (x : Slot) : Slot := { x with nextDue := x.nextDue + ticks22 x.settings.period }

/-- The expiry of a period timer moves the slot's deadline by a period, and makes a request or an overrun of it (R35). -/
theorem slotsEvolve_expirePeriod (s : State) (n : SlotNo) :
    slotsEvolve (s.setSlot n s.slots[n].nextPeriod) (expirePeriod s n) := by
  unfold expirePeriod
  simp only
  split
  · rw [overrunSlot_slot]
    exact slotsEvolve_written (overrunSlot_setSlot s n _) rfl
  · rw [requestSlot_slot]
    have requested := slotsEvolve_written (x := s.slots[n].nextPeriod) (requestSlot_setSlot s n s.slots[n].nextDue
      { s.slots[n] with
        pendingFlag := true, nextDue := s.slots[n].nextDue + ticks22 s.slots[n].settings.period }) rfl
    exact slotsEvolve_ite (slotsEvolve_trans requested (slotsEvolve_selectIfIdle _)) requested

/-- What evolves after an update outside the slots. -/
theorem slotsEvolve_afterUpdate {s t u : State} (same : t.slots = s.slots) (h : slotsEvolve t u) : slotsEvolve s u :=
  slotsEvolve_trans (slotsEvolve_of_eq same) h

theorem clearMark_slots (s : State) (p : Port) (c : Command) : (clearMark s p c).slots = s.slots := by
  cases c <;> rfl

/-- An effect sets up one slot, moves the deadline of one whose period timer expires, or gives no slot anything. -/
theorem Effect.slots {s t : State} (effect : Effect s t) : slotsKeep s t
    ∨ (∃ p n y, SlotSetUp p s n y ∧ t.slots = s.slots.set n y)
    ∨ ∃ n, periodExpires s n = true ∧ slotsEvolve (s.setSlot n s.slots[n].nextPeriod) t := by
  cases effect with
  | acts p u _ _ act =>
    have raised (n : SlotNo) (y : Slot) (h : SlotSetUp p (raiseSelect s p) n y) : SlotSetUp p s n y := by
      cases h with
      | installs x unpaired quota free => exact .installs x unpaired quota free
      | modifies x own kind unpaired => exact .modifies x own kind unpaired
      | runs stopped => exact .runs stopped
    rcases act.slots with keep | ⟨n, y, setUp, slots⟩
    · exact .inl keep
    · exact .inr (.inl ⟨p, n, y, raised n y setUp, slots⟩)
  | expires n due => exact .inr (.inr ⟨n, due, slotsEvolve_expirePeriod s n⟩)
  | leases p => exact .inl (slotsKeep_of_eq (leaseRestart_slots s p))
  | unmarks p c => exact .inl (slotsKeep_of_eq (clearMark_slots _ p c))
  | clockRises p sdi => exact .inl (slotsKeep_of_frame (sameBut_clockRise s p sdi) (by simp))
  | clockFalls p => exact .inl (slotsKeep_of_frame (sameBut_clockFall s p) (by simp))
  | lapses p => exact .inl (slotsKeep_sessionEnd s p _)
  | edges e => exact .inl (slotsKeep_of_evolve (slotsEvolve_afterUpdate (State.setTimebase_slots s _) (slotsEvolve_takeEdge e _)))
  | completes r => exact .inl (slotsKeep_of_evolve (slotsEvolve_trans (slotsEvolve_complete s r) (slotsEvolve_select _)))
  | recovers => exact .inl (slotsKeep_of_evolve (slotsEvolve_afterUpdate (State.setConv_slots s _) (slotsEvolve_select _)))
  | resets | resetsByNrst =>
    refine .inl fun n => ?_
    have free : State.reset.slots[n] = Slot.free := reset_slot n
    exact (congrArg (Slot.keeps _) free).mpr (Slot.keeps_free _)
  | refclkRuns a b => exact .inl (slotsKeep_of_evolve (slotsEvolve_afterUpdate (State.setHub_slots s _) (slotsEvolve_refclkRunning _ a b)))
  | raises | results | fallsHeld | falls | settled | sampled | repeats | converted | startsRunning | refclkHeld
  | refclkStarting | supplyReturns | nrstReturns => exact .inl (slotsKeep_of_eq rfl)

end Sys2Proof.Machine
end

