-- ==== Sys2Proof/Proofs/Quota.lean ====
section
/-! PROOF. Every step keeps the slot quota (R10) and that no armed deadline has been passed (R34, R152, R162). -/

namespace Sys2Proof.Machine

/-! ### The slot quota -/

theorem ownLive_iff_live {s : State} {p : Port} {n : SlotNo} :
    ownLive s p n = true ↔ s.slots[n].live ∧ s.slots[n].owner = some p := ownLive_iff.trans and_comm

/-- The slots that port p holds in STOPPED or RUNNING. -/
def ownedSlots (s : State) (p : Port) : List SlotNo := (List.finRange 32).filter fun n => ownLive s p n

theorem mem_ownedSlots {s : State} {p : Port} {n : SlotNo} : n ∈ ownedSlots s p ↔ ownLive s p n = true := by
  simp [ownedSlots]

theorem nodup_ownedSlots (s : State) (p : Port) : (ownedSlots s p).Nodup := (List.nodup_finRange 32).filter _

/-- A port that holds no slot that is not in a list holds no more slots than the list has. -/
theorem ownedCount_le {s : State} {p : Port} {l : List SlotNo} (h : ∀ n, ownLive s p n = true → n ∈ l) :
    ownedCount s p ≤ l.length :=
  ((nodup_ownedSlots s p).subperm fun n mem => h n (mem_ownedSlots.mp mem)).length_le

theorem ownedCount_keeps {s t : State} (keep : slotsKeep s t) (p : Port) : ownedCount t p ≤ ownedCount s p :=
  ownedCount_le fun n own => by
    obtain ⟨live, owner⟩ := ownLive_iff_live.mp own
    exact mem_ownedSlots.mpr (ownLive_iff_live.mpr ((keep n).1 p live owner))

theorem QuotaOk_keeps {s t : State} (keep : slotsKeep s t) (ok : QuotaOk s) : QuotaOk t :=
  fun p => (ownedCount_keeps keep p).trans (ok p)

/-- A write of one slot that is of a port in STOPPED or RUNNING only as it was. -/
theorem QuotaOk_set {s t : State} {n : SlotNo} {y : Slot} (slots : t.slots = s.slots.set n y)
    (h : y.live → s.slots[n].live) (owner : y.owner = s.slots[n].owner) (ok : QuotaOk s) : QuotaOk t := fun p => by
  refine (ownedCount_le fun m own => mem_ownedSlots.mpr (ownLive_iff_live.mpr ?_)).trans (ok p)
  rw [ownLive_iff_live, slots, getElem_set_at] at own
  split at own
  · rename_i e
    exact e ▸ ⟨h own.1, owner.symm.trans own.2⟩
  · exact own

/-- INSTALL gives its port one slot more, and other ports none (R10, R11). -/
theorem QuotaOk_install {s t : State} {p : Port} {n : SlotNo} {y : Slot} (slots : t.slots = s.slots.set n y)
    (owner : y.owner = some p) (quota : ownedCount s p < 16) (ok : QuotaOk s) : QuotaOk t := fun q => by
  have others {m : SlotNo} (own : ownLive t q m = true) : n = m ∧ p = q ∨ ownLive s q m = true := by
    rw [ownLive_iff_live, slots, getElem_set_at] at own
    split at own
    · rename_i e; exact .inl ⟨e, Option.some.inj (owner.symm.trans own.2)⟩
    · exact .inr (ownLive_iff_live.mpr own)
  by_cases e : p = q
  · subst e
    have more : ownedCount t p ≤ (n :: ownedSlots s p).length := ownedCount_le fun m own => by
      rcases others own with ⟨same, -⟩ | own
      · exact same ▸ List.mem_cons_self
      · exact List.mem_cons_of_mem _ (mem_ownedSlots.mpr own)
    exact more.trans quota
  · exact (ownedCount_le fun m own => mem_ownedSlots.mpr ((others own).resolve_left fun h => e h.2)).trans (ok q)

theorem QuotaOk_setUp {p : Port} {s t : State} {n : SlotNo} {y : Slot} (setUp : SlotSetUp p s n y)
    (slots : t.slots = s.slots.set n y) (ok : QuotaOk s) : QuotaOk t := by
  cases setUp with
  | installs x unpaired quota free => exact QuotaOk_install slots rfl quota ok
  | modifies x own => exact QuotaOk_set slots (fun _ => (ownLive_iff_live.mp own).1) (modifiedSlot_owner _ _ _) ok
  | runs stopped => exact QuotaOk_set slots (fun _ => .inl stopped) (runningSlot_owner _ _) ok

theorem QuotaOk_effect (s t : State) (effect : Effect s t) (ok : QuotaOk s) : QuotaOk t := by
  rcases effect.slots with keep | ⟨p, n, y, setUp, slots⟩ | ⟨n, due, evolve⟩
  · exact QuotaOk_keeps keep ok
  · exact QuotaOk_setUp setUp slots ok
  · exact QuotaOk_keeps (slotsKeep_of_evolve evolve) (QuotaOk_set (y := s.slots[n].nextPeriod) rfl id rfl ok)

/-! ### The deadlines -/

/-- The parts that DeadlinesOk reads beside the slots. -/
def Part.ofDeadlines (x : Part) : Bool :=
  match x with
  | .timebase | .session _ | .expiry _ => true
  | _ => false

/-- The deadlines of the leases after a change that moves none, but for one that lies less than 2^22 ticks ahead. -/
def leasesInTime (s : State) : Prop :=
  ∀ p : Port, s.sessions[p].state = .opened → ∀ d ∈ s.sessions[p].expiry, (d - s.now).toNat < 4194304

/-- The deadline of a slot lies less than 2^22 ticks ahead. -/
def Slot.inTime (now : Tick) (x : Slot) : Prop :=
  x.state = .running → x.settings.kind = .periodic → (x.nextDue - now).toNat < 4194304

theorem DeadlinesOk_iff {s : State} : DeadlinesOk s ↔ leasesInTime s ∧ ∀ n : SlotNo, s.slots[n].inTime s.now := Iff.rfl

theorem Slot.inTime_keeps {now : Tick} {x y : Slot} (keep : x.keeps y) (h : x.inTime now) : y.inTime now :=
  fun runs periodic => by
    obtain ⟨runsX, periodicX, same⟩ := keep.2.2 runs periodic
    rw [same]
    exact h runsX periodicX

theorem now_of_timebase {s t : State} (h : t.timebase = s.timebase) : t.now = s.now := by
  unfold State.now; rw [h]

theorem leasesInTime_congr {s t : State} (h : leasesInTime s) (now : t.now = s.now)
    (state : ∀ p : Port, t.sessions[p].state = s.sessions[p].state)
    (expiry : ∀ p : Port, t.sessions[p].expiry = s.sessions[p].expiry) : leasesInTime t := fun p => by
  rw [now, state, expiry]; exact h p

/-- A change that touches no lease and not the tick. -/
theorem leasesInTime_frame {l : List Part} {s t : State} (frame : sameBut l s t) (h : leasesInTime s)
    (outside : l.any Part.ofDeadlines = false) : leasesInTime t := by
  have kept (x : Part) (h : x.ofDeadlines = true) : x.same s t :=
    frame x fun mem => List.any_eq_false.mp outside x mem h
  exact leasesInTime_congr h (now_of_timebase (kept .timebase rfl)) (fun p => (kept (.session p) rfl).1)
    fun p => kept (.expiry p) rfl

/-- A session that does not stay OPEN has no lease to run. -/
theorem leasesInTime_sessionEnd {s : State} (p : Port) {after : SessionState} (ends : after ≠ .opened)
    (h : leasesInTime s) : leasesInTime (sessionEnd s p after) := fun q isOpen => by
  have now : (sessionEnd s p after).now = s.now :=
    now_of_timebase (sameBut_sessionEnd s p after .timebase (by simp [sessionParts, allSlots, allChannels]))
  rw [now]
  by_cases e : p = q
  · subst e; rw [sessionEnd_session] at isOpen; exact absurd isOpen ends
  · rw [sessionEnd_otherSession after e] at isOpen ⊢; exact h q isOpen

/-- A lease lasts less than 2^22 ticks: its byte counts units of 10,000 (R151, R152). -/
theorem lease_inTime (now : Tick) (lease : Byte) :
    (now + BitVec.ofNat 32 (lease.toNat * Config.leaseUnitTicks) - now).toNat < 4194304 := by
  have byte := lease.isLt
  have unit : Config.leaseUnitTicks = 10000 := rfl
  rw [add_sub_cancel_left, unit, BitVec.toNat_ofNat, Nat.mod_eq_of_lt (by omega)]
  omega

/-- A write of one session with a lease that ends in time. -/
theorem leasesInTime_setSession {s : State} {p : Port} {x : Session} (expiry : ∀ d ∈ x.expiry, (d - s.now).toNat < 4194304)
    (h : leasesInTime s) : leasesInTime (s.setSession p x) := fun q isOpen => by
  rw [State.setSession_sessions, getElem_set_at] at isOpen ⊢
  show ∀ d ∈ _, (d - s.now).toNat < _
  split at isOpen
  · rename_i e; rw [if_pos e]; exact expiry
  · rename_i e; rw [if_neg e]; exact h q isOpen

theorem leasesInTime_leaseRestart {s : State} (p : Port) (h : leasesInTime s) : leasesInTime (leaseRestart s p) := by
  unfold leaseRestart
  split
  · exact leasesInTime_setSession (fun d mem => Option.some.inj mem ▸ lease_inTime s.now _) h
  · exact h

theorem leasesInTime_openAccepted {s : State} (p : Port) (a : OpenArgs) (h : leasesInTime s) :
    leasesInTime (openAccepted s p a) :=
  leasesInTime_setSession (s := (s.setUnreserved _).setQueue p _)
    (fun d mem => Option.some.inj mem ▸ lease_inTime s.now _) h

/-- A 22-bit setting counts less than 2^22 ticks (R34). -/
theorem ticks22_inTime (now : Tick) (x : BitVec 22) : (now + ticks22 x - now).toNat < 4194304 := by
  have bits := x.isLt
  rw [add_sub_cancel_left, ticks22, BitVec.toNat_setWidth]
  omega

theorem Act.keepsLeases {p : Port} {s t : State} (act : Act p s t) (h : leasesInTime s) :
    t.now = s.now ∧ leasesInTime t := by
  have outside {l : List Part} {u : State} (frame : sameBut l s u) (o : l.any Part.ofDeadlines = false) :
      u.now = s.now ∧ leasesInTime u :=
    ⟨now_of_timebase (frame .timebase fun mem => List.any_eq_false.mp o _ mem rfl), leasesInTime_frame frame h o⟩
  cases act with
  | opens a => exact ⟨rfl, leasesInTime_openAccepted p a h⟩
  | closes =>
    exact ⟨now_of_timebase (sameBut_sessionEnd s p _ .timebase (by simp [sessionParts, allSlots, allChannels])),
      leasesInTime_sessionEnd p nofun h⟩
  | stages w => exact outside (sameBut_withStaging s p w) rfl
  | installs n x => exact outside (sameBut_setSlot s n _) rfl
  | modifies n x => exact outside (sameBut_applyModify s n x.settings) rfl
  | deletes n => exact outside (sameBut_deleted s p n) rfl
  | stops n running => exact outside (sameBut_stop running) rfl
  | runs n => exact outside (sameBut_setSlot s n _) rfl
  | bursts n stopped kind => exact outside (sameBut_startBurst stopped kind) rfl
  | fetches n => exact outside (sameBut_fetch p n s) rfl
  | releasesQueue q => exact outside (sameBut_setQueue s p _) rfl
  | demands c x y => exact outside (sameBut_demanded s p c x y) rfl
  | claims c => exact outside (sameBut_setChannel s c _) rfl
  | releases c => exact outside (sameBut_setChannel s c _) rfl
  | configures c m x y => exact outside (sameBut_applyChange s p c m x y) rfl
  | watches w x => exact outside (sameBut_setWatch s p w x) rfl

/-- The tick after a REFCLK edge outside reset and start-up is the tick before it or the next one (R161). -/
theorem refclkRunning_now (s : State) (a b : Level) :
    (refclkRunning s a b).now = s.now ∨ (refclkRunning s a b).now = s.now + 1 := by
  have tick : (refclkRunning s a b).now = s.timebase.count.tick := by
    unfold State.now; rw [refclkRunning_timebase]; rfl
  rw [tick]
  unfold Timebase.count
  split
  · exact .inr rfl
  · exact .inl rfl

/-- REFCLK runs only while no armed deadline is reached, so none is passed (R162). -/
theorem DeadlinesOk_refclkRunning {s : State} {a b nrst : Level} {x : Hub} (free : refclkFree s nrst)
    (unheld : s.hub.held = false) (started : s.hub.startUp = false) (ok : DeadlinesOk s) :
    DeadlinesOk (refclkRunning (s.setHub x) a b) := by
  obtain ⟨-, -, nothingDue⟩ := free
  obtain ⟨-, leaseAhead, slotAhead, -⟩ := nothingDue unheld started
  have frame := sameBut_trans (sameBut_mono (m := [.hub, .timebase, .converter, .free]) (sameBut_setHub s x) (by simp))
    (sameBut_mono (sameBut_refclkRunning (s.setHub x) a b) (by simp))
  have slot (n : SlotNo) : (refclkRunning (s.setHub x) a b).slots[n] = s.slots[n] := frame (.slot n) (by simp)
  have state (p : Port) : (refclkRunning (s.setHub x) a b).sessions[p].state = s.sessions[p].state :=
    (frame (.session p) (by simp)).1
  have expiry (p : Port) : (refclkRunning (s.setHub x) a b).sessions[p].expiry = s.sessions[p].expiry :=
    frame (.expiry p) (by simp)
  obtain ⟨leases, slots⟩ := ok
  rcases refclkRunning_now (s.setHub x) a b with now | now
  · refine ⟨leasesInTime_congr leases now state expiry, fun n => ?_⟩
    rw [slot, now]
    exact slots n
  · refine ⟨fun p => ?_, fun n => ?_⟩
    · rw [state, expiry, now]
      exact fun isOpen d armed => deadline_next (leases p isOpen d armed) (leaseAhead p isOpen d armed)
    · rw [slot, now]
      exact fun runs periodic => deadline_next (slots n runs periodic) (slotAhead n runs periodic)

/-- An effect leaves the tick, or it is a reset or a REFCLK edge. -/
theorem Effect.keepsLeases {s t : State} (effect : Effect s t) (ok : DeadlinesOk s) :
    t.now = s.now ∧ leasesInTime t ∨ DeadlinesOk t := by
  have h : leasesInTime s := ok.1
  have outside {l : List Part} {u v : State} (frame : sameBut l u v) (now : u.now = s.now) (ahead : leasesInTime u)
      (o : l.any Part.ofDeadlines = false) : v.now = s.now ∧ leasesInTime v ∨ DeadlinesOk v :=
    .inl ⟨(now_of_timebase (frame .timebase fun mem => List.any_eq_false.mp o _ mem rfl)).trans now,
      leasesInTime_frame frame ahead o⟩
  have raised (p : Port) : leasesInTime (raiseSelect s p) := leasesInTime_frame (sameBut_raiseSelect s p) h rfl
  cases effect with
  | acts p u _ _ act => exact .inl (act.keepsLeases (raised p))
  | unmarks p c => exact outside (sameBut_clearMark _ p c) rfl (raised p) (by cases c <;> rfl)
  | leases p =>
    exact .inl ⟨now_of_timebase (sameBut_leaseRestart s p .timebase (by simp)), leasesInTime_leaseRestart p h⟩
  | lapses p =>
    exact .inl ⟨now_of_timebase (sameBut_sessionEnd s p _ .timebase (by simp [sessionParts, allSlots, allChannels])),
      leasesInTime_sessionEnd p nofun h⟩
  | clockRises p sdi => exact outside (sameBut_clockRise s p sdi) rfl h rfl
  | clockFalls p => exact outside (sameBut_clockFall s p) rfl h rfl
  | expires n => exact outside (sameBut_expirePeriod s n) rfl h rfl
  | edges e => exact outside (sameBut_takeEdge e _) (by rfl) (leasesInTime_congr h rfl (fun _ => rfl) fun _ => rfl) rfl
  | completes r =>
    have completed := leasesInTime_frame (sameBut_complete s r) h rfl
    have now : (complete s r).now = s.now := now_of_timebase (sameBut_complete s r .timebase
      (by simp [completionParts, allSlots, allQueues, allWatches, allEvents, allDemands]))
    exact outside (sameBut_select _) now completed rfl
  | recovers => exact outside (sameBut_select _) (by rfl) (leasesInTime_frame (sameBut_setConv s _) h rfl) rfl
  | resets | resetsByNrst => exact .inr (DeadlinesOk_congr DeadlinesOk_reset rfl rfl rfl)
  | refclkRuns a b nrst free _ unheld started => exact .inr (DeadlinesOk_refclkRunning free unheld started ok)
  | refclkStarting a b => exact .inl ⟨rfl, leasesInTime_congr h rfl (fun _ => rfl) fun _ => rfl⟩
  | raises | results | fallsHeld | falls | settled | sampled | repeats | converted | startsRunning | refclkHeld
  | supplyReturns | nrstReturns => exact .inl ⟨rfl, leasesInTime_congr h rfl (fun _ => rfl) fun _ => rfl⟩

/-- A slot that is set up runs from now on (R15, R16, R34). -/
theorem SlotSetUp.inTime {p : Port} {s : State} {n : SlotNo} {y : Slot} (setUp : SlotSetUp p s n y)
    (h : s.slots[n].inTime s.now) : y.inTime s.now := by
  cases setUp with
  | installs x =>
    intro runs periodic
    have due : (installedSlot p s.now x).nextDue = s.now + ticks22 x.settings.phase := if_pos ⟨runs, periodic⟩
    rw [due]; exact ticks22_inTime _ _
  | modifies x own kind =>
    intro runs periodic
    unfold modifiedSlot at runs periodic ⊢
    simp only at runs periodic ⊢
    split at runs
    · rename_i running
      rw [if_pos running] at periodic ⊢
      split at runs
      · exact ticks22_inTime _ _
      · rename_i other; rw [other] at periodic; rw [other] at kind; exact absurd (kind.symm.trans periodic) nofun
      · rename_i other; rw [other] at periodic; rw [other] at kind; exact absurd (kind.symm.trans periodic) nofun
      · cases runs
    · rename_i notRunning; exact absurd runs notRunning
  | runs stopped =>
    intro _ periodic
    unfold runningSlot at periodic ⊢
    simp only at periodic ⊢
    split at periodic
    · exact ticks22_inTime _ _
    · rename_i other; exact absurd (other.symm.trans periodic) nofun
    · rename_i other; exact absurd (other.symm.trans periodic) nofun
    · rename_i other; exact absurd (other.symm.trans periodic) nofun

/-- A slot written with a deadline in time. -/
theorem slotsInTime_set {s t : State} {n : SlotNo} {y : Slot} (slots : t.slots = s.slots.set n y) (h : y.inTime s.now)
    (others : ∀ m : SlotNo, s.slots[m].inTime s.now) (m : SlotNo) : t.slots[m].inTime s.now := by
  rw [slots, getElem_set_at]
  split
  · exact h
  · exact others m

theorem DeadlinesOk_effect (s t : State) (effect : Effect s t) (ok : DeadlinesOk s) : DeadlinesOk t := by
  obtain ⟨leases, slots⟩ := ok
  refine (effect.keepsLeases ⟨leases, slots⟩).elim (fun ⟨now, ahead⟩ => ⟨ahead, fun n => ?_⟩) id
  show t.slots[n].inTime t.now
  rw [now]
  rcases effect.slots with keep | ⟨p, m, y, setUp, written⟩ | ⟨m, due, evolve⟩
  · exact Slot.inTime_keeps (keep n) (slots n)
  · exact slotsInTime_set written (setUp.inTime (slots m)) slots n
  · obtain ⟨runs, periodic, isReached⟩ := periodExpires_iff.mp due
    have next : s.slots[m].nextPeriod.inTime s.now := fun _ _ => by
      have reached : s.slots[m].nextDue = s.now := (reached_iff_eq (slots m runs periodic)).mp isReached
      show (s.slots[m].nextDue + _ - s.now).toNat < _
      rw [reached]
      exact ticks22_inTime _ _
    have moved := slotsInTime_set (t := s.setSlot m s.slots[m].nextPeriod) rfl next slots n
    exact Slot.inTime_keeps (slotsKeep_of_evolve evolve n) moved

end Sys2Proof.Machine
end

