-- ==== Sys2Proof/Proofs/Pairing.lean ====
section
/-! PROOF. Every step keeps the law of pairing (R80): INSTALL, MODIFY and CLAIM find no odd partner of a PAIRED channel, and CONFIGURE pairs only an even channel whose partner is free or held by the port itself. -/

namespace Sys2Proof.Machine

/-- The odd partner of a PAIRED channel (R80). -/
theorem oddPartner_iff {s : State} {c : Channel} : s.oddPartner c = true ↔
    ∃ e : Fin 16, s.channels[e].mode = .paired ∧ e.val % 2 = 0 ∧ c.val = e.val + 1 := by
  unfold State.oddPartner
  constructor
  · intro h
    split at h
    · rename_i odd
      exact ⟨⟨c.val - 1, by omega⟩, by simpa using h, by simp only; omega, by simp only; omega⟩
    · cases h
  · rintro ⟨e, paired, even, next⟩
    have odd : c.val < 16 ∧ c.val % 2 = 1 := by have := e.isLt; omega
    rw [dif_pos odd]
    have same : c.val - 1 = e.val := by omega
    simpa [same] using paired

theorem oddPartner_congr {s t : State} (modes : ∀ c : Fin 16, t.channels[c].mode = s.channels[c].mode) (c : Channel) :
    t.oddPartner c = s.oddPartner c := by
  rw [Bool.eq_iff_iff, oddPartner_iff, oddPartner_iff]
  simp only [modes]

/-- The law of pairing, channel by channel and slot by slot. -/
theorem PairingOk_iff {s : State} : PairingOk s ↔ (∀ c : Fin 16, s.channels[c].mode = .paired → c.val % 2 = 0)
    ∧ (∀ d : Fin 16, s.oddPartner (externalChannel d) = true → s.channels[d].holder = none)
    ∧ ∀ n : SlotNo, s.slots[n].state ≠ .free → s.oddPartner s.slots[n].settings.channel = false := by
  constructor
  · intro ok
    refine ⟨fun c paired => (ok c c paired).1, fun d partner => ?_, fun n used => ?_⟩
    · obtain ⟨e, paired, -, next⟩ := oddPartner_iff.mp partner
      exact ((ok e d paired).2 next).1
    · refine Bool.eq_false_iff.mpr fun partner => ?_
      obtain ⟨e, paired, even, next⟩ := oddPartner_iff.mp partner
      have bound : e.val + 1 < 16 := by have := e.isLt; omega
      exact ((ok e ⟨e.val + 1, bound⟩ paired).2 rfl).2 n used next
  · rintro ⟨evens, holders, slots⟩ c d paired
    have even := evens c paired
    refine ⟨even, fun next => ?_⟩
    have partner : s.oddPartner (externalChannel d) = true := oddPartner_iff.mpr ⟨c, paired, even, next⟩
    refine ⟨holders d partner, fun n used same => ?_⟩
    have isPartner : s.oddPartner s.slots[n].settings.channel = true :=
      oddPartner_iff.mpr ⟨c, paired, even, same.trans next⟩
    exact Bool.false_ne_true ((slots n used).symm.trans isPartner)

/-- A change of slots that are given nothing, and of channels that keep their mode and get no holder. -/
theorem PairingOk_keeps {s t : State} (keep : slotsKeep s t)
    (modes : ∀ c : Fin 16, t.channels[c].mode = s.channels[c].mode)
    (holders : ∀ c : Fin 16, t.channels[c].holder = none ∨ t.channels[c].holder = s.channels[c].holder)
    (ok : PairingOk s) : PairingOk t := by
  obtain ⟨evens, free, slots⟩ := PairingOk_iff.mp ok
  refine PairingOk_iff.mpr ⟨fun c => ?_, fun d => ?_, fun n used => ?_⟩
  · rw [modes]; exact evens c
  · rw [oddPartner_congr modes]
    exact fun partner => (holders d).elim id fun same => same.trans (free d partner)
  · obtain ⟨usedBefore, same⟩ := (keep n).2.1 used
    rw [oddPartner_congr modes, same]
    exact slots n usedBefore

/-- The channels that no part of a change is. -/
def Part.isChannel (x : Part) : Bool :=
  match x with
  | .channel _ => true
  | _ => false

/-- A change outside the channels, of slots that are given nothing. -/
theorem PairingOk_frame {l : List Part} {s t : State} (frame : sameBut l s t) (keep : slotsKeep s t) (ok : PairingOk s)
    (outside : l.any Part.isChannel = false) : PairingOk t := by
  have same (c : Fin 16) : t.channels[c] = s.channels[c] :=
    frame (.channel c) fun mem => List.any_eq_false.mp outside _ mem rfl
  exact PairingOk_keeps keep (fun c => by rw [same]) (fun c => .inr (by rw [same])) ok

/-- A slot on a channel that is no odd partner of a PAIRED channel. -/
theorem PairingOk_set {s t : State} {n : SlotNo} {y : Slot} (slots : t.slots = s.slots.set n y)
    (channels : t.channels = s.channels) (unpaired : y.state ≠ .free → s.oddPartner y.settings.channel = false)
    (ok : PairingOk s) : PairingOk t := by
  have modes (c : Fin 16) : t.channels[c].mode = s.channels[c].mode := by rw [channels]
  obtain ⟨evens, free, others⟩ := PairingOk_iff.mp ok
  refine PairingOk_iff.mpr ⟨fun c => ?_, fun d => ?_, fun m => ?_⟩
  · rw [modes]; exact evens c
  · rw [oddPartner_congr modes, channels]; exact free d
  · rw [oddPartner_congr modes, slots, getElem_set_at]
    split
    · exact unpaired
    · exact others m

theorem modifiedSlot_settings (now : Tick) (x : Settings) (t : Slot) : (modifiedSlot now x t).settings = x := by
  unfold modifiedSlot
  simp only
  split
  · split <;> rfl
  · rfl

theorem runningSlot_settings (now : Tick) (t : Slot) : (runningSlot now t).settings = t.settings := by
  unfold runningSlot
  simp only
  split <;> rfl

theorem PairingOk_setUp {p : Port} {s t : State} {n : SlotNo} {y : Slot} (setUp : SlotSetUp p s n y)
    (slots : t.slots = s.slots.set n y) (channels : t.channels = s.channels) (ok : PairingOk s) : PairingOk t := by
  refine PairingOk_set slots channels (fun _ => ?_) ok
  cases setUp with
  | installs x unpaired => exact unpaired
  | modifies x own kind unpaired => rw [modifiedSlot_settings]; exact unpaired
  | runs stopped =>
    rw [runningSlot_settings]
    exact (PairingOk_iff.mp ok).2.2 n (by rw [stopped]; exact nofun)

/-! ### The channels -/

/-- CLAIM gives a holder only to a channel that is no odd partner of a PAIRED channel (R74, R80). -/
theorem PairingOk_claims {s : State} {p : Port} {c : Fin 16} (unpaired : s.oddPartner (externalChannel c) = false)
    (ok : PairingOk s) : PairingOk (s.setChannel c { s.channels[c] with holder := some p }) := by
  have channel (d : Fin 16) : (s.setChannel c { s.channels[c] with holder := some p }).channels[d] =
      if c = d then { s.channels[c] with holder := some p } else s.channels[d] := getElem_set_at _ _ _ _
  have modes (d : Fin 16) :
      (s.setChannel c { s.channels[c] with holder := some p }).channels[d].mode = s.channels[d].mode := by
    rw [channel]
    split
    · rename_i e; rw [e]
    · rfl
  obtain ⟨evens, free, slots⟩ := PairingOk_iff.mp ok
  refine PairingOk_iff.mpr ⟨fun d => ?_, fun d => ?_, fun n used => ?_⟩
  · rw [modes]; exact evens d
  · rw [oddPartner_congr modes, channel]
    intro partner
    split
    · rename_i e; subst e; exact absurd (unpaired.symm.trans partner) Bool.false_ne_true
    · exact free d partner
  · rw [oddPartner_congr modes]; exact slots n used

theorem PairingOk_releases {s : State} (c : Fin 16) (ok : PairingOk s) :
    PairingOk (s.setChannel c { s.channels[c] with holder := none }) := by
  have channel (d : Fin 16) : (s.setChannel c { s.channels[c] with holder := none }).channels[d] =
      if c = d then { s.channels[c] with holder := none } else s.channels[d] := getElem_set_at _ _ _ _
  refine PairingOk_keeps (s := s) (slotsKeep_of_eq rfl) (fun d => ?_) (fun d => ?_) ok
  · rw [channel]
    split
    · rename_i e; rw [e]
    · rfl
  · rw [channel]
    split
    · exact .inl rfl
    · exact .inr rfl

theorem PairingOk_sessionEnd {s : State} (p : Port) (after : SessionState) (ok : PairingOk s) :
    PairingOk (sessionEnd s p after) := by
  refine PairingOk_keeps (slotsKeep_sessionEnd s p after) (fun c => ?_) (fun c => ?_) ok
  · rw [sessionEnd_channel]; split <;> rfl
  · rw [sessionEnd_channel]
    split
    · exact .inl rfl
    · exact .inr rfl

/-- The channels after CONFIGURE: the change itself, and the partner's claim (R77, R80). -/
theorem applyChange_channels (s : State) (p : Port) (c : Fin 16) (m : Mode) (x : Span) (y : BitVec 2) :
    (applyChange s p c m x y).channels = (releasePartner (s.setChannel c { s.channels[c] with
      mode := m, span := x, extraSettle := y, generation := s.channels[c].generation + 1 }) p c m).channels := by
  have told (l : List Port) (u : State) :
      (l.foldl (notifyChange p c (s.channels[c].generation + 1)) u).channels = u.channels := by
    induction l generalizing u with
    | nil => rfl
    | cons q l ih =>
      refine (ih _).trans ?_
      unfold notifyChange sendEvent
      split
      · split <;> rfl
      · rfl
  exact told _ _

theorem partnerOf_some {c d : Fin 16} : partnerOf c = some d ↔ c.val % 2 = 0 ∧ d.val = c.val + 1 := by
  unfold partnerOf
  split
  · rename_i even; simp [Fin.ext_iff, even, eq_comm]
  · rename_i odd; simp [odd]

/-- A change of one channel that takes the claim of the port on the partner of a channel that becomes PAIRED. -/
theorem releasePartner_channel (s : State) (p : Port) (c d : Fin 16) (m : Mode) :
    (releasePartner s p c m).channels[d] =
      if m = .paired ∧ partnerOf c = some d ∧ s.channels[d].holder = some p then { s.channels[d] with holder := none }
      else s.channels[d] := by
  unfold releasePartner
  split
  · rename_i e partner
    by_cases held : s.channels[e].holder = some p
    · rw [if_pos held, State.setChannel_channels, getElem_set_at]
      by_cases same : e = d
      · subst same; rw [if_pos rfl, if_pos ⟨rfl, partner, held⟩]
      · rw [if_neg same, if_neg fun h => same (Option.some.inj (partner.symm.trans h.2.1))]
    · rw [if_neg held, if_neg]
      rintro ⟨-, isPartner, holds⟩
      cases partner.symm.trans isPartner
      exact held holds
  · rename_i notPaired
    rw [if_neg fun h => notPaired d h.1 h.2.1]

theorem applyChange_channel (s : State) (p : Port) (c d : Fin 16) (m : Mode) (x : Span) (y : BitVec 2) :
    (applyChange s p c m x y).channels[d].mode = (if c = d then m else s.channels[d].mode)
      ∧ ((applyChange s p c m x y).channels[d].holder = none
        ∨ (applyChange s p c m x y).channels[d].holder = s.channels[d].holder
          ∧ (m = .paired → partnerOf c = some d → s.channels[d].holder ≠ some p)) := by
  rw [applyChange_channels, releasePartner_channel, State.setChannel_channels, getElem_set_at]
  by_cases e : c = d
  · subst e
    rw [if_pos rfl, if_pos rfl]
    split
    · exact ⟨rfl, .inl rfl⟩
    · rename_i kept; exact ⟨rfl, .inr ⟨rfl, fun paired partner held => kept ⟨paired, partner, held⟩⟩⟩
  · rw [if_neg e, if_neg e]
    split
    · exact ⟨rfl, .inl rfl⟩
    · rename_i kept; exact ⟨rfl, .inr ⟨rfl, fun paired partner held => kept ⟨paired, partner, held⟩⟩⟩

/-- A partner that is not busy has no slot, and no holder but the port itself (R80). -/
theorem partnerBusy_false {s : State} {p : Port} {d : Fin 16} (h : partnerBusy s p d = false) :
    (∀ n : SlotNo, s.slots[n].state ≠ .free → s.slots[n].settings.channel ≠ externalChannel d)
      ∧ (s.channels[d].holder = none ∨ s.channels[d].holder = some p) := by
  unfold partnerBusy channelHasSlot at h
  simp only [Bool.or_eq_false_iff, List.any_eq_false, Bool.and_eq_false_iff, decide_eq_false_iff_not, not_not,
    List.mem_finRange, forall_const] at h
  obtain ⟨slots, holder⟩ := h
  refine ⟨fun n used same => slots n ?_, holder⟩
  simp [State.isFree, used, same, -Fin.getElem_fin]

theorem PairingOk_applyChange {s : State} {p : Port} {c : Fin 16} {m : Mode} (x : Span) (y : BitVec 2)
    (pairs : m = .paired → c.val % 2 = 0 ∧ ((partnerOf c).map (partnerBusy s p)).getD false = false)
    (ok : PairingOk s) : PairingOk (applyChange s p c m x y) := by
  have channel := fun d => applyChange_channel s p c d m x y
  have slot (n : SlotNo) : (applyChange s p c m x y).slots[n] = s.slots[n] :=
    sameBut_applyChange s p c m x y (.slot n) (by simp [allChannels, allEvents])
  obtain ⟨evens, free, slots⟩ := PairingOk_iff.mp ok
  have partners {d : Channel} (partner : (applyChange s p c m x y).oddPartner d = true) :
      s.oddPartner d = true ∨ m = .paired ∧ c.val % 2 = 0 ∧ d.val = c.val + 1 := by
    obtain ⟨e, paired, even, next⟩ := oddPartner_iff.mp partner
    rw [(channel e).1] at paired
    split at paired
    · rename_i same; subst same; exact .inr ⟨paired, even, next⟩
    · exact .inl (oddPartner_iff.mpr ⟨e, paired, even, next⟩)
  have notBusy {d : Fin 16} (isPaired : m = .paired) (even : c.val % 2 = 0) (next : d.val = c.val + 1) :
      partnerOf c = some d ∧ partnerBusy s p d = false := by
    have isPartner := partnerOf_some.mpr ⟨even, next⟩
    have busy := (pairs isPaired).2
    rw [isPartner] at busy
    exact ⟨isPartner, busy⟩
  refine PairingOk_iff.mpr ⟨fun d paired => ?_, fun d partner => ?_, fun n used => ?_⟩
  · rw [(channel d).1] at paired
    split at paired
    · rename_i same; subst same; exact (pairs paired).1
    · exact evens d paired
  · refine (channel d).2.elim id fun ⟨same, kept⟩ => same.trans ?_
    rcases partners partner with before | ⟨isPaired, even, next⟩
    · exact free d before
    · obtain ⟨isPartner, busy⟩ := notBusy isPaired even next
      exact (partnerBusy_false busy).2.resolve_right (kept isPaired isPartner)
  · rw [slot] at used ⊢
    refine Bool.eq_false_iff.mpr fun partner => ?_
    rcases partners partner with before | ⟨isPaired, even, next⟩
    · exact Bool.false_ne_true ((slots n used).symm.trans before)
    · have bound : c.val + 1 < 16 := by have := c.isLt; omega
      obtain ⟨-, busy⟩ := notBusy (d := ⟨c.val + 1, bound⟩) isPaired even rfl
      exact (partnerBusy_false busy).1 n used (Fin.ext next)

/-! ### Every effect -/

theorem supersede_channels (s : State) (n : SlotNo) : (supersede s n).channels = s.channels := by
  unfold supersede
  split <;> rfl

theorem withdrawPending_channels (s : State) (n : SlotNo) : (withdrawPending s n).channels = s.channels := by
  unfold withdrawPending
  split <;> rfl

theorem applyModify_channels (s : State) (n : SlotNo) (x : Settings) : (applyModify s n x).channels = s.channels := by
  show (if s.slots[n].inFlightFlag then supersede (withdrawPending s n) n else withdrawPending s n).channels = _
  split
  · rw [supersede_channels, withdrawPending_channels]
  · exact withdrawPending_channels s n

theorem PairingOk_act {p : Port} {s t : State} (act : Act p s t) (ok : PairingOk s) : PairingOk t := by
  have same {u : State} (slots : u.slots = s.slots) (channels : u.channels = s.channels) : PairingOk u :=
    PairingOk_keeps (slotsKeep_of_eq slots) (fun c => by rw [channels]) (fun c => .inr (by rw [channels])) ok
  cases act with
  | opens a | stages w | fetches n | releasesQueue q | watches w x => exact same rfl rfl
  | closes => exact PairingOk_sessionEnd p _ ok
  | installs n x _ _ unpaired quota free => exact PairingOk_setUp (.installs x unpaired quota free) rfl rfl ok
  | modifies n x own _ kind unpaired =>
    refine PairingOk_setUp (.modifies x.settings own kind unpaired) (applyModify_slots s n _) ?_ ok
    exact applyModify_channels s n _
  | runs n stopped => exact PairingOk_setUp (p := p) (.runs stopped) rfl rfl ok
  | deletes n own =>
    exact PairingOk_frame (sameBut_deleted s p n) (slotsKeep_deleted own) ok rfl
  | stops n running => exact PairingOk_frame (sameBut_stop running) (slotsKeep_stop running) ok rfl
  | bursts n stopped kind =>
    exact PairingOk_frame (sameBut_startBurst stopped kind) (slotsKeep_of_evolve (slotsEvolve_startBurst stopped kind)) ok rfl
  | demands c x y =>
    exact PairingOk_frame (sameBut_demanded s p c x y) (slotsKeep_of_evolve (slotsEvolve_demanded s p c x y)) ok rfl
  | claims c _ unpaired => exact PairingOk_claims unpaired ok
  | releases c => exact PairingOk_releases c ok
  | configures c m x y _ pairs => exact PairingOk_applyChange x y pairs ok

theorem clearMark_channels (s : State) (p : Port) (c : Command) : (clearMark s p c).channels = s.channels := by
  cases c <;> rfl

theorem PairingOk_effect (s t : State) (effect : Effect s t) (ok : PairingOk s) : PairingOk t := by
  have same {u : State} (slots : u.slots = s.slots) (channels : u.channels = s.channels) : PairingOk u :=
    PairingOk_keeps (slotsKeep_of_eq slots) (fun c => by rw [channels]) (fun c => .inr (by rw [channels])) ok
  have slotOutside {l : List Part} {u : State} (frame : sameBut l s u) (slots : ∀ n, Part.slot n ∉ l)
      (o : l.any Part.isChannel = false) : PairingOk u := PairingOk_frame frame (slotsKeep_of_frame frame slots) ok o
  cases effect with
  | acts p u _ _ act => exact PairingOk_act act (same rfl rfl)
  | leases p => exact same (leaseRestart_slots s p) (leaseRestart_channels s p)
  | unmarks p c => exact same (clearMark_slots _ p c) (clearMark_channels _ p c)
  | clockRises p sdi => exact slotOutside (sameBut_clockRise s p sdi) (by simp) rfl
  | clockFalls p => exact slotOutside (sameBut_clockFall s p) (by simp) rfl
  | lapses p => exact PairingOk_sessionEnd p _ ok
  | expires n due =>
    obtain ⟨runs, -⟩ := periodExpires_iff.mp due
    have moved : PairingOk (s.setSlot n s.slots[n].nextPeriod) :=
      PairingOk_set rfl rfl (fun _ => (PairingOk_iff.mp ok).2.2 n (by rw [runs]; exact nofun)) ok
    have same (c : Fin 16) : (expirePeriod s n).channels[c] = s.channels[c] :=
      sameBut_expirePeriod s n (.channel c) (by simp [allSlots])
    exact PairingOk_keeps (slotsKeep_of_evolve (slotsEvolve_expirePeriod s n)) (fun c => by rw [same]; rfl)
      (fun c => .inr (by rw [same]; rfl)) moved
  | edges e =>
    exact PairingOk_frame (sameBut_takeEdge e _) (slotsKeep_of_evolve (slotsEvolve_takeEdge e _)) (same rfl rfl) rfl
  | completes r =>
    exact PairingOk_frame (sameBut_select _) (slotsKeep_of_evolve (slotsEvolve_select _))
      (PairingOk_frame (sameBut_complete s r) (slotsKeep_of_evolve (slotsEvolve_complete s r)) ok rfl) rfl
  | recovers => exact PairingOk_frame (sameBut_select _) (slotsKeep_of_evolve (slotsEvolve_select _)) (same rfl rfl) rfl
  | resets | resetsByNrst => exact PairingOk_congr PairingOk_reset rfl rfl
  | refclkRuns a b =>
    exact PairingOk_frame (sameBut_refclkRunning _ a b) (slotsKeep_of_evolve (slotsEvolve_refclkRunning _ a b)) (same rfl rfl) rfl
  | raises | results | fallsHeld | falls | settled | sampled | repeats | converted | startsRunning | refclkHeld
  | refclkStarting | supplyReturns | nrstReturns => exact same rfl rfl

end Sys2Proof.Machine
end

