-- ==== Sys2Proof/Proofs/Counters.lean ====
section
/-! PROOF. Every step keeps the ranges of the hub's counters (R54, R161, R165, R167, R169, R171, R193). -/

namespace Sys2Proof.Machine

/-! ### The periods of the converter's phase -/

/-- The periods of the converter's phase run within the phase's length. -/
def phaseInLength (s : State) : Prop := s.conv.phasePeriods ≤ 16 * s.conv.phaseTicks

theorem phaseInLength_enter (s : State) (v : Converter) (x : Phase) (k : Nat) (r : Option InFlight) :
    phaseInLength (s.setConv (v.enter x k r)) := Nat.zero_le _

theorem startConversion_inLength (s : State) (w : PendingEntry) : phaseInLength (startConversion s w) := by
  unfold startConversion
  simp only
  split
  · exact phaseInLength_enter _ _ _ _ _
  · exact phaseInLength_enter _ _ _ _ _

theorem select_inLength {s : State} (h : phaseInLength s) : phaseInLength (select s) := by
  unfold select
  split
  · exact startConversion_inLength s _
  · exact h

theorem selectIfIdle_inLength {s : State} (h : phaseInLength s) : phaseInLength (selectIfIdle s) := by
  unfold selectIfIdle
  split
  · exact select_inLength h
  · exact h

/-- A change outside the converter. -/
theorem inLength_frame {l : List Part} {s t : State} (frame : sameBut l s t) (h : phaseInLength s)
    (outside : Part.converter ∉ l) : phaseInLength t := by
  have same : t.conv = s.conv := frame .converter outside
  unfold phaseInLength
  rwa [same]

/-- After a completion only the start of its RECOVER stands in the converter (R62). -/
theorem sameBut_complete_served (s : State) (r : InFlight) : sameBut (servingParts ++ allDemands)
    (clearInFlight ((s.setConv (Converter.completed r)).setLatest r.channel
      (s.latest[r.channel].update (completionReport s r) (producingPort s r))) r) (complete s r) := by
  have served {x : Part} (mem : x ∈ servingParts) : x ∈ servingParts ++ allDemands := List.mem_append_left _ mem
  unfold complete
  refine sameBut_trans (sameBut_mono (sameBut_foldl (sameBut_serveSlot _) _ _) fun _ => served) (sameBut_trans
    (sameBut_mono (sameBut_foldl (sameBut_serveDemand _) _ _) fun _ => served) (sameBut_trans
      (sameBut_mono (sameBut_endDemands _ _ _) fun _ => List.mem_append_right _) (sameBut_mono (sameBut_releaseSlots _ _) ?_)))
  intro x mem
  simp only [List.mem_append, servingParts] at mem ⊢
  tauto

theorem complete_conv (s : State) (r : InFlight) : (complete s r).conv = Converter.completed r :=
  sameBut_complete_served s r .converter
    (by simp [servingParts, allSlots, allQueues, allWatches, allEvents, allDemands])

theorem complete_inLength (s : State) (r : InFlight) : phaseInLength (complete s r) := by
  unfold phaseInLength; rw [complete_conv]; exact Nat.zero_le _

theorem abandon_inLength (s : State) (r : InFlight) : phaseInLength (abandon s r) := by
  unfold abandon
  refine inLength_frame (sameBut_releaseSlots _ _) (inLength_frame (sameBut_endDemands _ _ _)
    (inLength_frame (sameBut_returnEntry _ r) (phaseInLength_enter _ _ _ _ _) (by simp [allSlots])) ?_) ?_
  · simp [allDemands]
  · simp [allSlots, allEvents]

theorem takeEdge_inLength {s : State} (e : Edge) (h : phaseInLength s) : phaseInLength (takeEdge e s) := by
  have counted : phaseInLength ((List.finRange 32).foldl (edgeAtSlot e) s) :=
    foldl_keeps (fun u n k => inLength_frame (sameBut_edgeAtSlot e u n) k (by simp)) _ h
  unfold takeEdge
  simp only
  split
  · unfold edgeDecision
    split
    · exact select_inLength counted
    · split
      · split
        · exact abandon_inLength _ _
        · exact counted
      · exact counted
  · exact counted

theorem applyModify_inLength {s : State} (n : SlotNo) (x : Settings) (h : phaseInLength s) :
    phaseInLength (applyModify s n x) := by
  have withdrawn : phaseInLength (withdrawPending s n) :=
    inLength_frame (sameBut_withdrawPending s n) h (by simp)
  have superseded : phaseInLength (if s.slots[n].inFlightFlag then supersede (withdrawPending s n) n else withdrawPending s n) := by
    split
    · unfold supersede
      split
      · exact withdrawn
      · exact withdrawn
    · exact withdrawn
  exact superseded

theorem applyChange_inLength {s : State} (p : Port) (c : Fin 16) (m : Mode) (x : Span) (y : BitVec 2)
    (h : phaseInLength s) : phaseInLength (applyChange s p c m x y) := by
  unfold applyChange
  refine foldl_keeps (fun u q k => ?_) _ ?_
  · unfold notifyChange
    split
    · exact inLength_frame (sameBut_sendEvent u q _) k (by simp)
    · exact k
  · have released : phaseInLength (releasePartner (s.setChannel c { s.channels[c] with
        mode := m, span := x, extraSettle := y, generation := s.channels[c].generation + 1 }) p c m) :=
      inLength_frame (sameBut_releasePartner _ p c m) h (by simp [allChannels])
    exact released

theorem Act.inLength {p : Port} {s t : State} (act : Act p s t) (h : phaseInLength s) : phaseInLength t := by
  cases act with
  | closes => unfold phaseInLength; rw [sessionEnd_conv]; exact h
  | modifies n x => exact applyModify_inLength n _ h
  | deletes n => exact inLength_frame (sameBut_deleted s p n) h (by simp)
  | stops n running => exact inLength_frame (sameBut_stop running) h (by simp)
  | bursts n stopped kind =>
    rw [startBurst_starts stopped kind]
    have started := inLength_frame (sameBut_startBurstAt s n s.now) h (by simp)
    show phaseInLength (if _ then _ else _ : State)
    split
    · exact selectIfIdle_inLength started
    · exact started
  | demands c x y =>
    have demanded := inLength_frame (sameBut_requestDemand s p c x y) h (by simp)
    split
    · exact selectIfIdle_inLength demanded
    · exact demanded
  | configures c m x y => exact applyChange_inLength p c m x y h
  | opens | stages | installs | runs | fetches | releasesQueue | claims | releases | watches => exact h

theorem clearMark_conv (s : State) (p : Port) (c : Command) : (clearMark s p c).conv = s.conv := by
  cases c <;> rfl

theorem Effect.inLength {s t : State} (effect : Effect s t) (h : phaseInLength s) : phaseInLength t := by
  cases effect with
  | acts p u _ _ act => exact act.inLength h
  | leases p => exact inLength_frame (sameBut_leaseRestart s p) h (by simp)
  | unmarks p c => unfold phaseInLength; rw [clearMark_conv]; exact h
  | clockRises p sdi => exact inLength_frame (sameBut_clockRise s p sdi) h (by simp)
  | clockFalls p => exact inLength_frame (sameBut_clockFall s p) h (by simp)
  | lapses p => unfold phaseInLength; rw [sessionEnd_conv]; exact h
  | expires n =>
    unfold expirePeriod
    simp only
    split
    · exact h
    · split
      · exact selectIfIdle_inLength h
      · exact h
  | edges e => exact takeEdge_inLength e h
  | settled | sampled | repeats => exact phaseInLength_enter _ _ _ _ _
  | converted => exact h
  | completes r => exact select_inLength (complete_inLength s r)
  | recovers => exact select_inLength (phaseInLength_enter _ _ _ _ _)
  | resets | resetsByNrst => exact Nat.zero_le _
  | refclkRuns a b nrst free _ unheld started =>
    have notOver : s.conv.phaseOver = false := by
      rw [Bool.eq_false_iff, Ne, phaseOver_iff]
      rintro ⟨runs, atEnd⟩
      exact (free.2.2 unheld started).2.2.2 runs atEnd
    unfold phaseInLength
    rw [refclkRunning_conv]
    exact countPeriod_le h notOver
  | raises | results | fallsHeld | falls | startsRunning | refclkHeld | refclkStarting | supplyReturns | nrstReturns => exact h

/-! ### The Timebase, the hub and the bits of the frames -/

/-- The ranges of the Timebase, with at most one recognised edge of a line waiting (R161, R165, R167). -/
def Timebase.inRange (t : Timebase) : Prop :=
  t.prescaler ≤ 15 ∧ t.detectorA.changes ≤ 2 ∧ t.detectorB.changes ≤ 2
    ∧ ∀ line : Line, (t.edges.countP fun e => decide (e.line = line)) ≤ 1

/-- The ranges of the start-up count and of the low samples of nRST (R169, R193). -/
def Hub.inRange (h : Hub) : Prop := h.startCount ≤ 3200 ∧ h.nrstLow ≤ 4 ∧ (h.nrstHold = false → h.nrstLow ≤ 3)

/-- The ranges of the counters outside the converter. -/
def rangesOk (s : State) : Prop := s.timebase.inRange ∧ s.hub.inRange ∧ ∀ p : Port, s.ports[p].frame.bits ≤ 7

theorem CountersOk_iff {s : State} : CountersOk s ↔ rangesOk s ∧ phaseInLength s := by
  constructor
  · rintro ⟨prescaler, changesA, changesB, startCount, nrstLow, below, bits, phase, lines⟩
    exact ⟨⟨⟨prescaler, changesA, changesB, lines⟩, ⟨startCount, nrstLow, below⟩, bits⟩, phase⟩
  · rintro ⟨⟨⟨prescaler, changesA, changesB, lines⟩, ⟨startCount, nrstLow, below⟩, bits⟩, phase⟩
    exact ⟨prescaler, changesA, changesB, startCount, nrstLow, below, bits, phase, lines⟩

/-- The parts that rangesOk reads. -/
def Part.ofRanges (x : Part) : Bool :=
  match x with
  | .hub | .timebase | .frame _ => true
  | _ => false

theorem rangesOk_frame {l : List Part} {s t : State} (frame : sameBut l s t) (ok : rangesOk s)
    (outside : l.any Part.ofRanges = false) : rangesOk t := by
  have kept (x : Part) (h : x.ofRanges = true) : x.same s t :=
    frame x fun mem => List.any_eq_false.mp outside x mem h
  have hub : t.hub = s.hub := kept .hub rfl
  have timebase : t.timebase = s.timebase := kept .timebase rfl
  have bits (p : Port) : t.ports[p].frame = s.ports[p].frame := kept (.frame p) rfl
  unfold rangesOk
  rw [hub, timebase]
  exact ⟨ok.1, ok.2.1, fun p => by rw [bits]; exact ok.2.2 p⟩

/-- A change of the frame of one port that keeps its bits within the byte. -/
theorem rangesOk_onePort {s t : State} {p : Port} (hub : t.hub = s.hub) (timebase : t.timebase = s.timebase)
    (others : ∀ q, p ≠ q → t.ports[q].frame = s.ports[q].frame)
    (bits : s.ports[p].frame.bits ≤ 7 → t.ports[p].frame.bits ≤ 7) (ok : rangesOk s) : rangesOk t := by
  obtain ⟨timebaseOk, hubOk, bitsOk⟩ := ok
  unfold rangesOk
  rw [hub, timebase]
  refine ⟨timebaseOk, hubOk, fun q => ?_⟩
  by_cases e : p = q
  · subst e; exact bits (bitsOk p)
  · rw [others q e]; exact bitsOk q

theorem rangesOk_setHub {s : State} {x : Hub} (inRange : s.hub.inRange → x.inRange) (ok : rangesOk s) :
    rangesOk (s.setHub x) := ⟨ok.1, inRange ok.2.1, ok.2.2⟩

theorem rangesOk_setTimebase {s : State} {x : Timebase} (inRange : s.timebase.inRange → x.inRange) (ok : rangesOk s) :
    rangesOk (s.setTimebase x) := ⟨inRange ok.1, ok.2.1, ok.2.2⟩

theorem rangesOk_sessionEnd {s : State} (p : Port) (after : SessionState) (ok : rangesOk s) :
    rangesOk (sessionEnd s p after) := by
  have frame := sameBut_sessionEnd s p after
  refine rangesOk_onePort (p := p) (frame .hub (by simp [sessionParts, allSlots, allChannels]))
    (frame .timebase (by simp [sessionParts, allSlots, allChannels]))
    (fun q other => frame (.frame q) (by simpa [sessionParts, allSlots, allChannels] using Ne.symm other)) (fun bits => ?_) ok
  rw [sessionEnd_port]
  show s.ports[p].frame.atSessionEnd.bits ≤ 7
  unfold Frame.atSessionEnd
  split <;> exact bits

theorem rangesOk_act {p : Port} {s t : State} (act : Act p s t) (ok : rangesOk s) : rangesOk t := by
  cases act with
  | opens a => exact rangesOk_frame (sameBut_openAccepted s p a) ok rfl
  | closes => exact rangesOk_sessionEnd p _ ok
  | stages w => exact rangesOk_frame (sameBut_withStaging s p w) ok rfl
  | installs n x => exact rangesOk_frame (sameBut_setSlot s n _) ok rfl
  | modifies n x => exact rangesOk_frame (sameBut_applyModify s n x.settings) ok rfl
  | deletes n => exact rangesOk_frame (sameBut_deleted s p n) ok rfl
  | stops n running => exact rangesOk_frame (sameBut_stop running) ok rfl
  | runs n => exact rangesOk_frame (sameBut_setSlot s n _) ok rfl
  | bursts n stopped kind => exact rangesOk_frame (sameBut_startBurst stopped kind) ok rfl
  | fetches n => exact rangesOk_frame (sameBut_fetch p n s) ok rfl
  | releasesQueue q => exact rangesOk_frame (sameBut_setQueue s p _) ok rfl
  | demands c x y => exact rangesOk_frame (sameBut_demanded s p c x y) ok rfl
  | claims c => exact rangesOk_frame (sameBut_setChannel s c _) ok rfl
  | releases c => exact rangesOk_frame (sameBut_setChannel s c _) ok rfl
  | configures c m x y => exact rangesOk_frame (sameBut_applyChange s p c m x y) ok rfl
  | watches w x => exact rangesOk_frame (sameBut_setWatch s p w x) ok rfl

/-! ### REFCLK and the resets -/

/-- A detector's count holds at 2 (R165). -/
theorem Detector.sample_changes {d : Detector} (h : d.changes ≤ 2) (level : Level) : (d.sample level).changes ≤ 2 := by
  obtain ⟨same, few, two⟩ := detector_sample_rule d level
  by_cases e : level = d.level
  · rw [same e]; exact Nat.zero_le 2
  · by_cases below : d.changes < 2
    · rw [few e below]; exact below
    · rw [two e (by omega)]; exact Nat.zero_le 2

/-- A detector recognises at most one edge at a sample, and of its own line (R165). -/
theorem Detector.edge_count (d : Detector) (own line : Line) (level : Level) (k : Tick) :
    ((d.edge own level k).countP fun e => decide (e.line = line)) ≤ if own = line then 1 else 0 := by
  unfold Detector.edge
  split
  · simp [List.countP_cons]
  · exact Nat.zero_le _

/-- REFCLK adds at most one edge of each line, and runs while none waits (R167). -/
theorem Timebase.runEdge_inRange {t : Timebase} (noEdges : t.edges = []) (a b : Level) (before : Bool)
    (h : t.inRange) : (t.runEdge a b before).inRange := by
  obtain ⟨prescaler, changesA, changesB, -⟩ := h
  refine ⟨?_, Detector.sample_changes changesA a, Detector.sample_changes changesB b, fun line => ?_⟩
  · obtain ⟨counts, wraps⟩ := count_rule t
    show t.count.prescaler ≤ 15
    rcases Nat.lt_or_eq_of_le prescaler with below | full
    · rw [(counts below).1]; exact below
    · rw [(wraps full).1]; exact Nat.zero_le _
  · have ofA := t.detectorA.edge_count .a line a (t.edgeTick before)
    have ofB := t.detectorB.edge_count .b line b (t.edgeTick before)
    show (List.countP _ (t.edges ++ _ ++ _)) ≤ 1
    rw [noEdges, List.nil_append, List.countP_append]
    cases line with
    | a => simp only [if_true, reduceCtorEq, if_false] at ofA ofB; omega
    | b => simp only [if_true, reduceCtorEq, if_false] at ofA ofB; omega

/-- A sample of nRST that resets nothing leaves at most three low samples in a row, or the hub held by nRST (R193). -/
theorem Hub.sampled_inRange {h : Hub} {nrst : Level} (noReset : h.resetsAt nrst = false) (inRange : h.inRange) :
    Hub.inRange { h with nrstLow := h.sampleNrst nrst } := by
  obtain ⟨startCount, -, -⟩ := inRange
  have most : h.sampleNrst nrst ≤ 4 := by
    cases nrst with
    | low => exact Nat.min_le_left _ _
    | high => exact Nat.zero_le _
  refine ⟨startCount, most, fun notHeld => ?_⟩
  have notFour : ¬ h.sampleNrst nrst = 4 := fun four => by
    have held : h.nrstHold = false := notHeld
    simp [Hub.resetsAt, four, held, Config.nrstSamples] at noReset
  show h.sampleNrst nrst ≤ 3
  omega

theorem Hub.beginIfFree_inRange {h : Hub} (inRange : h.inRange) : h.beginIfFree.inRange := by
  unfold Hub.beginIfFree
  split
  · exact inRange
  · exact ⟨Nat.zero_le _, inRange.2⟩

/-- A hub reset starts every count anew, but for the low samples of nRST (R168, R193). -/
theorem rangesOk_hubReset {s : State} {cause : ResetCause} (low : s.hub.nrstLow ≤ 4)
    (below : s.hub.nrstHold = false → cause ≠ .nrst → s.hub.nrstLow ≤ 3) : rangesOk (hubReset s cause) := by
  refine ⟨⟨Nat.zero_le _, Nat.zero_le _, Nat.zero_le _, fun _ => Nat.zero_le _⟩, ⟨Nat.zero_le _, low, fun notHeld => ?_⟩,
    fun p => ?_⟩
  · have released : s.hub.nrstHold = false ∧ cause ≠ .nrst := by
      simpa [hubReset, Hub.atReset] using notHeld
    exact below released.1 released.2
  · rw [hubReset_port]; exact Nat.zero_le _

theorem rangesOk_effect {s t : State} (effect : Effect s t) (ok : rangesOk s) : rangesOk t := by
  have raised (p : Port) : rangesOk (raiseSelect s p) :=
    rangesOk_onePort (s := s) (p := p) rfl rfl (fun q other => by rw [raiseSelect_other s p q other])
      (fun _ => by rw [raiseSelect_port]; exact Nat.zero_le _) ok
  obtain ⟨timebaseOk, ⟨startCount, low, below⟩, -⟩ := id ok
  cases effect with
  | raises p => exact raised p
  | results p r => exact rangesOk_frame (sameBut_setResult s p r) ok rfl
  | leases p => exact rangesOk_frame (sameBut_leaseRestart s p) ok rfl
  | acts p u _ _ act => exact rangesOk_act act (raised p)
  | unmarks p c => exact rangesOk_frame (sameBut_clearMark _ p c) (raised p) (by cases c <;> rfl)
  | fallsHeld p => exact rangesOk_frame (sameBut_fallHeld s p) ok rfl
  | falls p =>
    refine rangesOk_onePort (s := s) (p := p) rfl rfl (fun q other => ?_) (fun _ => ?_) ok
    · rw [State.setPort_ports, getElem_set_other _ _ _ _ other]
    · rw [State.setPort_ports, getElem_set_same]; exact Nat.zero_le _
  | clockRises p sdi =>
    have frame := sameBut_clockRise s p sdi
    exact rangesOk_onePort (p := p) (frame .hub (by simp)) (frame .timebase (by simp))
      (fun q other => frame (.frame q) (by simpa using Ne.symm other)) (clockRise_kindAndBits s p sdi).2 ok
  | clockFalls p =>
    have frame := sameBut_clockFall s p
    exact rangesOk_onePort (p := p) (frame .hub (by simp)) (frame .timebase (by simp))
      (fun q other => frame (.frame q) (by simpa using Ne.symm other))
      (fun bits => (sameKindAndBits_clockFall s p).2.trans_le bits) ok
  | lapses p => exact rangesOk_sessionEnd p _ ok
  | expires n => exact rangesOk_frame (sameBut_expirePeriod s n) ok rfl
  | edges e =>
    have erased : rangesOk (s.setTimebase { s.timebase with edges := s.timebase.edges.erase e }) :=
      rangesOk_setTimebase (fun ⟨prescaler, changesA, changesB, lines⟩ => ⟨prescaler, changesA, changesB, fun line =>
        (List.Sublist.countP_le List.erase_sublist).trans (lines line)⟩) ok
    exact rangesOk_frame (sameBut_takeEdge e _) erased rfl
  | settled | sampled | repeats | converted => exact rangesOk_frame (sameBut_setConv s _) ok rfl
  | completes r => exact rangesOk_frame (sameBut_select _) (rangesOk_frame (sameBut_complete s r) ok rfl) rfl
  | recovers => exact rangesOk_frame (sameBut_select _) (rangesOk_frame (sameBut_setConv s _) ok rfl) rfl
  | resets cause => exact rangesOk_hubReset low fun notHeld _ => below notHeld
  | resetsByNrst => exact rangesOk_hubReset (Nat.le_refl 4) fun _ other => absurd rfl other
  | startsRunning => exact rangesOk_setHub id ok
  | refclkHeld nrst noReset => exact rangesOk_setHub (Hub.sampled_inRange noReset) ok
  | refclkStarting a b nrst free noReset unheld starting =>
    have sampled := rangesOk_setHub (Hub.sampled_inRange noReset) ok
    have notOver : s.hub.startCount < 3200 := Nat.lt_of_not_le fun count => free.1 ⟨unheld, starting, count⟩
    refine rangesOk_setTimebase (fun ⟨prescaler, _, _, lines⟩ => ⟨prescaler, Nat.zero_le _, Nat.zero_le _, lines⟩)
      (rangesOk_setHub (fun ⟨_, counts⟩ => ⟨notOver, counts⟩) sampled)
  | refclkRuns a b nrst free noReset unheld started =>
    obtain ⟨-, hubOk, bits⟩ := rangesOk_setHub (Hub.sampled_inRange noReset) ok
    unfold rangesOk
    rw [refclkRunning_timebase, refclkRunning_hub]
    refine ⟨Timebase.runEdge_inRange (free.2.2 unheld started).1 a b _ timebaseOk, hubOk, fun p => ?_⟩
    have frame : (refclkRunning (s.setHub { s.hub with nrstLow := s.hub.sampleNrst nrst }) a b).ports[p].frame
        = s.ports[p].frame := sameBut_refclkRunning _ a b (.frame p) (by simp)
    rw [frame]
    exact bits p
  | supplyReturns => exact rangesOk_setHub (fun inRange => Hub.beginIfFree_inRange inRange) ok
  | nrstReturns =>
    exact rangesOk_setHub (fun ⟨count, _, _⟩ => Hub.beginIfFree_inRange ⟨count, Nat.zero_le _, fun _ => Nat.zero_le _⟩) ok

theorem CountersOk_effect (s t : State) (effect : Effect s t) (ok : CountersOk s) : CountersOk t := by
  obtain ⟨ranges, phase⟩ := CountersOk_iff.mp ok
  exact CountersOk_iff.mpr ⟨rangesOk_effect effect ranges, effect.inLength phase⟩

/-- Settles O7: every effect keeps each of the four, so every step does. -/
theorem stepKeepsQuotaPairingCountersAndDeadlines : Obligations.StepKeepsQuotaPairingCountersAndDeadlines :=
  fun _ _ taken => ⟨fun ok => step_keeps (fun _ _ h => h) QuotaOk_effect ok taken,
    fun ok => step_keeps (fun _ _ h => h) PairingOk_effect ok taken,
    fun ok => step_keeps (fun _ _ h => h) CountersOk_effect ok taken,
    fun ok => step_keeps (fun _ _ h => h) DeadlinesOk_effect ok taken⟩

end Sys2Proof.Machine
end

