-- ==== Sys2Proof/Proofs/Arbiter.lean ====
section
/-! PROOF. The arbiter: the ranks of the entries (R43), its winner, and the merged record that a selection starts (R45, R46, R57). -/

namespace Sys2Proof.Machine

/-! ### The largest and the least of a list -/

theorem le_foldl_max {l : List Nat} {x : Nat} (a : Nat) (mem : x ∈ l) : x ≤ l.foldl max a := by
  induction l generalizing a with
  | nil => cases mem
  | cons y l ih =>
    rcases List.mem_cons.mp mem with rfl | mem
    · clear ih mem
      have grows (l : List Nat) (b : Nat) : b ≤ l.foldl max b := by
        induction l generalizing b with
        | nil => exact Nat.le_refl b
        | cons z l ih => exact (Nat.le_max_left b z).trans (ih _)
      exact (Nat.le_max_right a x).trans (grows l _)
    · exact ih _ mem

theorem foldl_max_attained (l : List Nat) (a : Nat) : l.foldl max a = a ∨ l.foldl max a ∈ l := by
  induction l generalizing a with
  | nil => exact .inl rfl
  | cons y l ih =>
    rcases ih (max a y) with same | mem
    · rw [List.foldl_cons, same]
      rcases Nat.le_total a y with h | h
      · rw [Nat.max_eq_right h]; exact .inr List.mem_cons_self
      · exact .inl (Nat.max_eq_left h)
    · exact .inr (List.mem_cons_of_mem _ mem)

/-- The largest of a list that is not empty is in the list. -/
theorem foldl_max_mem {l : List Nat} (notEmpty : l ≠ []) : l.foldl max 0 ∈ l := by
  refine (foldl_max_attained l 0).elim (fun zero => ?_) id
  obtain ⟨x, mem⟩ := List.exists_mem_of_ne_nil l notEmpty
  have none : x = 0 := Nat.le_zero.mp ((le_foldl_max 0 mem).trans_eq zero)
  rw [zero, ← none]
  exact mem

theorem foldl_min_le {l : List Nat} {x : Nat} (a : Nat) (mem : x ∈ l) : l.foldl min a ≤ x := by
  induction l generalizing a with
  | nil => cases mem
  | cons y l ih =>
    rcases List.mem_cons.mp mem with rfl | mem
    · clear ih mem
      have shrinks (l : List Nat) (b : Nat) : l.foldl min b ≤ b := by
        induction l generalizing b with
        | nil => exact Nat.le_refl b
        | cons z l ih => exact (ih _).trans (Nat.min_le_left b z)
      exact (shrinks l _).trans (Nat.min_le_right a x)
    · exact ih _ mem

theorem foldl_min_attained (l : List Nat) (a : Nat) : l.foldl min a = a ∨ l.foldl min a ∈ l := by
  induction l generalizing a with
  | nil => exact .inl rfl
  | cons y l ih =>
    rcases ih (min a y) with same | mem
    · rw [List.foldl_cons, same]
      rcases Nat.le_total a y with h | h
      · exact .inl (Nat.min_eq_left h)
      · rw [Nat.min_eq_right h]; exact .inr List.mem_cons_self
    · exact .inr (List.mem_cons_of_mem _ mem)

/-! ### The ranks of an entry (R43) -/

theorem highestClass_triggered (l : List SubEntry) : highestClass l = .triggered ↔ ∃ x ∈ l, x.cls = .triggered := by
  have any : l.any (fun x => decide (x.cls = .triggered)) = true ↔ ∃ x ∈ l, x.cls = .triggered := by simp
  rw [← any]
  unfold highestClass
  split
  · rename_i h; exact iff_of_true rfl h
  · rename_i h
    split <;> exact iff_of_false nofun h

theorem highestClass_routine (l : List SubEntry) :
    highestClass l = .routine ↔ (∃ x ∈ l, x.cls = .routine) ∧ ∀ x ∈ l, x.cls ≠ .triggered := by
  have triggered : l.any (fun x => decide (x.cls = .triggered)) = true ↔ ∃ x ∈ l, x.cls = .triggered := by simp
  have routine : l.any (fun x => decide (x.cls = .routine)) = true ↔ ∃ x ∈ l, x.cls = .routine := by simp
  unfold highestClass
  split
  · rename_i h
    obtain ⟨x, mem, cls⟩ := triggered.mp h
    exact iff_of_false nofun fun none => none.2 x mem cls
  · rename_i notTriggered
    have none : ∀ x ∈ l, x.cls ≠ .triggered := fun x mem cls => notTriggered (triggered.mpr ⟨x, mem, cls⟩)
    split
    · rename_i h; exact iff_of_true rfl ⟨routine.mp h, none⟩
    · rename_i h; exact iff_of_false nofun fun some => h (routine.mpr some.1)

theorem tieRank_slot_le {e : PendingEntry} {x : SubEntry} (mem : x ∈ e.subs) : e.tieRank ≤ x.origin.tieRank :=
  foldl_min_le 36 (List.mem_map.mpr ⟨x, mem, rfl⟩)

theorem Origin.tieRank_lt (o : Origin) : o.tieRank < 36 := by
  cases o with
  | slot n => exact n.isLt.trans (by decide)
  | demand p => exact Nat.add_lt_add_left p.isLt 32

theorem entryRanks_all (e : PendingEntry) (now : Tick) : entryRanks e now := by
  have mapped (l : List SubEntry) (f : SubEntry → Nat) (h : l ≠ []) : l.map f ≠ [] := by simpa using h
  refine ⟨highestClass_triggered e.subs, highestClass_routine e.subs,
    fun x mem => le_foldl_max 0 (List.mem_map.mpr ⟨x, mem, rfl⟩), fun notEmpty => ?_, fun x mem n slot => ?_,
    fun x mem p demand => ?_, fun notEmpty => ?_⟩
  · obtain ⟨x, mem, age⟩ := List.mem_map.mp (foldl_max_mem (mapped e.subs (fun x => elapsed x.due now) notEmpty))
    exact ⟨x, mem, age⟩
  · have := tieRank_slot_le mem; rwa [slot] at this
  · have := tieRank_slot_le mem; rwa [demand] at this
  · obtain ⟨x, mem⟩ := List.exists_mem_of_ne_nil e.subs notEmpty
    have below : e.tieRank < 36 := (tieRank_slot_le mem).trans_lt (Origin.tieRank_lt _)
    rcases foldl_min_attained (e.subs.map fun x => x.origin.tieRank) 36 with none | attained
    · exact absurd none below.ne
    · obtain ⟨y, memY, rank⟩ := List.mem_map.mp attained
      refine ⟨y, memY, ?_⟩
      cases origin : y.origin with
      | slot n => rw [origin] at rank; exact .inl ⟨n, rfl, rank.symm⟩
      | demand p => rw [origin] at rank; exact .inr ⟨p, rfl, rank.symm⟩

/-! ### The winner (R43) -/

/-- The class of an entry in the order of R43: TRIGGERED before the others. -/
def PendingEntry.classRank (e : PendingEntry) : Nat := if e.cls = .triggered then 1 else 0

/-- The order of R43 is that of three ranks: class, then age, then the tie order. -/
theorem beats_iff (now : Tick) (a b : PendingEntry) : a.beats now b = true ↔ b.classRank < a.classRank
    ∨ b.classRank = a.classRank
      ∧ (b.age now < a.age now ∨ a.age now = b.age now ∧ a.tieRank < b.tieRank) := by
  unfold PendingEntry.beats PendingEntry.classRank
  by_cases ta : a.cls = .triggered <;> by_cases tb : b.cls = .triggered <;>
    by_cases age : a.age now = b.age now <;> simp [ta, tb, age]

theorem beats_trans {now : Tick} {a b c : PendingEntry} (h : a.beats now b = true) (k : b.beats now c = true) :
    a.beats now c = true := by
  rw [beats_iff] at *; omega

/-- An entry that beats another beats a third, or the third beats the other. -/
theorem beats_or {now : Tick} {a c : PendingEntry} (b : PendingEntry) (h : a.beats now c = true) :
    a.beats now b = true ∨ b.beats now c = true := by
  rw [beats_iff] at *; rw [beats_iff]; omega

theorem not_beats_self (now : Tick) (a : PendingEntry) : ¬ a.beats now a = true := by
  rw [beats_iff]; omega

/-- The winner of a list is in it, and nothing in the list beats it. -/
theorem foldl_wins (now : Tick) (l : List PendingEntry) (e : PendingEntry) :
    l.foldl (fun w x => if x.beats now w then x else w) e ∈ e :: l
      ∧ ∀ x ∈ e :: l, ¬ x.beats now (l.foldl (fun w x => if x.beats now w then x else w) e) = true := by
  induction l generalizing e with
  | nil =>
    refine ⟨List.mem_cons_self, fun x mem => ?_⟩
    rw [List.mem_singleton.mp mem]
    exact not_beats_self now e
  | cons y l ih =>
    rw [List.foldl_cons]
    split
    · rename_i wins
      obtain ⟨mem, best⟩ := ih y
      refine ⟨List.mem_cons_of_mem _ mem, List.forall_mem_cons.mpr ⟨fun beaten => ?_, best⟩⟩
      exact best y List.mem_cons_self (beats_trans wins beaten)
    · rename_i loses
      obtain ⟨mem, best⟩ := ih e
      obtain ⟨notFirst, notLater⟩ := List.forall_mem_cons.mp best
      refine ⟨?_, List.forall_mem_cons.mpr ⟨notFirst, List.forall_mem_cons.mpr ⟨fun beaten => ?_, notLater⟩⟩⟩
      · rcases List.mem_cons.mp mem with same | later
        · rw [same]; exact List.mem_cons_self
        · exact List.mem_cons_of_mem _ (List.mem_cons_of_mem _ later)
      · exact (beats_or e beaten).elim loses notFirst

/-- A list that is not empty has a winner: it is in the list, and nothing in the list comes before it in the order of R43. -/
theorem winner_some (now : Tick) {l : List PendingEntry} (notEmpty : l ≠ []) :
    ∃ w, winner now l = some w ∧ w ∈ l ∧ ∀ e ∈ l, ¬ e.beats now w = true := by
  cases l with
  | nil => exact absurd rfl notEmpty
  | cons e l =>
    obtain ⟨mem, best⟩ := foldl_wins now l e
    exact ⟨_, rfl, mem, best⟩

/-- What does not beat the winner, in the words of R43. -/
theorem not_beats_ranks {now : Tick} {e w : PendingEntry} (h : ¬ e.beats now w = true) :
    (e.cls = .triggered → w.cls = .triggered)
      ∧ ((e.cls = .triggered ↔ w.cls = .triggered) →
        e.age now ≤ w.age now ∧ (e.age now = w.age now → w.tieRank ≤ e.tieRank)) := by
  rw [beats_iff] at h
  unfold PendingEntry.classRank at h
  by_cases te : e.cls = .triggered <;> by_cases tw : w.cls = .triggered <;> simp [te, tw] at h ⊢ <;> omega

/-! ### The record of a selection (R45, R46, R57, R58) -/

/-- The entries of the winner's conversion. -/
def mergedWith (w : PendingEntry) (l : List PendingEntry) : List PendingEntry := l.filter fun e => e.sameConversion w

/-- The record that the selection of w starts. -/
def startedRecord (u : State) (w : PendingEntry) : InFlight :=
  newRecord u w (highestClass ((mergedWith w u.requests).flatMap fun e => e.subs))
    (((mergedWith w u.requests).map fun e => e.preemptCount).foldl max 0)
    ((mergedWith w u.requests).flatMap fun e => e.subs)

theorem sameConversion_iff {a b : PendingEntry} : a.sameConversion b = true ↔
    a.channel = b.channel ∧ a.sampleCode = b.sampleCode ∧ a.avgCode = b.avgCode := by
  simp [PendingEntry.sameConversion, and_assoc]

theorem mem_mergedWith {w e : PendingEntry} {l : List PendingEntry} : e ∈ mergedWith w l ↔
    e ∈ l ∧ e.channel = w.channel ∧ e.sampleCode = w.sampleCode ∧ e.avgCode = w.avgCode := by
  rw [mergedWith, List.mem_filter, sameConversion_iff]

theorem startConversion_conv (u : State) (w : PendingEntry) : (startConversion u w).conv =
    if (startedRecord u w).settleRequired
    then u.conv.enter .settle (settleTicks (startedRecord u w).extraSettle) (some (startedRecord u w))
    else u.conv.enter .sample (sampleTicks w.sampleCode) (some (startedRecord u w)) := rfl

theorem startConversion_requests (u : State) (w : PendingEntry) : (startConversion u w).requests =
    u.requests.filter fun e => !(decide (e.channel = w.channel) && decide (e.sampleCode = w.sampleCode)
      && decide (e.avgCode = w.avgCode)) := rfl

theorem startedRecord_names (u : State) (w : PendingEntry) (n : SlotNo) : namesSlot (startedRecord u w) n =
    names ((mergedWith w u.requests).flatMap fun e => e.subs) (.slot n) := by
  simp [namesSlot, names, startedRecord, newRecord, List.any_map, Function.comp_def]

theorem startConversion_slot (u : State) (w : PendingEntry) (n : SlotNo) : (startConversion u w).slots[n] =
    if namesSlot (startedRecord u w) n then { u.slots[n] with pendingFlag := false, inFlightFlag := true }
    else u.slots[n] := by
  rw [startedRecord_names]
  unfold startConversion
  rw [State.setConv_slots, State.mapSlots_slots, getElem_ofFn_at]
  rfl

theorem mem_startedRecord (u : State) (w : PendingEntry) (x : FlightEntry) : x ∈ (startedRecord u w).subs ↔
    x.marked = false ∧ ∃ e ∈ u.requests, (e.channel = w.channel ∧ e.sampleCode = w.sampleCode ∧ e.avgCode = w.avgCode)
      ∧ x.sub ∈ e.subs := by
  obtain ⟨sub, marked⟩ := x
  simp only [startedRecord, newRecord, List.mem_map, List.mem_flatMap, mem_mergedWith, FlightEntry.mk.injEq]
  constructor
  · rintro ⟨y, ⟨e, ⟨mem, same⟩, memY⟩, rfl, rfl⟩
    exact ⟨rfl, e, mem, same, memY⟩
  · rintro ⟨rfl, e, mem, same, memY⟩
    exact ⟨sub, ⟨e, ⟨mem, same⟩, memY⟩, rfl, rfl⟩

/-- What holds of a subscriber of a merged entry. -/
theorem exists_merged {w : PendingEntry} {l : List PendingEntry} {P : SubEntry → Prop} :
    (∃ x ∈ (mergedWith w l).flatMap fun e => e.subs, P x)
      ↔ ∃ e ∈ l, (e.channel = w.channel ∧ e.sampleCode = w.sampleCode ∧ e.avgCode = w.avgCode) ∧ ∃ x ∈ e.subs, P x := by
  simp only [List.mem_flatMap, mem_mergedWith]
  constructor
  · rintro ⟨x, ⟨e, ⟨mem, same⟩, memX⟩, holds⟩; exact ⟨e, mem, same, x, memX, holds⟩
  · rintro ⟨e, mem, same, x, memX, holds⟩; exact ⟨x, ⟨e, ⟨mem, same⟩, memX⟩, holds⟩

theorem forall_merged {w : PendingEntry} {l : List PendingEntry} {P : SubEntry → Prop} :
    (∀ x ∈ (mergedWith w l).flatMap fun e => e.subs, P x)
      ↔ ∀ e ∈ l, (e.channel = w.channel ∧ e.sampleCode = w.sampleCode ∧ e.avgCode = w.avgCode) → ∀ x ∈ e.subs, P x := by
  simp only [List.mem_flatMap, mem_mergedWith]
  constructor
  · intro all e mem same x memX; exact all x ⟨e, ⟨mem, same⟩, memX⟩
  · rintro all x ⟨e, ⟨mem, same⟩, memX⟩; exact all e mem same x memX

theorem startedRecord_settles (u : State) (w : PendingEntry) : (startedRecord u w).settleRequired = true
    ↔ u.conv.identity ≠ some (w.channel, (u.channelView w.channel).generation) := decide_eq_true_iff

/-- A conversion that settles, and one that samples at once (R57, R58). -/
theorem startConversion_phase (u : State) (w : PendingEntry) :
    let settle : Prop := u.conv.identity ≠ some (w.channel, (u.channelView w.channel).generation)
    (¬ settle → (startedRecord u w).settleRequired = false ∧ (startConversion u w).conv.phase = .sample
        ∧ (startedRecord u w).startTick = some u.now ∧ (startConversion u w).conv.phaseTicks = 2 ^ w.sampleCode.toNat)
      ∧ (settle → (startedRecord u w).settleRequired = true ∧ (startConversion u w).conv.phase = .settle
        ∧ (startedRecord u w).startTick = none
        ∧ (startConversion u w).conv.phaseTicks = 2 + 2 * (u.channelView w.channel).extraSettle.toNat) := by
  have startTick : (startedRecord u w).startTick = if (startedRecord u w).settleRequired then none else some u.now := rfl
  rw [startConversion_conv, startTick]
  refine ⟨fun samples => ?_, fun settles => ?_⟩
  · have not : (startedRecord u w).settleRequired = false :=
      Bool.eq_false_iff.mpr fun h => samples ((startedRecord_settles u w).mp h)
    rw [not]
    exact ⟨rfl, rfl, rfl, rfl⟩
  · rw [(startedRecord_settles u w).mpr settles]
    exact ⟨rfl, rfl, rfl, rfl⟩

theorem startConversion_record (u : State) (w : PendingEntry) :
    (startConversion u w).conv.record = some (startedRecord u w)
      ∧ (startConversion u w).conv.identity = u.conv.identity ∧ (startConversion u w).conv.phasePeriods = 0 := by
  rw [startConversion_conv]
  split
  · exact ⟨rfl, rfl, rfl⟩
  · exact ⟨rfl, rfl, rfl⟩

/-- A selection with an entry to select starts the winner's conversion, as R43 to R46, R57 and R58 state it. -/
theorem select_selectedFrom {u : State} (notEmpty : u.requests ≠ []) : selectedFrom u (select u) := by
  obtain ⟨w, isWinner, mem, best⟩ := winner_some u.now notEmpty
  have selects : select u = startConversion u w := by unfold select; rw [isWinner]
  have merged : w ∈ mergedWith w u.requests := mem_mergedWith.mpr ⟨mem, rfl, rfl, rfl⟩
  have counts {k : Nat} : k ∈ (mergedWith w u.requests).map (fun e => e.preemptCount)
      ↔ ∃ e ∈ u.requests, (e.channel = w.channel ∧ e.sampleCode = w.sampleCode ∧ e.avgCode = w.avgCode)
        ∧ e.preemptCount = k := by
    simp only [List.mem_map, mem_mergedWith, and_assoc]
  obtain ⟨samples, settles⟩ := startConversion_phase u w
  obtain ⟨record, identity, periods⟩ := startConversion_record u w
  have frame := sameBut_startConversion u w
  rw [selects]
  refine ⟨w, mem, startedRecord u w, fun e memE => (not_beats_ranks (best e memE)).1,
    fun e memE => (not_beats_ranks (best e memE)).2, fun e _ => entryRanks_all e u.now, record, identity, periods, rfl, rfl,
    rfl, mem_startedRecord u w, (highestClass_triggered _).trans exists_merged, ?_, fun e memE same => ?_, ?_,
    startConversion_requests u w, rfl, rfl, rfl, rfl, rfl, rfl, rfl, rfl, samples, settles, startConversion_slot u w, frame⟩
  · refine (highestClass_routine _).trans (and_congr ?_ forall_merged)
    exact exists_merged (P := fun x => x.cls = .routine)
  · exact le_foldl_max 0 (counts.mpr ⟨e, memE, same, rfl⟩)
  · refine counts.mp (foldl_max_mem fun none => ?_)
    rw [List.map_eq_nil_iff.mp none] at merged
    cases merged

/-- A selection leaves an empty list as it is (R42). -/
theorem select_empty {u : State} (empty : u.requests = []) : select u = u := by
  unfold select; rw [empty]; rfl

/-- RECOVER has ended: the converter is IDLE (R71). -/
def recovered (s : State) : State := s.setConv { s.conv with phase := .idle, phaseTicks := 0, phasePeriods := 0 }

/-- What a selection reads of the converter is the identity alone, which the end of RECOVER keeps (R56, R71). -/
theorem selectedFrom_recovered {s t : State} (h : selectedFrom (recovered s) t) : selectedFrom s t := by
  obtain ⟨w, mem, r, classes, ages, ranks, record, identity, periods, channel, sampleCode, avgCode, subs, triggered, routine,
    most, attained, requests, mode, span, settle, generation, repeats, sum, clipped, reconfigured, samples, settles, slots,
    frame⟩ := h
  have ended : sameBut ([.requests, .converter] ++ allSlots) s (recovered s) :=
    sameBut_mono (sameBut_setConv s _) (by simp)
  exact ⟨w, mem, r, classes, ages, ranks, record, identity, periods, channel, sampleCode, avgCode, subs, triggered, routine,
    most, attained, requests, mode, span, settle, generation, repeats, sum, clipped, reconfigured, samples, settles, slots,
    sameBut_trans ended frame⟩

/-- Settles O57: RECOVER ends in IDLE, and the selection there is the arbiter's. -/
theorem recoverEndSelectsTheWinner : Obligations.RecoverEndSelectsTheWinner := by
  intro s recover atEnd
  have isOver : s.conv.phaseOver = true := (phaseOver_iff s).mpr ⟨by rw [recover]; exact nofun, atEnd⟩
  have taken : exec .recoverEnd s = .next (select (recovered s)) := by
    rw [exec_recoverEnd, execRecoverEnd, if_neg (not_not_intro recover), if_pos isOver]
    rfl
  refine ⟨_, taken, ?_, fun empty => ?_, fun notEmpty => ?_⟩
  · exact sameBut_trans (sameBut_mono (sameBut_setConv s _) (by simp)) (sameBut_select _)
  · rw [select_empty (u := recovered s) empty]
    exact ⟨rfl, rfl, empty⟩
  · exact selectedFrom_recovered (select_selectedFrom notEmpty)

end Sys2Proof.Machine
end

