-- ==== Sys2Proof/Proofs/SlotCommands.lean ====
section
/-! PROOF. MODIFY, STOP, RUN and the shared refusals of the slot commands (R11, R15, R16, R18, R19). -/

namespace Sys2Proof.Machine

/-! ### The checks that the slot commands share (R11) -/

theorem slotOfByte_none {b : Byte} (above : 31 < b.toNat) : slotOfByte b = none :=
  dif_neg (Nat.not_lt.mpr above)

theorem onOwnSlot_badArg {p : Port} {args : List Byte} {act : SlotNo → State → Done} {s : State}
    (isOpen : s.isOpen p = true) (above : 31 < (argByte args 0).toNat) :
    onOwnSlot p args act s = refuseWith s .badArg := by
  rw [onOwnSlot, withSession_open isOpen, slotOfByte_none above]

theorem onOwnSlot_notOwner {p : Port} {args : List Byte} {act : SlotNo → State → Done} {s : State} {n : SlotNo}
    (isOpen : s.isOpen p = true) (named : (argByte args 0).toNat = n.val)
    (other : s.slots[n].state = .free ∨ s.slots[n].owner ≠ some p) :
    onOwnSlot p args act s = refuseWith s .notOwner := by
  have refused : (s.isFree n || decide (s.slots[n].owner ≠ some p)) = true := by
    rw [Bool.or_eq_true, State.isFree, decide_eq_true_iff, decide_eq_true_iff]; exact other
  rw [onOwnSlot, withSession_open isOpen, slotOfByte_some named]
  simp only [refused, if_true]

/-- An own slot that is not FREE passes the checks of R11 up to NOT_OWNER. -/
theorem onOwnSlot_own {p : Port} {args : List Byte} {act : SlotNo → State → Done} {s : State} {n : SlotNo}
    (isOpen : s.isOpen p = true) (named : (argByte args 0).toNat = n.val) (owner : s.slots[n].owner = some p)
    (used : s.slots[n].state ≠ .free) : onOwnSlot p args act s = act n s := by
  have passes : (s.isFree n || decide (s.slots[n].owner ≠ some p)) = false := by
    simp [State.isFree, used, owner, -Fin.getElem_fin]
  rw [onOwnSlot, withSession_open isOpen, slotOfByte_some named]
  simp only [passes, Bool.false_eq_true, if_false]

theorem onOwnSlot_retiring {p : Port} {args : List Byte} {act : SlotNo → State → Done} {s : State} {n : SlotNo}
    (isOpen : s.isOpen p = true) (named : (argByte args 0).toNat = n.val) (owner : s.slots[n].owner = some p)
    (retiring : s.slots[n].state = .retiring) : onOwnSlot p args (notRetiring act) s = refuseWith s .badState := by
  rw [onOwnSlot_own isOpen named owner (by rw [retiring]; exact nofun), notRetiring, if_pos retiring]

/-- The act of a slot command on the slot that its frame names. -/
def slotAct (p : Port) (c : Command) : SlotNo → State → Done :=
  match c with
  | .modify => notRetiring (modify p)
  | .delete => notRetiring (delete p)
  | .stop => notRetiring stop
  | .run => notRetiring run
  | .startBurst => notRetiring startBurst
  | _ => fetch p

theorem settingAct_slot {p : Port} {c : Command}
    (one : c ∈ [Command.modify, .delete, .stop, .run, .startBurst, .fetch]) (args : List Byte) :
    settingAct p c args = onOwnSlot p args (slotAct p c) := by
  simp only [List.mem_cons, List.not_mem_nil, or_false] at one
  rcases one with rfl | rfl | rfl | rfl | rfl | rfl <;> rfl

theorem slotAct_notRetiring {p : Port} {c : Command}
    (one : c ∈ [Command.modify, .delete, .stop, .run, .startBurst, .fetch]) (notFetch : c ≠ .fetch) :
    ∃ act, slotAct p c = notRetiring act := by
  simp only [List.mem_cons, List.not_mem_nil, or_false] at one
  rcases one with rfl | rfl | rfl | rfl | rfl | rfl
  · exact ⟨_, rfl⟩
  · exact ⟨_, rfl⟩
  · exact ⟨_, rfl⟩
  · exact ⟨_, rfl⟩
  · exact ⟨_, rfl⟩
  · exact absurd rfl notFetch

/-- Settles O31: the slot commands share the checks of R11, and all but FETCH refuse a RETIRING slot. -/
theorem slotCommandRefusals : Obligations.SlotCommandRefusals := by
  intro i p c s row one due isOpen
  have stillOpen : (raiseSelect s p).isOpen p = true := isOpen
  have act := settingAct_slot (p := p) one s.ports[p].frame.args
  refine ⟨_, (exec_setting row s).trans (takeSetting_due due (settingOf_kind row) _), fun above => ?badArg,
    fun n named other => ?notOwner, fun n named owner retiring notFetch => ?retiring⟩
  case badArg =>
    refine riseEffect_refused ?_
    rw [act]; exact onOwnSlot_badArg stillOpen above
  case notOwner =>
    refine riseEffect_refused ?_
    rw [act]; exact onOwnSlot_notOwner stillOpen named other
  case retiring =>
    obtain ⟨own, isNotRetiring⟩ := slotAct_notRetiring (p := p) one notFetch
    refine riseEffect_refused ?_
    rw [act, isNotRetiring]; exact onOwnSlot_retiring stillOpen named owner retiring

/-! ### STOP (R18) -/

theorem stop_stopped {s : State} {n : SlotNo} (stopped : s.slots[n].state = .stopped) : stop n s = okSlot s n :=
  if_neg (by rw [stopped]; exact nofun)

/-- The slot after STOP, without a pending request (R18). -/
def stoppedSlot (x : Slot) : Slot :=
  { x with
    state := .stopped, pendingFlag := false, burstRemaining := if x.settings.kind = .burst then 0 else x.burstRemaining }

theorem stop_eq {s : State} {n : SlotNo} (running : s.slots[n].state = .running) :
    stop n s = okSlot ((withdrawPending s n).setSlot n (stoppedSlot s.slots[n])) n := by
  have result : stop n s = okSlot (stop n s).1 n := by
    unfold stop; rw [if_pos running]; rfl
  rw [result, stop_running running, withdrawPending_slot]
  rfl

/-- A command that writes a slot whose request it has withdrawn. -/
theorem withdrawPending_written (s : State) (n : SlotNo) (y : Slot) :
    sameBut [.slot n, .requests] s ((withdrawPending s n).setSlot n y)
      ∧ ((withdrawPending s n).setSlot n y).slots[n] = y :=
  ⟨sameBut_trans (sameBut_withdrawPending s n) (sameBut_mono (sameBut_setSlot _ n y) (by simp)),
    getElem_set_same _ _ _⟩

/-- Settles O36: STOP of a STOPPED slot, and of a RUNNING one. -/
theorem stopStopsTheSlot : Obligations.StopStopsTheSlot := by
  intro p s n due isOpen named owner
  have acts (live : s.slots[n].state = .stopped ∨ s.slots[n].state = .running) :
      onOwnSlot p s.ports[p].frame.args (notRetiring stop) (raiseSelect s p) = stop n (raiseSelect s p) :=
    onOwnSlot_acts (s := raiseSelect s p) isOpen named owner live
  refine ⟨_, (exec_stop p s).trans (takeSetting_due due rfl _), fun stopped => ?_, fun running => ?_⟩
  · have effect := (acts (.inl stopped)).trans (stop_stopped (s := raiseSelect s p) stopped)
    exact riseEffect_accepted effect (sameBut_refl _ _) (by simp) (by simp) (.inl (by simp))
  · have effect := (acts (.inr running)).trans (stop_eq (s := raiseSelect s p) running)
    obtain ⟨frame, slot⟩ := withdrawPending_written (raiseSelect s p) n (stoppedSlot s.slots[n])
    refine ⟨riseEffect_accepted effect frame (by simp) (by simp) (.inl (by simp)), ?_, ?_⟩
    · rw [riseEffect_requests, effect]; exact withdrawPending_requests (raiseSelect s p) n
    · rw [riseEffect_slots, effect]; exact slot

/-! ### RUN (R19) -/

theorem runningSlot_eq {x : Slot} (now : Tick) (notBurst : x.settings.kind ≠ .burst) : runningSlot now x = { x with
    state := .running, decimationCount := 0, windowPos := .unset
    nextDue := if x.settings.kind = .periodic then now + ticks22 x.settings.phase else x.nextDue
    edgeCount := if x.settings.kind = .triggered then 0 else x.edgeCount } := by
  unfold runningSlot
  cases kind : x.settings.kind with
  | burst => exact absurd kind notBurst
  | periodic => rfl
  | triggered => rfl
  | listen => rfl

theorem run_burst {s : State} {n : SlotNo} (burst : s.slots[n].settings.kind = .burst) :
    run n s = refuseWith s .badState := if_pos burst

theorem run_running {s : State} {n : SlotNo} (notBurst : s.slots[n].settings.kind ≠ .burst)
    (running : s.slots[n].state = .running) : run n s = okSlot s n :=
  (if_neg notBurst).trans (if_neg (by rw [running]; exact nofun))

theorem run_stopped {s : State} {n : SlotNo} (notBurst : s.slots[n].settings.kind ≠ .burst)
    (stopped : s.slots[n].state = .stopped) :
    run n s = okSlot (s.setSlot n (runningSlot s.now s.slots[n])) n :=
  (if_neg notBurst).trans (if_pos stopped)

/-- Settles O37: RUN of a BURST slot, of a RUNNING slot, and of a STOPPED one. -/
theorem runRunsTheSlot : Obligations.RunRunsTheSlot := by
  intro p s n due isOpen named owner live
  have acts : onOwnSlot p s.ports[p].frame.args (notRetiring run) (raiseSelect s p) = run n (raiseSelect s p) :=
    onOwnSlot_acts (s := raiseSelect s p) isOpen named owner live
  refine ⟨_, (exec_run p s).trans (takeSetting_due due rfl _), fun burst => ?_, fun notBurst running => ?_,
    fun notBurst stopped => ?_⟩
  · exact riseEffect_refused (acts.trans (run_burst (s := raiseSelect s p) burst))
  · exact riseEffect_accepted (acts.trans (run_running (s := raiseSelect s p) notBurst running)) (sameBut_refl _ _)
      (by simp) (by simp) (.inl (by simp))
  · have effect := acts.trans (run_stopped (s := raiseSelect s p) notBurst stopped)
    refine ⟨riseEffect_accepted effect (sameBut_setSlot _ n _) (by simp) (by simp) (.inl (by simp)), ?_⟩
    rw [riseEffect_slots, effect]
    exact (getElem_set_same _ _ _).trans (runningSlot_eq s.now notBurst)

/-! ### MODIFY (R15, R16) -/

/-- The rise, the result register and the lease leave the converter as the act left it. -/
@[simp] theorem riseEffect_conv (p : Port) (act : List Byte → State → Done) (f : Frame) (s : State) :
    (riseEffect p act f s).conv = (act f.args s).1.conv := by simp [riseEffect]

theorem modify_badStaging {s : State} {p : Port} {n : SlotNo} (bad : stagedOf s.ports[p].staging = none) :
    modify p n s = refuseWith s .badArg := by unfold modify; rw [bad]

/-- The checks of MODIFY after the staging record's (R15, step 4). -/
theorem modify_staged {s : State} {p : Port} {n : SlotNo} {x : Staged} (staged : stagedOf s.ports[p].staging = some x) :
    modify p n s = if x.settings.kind ≠ s.slots[n].settings.kind then refuseWith s .badArg
      else if s.oddPartner x.settings.channel then refuseWith s .inUse
      else okSlot (applyModify s n x.settings) n := by unfold modify; rw [staged]

/-- The in-flight entry of slot n is marked (R17). -/
theorem supersede_conv (s : State) (n : SlotNo) : (supersede s n).conv = { s.conv with
    record := s.conv.record.map fun r => { r with
      subs := r.subs.map fun y => if y.sub.origin = .slot n then { y with marked := true } else y } } := by
  unfold supersede
  cases record : s.conv.record with
  | none =>
    have same : { s.conv with record := none } = s.conv := by rw [← record]
    exact same.symm
  | some r => rfl

theorem withdrawPending_conv (s : State) (n : SlotNo) : (withdrawPending s n).conv = s.conv :=
  sameBut_withdrawPending s n .converter (by simp)

/-- MODIFY before the slot itself is written: the request withdrawn, the in-flight entry marked. -/
def superseded (s : State) (n : SlotNo) : State :=
  if s.slots[n].inFlightFlag then supersede (withdrawPending s n) n else withdrawPending s n

theorem applyModify_eq (s : State) (n : SlotNo) (x : Settings) :
    applyModify s n x = (superseded s n).setSlot n (modifiedSlot s.now x (superseded s n).slots[n]) := rfl

theorem applyModify_requests (s : State) (n : SlotNo) (x : Settings) : (applyModify s n x).requests =
    if s.slots[n].pendingFlag then withoutSlot n s.requests else s.requests := by
  have same : (superseded s n).requests = (withdrawPending s n).requests := by
    unfold superseded supersede
    split
    · split <;> rfl
    · rfl
  rw [applyModify_eq, State.setSlot_requests, same, withdrawPending_requests]

theorem applyModify_conv (s : State) (n : SlotNo) (x : Settings) : (applyModify s n x).conv =
    if s.slots[n].inFlightFlag then
      { s.conv with record := s.conv.record.map fun r => { r with
          subs := r.subs.map fun y => if y.sub.origin = .slot n then { y with marked := true } else y } }
    else s.conv := by
  rw [applyModify_eq, State.setSlot_conv]
  unfold superseded
  split
  · rw [supersede_conv, withdrawPending_conv]
  · exact withdrawPending_conv s n

/-- The slot after a MODIFY that keeps its kind (R16). -/
theorem modifiedSlot_eq {x : Settings} {y : Slot} (now : Tick) (kind : x.kind = y.settings.kind) :
    modifiedSlot now x y = { y with
      settings := x, decimationCount := 0, edgeCount := 0, windowPos := .unset
      state := if y.state = .running ∧ x.kind = .burst then .stopped else y.state
      burstRemaining := if y.state = .running ∧ x.kind = .burst then 0 else y.burstRemaining
      nextDue := if y.state = .running ∧ x.kind = .periodic then now + ticks22 x.phase else y.nextDue } := by
  unfold modifiedSlot
  simp only [← kind]
  by_cases running : y.state = .running
  · rw [if_pos running]
    cases x.kind <;> simp [running]
  · simp [running]

theorem applyModify_slot {s : State} {n : SlotNo} {x : Settings} (kind : x.kind = s.slots[n].settings.kind) :
    (applyModify s n x).slots[n] = { s.slots[n] with
      settings := x, decimationCount := 0, edgeCount := 0, windowPos := .unset, pendingFlag := false
      state := if s.slots[n].state = .running ∧ x.kind = .burst then .stopped else s.slots[n].state
      burstRemaining := if s.slots[n].state = .running ∧ x.kind = .burst then 0 else s.slots[n].burstRemaining
      nextDue := if s.slots[n].state = .running ∧ x.kind = .periodic then s.now + ticks22 x.phase
        else s.slots[n].nextDue } := by
  rw [applyModify_slots, getElem_set_same, modifiedSlot_eq s.now (by exact kind)]

/-- Settles O35: the checks of MODIFY in their order, and the state that it leaves part by part. -/
theorem modifyReplacesTheSettings : Obligations.ModifyReplacesTheSettings := by
  intro p s n due isOpen named owner live
  have staging : (raiseSelect s p).ports[p].staging = s.ports[p].staging := raiseSelect_staging s p
  have acts : onOwnSlot p s.ports[p].frame.args (notRetiring (modify p)) (raiseSelect s p) = modify p n (raiseSelect s p) :=
    onOwnSlot_acts (s := raiseSelect s p) isOpen named owner live
  refine ⟨_, (exec_modify p s).trans (takeSetting_due due rfl _), fun bad => ?_, fun x staged => ?_⟩
  · exact riseEffect_refused (acts.trans (modify_badStaging (s := raiseSelect s p) (staging.symm ▸ bad)))
  · have checked := acts.trans (modify_staged (s := raiseSelect s p) (n := n) (staging.symm ▸ staged))
    refine ⟨fun otherKind => ?_, fun kind inUse => ?_, fun kind unpaired => ?_⟩
    · exact riseEffect_refused (checked.trans (if_pos otherKind))
    · exact riseEffect_refused (checked.trans ((if_neg (not_not_intro kind)).trans (if_pos inUse)))
    · have effect := checked.trans ((if_neg (not_not_intro kind)).trans (if_neg (by simp [unpaired])))
      refine ⟨riseEffect_accepted effect (sameBut_applyModify _ n _) (by simp) (by simp) (.inl (by simp)), ?_, ?_, ?_⟩
      · rw [riseEffect_requests, effect]; exact applyModify_requests (raiseSelect s p) n _
      · rw [riseEffect_conv, effect]; exact applyModify_conv (raiseSelect s p) n _
      · rw [riseEffect_slots, effect]; exact applyModify_slot (s := raiseSelect s p) kind

end Sys2Proof.Machine
end

