-- ==== Sys2Proof/Proofs/Staged.lean ====
section
/-! PROOF. What a staging record stages (R6, R7, R191, spec/11, 11.4): the records that fail, the refusals of INSTALL (R12), and that a snapshot's words stage the settings they were made of (R23). -/

namespace Sys2Proof.Machine

/-! ### The fields of a staging record -/

theorem kindOfBits_cases (b : BitVec 2) :
    b = 0#2 ∧ kindOfBits b = .periodic ∨ b = 1#2 ∧ kindOfBits b = .triggered ∨ b = 2#2 ∧ kindOfBits b = .burst
      ∨ b = 3#2 ∧ kindOfBits b = .listen := by
  revert b; decide

theorem kindOfBits_bits (k : Kind) : kindOfBits k.bits = k := by cases k <;> rfl

theorem edgeOfBits_none (b : BitVec 2) : edgeOfBits b = none ↔ b = 3#2 := by revert b; decide

theorem edgeOfBits_bits (e : EdgeSetting) : edgeOfBits e.bits = some e := by cases e <;> rfl

theorem bit_eq_zero {n : Nat} (x : BitVec n) (i : Nat) : x.extractLsb' i 1 = 0#1 ↔ x.getLsbD i = false := by
  have cases : ∀ b : BitVec 1, b = 0#1 ↔ b.getLsbD 0 = false := by decide
  rw [cases, BitVec.getLsbD_extractLsb']
  simp

theorem bit_eq_one {n : Nat} (x : BitVec n) (i : Nat) : (x.extractLsb' i 1 == 1#1) = x.getLsbD i := by
  have cases : ∀ b : BitVec 1, (b == 1#1) = b.getLsbD 0 := by decide
  rw [cases, BitVec.getLsbD_extractLsb']
  simp

theorem channelOfByte_none {b : Byte} : channelOfByte b = none ↔ 19 < b.toNat := by
  unfold channelOfByte
  rw [dite_eq_right_iff]
  simp only [reduceCtorEq, imp_false]
  omega

theorem windowOfWord_none {x : BitVec 32} : windowOfWord x = none
    ↔ x.getLsbD 31 = true ∧ (x.extractLsb' 0 12).toNat < (x.extractLsb' 16 12).toNat := by
  unfold windowOfWord
  simp only [bit_eq_zero]
  cases x.getLsbD 31 <;> simp

theorem stagingReservedClear_iff {w : Vector (BitVec 32) 4} : stagingReservedClear w = true
    ↔ w[1].getLsbD 31 = false ∧ w[3].extractLsb' 28 3 = 0#3 ∧ w[3].extractLsb' 12 4 = 0#4 := by
  simp [stagingReservedClear, bit_eq_zero, and_assoc]

/-! ### The settings that a staging record holds (R6, R7) -/

/-- The ranges that the fields of a kind have (R6, R191). -/
def kindInRange (w : Vector (BitVec 32) 4) (k : Kind) : Prop :=
  (k ≠ .listen → (w[0].extractLsb' 24 3).toNat ≤ 4)
    ∧ (k = .periodic → 20 ≤ (w[1].extractLsb' 0 22).toNat ∧ (w[2].extractLsb' 0 22).toNat < (w[1].extractLsb' 0 22).toNat)
    ∧ (k = .triggered → w[2].extractLsb' 30 2 ≠ 3#2)

/-- The settings of a staging record of a kind, with its channel and its window; what does not apply is zero (R7). -/
def settingsOf (w : Vector (BitVec 32) 4) (k : Kind) (c : Channel) (v : Option Window) : Settings :=
  { kind := k, channel := c
    sampleCode := if k = .listen then 0 else w[0].extractLsb' 27 2
    avgCode := if k = .listen then 0 else w[0].extractLsb' 24 3
    decimationCode := w[1].extractLsb' 22 4, label := w[0].extractLsb' 0 16
    period := if k = .periodic then w[1].extractLsb' 0 22 else 0
    phase := if k = .periodic then w[2].extractLsb' 0 22 else 0
    line := if k = .triggered ∧ w[1].getLsbD 30 = true then .b else .a
    edge := if k = .triggered then (edgeOfBits (w[2].extractLsb' 30 2)).getD .rise else .rise
    dividerCode := if k = .triggered then w[1].extractLsb' 26 4 else 0
    burstCode := if k = .burst then w[2].extractLsb' 22 8 else 0
    window := v }

/-- The kind that a staging record holds. -/
def stagedKind (w : Vector (BitVec 32) 4) : Kind := kindOfBits (w[0].extractLsb' 30 2)

/-- What a staging record that passes R6 and R7 stages, field by field. -/
theorem stagedOf_some {w : Vector (BitVec 32) 4} {x : Staged} : stagedOf w = some x ↔
    ∃ c v, channelOfByte (w[0].extractLsb' 16 8) = some c ∧ windowOfWord w[3] = some v ∧ stagingReservedClear w = true
      ∧ kindInRange w (stagedKind w) ∧ ⟨w[0].getLsbD 29, settingsOf w (stagedKind w) c v⟩ = x := by
  unfold stagedOf stagedKind
  cases channel : channelOfByte (w[0].extractLsb' 16 8) with
  | none => simp
  | some c =>
    cases window : windowOfWord w[3] with
    | none => simp
    | some v =>
      cases clear : stagingReservedClear w with
      | false => simp
      | true =>
        rcases kindOfBits_cases (w[0].extractLsb' 30 2) with ⟨-, kind⟩ | ⟨-, kind⟩ | ⟨-, kind⟩ | ⟨-, kind⟩
        · simp [kind, kindInRange, settingsOf, bit_eq_one, Settings.zero]
        · cases edge : edgeOfBits (w[2].extractLsb' 30 2) with
          | none => simp [kind, kindInRange, (edgeOfBits_none _).mp edge]
          | some e =>
            have inRange : w[2].extractLsb' 30 2 ≠ 3#2 := fun h => by rw [(edgeOfBits_none _).mpr h] at edge; cases edge
            cases line : w[1][30] <;>
              simp [kind, kindInRange, settingsOf, bit_eq_one, bit_eq_zero, Settings.zero, edge, inRange, line]
        · simp [kind, kindInRange, settingsOf, bit_eq_one, Settings.zero]
        · simp [kind, kindInRange, settingsOf, bit_eq_one, Settings.zero]

/-- The ranges of a kind fail exactly as R6 lists it. -/
theorem kindInRange_not (w : Vector (BitVec 32) 4) : ¬ kindInRange w (stagedKind w) ↔
    (w[0].extractLsb' 30 2 ≠ 3#2 ∧ 4 < (w[0].extractLsb' 24 3).toNat)
      ∨ (w[0].extractLsb' 30 2 = 0#2
        ∧ ((w[1].extractLsb' 0 22).toNat < 20 ∨ (w[1].extractLsb' 0 22).toNat ≤ (w[2].extractLsb' 0 22).toNat))
      ∨ w[0].extractLsb' 30 2 = 1#2 ∧ w[2].extractLsb' 30 2 = 3#2 := by
  unfold kindInRange stagedKind
  generalize w[0].extractLsb' 30 2 = bits, (w[0].extractLsb' 24 3).toNat = avg, (w[1].extractLsb' 0 22).toNat = period,
    (w[2].extractLsb' 0 22).toNat = phase, w[2].extractLsb' 30 2 = edge
  rcases kindOfBits_cases bits with ⟨rfl, kind⟩ | ⟨rfl, kind⟩ | ⟨rfl, kind⟩ | ⟨rfl, kind⟩ <;> rw [kind]
  · simp; omega
  · simp [imp_iff_not_or, not_or]
  · simp
  · simp

/-- A reserved bit is 1 (R7). -/
theorem stagingReservedClear_not {w : Vector (BitVec 32) 4} : stagingReservedClear w ≠ true
    ↔ w[1].getLsbD 31 = true ∨ w[3].extractLsb' 28 3 ≠ 0#3 ∨ w[3].extractLsb' 12 4 ≠ 0#4 := by
  rw [Ne, stagingReservedClear_iff, not_and_or, not_and_or, Bool.not_eq_false]

theorem stagedOf_none (w : Vector (BitVec 32) 4) : stagedOf w = none ↔ stagingBad w := by
  have fails : stagedOf w = none ↔ channelOfByte (w[0].extractLsb' 16 8) = none ∨ windowOfWord w[3] = none
      ∨ stagingReservedClear w ≠ true ∨ ¬ kindInRange w (stagedKind w) := by
    rw [Option.eq_none_iff_forall_ne_some]
    simp only [ne_eq, stagedOf_some]
    constructor
    · intro none
      by_contra passes
      simp only [not_or, not_not] at passes
      obtain ⟨channel, window, clear, inRange⟩ := passes
      obtain ⟨c, isC⟩ := Option.ne_none_iff_exists'.mp channel
      obtain ⟨v, isV⟩ := Option.ne_none_iff_exists'.mp window
      exact none _ ⟨c, v, isC, isV, clear, inRange, rfl⟩
    · rintro fails x ⟨c, v, channel, window, clear, inRange, -⟩
      rw [channel, window, clear] at fails
      simp [inRange] at fails
  rw [fails, channelOfByte_none, windowOfWord_none, kindInRange_not, stagingReservedClear_not]
  unfold stagingBad
  refine or_congr_right ?_
  constructor
  · rintro (window | (bit | high | low) | average | period | edge)
    · exact .inr (.inr (.inr (.inl window)))
    · exact .inr (.inr (.inr (.inr (.inl bit))))
    · exact .inr (.inr (.inr (.inr (.inr (.inl high)))))
    · exact .inr (.inr (.inr (.inr (.inr (.inr low)))))
    · exact .inl average
    · exact .inr (.inl period)
    · exact .inr (.inr (.inl edge))
  · rintro (average | period | edge | window | bits)
    · exact .inr (.inr (.inl average))
    · exact .inr (.inr (.inr (.inl period)))
    · exact .inr (.inr (.inr (.inr edge)))
    · exact .inl window
    · exact .inr (.inl bits)

/-! ### The refusals of INSTALL (R12, R13) -/

theorem installArg_none {b : Byte} : installArg b = none ↔ 31 < b.toNat ∧ b ≠ 0xFF := by
  unfold installArg
  by_cases any : b = 0xFF
  · rw [if_pos any]; exact iff_of_false nofun fun h => h.2 any
  · rw [if_neg any, Option.map_eq_none_iff, slotOfByte, dite_eq_right_iff]
    simp only [reduceCtorEq, imp_false]
    exact ⟨fun above => ⟨by omega, any⟩, fun above => by omega⟩

theorem installArg_inRange {b : Byte} (h : b.toNat ≤ 31 ∨ b = 0xFF) : ∃ a, installArg b = some a := by
  refine Option.ne_none_iff_exists'.mp fun none => ?_
  obtain ⟨above, notAny⟩ := installArg_none.mp none
  exact h.elim (fun below => Nat.not_le.mpr above below) notAny

theorem install_badArg {p : Port} {args : List Byte} {s : State}
    (bad : installArg (argByte args 0) = none ∨ stagedOf s.ports[p].staging = none) :
    install p args s = refuseWith s .badArg := by
  unfold install
  rcases bad with none | none
  · rw [none]
  · rw [none]; cases installArg (argByte args 0) <;> rfl

/-- The checks of INSTALL after its argument and its staging record (R12, R13). -/
theorem install_checks {p : Port} {args : List Byte} {s : State} {a : SlotArg} {x : Staged}
    (named : installArg (argByte args 0) = some a) (staged : stagedOf s.ports[p].staging = some x) :
    install p args s = if s.oddPartner x.settings.channel then refuseWith s .inUse
      else if 16 ≤ ownedCount s p then refuseWith s .quota
      else match installTarget s a with
        | .error c => refuseWith s c
        | .ok n => okSlot (s.setSlot n (installedSlot p s.now x)) n := by
  unfold install
  rw [named, staged] <;> rfl

theorem installTarget_noRoom {s : State} (full : ∀ n : SlotNo, s.slots[n].state ≠ .free) :
    installTarget s .any = .error .noRoom := by
  have none : lowestFree s = none := List.find?_eq_none.mpr fun n _ free => full n (decide_eq_true_iff.mp free)
  unfold installTarget
  rw [none]

theorem installTarget_busy {s : State} {n : SlotNo} (retiring : s.slots[n].state = .retiring) :
    installTarget s (.number n) = .error .busy := by
  simp only [installTarget, retiring]

theorem installTarget_inUse {s : State} {n : SlotNo} (live : s.slots[n].state = .stopped ∨ s.slots[n].state = .running) :
    installTarget s (.number n) = .error .inUse := by
  rcases live with state | state <;> simp only [installTarget, state]

/-- INSTALL refuses with the code of the slot that it cannot take (R13). -/
theorem install_noTarget {p : Port} {args : List Byte} {s : State} {a : SlotArg} {x : Staged} {code : ResultCode}
    (named : installArg (argByte args 0) = some a) (staged : stagedOf s.ports[p].staging = some x)
    (unpaired : s.oddPartner x.settings.channel = false) (quota : ownedCount s p < 16)
    (target : installTarget s a = .error code) : install p args s = refuseWith s code := by
  have below : ¬ 16 ≤ ownedCount s p := Nat.not_le.mpr quota
  rw [install_checks named staged, unpaired, if_neg Bool.false_ne_true, if_neg below, target]

/-- Settles O32: which staging records fail, and the checks of INSTALL in their order. -/
theorem installRefusals : Obligations.InstallRefusals := by
  refine ⟨stagedOf_none, fun p s due isOpen => ?_⟩
  have opened (code : ResultCode) (refuses : install p s.ports[p].frame.args (raiseSelect s p)
      = refuseWith (raiseSelect s p) code) : refusedWith p code s
        (riseEffect p (fun args => withSession p (install p args)) s.ports[p].frame (raiseSelect s p)) :=
    riseEffect_refused ((withSession_open (s := raiseSelect s p) isOpen).trans refuses)
  have staging : (raiseSelect s p).ports[p].staging = s.ports[p].staging := raiseSelect_staging s p
  refine ⟨_, (exec_install p s).trans (takeSetting_due due rfl _), fun bad => ?_, fun x staged named => ?_⟩
  · refine opened _ (install_badArg ?_)
    rw [staging, stagedOf_none]
    exact bad.imp_left installArg_none.mpr
  · rw [← staging] at staged
    obtain ⟨a, isArg⟩ := installArg_inRange named
    have checks := install_checks isArg staged
    refine ⟨fun inUse => opened _ (checks.trans (if_pos inUse)), fun unpaired quota => opened _ ?_,
      fun unpaired quota => ⟨fun any full => opened _ ?_, fun n number => ⟨fun retiring => opened _ ?_, fun live => opened _ ?_⟩⟩⟩
    · exact checks.trans ((if_neg (by rw [raiseSelect_oddPartner, unpaired]; exact Bool.false_ne_true)).trans (if_pos quota))
    · refine install_noTarget (a := .any) ?_ staged unpaired quota (installTarget_noRoom full)
      exact (congrArg installArg any).trans installArg_any
    · exact install_noTarget (installArg_number number) staged unpaired quota (installTarget_busy retiring)
    · exact install_noTarget (installArg_number number) staged unpaired quota (installTarget_inUse live)

/-! ### The words of a snapshot (R23, spec/11, 11.4) -/

section
variable (x : Settings)

/-- The fields of the first word of a snapshot. -/
theorem settingsWord0_fields : (settingsWord0 x).extractLsb' 30 2 = x.kind.bits
    ∧ (settingsWord0 x).extractLsb' 29 1 = 0#1 ∧ (settingsWord0 x).extractLsb' 27 2 = x.sampleCode
    ∧ (settingsWord0 x).extractLsb' 24 3 = x.avgCode
    ∧ (settingsWord0 x).extractLsb' 16 8 = BitVec.ofNat 8 x.channel.val
    ∧ (settingsWord0 x).extractLsb' 0 16 = x.label := by
  have bounds := And.intro x.kind.bits.isLt (And.intro x.sampleCode.isLt (And.intro x.avgCode.isLt
    (And.intro (BitVec.ofNat 8 x.channel.val).isLt x.label.isLt)))
  unfold settingsWord0
  refine ⟨?_, ?_, ?_, ?_, ?_, ?_⟩ <;> refine BitVec.eq_of_toNat_eq ?_ <;>
    simp only [BitVec.extractLsb'_toNat, toNat_append_add, Nat.shiftRight_eq_div_pow, BitVec.toNat_ofNat] at bounds ⊢ <;>
    omega

/-- The fields of the second word of a snapshot. -/
theorem settingsWord1_fields : (settingsWord1 x).extractLsb' 31 1 = 0#1
    ∧ (settingsWord1 x).extractLsb' 30 1 = lineBit x.line ∧ (settingsWord1 x).extractLsb' 26 4 = x.dividerCode
    ∧ (settingsWord1 x).extractLsb' 22 4 = x.decimationCode ∧ (settingsWord1 x).extractLsb' 0 22 = x.period := by
  have bounds := And.intro (lineBit x.line).isLt (And.intro x.dividerCode.isLt
    (And.intro x.decimationCode.isLt x.period.isLt))
  unfold settingsWord1
  refine ⟨?_, ?_, ?_, ?_, ?_⟩ <;> refine BitVec.eq_of_toNat_eq ?_ <;>
    simp only [BitVec.extractLsb'_toNat, toNat_append_add, Nat.shiftRight_eq_div_pow, BitVec.toNat_ofNat] at bounds ⊢ <;>
    omega

/-- The fields of the third word of a snapshot. -/
theorem settingsWord2_fields : (settingsWord2 x).extractLsb' 30 2 = x.edge.bits
    ∧ (settingsWord2 x).extractLsb' 22 8 = x.burstCode ∧ (settingsWord2 x).extractLsb' 0 22 = x.phase := by
  have bounds := And.intro x.edge.bits.isLt (And.intro x.burstCode.isLt x.phase.isLt)
  unfold settingsWord2
  refine ⟨?_, ?_, ?_⟩ <;> refine BitVec.eq_of_toNat_eq ?_ <;>
    simp only [BitVec.extractLsb'_toNat, toNat_append_add, Nat.shiftRight_eq_div_pow] at bounds ⊢ <;> omega

/-- The word of a window that is present. -/
theorem windowWord_fields (y : Window) :
    let word := 1#1 ++ 0#3 ++ y.low ++ 0#4 ++ y.high
    word.extractLsb' 31 1 = 1#1 ∧ word.extractLsb' 28 3 = 0#3 ∧ word.extractLsb' 16 12 = y.low
      ∧ word.extractLsb' 12 4 = 0#4 ∧ word.extractLsb' 0 12 = y.high := by
  have bounds := And.intro y.low.isLt y.high.isLt
  refine ⟨?_, ?_, ?_, ?_, ?_⟩ <;> refine BitVec.eq_of_toNat_eq ?_ <;>
    simp only [BitVec.extractLsb'_toNat, toNat_append_add, Nat.shiftRight_eq_div_pow, BitVec.toNat_ofNat] at bounds ⊢ <;>
    omega

/-- A window is in range when its low limit is not above its high limit (R6). -/
def Window.inRange (y : Window) : Prop := y.low.toNat ≤ y.high.toNat

theorem windowOfWord_some {w : BitVec 32} {v : Option Window} : windowOfWord w = some v ↔
    (w.getLsbD 31 = false ∧ v = none)
      ∨ (w.getLsbD 31 = true ∧ ∃ y : Window, y.inRange ∧ y = ⟨w.extractLsb' 16 12, w.extractLsb' 0 12⟩ ∧ v = some y) := by
  unfold windowOfWord Window.inRange
  simp only [bit_eq_zero]
  cases w.getLsbD 31 with
  | false => simp [eq_comm]
  | true =>
    simp only [Bool.true_eq_false, if_false, false_and, false_or, true_and]
    split
    · rename_i inRange
      exact ⟨fun h => ⟨_, inRange, rfl, (Option.some.inj h).symm⟩, fun ⟨y, _, isY, isV⟩ => by rw [isV, isY]⟩
    · rename_i above
      exact iff_of_false nofun fun ⟨y, inRange, isY, _⟩ => above (by rw [isY] at inRange; exact inRange)

/-- The fourth word of a snapshot holds the window, and its reserved bits are 0. -/
theorem settingsWord3_fields (inRange : ∀ y ∈ x.window, y.inRange) : windowOfWord (settingsWord3 x) = some x.window
    ∧ (settingsWord3 x).extractLsb' 28 3 = 0#3 ∧ (settingsWord3 x).extractLsb' 12 4 = 0#4 := by
  unfold settingsWord3
  cases window : x.window with
  | none => exact ⟨by decide, by decide, by decide⟩
  | some y =>
    obtain ⟨present, high, low, reserved, top⟩ := windowWord_fields y
    refine ⟨windowOfWord_some.mpr (.inr ⟨?_, y, inRange y window, ?_, rfl⟩), high, reserved⟩
    · rw [← bit_eq_one, present]; rfl
    · rw [low, top]

end

theorem kind_of_settingsOf (w : Vector (BitVec 32) 4) (k : Kind) (c : Channel) (v : Option Window) :
    (settingsOf w k c v).kind = k := rfl

/-- A channel's number as a byte names the channel (R191). -/
theorem channelOfByte_ofNat (c : Channel) : channelOfByte (BitVec.ofNat 8 c.val) = some c := by
  revert c; decide

/-- The words of a snapshot of settings that were staged. -/
def snapshotWords (y : Settings) : Vector (BitVec 32) 4 :=
  #v[settingsWord0 y, settingsWord1 y, settingsWord2 y, settingsWord3 y]

/-- The line of a bit, and the bit of the line. -/
theorem lineBit_iff (l : Line) (x : BitVec 32) (bit : x.extractLsb' 30 1 = lineBit l) : x.getLsbD 30 = true ↔ l = .b := by
  rw [← bit_eq_one, bit]
  cases l <;> decide

/-- A record with the fields of settings that were staged stages them (R7). -/
theorem settingsOf_snapshotWords (w : Vector (BitVec 32) 4) (k : Kind) (c : Channel) (v : Option Window) :
    settingsOf (snapshotWords (settingsOf w k c v)) k c v = settingsOf w k c v := by
  obtain ⟨-, -, sample0, avg0, -, label0⟩ := settingsWord0_fields (settingsOf w k c v)
  obtain ⟨-, line1, divider1, decimation1, period1⟩ := settingsWord1_fields (settingsOf w k c v)
  obtain ⟨edge2, burst2, phase2⟩ := settingsWord2_fields (settingsOf w k c v)
  have line : (if k = .triggered ∧ (settingsWord1 (settingsOf w k c v)).getLsbD 30 = true then Line.b else .a)
      = (settingsOf w k c v).line := by
    have isB : (settingsOf w k c v).line = .b ↔ k = .triggered ∧ w[1].getLsbD 30 = true := by
      show (if k = .triggered ∧ w[1].getLsbD 30 = true then Line.b else .a) = .b ↔ _
      split
      · rename_i h; exact iff_of_true rfl h
      · rename_i h; exact iff_of_false nofun h
    refine if_congr ?_ rfl rfl
    rw [lineBit_iff _ _ line1, isB, and_self_left]
  show Settings.mk k c (if k = .listen then 0 else (settingsWord0 (settingsOf w k c v)).extractLsb' 27 2)
    (if k = .listen then 0 else (settingsWord0 (settingsOf w k c v)).extractLsb' 24 3)
    ((settingsWord1 (settingsOf w k c v)).extractLsb' 22 4) ((settingsWord0 (settingsOf w k c v)).extractLsb' 0 16)
    (if k = .periodic then (settingsWord1 (settingsOf w k c v)).extractLsb' 0 22 else 0)
    (if k = .periodic then (settingsWord2 (settingsOf w k c v)).extractLsb' 0 22 else 0)
    (if k = .triggered ∧ (settingsWord1 (settingsOf w k c v)).getLsbD 30 = true then Line.b else .a)
    (if k = .triggered then (edgeOfBits ((settingsWord2 (settingsOf w k c v)).extractLsb' 30 2)).getD .rise else .rise)
    (if k = .triggered then (settingsWord1 (settingsOf w k c v)).extractLsb' 26 4 else 0)
    (if k = .burst then (settingsWord2 (settingsOf w k c v)).extractLsb' 22 8 else 0) v = _
  rw [sample0, avg0, decimation1, label0, period1, phase2, line, edge2, edgeOfBits_bits, divider1, burst2]
  cases k <;> rfl

theorem stagedOf_snapshotWords {w : Vector (BitVec 32) 4} {c : Channel} {v : Option Window}
    (window : windowOfWord w[3] = some v) (inRange : kindInRange w (stagedKind w)) :
    stagedOf (snapshotWords (settingsOf w (stagedKind w) c v))
      = some ⟨false, settingsOf w (stagedKind w) c v⟩ := by
  have same := settingsOf_snapshotWords w (stagedKind w) c v
  have isKind : (settingsOf w (stagedKind w) c v).kind = stagedKind w := rfl
  have isAvg : (settingsOf w (stagedKind w) c v).avgCode
      = (if stagedKind w = .listen then 0 else w[0].extractLsb' 24 3 : BitVec 3) := rfl
  have isPeriod : (settingsOf w (stagedKind w) c v).period
      = (if stagedKind w = .periodic then w[1].extractLsb' 0 22 else 0 : BitVec 22) := rfl
  have isPhase : (settingsOf w (stagedKind w) c v).phase
      = (if stagedKind w = .periodic then w[2].extractLsb' 0 22 else 0 : BitVec 22) := rfl
  have isWindow : (settingsOf w (stagedKind w) c v).window = v := rfl
  have isChannel : (settingsOf w (stagedKind w) c v).channel = c := rfl
  generalize settingsOf w (stagedKind w) c v = y at *
  obtain ⟨kind0, start0, -, avg0, channel0, -⟩ := settingsWord0_fields y
  obtain ⟨reserved1, -, -, -, period1⟩ := settingsWord1_fields y
  obtain ⟨edge2, -, phase2⟩ := settingsWord2_fields y
  have windowOk : ∀ z ∈ y.window, z.inRange := fun z mem => by
    rw [isWindow] at mem
    rcases windowOfWord_some.mp window with ⟨-, none⟩ | ⟨-, z', ok, -, isV⟩
    · rw [none] at mem; cases mem
    · rw [isV] at mem; cases mem; exact ok
  obtain ⟨window3, high3, low3⟩ := settingsWord3_fields y windowOk
  have sameKind : stagedKind (snapshotWords y) = stagedKind w := by
    show kindOfBits ((settingsWord0 y).extractLsb' 30 2) = _
    rw [kind0, kindOfBits_bits, isKind]
  refine stagedOf_some.mpr ⟨c, v, ?_, ?_, ?_, ?_, ?_⟩
  · show channelOfByte ((settingsWord0 y).extractLsb' 16 8) = _
    rw [channel0, isChannel, channelOfByte_ofNat]
  · exact window3.trans (congrArg some isWindow)
  · exact stagingReservedClear_iff.mpr ⟨(bit_eq_zero _ 31).mp reserved1, high3, low3⟩
  · rw [sameKind]
    obtain ⟨average, periodic, triggered⟩ := inRange
    refine ⟨fun converts => ?_, fun isPeriodic => ?_, fun _ => ?_⟩
    · show ((settingsWord0 y).extractLsb' 24 3).toNat ≤ 4
      rw [avg0, isAvg, if_neg converts]
      exact average converts
    · show 20 ≤ ((settingsWord1 y).extractLsb' 0 22).toNat
        ∧ ((settingsWord2 y).extractLsb' 0 22).toNat < ((settingsWord1 y).extractLsb' 0 22).toNat
      rw [period1, phase2, isPeriod, isPhase, if_pos isPeriodic, if_pos isPeriodic]
      exact periodic isPeriodic
    · show (settingsWord2 y).extractLsb' 30 2 ≠ 3#2
      rw [edge2]
      cases y.edge <;> decide
  · rw [sameKind, same]
    have stopped : (settingsWord0 y).getLsbD 29 = false := (bit_eq_zero _ 29).mp start0
    exact congrArg (fun b => Staged.mk b y) stopped

theorem channelOfByte_val {b : Byte} {c : Channel} (h : channelOfByte b = some c) : c.val = b.toNat := by
  unfold channelOfByte at h
  split at h
  · cases h; rfl
  · cases h

/-- The bits of a kind and of an edge setting (spec/11, 11.4). -/
theorem kindOfBits_eq (b : BitVec 2) : b = match kindOfBits b with
    | .periodic => 0#2 | .triggered => 1#2 | .burst => 2#2 | .listen => 3#2 := by
  revert b; decide

theorem edgeOfBits_eq (b : BitVec 2) (inRange : b ≠ 3#2) : b = match (edgeOfBits b).getD .rise with
    | .rise => 0#2 | .fall => 1#2 | .both => 2#2 := by
  revert b; decide

theorem windowOfWord_eq {w : BitVec 32} {v : Option Window} (h : windowOfWord w = some v) :
    v = if w.getLsbD 31 then some ⟨w.extractLsb' 16 12, w.extractLsb' 0 12⟩ else none := by
  rcases windowOfWord_some.mp h with ⟨bit, none⟩ | ⟨bit, y, -, isY, isV⟩
  · rw [bit, none]; rfl
  · rw [bit, isV, isY]; rfl

/-- Settles O34: a snapshot's words stage the settings again, and each setting is the field that the record has for it. -/
theorem snapshotWordsStageTheSameSettings : Obligations.SnapshotWordsStageTheSameSettings := by
  intro w x staged
  obtain ⟨c, v, channel, window, clear, inRange, rfl⟩ := stagedOf_some.mp staged
  have again := stagedOf_snapshotWords (c := c) window inRange
  obtain ⟨-, -, edgeOk⟩ := inRange
  refine ⟨again, rfl, kindOfBits_eq _, channelOfByte_val channel, rfl, rfl, windowOfWord_eq window, ?_⟩
  generalize stagedKind w = k at *
  simp only [settingsOf]
  refine ⟨fun converts => ?_, fun listens => ?_, fun periodic => ?_, fun other => ?_, fun triggered => ?_, fun other => ?_,
    fun burst => ?_, fun other => ?_⟩
  · rw [if_neg converts, if_neg converts]; exact ⟨rfl, rfl⟩
  · rw [if_pos listens, if_pos listens]; exact ⟨rfl, rfl⟩
  · rw [if_pos periodic, if_pos periodic]; exact ⟨rfl, rfl⟩
  · rw [if_neg other, if_neg other]; exact ⟨rfl, rfl⟩
  · refine ⟨?_, ?_, ?_⟩
    · simp only [triggered, true_and]
    · rw [if_pos triggered]; exact edgeOfBits_eq _ (edgeOk triggered)
    · exact congrArg (fun d : BitVec 4 => d.toNat + 1) (if_pos triggered)
  · refine ⟨?_, if_neg other, if_neg other⟩
    rw [if_neg fun h => other h.1]
  · exact congrArg (fun d : BitVec 8 => d.toNat + 1) (if_pos burst)
  · exact if_neg other

end Sys2Proof.Machine
end

