-- ==== Sys2Proof/Proofs/Starts.lean ====
section
/-! PROOF. Requests that may start a conversion at once: START_BURST, READ_NOW and the expiry of a period timer (R20, R26, R35, R42). -/

namespace Sys2Proof.Machine

/-! ### The selection of a lone entry -/

section Lone

variable {u : State} {e : PendingEntry} {y : SubEntry}

/-- An entry merges with itself. -/
theorem sameConversion_self (e : PendingEntry) : e.sameConversion e = true := sameConversion_iff.mpr ⟨rfl, rfl, rfl⟩

theorem select_single (only : u.requests = [e]) : select u = startConversion u e := by
  unfold select; rw [only]; rfl

theorem select_single_requests (only : u.requests = [e]) : (select u).requests = [] := by
  rw [select_single only]
  show u.requests.filter (fun x => !x.sameConversion e) = []
  rw [only]; simp [sameConversion_self]

theorem mergedWith_single (only : u.requests = [e]) : mergedWith e u.requests = [e] := by
  rw [only]; simp [mergedWith, sameConversion_self]

/-- The record of a lone entry with one subscriber. -/
theorem select_single_record (only : u.requests = [e]) (one : e.subs = [y]) :
    ∃ r, (select u).conv.record = some r ∧ r.subs = [⟨y, false⟩] := by
  refine ⟨startedRecord u e, ?_, ?_⟩
  · rw [select_single only]; exact (startConversion_record u e).1
  · show ((mergedWith e u.requests).flatMap fun e => e.subs).map (fun x => (⟨x, false⟩ : FlightEntry)) = _
    rw [mergedWith_single only, List.flatMap_singleton, one]; rfl

theorem select_single_slot (only : u.requests = [e]) (one : e.subs = [y]) (n : SlotNo) : (select u).slots[n] =
    if y.origin = .slot n then { u.slots[n] with pendingFlag := false, inFlightFlag := true } else u.slots[n] := by
  rw [select_single only, startConversion_slot, startedRecord_names, mergedWith_single only, List.flatMap_singleton, one]
  simp [names]

/-- The selection of a lone entry with one subscriber touches no slot but the subscriber's. -/
theorem sameBut_select_single {l : List Part} (only : u.requests = [e]) (one : e.subs = [y]) (request : .requests ∈ l)
    (converter : .converter ∈ l) (slot : ∀ n, y.origin = .slot n → .slot n ∈ l) : sameBut l u (select u) := by
  intro x notMem
  by_cases isSlot : ∃ n, x = .slot n
  · obtain ⟨n, rfl⟩ := isSlot
    refine (select_single_slot only one n).trans (if_neg fun named => notMem (slot n named))
  · refine sameBut_select u x fun mem => ?_
    simp only [allSlots, List.mem_append, List.mem_cons, List.not_mem_nil, or_false, List.mem_map] at mem
    rcases mem with (rfl | rfl) | ⟨n, -, rfl⟩
    · exact notMem request
    · exact notMem converter
    · exact isSlot ⟨n, rfl⟩

end Lone

/-! ### A request that finds the list empty is selected when the converter is IDLE (R42) -/

/-- The request waits: the converter works, or other entries are pending. -/
theorem newRequest_waits {s u : State} (conv : u.conv = s.conv) (busy : s.conv.phase ≠ .idle ∨ s.requests ≠ []) :
    (if s.requests.isEmpty then selectIfIdle u else u) = u := by
  split
  · rename_i empty
    refine if_neg ?_
    rw [conv]
    exact busy.resolve_right (not_not_intro (List.isEmpty_iff.mp empty))
  · rfl

theorem newRequest_starts {s u : State} (conv : u.conv = s.conv) (idle : s.conv.phase = .idle) (empty : s.requests = []) :
    (if s.requests.isEmpty then selectIfIdle u else u) = select u := by
  rw [if_pos (List.isEmpty_iff.mpr empty)]
  exact if_pos (conv ▸ idle)

@[simp] theorem startConversion_ports (u : State) (w : PendingEntry) : (startConversion u w).ports = u.ports := by
  simp [startConversion]

@[simp] theorem startConversion_sessions (u : State) (w : PendingEntry) : (startConversion u w).sessions = u.sessions := by
  simp [startConversion]

@[simp] theorem startConversion_now (u : State) (w : PendingEntry) : (startConversion u w).now = u.now := by
  simp [startConversion, State.now]

/-- A port and a session do not bear on the start of a conversion. -/
theorem startConversion_setPort (u : State) (w : PendingEntry) (p : Port) (x : PortState) :
    (startConversion u w).setPort p x = startConversion (u.setPort p x) w := rfl

theorem startConversion_setSession (u : State) (w : PendingEntry) (p : Port) (x : Session) :
    (startConversion u w).setSession p x = startConversion (u.setSession p x) w := rfl

theorem startConversion_setResult (u : State) (w : PendingEntry) (p : Port) (r : ResultReg) :
    setResult (startConversion u w) p r = startConversion (setResult u p r) w := by
  unfold setResult
  rw [startConversion_ports, startConversion_setPort]

theorem startConversion_lease (u : State) (w : PendingEntry) (p : Port) :
    leaseRestart (startConversion u w) p = startConversion (leaseRestart u p) w := by
  have isOpen : (startConversion u w).isOpen p = u.isOpen p :=
    isOpen_of_same (sameBut_startConversion u w (.session p) (by simp [allSlots]))
  unfold leaseRestart
  rw [isOpen, startConversion_now, startConversion_sessions, startConversion_setSession]
  split <;> rfl

theorem select_lease (u : State) (p : Port) (r : ResultReg) :
    leaseRestart (setResult (select u) p r) p = select (leaseRestart (setResult u p r) p) := by
  have now : (leaseRestart (setResult u p r) p).now = u.now := by simp [State.now]
  unfold select
  rw [now, leaseRestart_requests, setResult_requests]
  split
  · rw [startConversion_setResult, startConversion_lease]
  · rfl

/-- The rise, the result register and the lease leave the demand-outstanding flag as the act left it. -/
theorem riseEffect_demand (p : Port) (act : List Byte → State → Done) (f : Frame) (s : State) :
    (riseEffect p act f s).sessions[p].demandOutstanding = (act f.args s).1.sessions[p].demandOutstanding := by
  rw [riseEffect, leaseRestart_session]
  split
  · rfl
  · rfl

section Rise

variable {p : Port} {act : List Byte → State → Done} {f : Frame} {s u : State} {e : PendingEntry} {y : SubEntry} {d : Byte}
  {l : List Part}

/-- A set command that adds entry e, of one subscriber y, leaving u: the state after it, with the selection that follows
when the converter is IDLE and no other entry is pending (R20, R26, R42). -/
theorem riseEffect_newRequest
    (effect : act f.args (raiseSelect s p) = (if s.requests.isEmpty then selectIfIdle u else u, ⟨.ok, d⟩))
    (frame : sameBut (l ++ [.requests]) (raiseSelect s p) u) (notSelect : .select p ∉ l) (notFrame : .frame p ∉ l)
    (notExpiry : .expiry p ∉ l) (conv : u.conv = s.conv) (requests : u.requests = s.requests ++ [e]) (one : e.subs = [y])
    (slot : ∀ n, y.origin = .slot n → .slot n ∈ l) :
    let t := riseEffect p act f (raiseSelect s p)
    accepted p d (l ++ [.requests, .converter]) s t
      ∧ t.sessions[p].demandOutstanding = u.sessions[p].demandOutstanding
      ∧ (s.conv.phase ≠ .idle ∨ s.requests ≠ [] →
        t.requests = s.requests ++ [e] ∧ t.conv = s.conv ∧ ∀ n : SlotNo, t.slots[n] = u.slots[n])
      ∧ (s.conv.phase = .idle → s.requests = [] → t.requests = []
        ∧ (∃ v, accepted p d (l ++ [.requests]) s v ∧ v.requests = [e] ∧ (∀ n : SlotNo, v.slots[n] = u.slots[n])
          ∧ v.sessions[p].demandOutstanding = u.sessions[p].demandOutstanding ∧ selectedFrom v t)
        ∧ (∃ r, t.conv.record = some r ∧ r.subs = [⟨y, false⟩])
        ∧ ∀ n : SlotNo, t.slots[n] =
          if y.origin = .slot n then { u.slots[n] with pendingFlag := false, inFlightFlag := true } else u.slots[n]) := by
  have wider : sameBut (l ++ [.requests, .converter]) (raiseSelect s p) u :=
    sameBut_mono frame fun x mem => by simpa using (List.mem_append.mp mem).imp_right fun h => .inl (by simpa using h)
  by_cases waits : s.conv.phase ≠ .idle ∨ s.requests ≠ []
  · rw [newRequest_waits conv waits] at effect
    refine ⟨riseEffect_accepted effect wider (by simpa) (by simpa) (.inl (by simpa)), ?_, fun _ => ⟨?_, ?_, fun n => ?_⟩,
      fun idle empty => absurd waits (not_or.mpr ⟨not_not_intro idle, not_not_intro empty⟩)⟩
    · rw [riseEffect_demand, effect]
    · rw [riseEffect_requests, effect]; exact requests
    · rw [riseEffect_conv, effect]; exact conv
    · rw [riseEffect_slots, effect]
  · obtain ⟨idle, empty⟩ : s.conv.phase = .idle ∧ s.requests = [] := by simpa using waits
    rw [newRequest_starts conv idle empty] at effect
    have only : u.requests = [e] := by rw [requests, empty]; rfl
    have selects := sameBut_select_single (l := l ++ [.requests, .converter]) only one (by simp) (by simp)
      fun n origin => List.mem_append_left _ (slot n origin)
    have without := riseEffect_accepted (act := fun _ _ => (u, ⟨.ok, d⟩)) (f := f) rfl frame (by simpa) (by simpa)
      (.inl (by simpa))
    have follows : riseEffect p act f (raiseSelect s p)
        = select (riseEffect p (fun _ _ => (u, ⟨.ok, d⟩)) f (raiseSelect s p)) := by
      unfold riseEffect
      rw [effect]
      exact select_lease u p ⟨.ok, d⟩
    have only' := (riseEffect_requests p (fun _ _ => (u, ⟨.ok, d⟩)) f (raiseSelect s p)).trans only
    refine ⟨riseEffect_accepted effect (sameBut_trans wider selects) (by simpa) (by simpa) (.inl (by simpa)), ?_,
      fun waits => absurd waits (not_or.mpr ⟨not_not_intro idle, not_not_intro empty⟩),
      fun _ _ => ⟨?_, ⟨_, without, only', fun n => by rw [riseEffect_slots], riseEffect_demand _ _ _ _, ?_⟩, ?_, fun n => ?_⟩⟩
    · rw [riseEffect_demand, effect]
      exact congrArg (fun x : Vector Session 4 => x[p].demandOutstanding)
        ((congrArg State.sessions (select_single only)).trans (startConversion_sessions u e))
    · rw [riseEffect_requests, effect]; exact select_single_requests only
    · rw [follows]; exact select_selectedFrom (by rw [only']; exact List.cons_ne_nil _ _)
    · rw [riseEffect_conv, effect]; exact select_single_record only one
    · rw [riseEffect_slots, effect]; exact select_single_slot only one n

end Rise

/-- A slot whose request has been taken into a record (R46). -/
def inFlightSlot (x : Slot) : Slot := { x with pendingFlag := false, inFlightFlag := true }

/-! ### START_BURST (R20) -/

theorem startBurst_refused {s : State} {n : SlotNo}
    (refuses : s.slots[n].settings.kind ≠ .burst ∨ s.slots[n].state = .running) :
    startBurst n s = refuseWith s .badState := if_pos refuses

/-- Settles O38: START_BURST of a slot that is not a STOPPED BURST slot, and of one that is. -/
theorem startBurstStartsABurst : Obligations.StartBurstStartsABurst := by
  intro p s n due isOpen named owner live
  have acts : onOwnSlot p s.ports[p].frame.args (notRetiring startBurst) (raiseSelect s p)
      = startBurst n (raiseSelect s p) := onOwnSlot_acts (s := raiseSelect s p) isOpen named owner live
  refine ⟨_, (exec_startBurst p s).trans (takeSetting_due due rfl _), fun refuses => ?_, fun kind stopped => ?_⟩
  · exact riseEffect_refused (acts.trans (startBurst_refused (s := raiseSelect s p) refuses))
  · have effect := acts.trans (startBurst_starts (s := raiseSelect s p) stopped kind)
    have frame := sameBut_startBurstAt (raiseSelect s p) n s.now
    have slot := startBurstAt_slot (raiseSelect s p) n s.now
    obtain ⟨isAccepted, -, waits, starts⟩ := riseEffect_newRequest (l := [.slot n])
      (act := fun args => onOwnSlot p args (notRetiring startBurst)) (f := s.ports[p].frame) effect frame (by simp) (by simp) (by simp)
      (frame .converter (by simp)) (startBurstAt_requests (s := raiseSelect s p) s.now kind) rfl
      fun m origin => by cases origin; exact List.mem_singleton_self _
    refine ⟨isAccepted, fun busy => ?_, fun idle empty => ?_⟩
    · obtain ⟨requests, conv, slots⟩ := waits busy
      exact ⟨requests, conv, (slots n).trans slot⟩
    · obtain ⟨requests, ⟨v, without, only, slots, -, selects⟩, record, after⟩ := starts idle empty
      refine ⟨requests, ⟨v, without, only, (slots n).trans slot, selects⟩, record, ?_⟩
      exact (after n).trans ((if_pos rfl).trans (congrArg inFlightSlot slot :))

/-! ### READ_NOW (R26) -/

theorem readNowArgs_none {b0 b1 b2 : Byte} (bad : 19 < b0.toNat ∨ 3 < b1.toNat ∨ 4 < b2.toNat) :
    readNowArgs b0 b1 b2 = none := by
  unfold readNowArgs
  split
  · rename_i c channel
    have named := channelOfByte_val channel
    have bound := c.isLt
    exact if_neg (by omega)
  · rfl

theorem readNowArgs_some {b0 b1 b2 : Byte} {c : Channel} (named : b0.toNat = c.val) (sample : b1.toNat ≤ 3)
    (avg : b2.toNat ≤ 4) : readNowArgs b0 b1 b2 = some (c, b1.setWidth 2, b2.setWidth 3) := by
  rw [readNowArgs, channelOfByte_some named]
  exact if_pos ⟨sample, avg⟩

/-- The checks of READ_NOW after its arguments' (R26). -/
theorem readNow_valid {p : Port} {args : List Byte} {s : State} {c : Channel} {x : BitVec 2} {y : BitVec 3}
    (valid : readNowArgs (argByte args 0) (argByte args 1) (argByte args 2) = some (c, x, y)) :
    readNow p args s = if s.sessions[p].demandOutstanding then refuseWith s .busy
      else if s.oddPartner c then refuseWith s .inUse
      else (if s.requests.isEmpty then selectIfIdle (requestDemand s p c x y) else requestDemand s p c x y,
        ⟨.ok, BitVec.ofNat 8 c.val⟩) := by
  rw [readNow, valid]

theorem requestDemand_outstanding (s : State) (p : Port) (c : Channel) (x : BitVec 2) (y : BitVec 3) :
    (requestDemand s p c x y).sessions[p].demandOutstanding = true :=
  congrArg Session.demandOutstanding (getElem_set_same _ _ _)

/-- Settles O45: the checks of READ_NOW in their order, and the demand that it adds. -/
theorem readNowAddsADemand : Obligations.ReadNowAddsADemand := by
  intro p s due isOpen
  have acts : withSession p (readNow p s.ports[p].frame.args) (raiseSelect s p)
      = readNow p s.ports[p].frame.args (raiseSelect s p) := withSession_open (s := raiseSelect s p) isOpen
  refine ⟨_, (exec_readNow p s).trans (takeSetting_due due rfl _), fun bad => ?_, fun c named sample avg => ?_⟩
  · refine riseEffect_refused (acts.trans ?_)
    have none : readNowArgs (argByte s.ports[p].frame.args 0) (argByte s.ports[p].frame.args 1)
        (argByte s.ports[p].frame.args 2) = none := readNowArgs_none bad
    rw [readNow, none]
  · have detail : BitVec.ofNat 8 c.val = arg s p 0 := by rw [← named]; simp
    have checked := acts.trans (readNow_valid (s := raiseSelect s p) (readNowArgs_some named sample avg))
    refine ⟨fun busy => ?_, fun free inUse => ?_, fun free unpaired => ?_⟩
    · exact riseEffect_refused (checked.trans (if_pos busy))
    · exact riseEffect_refused (checked.trans ((if_neg (by rw [raiseSelect_sessions, free]; exact Bool.false_ne_true)).trans (if_pos inUse)))
    · have effect := checked.trans ((if_neg (by rw [raiseSelect_sessions, free]; exact Bool.false_ne_true)).trans
        (if_neg (by rw [raiseSelect_oddPartner, unpaired]; exact Bool.false_ne_true)))
      rw [detail] at effect
      have frame := sameBut_requestDemand (raiseSelect s p) p c ((arg s p 1).setWidth 2) ((arg s p 2).setWidth 3)
      obtain ⟨isAccepted, outstanding, waits, starts⟩ := riseEffect_newRequest (l := [.demand p])
        (act := fun args => withSession p (readNow p args)) (f := s.ports[p].frame) effect frame (by simp) (by simp) (by simp)
        (frame .converter (by simp)) rfl rfl nofun
      have marked := requestDemand_outstanding (raiseSelect s p) p c ((arg s p 1).setWidth 2) ((arg s p 2).setWidth 3)
      refine ⟨isAccepted, outstanding.trans marked, fun busy => ?_, fun idle empty => ?_⟩
      · obtain ⟨requests, conv, -⟩ := waits busy
        exact ⟨conv, requests⟩
      · obtain ⟨requests, ⟨v, without, only, -, demand, selects⟩, record, -⟩ := starts idle empty
        exact ⟨requests, ⟨v, without, only, demand.trans marked, selects⟩, record⟩

/-! ### The expiry of a period timer (R35) -/

theorem exec_periodTimer_expires {s : State} {n : SlotNo} (runs : s.slots[n].state = .running)
    (kind : s.slots[n].settings.kind = .periodic) (isDue : (s.now - s.slots[n].nextDue).toNat < 2147483648) :
    exec (.periodTimerExpiry n) s = .next (expirePeriod s n) := by
  rw [exec_periodTimerExpiry, execPeriodTimerExpiry]
  exact if_pos (periodExpires_iff.mpr ⟨runs, kind, decide_eq_true isDue⟩)

/-- An expiry that finds the slot's request pending is an overrun of it. -/
theorem expirePeriod_pending {s : State} {n : SlotNo} (pending : s.slots[n].pendingFlag = true) :
    expirePeriod s n = (overrunSlot s n).setSlot n { (overrunSlot s n).slots[n] with
      nextDue := s.slots[n].nextDue + ticks22 s.slots[n].settings.period } := by
  unfold expirePeriod
  exact if_pos pending

/-- The request of an expiry, before the selection that may follow. -/
def periodRequested (s : State) (n : SlotNo) : State :=
  (requestSlot s n s.slots[n].nextDue).setSlot n { (requestSlot s n s.slots[n].nextDue).slots[n] with
    nextDue := s.slots[n].nextDue + ticks22 s.slots[n].settings.period }

theorem expirePeriod_requests {s : State} {n : SlotNo} (free : s.slots[n].pendingFlag = false) :
    expirePeriod s n = if s.requests.isEmpty then selectIfIdle (periodRequested s n) else periodRequested s n := by
  unfold expirePeriod
  exact if_neg (by rw [free]; exact Bool.false_ne_true)

theorem periodRequested_slot (s : State) (n : SlotNo) : (periodRequested s n).slots[n] =
    { s.slots[n] with
      nextDue := s.slots[n].nextDue + ticks22 s.slots[n].settings.period, pendingFlag := true } := by
  rw [periodRequested, requestSlot_slot]
  exact getElem_set_same _ _ _

theorem periodRequested_requests {s : State} {n : SlotNo} (kind : s.slots[n].settings.kind = .periodic) :
    (periodRequested s n).requests = s.requests ++
      [{ channel := s.slots[n].settings.channel, sampleCode := s.slots[n].settings.sampleCode
         avgCode := s.slots[n].settings.avgCode, subs := [⟨.slot n, .routine, s.slots[n].nextDue, false, false⟩]
         preemptCount := 0 }] := by
  show s.requests ++ _ = _
  rw [kind]
  rfl

theorem sameBut_periodRequested (s : State) (n : SlotNo) : sameBut [.slot n, .requests] s (periodRequested s n) :=
  sameBut_trans (sameBut_requestSlot s n _) (sameBut_mono (sameBut_setSlot _ n _) (by simp))

/-- Settles O54: the expiry of a period timer is an overrun of the pending request, or a new one. -/
theorem periodTimerExpiryMakesARequest : Obligations.PeriodTimerExpiryMakesARequest := by
  intro n s runs kind isDue
  refine ⟨_, exec_periodTimer_expires runs kind isDue, ?_⟩
  by_cases flag : s.slots[n].pendingFlag = true
  · rw [expirePeriod_pending flag]
    have frame : sameBut [.slot n, .requests] s ((overrunSlot s n).setSlot n { (overrunSlot s n).slots[n] with
        nextDue := s.slots[n].nextDue + ticks22 s.slots[n].settings.period }) :=
      sameBut_trans (sameBut_overrunSlot s n) (sameBut_mono (sameBut_setSlot _ n _) (by simp))
    refine ⟨sameBut_mono frame (by simp), fun _ => ⟨frame .converter (by simp), ?_, rfl⟩,
      fun free => absurd flag (by simp [free, -Fin.getElem_fin]), fun free => absurd flag (by simp [free, -Fin.getElem_fin])⟩
    rw [overrunSlot_slot]
    exact getElem_set_same _ _ _
  · have frame := sameBut_periodRequested s n
    have conv : (periodRequested s n).conv = s.conv := frame .converter (by simp)
    have requests := periodRequested_requests kind
    have slot := periodRequested_slot s n
    have wider : sameBut [.slot n, .requests, .converter] s (periodRequested s n) := sameBut_mono frame (by simp)
    rw [expirePeriod_requests (Bool.eq_false_iff.mpr flag)]
    by_cases waits : s.conv.phase ≠ .idle ∨ s.requests ≠ []
    · rw [newRequest_waits conv waits]
      exact ⟨wider, fun pending => absurd pending flag, fun _ _ => ⟨conv, slot, requests⟩,
        fun _ idle empty => absurd waits (not_or.mpr ⟨not_not_intro idle, not_not_intro empty⟩)⟩
    · obtain ⟨idle, empty⟩ : s.conv.phase = .idle ∧ s.requests = [] := by simpa using waits
      rw [newRequest_starts conv idle empty]
      have only := requests.trans (congrArg (· ++ [_]) empty)
      refine ⟨?_, fun pending => absurd pending flag, fun _ busy => absurd busy waits, fun _ _ _ => ?_⟩
      · refine sameBut_trans wider (sameBut_select_single only rfl (by simp) (by simp) fun m origin => ?_)
        cases origin; simp
      · refine ⟨select_single_requests only, ?_, ⟨_, frame, only, slot, select_selectedFrom (by rw [only]; exact nofun)⟩,
          select_single_record only rfl⟩
        rw [select_single_slot only rfl, if_pos rfl]
        exact (congrArg inFlightSlot slot :)

end Sys2Proof.Machine
end

