-- ==== Sys2Proof/Proofs/ReadBuffer.lean ====
section
/-! PROOF. FETCH: the snapshot of a slot in the read buffer (R23, 11.4). -/

namespace Sys2Proof.Machine

/-- The rise, the result register and the lease leave a read buffer as the act left it. -/
theorem riseEffect_readBuf (p : Port) (act : List Byte → State → Done) (f : Frame) (s : State) :
    (riseEffect p act f s).ports[p].readBuf = (act f.args s).1.ports[p].readBuf := by
  rw [riseEffect, leaseRestart_ports, setResult_port]

theorem fetch_readBuf (p : Port) (n : SlotNo) (s : State) : (fetch p n s).1.ports[p].readBuf = snapshot n s.slots[n] := by
  rw [fetch, okSlot, State.setPort_ports, getElem_set_same]

theorem snapshot_byte (n : SlotNo) (x : Slot) (i : Nat) (h : i < 32) : (snapshot n x)[i] = (snapshotBytes n x).getD i 0 :=
  Vector.getElem_ofFn h

/-- The four bytes of a word, and the two of a half word, put together again. -/
theorem bytes4_join (w : BitVec 32) :
    w.extractLsb' 24 8 ++ w.extractLsb' 16 8 ++ w.extractLsb' 8 8 ++ w.extractLsb' 0 8 = w := by
  refine BitVec.eq_of_toNat_eq ?_
  have bound := w.isLt
  simp only [BitVec.extractLsb'_toNat, toNat_append_add, Nat.shiftRight_eq_div_pow]
  omega

theorem bytes2_join (w : BitVec 16) : w.extractLsb' 8 8 ++ w.extractLsb' 0 8 = w := by
  refine BitVec.eq_of_toNat_eq ?_
  have bound := w.isLt
  simp only [BitVec.extractLsb'_toNat, toNat_append_add, Nat.shiftRight_eq_div_pow]
  omega

theorem settingsWord3_eq (x : Settings) : settingsWord3 x = (match x.window with
    | none => 0#32
    | some y => 1#1 ++ 0#3 ++ y.low ++ 0#4 ++ y.high) := by
  unfold settingsWord3
  cases x.window <;> rfl

/-- Settles O40: FETCH puts the slot's snapshot into the read buffer, field by field. -/
theorem fetchFillsTheReadBuffer : Obligations.FetchFillsTheReadBuffer := by
  intro p s n due isOpen named owner used
  have effect : onOwnSlot p s.ports[p].frame.args (fetch p) (raiseSelect s p) = fetch p n (raiseSelect s p) :=
    onOwnSlot_own (s := raiseSelect s p) isOpen named owner used
  refine ⟨_, (exec_fetch p s).trans (takeSetting_due due rfl _),
    riseEffect_accepted effect (sameBut_fetch p n _) (by simp) (by simp) (.inl (by simp)), ?_⟩
  have buffer : (riseEffect p (fun args => onOwnSlot p args (fetch p)) s.ports[p].frame (raiseSelect s p)).ports[p].readBuf
      = snapshot n s.slots[n] := by
    rw [riseEffect_readBuf, effect]; exact fetch_readBuf p n (raiseSelect s p)
  rw [buffer]
  generalize s.slots[n] = x at owner
  simp only [snapshot_byte, snapshotBytes, bytes4, bytes2, List.cons_append, List.nil_append, List.getD_cons_succ,
    List.getD_cons_zero, bytes4_join, bytes2_join, true_and, and_true]
  refine ⟨?_, ?_, ?_, ?_, settingsWord3_eq x.settings, ?_, rfl⟩
  · rw [owner]
    cases x.state <;> rfl
  · unfold settingsWord0
    cases x.settings.kind <;> rfl
  · unfold settingsWord1
    cases x.settings.line <;> rfl
  · unfold settingsWord2
    cases x.settings.edge <;> rfl
  · cases x.windowPos <;> rfl

end Sys2Proof.Machine
end

