-- ==== Sys2Proof/Proofs/Configure.lean ====
section
/-! PROOF. CONFIGURE and RELEASE_QUEUE: the checks, the change of a channel and whom it is reported to (R78 to R83, R25). -/

namespace Sys2Proof.Machine

/-- The rise, the result register and the lease leave the queues as the act left them. -/
@[simp] theorem riseEffect_queues (p : Port) (act : List Byte → State → Done) (f : Frame) (s : State) :
    (riseEffect p act f s).queues = (act f.args s).1.queues := by simp [riseEffect]

@[simp] theorem riseEffect_events (p : Port) (act : List Byte → State → Done) (f : Frame) (s : State) :
    (riseEffect p act f s).events = (act f.args s).1.events := by simp [riseEffect]

/-! ### The configuration byte (R191) -/

theorem configOfByte_reserved {b : Byte} (reserved : b.extractLsb' 2 4 ≠ 0#4) : configOfByte b = none := if_neg reserved

theorem configOfByte_some {b : Byte} {m : Mode} {x : Span} {y : BitVec 2} : configOfByte b = some (m, x, y) ↔
    b.extractLsb' 2 4 = 0#4 ∧ (m = .paired ↔ b.getLsbD 7 = true) ∧ (x = .half ↔ b.getLsbD 6 = true)
      ∧ y = b.extractLsb' 0 2 := by
  unfold configOfByte
  simp only [bit_eq_zero]
  by_cases reserved : b.extractLsb' 2 4 = 0#4
  · rw [if_pos reserved, Option.some.injEq, Prod.mk.injEq, Prod.mk.injEq, and_iff_right reserved]
    refine and_congr ?_ (and_congr ?_ eq_comm)
    · cases b.getLsbD 7 <;> cases m <;> decide
    · cases b.getLsbD 6 <;> cases x <;> decide
  · rw [if_neg reserved]
    exact iff_of_false nofun fun h => reserved h.1

/-! ### The checks of CONFIGURE (R79, R80) -/

theorem configure_badArg {p : Port} {args : List Byte} {s : State}
    (bad : 15 < (argByte args 0).toNat ∨ (argByte args 1).extractLsb' 2 4 ≠ 0#4) :
    configure p args s = refuseWith s .badArg := by
  unfold configure
  rcases bad with above | reserved
  · rw [externalOfByte_none above]
  · rw [configOfByte_reserved reserved]
    split <;> rfl

theorem configure_valid {p : Port} {args : List Byte} {s : State} {c : Fin 16} {m : Mode} {x : Span} {y : BitVec 2}
    (named : (argByte args 0).toNat = c.val) (config : configOfByte (argByte args 1) = some (m, x, y)) :
    configure p args s = configureChannel p c m x y s := by
  rw [configure, externalOfByte_some named, config]

/-- The partner of a channel is busy for port p: a slot uses it, or another port holds it (R80). -/
theorem partnerBusy_iff {s : State} {p : Port} {d : Fin 16} : partnerBusy s p d = true ↔
    (∃ n : SlotNo, s.slots[n].state ≠ .free ∧ s.slots[n].settings.channel.val = d.val)
      ∨ ∃ q : Port, q ≠ p ∧ s.channels[d].holder = some q := by
  unfold partnerBusy channelHasSlot
  rw [Bool.or_eq_true]
  refine or_congr ?_ ?_
  · simp [State.isFree, Fin.ext_iff, externalChannel, -Fin.getElem_fin]
  · cases s.channels[d].holder <;> simp

section Checks

variable {p : Port} {c : Fin 16} {m : Mode} {x : Span} {y : BitVec 2} {s : State}

theorem configureChannel_notHeld (notHeld : s.channels[c].holder ≠ some p) :
    configureChannel p c m x y s = refuseWith s .notOwner := if_pos notHeld

theorem configureChannel_odd (held : s.channels[c].holder = some p) (paired : m = .paired) (odd : c.val % 2 = 1) :
    configureChannel p c m x y s = refuseWith s .badArg :=
  (if_neg (not_not_intro held)).trans (if_pos ⟨paired, odd⟩)

theorem configureChannel_busy {d : Fin 16} (held : s.channels[c].holder = some p) (paired : m = .paired)
    (even : c.val % 2 = 0) (partner : d.val = c.val + 1) (busy : partnerBusy s p d = true) :
    configureChannel p c m x y s = refuseWith s .inUse := by
  have isBusy : ((partnerOf c).map (partnerBusy s p)).getD false = true := by
    rw [partnerOf_some.mpr ⟨even, partner⟩]; exact busy
  exact (if_neg (not_not_intro held)).trans ((if_neg (by omega)).trans (if_pos ⟨paired, isBusy⟩))

/-- What CONFIGURE needs to make a channel PAIRED: it is even, and its partner is free of slots and of other ports (R80). -/
def pairable (p : Port) (c : Fin 16) (s : State) : Prop :=
  c.val % 2 = 0 ∧ ∀ d : Fin 16, d.val = c.val + 1 →
    (∀ n : SlotNo, s.slots[n].state ≠ .free → s.slots[n].settings.channel.val ≠ d.val)
      ∧ (s.channels[d].holder = none ∨ s.channels[d].holder = some p)

theorem pairable_partner {d : Fin 16} (ok : pairable p c s) (partner : partnerOf c = some d) :
    partnerBusy s p d = false := by
  obtain ⟨-, next⟩ := partnerOf_some.mp partner
  obtain ⟨noSlot, free⟩ := ok.2 d next
  refine Bool.eq_false_iff.mpr fun busy => ?_
  rcases partnerBusy_iff.mp busy with ⟨n, used, same⟩ | ⟨q, other, held⟩
  · exact noSlot n used same
  · rw [held] at free
    exact other (Option.some.inj (free.resolve_left nofun))

theorem configureChannel_passes (held : s.channels[c].holder = some p) (pairs : m = .paired → pairable p c s) :
    configureChannel p c m x y s =
      if s.channels[c].mode = m ∧ s.channels[c].span = x ∧ s.channels[c].extraSettle = y
      then (s, ⟨.ok, s.channels[c].generation⟩)
      else (applyChange s p c m x y, ⟨.ok, s.channels[c].generation + 1⟩) := by
  have even : ¬ (m = .paired ∧ c.val % 2 = 1) := fun ⟨paired, odd⟩ => by
    have := (pairs paired).1; omega
  have free : ¬ (m = .paired ∧ ((partnerOf c).map (partnerBusy s p)).getD false = true) := fun ⟨paired, busy⟩ => by
    cases partner : partnerOf c with
    | none => rw [partner] at busy; cases busy
    | some d =>
      rw [partner, Option.map_some, pairable_partner (pairs paired) partner] at busy
      cases busy
  exact (if_neg (not_not_intro held)).trans ((if_neg even).trans (if_neg free))

end Checks

/-- Settles O42: the checks of CONFIGURE in their order, and its answer to the configuration that the channel has. -/
theorem configureRefusals : Obligations.ConfigureRefusals := by
  refine ⟨fun b m x y => configOfByte_some, fun p s due isOpen => ?_⟩
  have acts : withSession p (configure p s.ports[p].frame.args) (raiseSelect s p)
      = configure p s.ports[p].frame.args (raiseSelect s p) := withSession_open (s := raiseSelect s p) isOpen
  refine ⟨_, (exec_configure p s).trans (takeSetting_due due rfl _), fun bad => ?_, fun c m x y named config => ?_⟩
  · exact riseEffect_refused (acts.trans (configure_badArg bad))
  · have valid := acts.trans (configure_valid named config)
    refine ⟨fun notHeld => ?_, fun held paired odd => ?_, fun d held paired even next busy => ?_,
      fun held sameMode sameSpan sameSettle pairs => ?_⟩
    · exact riseEffect_refused (valid.trans (configureChannel_notHeld (s := raiseSelect s p) notHeld))
    · exact riseEffect_refused (valid.trans (configureChannel_odd (s := raiseSelect s p) held paired odd))
    · have isBusy : partnerBusy (raiseSelect s p) p d = true := partnerBusy_iff.mpr busy
      exact riseEffect_refused (valid.trans (configureChannel_busy held paired even next isBusy))
    · have passes := valid.trans (configureChannel_passes (s := raiseSelect s p) held pairs)
      have effect := passes.trans (if_pos ⟨sameMode, sameSpan, sameSettle⟩)
      exact riseEffect_accepted effect (sameBut_refl _ _) (by simp) (by simp) (.inl (by simp))

/-! ### Whom a change is reported to (R81) -/

/-- Port q is told of a change of channel c that port p makes: another port with an OPEN session and a live slot on it. -/
def tells (s : State) (p : Port) (c : Fin 16) (q : Port) : Bool :=
  decide (q ≠ p) && s.isOpen q && hasLiveSlotOn s q (externalChannel c)

theorem tells_iff {s : State} {p q : Port} {c : Fin 16} : tells s p c q = true ↔ q ≠ p ∧ s.isOpen q = true
    ∧ ∃ n : SlotNo, s.slots[n].owner = some q ∧ (s.slots[n].state = .stopped ∨ s.slots[n].state = .running)
      ∧ s.slots[n].settings.channel = externalChannel c := by
  simp only [tells, hasLiveSlotOn, Bool.and_eq_true, decide_eq_true_eq, List.any_eq_true, List.mem_finRange, true_and,
    ownLive_iff, and_assoc]

theorem tells_congr {s t : State} (slots : ∀ n : SlotNo, t.slots[n] = s.slots[n])
    (opens : ∀ q, t.isOpen q = s.isOpen q) (p : Port) (c : Fin 16) (q : Port) : tells t p c q = tells s p c q := by
  rw [Bool.eq_iff_iff, tells_iff, tells_iff]
  simp only [slots, opens]

theorem sameBut_notifyChange (p : Port) (c : Fin 16) (g : Byte) (s : State) (q : Port) :
    sameBut [.events q] s (notifyChange p c g s q) :=
  sameBut_ite (sameBut_sendEvent s q _) (sameBut_refl _ _)

theorem notifyChange_events (p : Port) (c : Fin 16) (g : Byte) (s : State) (q : Port) :
    (notifyChange p c g s q).events[q] =
      if tells s p c q then s.events[q].offer (channelChanged c s.now g) else s.events[q] := by
  unfold notifyChange tells
  split
  · rename_i told
    simp only [Bool.and_eq_true] at told
    rw [sendEvent_open _ told.1.2]
    exact getElem_set_same _ _ _
  · rfl

/-- The ports of a list are told of a change, each of them once. -/
theorem notifyChange_foldl (p : Port) (c : Fin 16) (g : Byte) {l : List Port} (once : l.Nodup) (s : State) (q : Port) :
    (l.foldl (notifyChange p c g) s).events[q] =
      if q ∈ l ∧ tells s p c q = true then s.events[q].offer (channelChanged c s.now g) else s.events[q] := by
  induction l generalizing s with
  | nil => simp
  | cons r l ih =>
    obtain ⟨notAgain, once⟩ := List.nodup_cons.mp once
    have frame := sameBut_notifyChange p c g s r
    have now : (notifyChange p c g s r).now = s.now := now_of_timebase (frame .timebase (by simp))
    have same := tells_congr (fun n => frame (.slot n) (by simp))
      (fun q => isOpen_of_same (frame (.session q) (by simp))) p c q
    rw [List.foldl_cons, ih once, same, now]
    by_cases isHead : q = r
    · subst isHead
      rw [notifyChange_events]
      simp [notAgain]
    · have kept : (notifyChange p c g s r).events[q] = s.events[q] := frame (.events q) (by simp [isHead])
      rw [kept]
      simp [isHead]

/-- The channel of a change, and whether the converter holds its identity or converts it (R81, R82). -/
theorem reportChange_eq (v : Converter) (c : Channel) : reportChange v c = { v with
    identity := v.identity.filter fun x => decide (x.1 ≠ c)
    record := v.record.map fun r => if r.channel = c then { r with reconfigured := true } else r } := by
  unfold reportChange
  cases v.identity with
  | none => rfl
  | some x => obtain ⟨d, g⟩ := x; by_cases same : d = c <;> simp [same, Option.filter]

/-! ### The change itself (R80 to R83) -/

section Change

variable (s : State) (p : Port) (c : Fin 16) (m : Mode) (x : Span) (y : BitVec 2)

/-- The state of a change before the other ports are told of it. -/
def untold : State :=
  let u := releasePartner (s.setChannel c { s.channels[c] with
    mode := m, span := x, extraSettle := y, generation := s.channels[c].generation + 1 }) p c m
  u.setConv (reportChange u.conv (externalChannel c))

theorem applyChange_eq : applyChange s p c m x y =
    (List.finRange 4).foldl (notifyChange p c (s.channels[c].generation + 1)) (untold s p c m x y) := rfl

theorem sameBut_untold : sameBut ([.converter] ++ allChannels) s (untold s p c m x y) :=
  sameBut_trans (sameBut_mono (sameBut_setChannel _ _ _) (by simp)) (sameBut_trans
    (sameBut_mono (sameBut_releasePartner _ p c m) fun _ mem => List.mem_append_right _ mem)
    (sameBut_mono (sameBut_setConv _ _) (by simp)))

theorem untold_conv : (untold s p c m x y).conv = reportChange s.conv (externalChannel c) := by
  refine congrArg (reportChange · (externalChannel c)) ?_
  exact (sameBut_releasePartner _ p c m .converter (by simp [allChannels])).trans
    (sameBut_setChannel s c _ .converter (by simp))

theorem applyChange_conv : (applyChange s p c m x y).conv = reportChange s.conv (externalChannel c) := by
  rw [applyChange_eq]
  refine Eq.trans ?_ (untold_conv s p c m x y)
  exact sameBut_foldl (l := allEvents)
    (fun u q => sameBut_mono (sameBut_notifyChange p c _ u q) (by simp)) _ _ .converter (by simp [allEvents])

theorem applyChange_events (q : Port) : (applyChange s p c m x y).events[q] =
    if tells s p c q then s.events[q].offer (channelChanged c s.now (s.channels[c].generation + 1)) else s.events[q] := by
  have frame := sameBut_untold s p c m x y
  have same := tells_congr (fun n => frame (.slot n) (by simp [allChannels]))
    (fun q => isOpen_of_same (frame (.session q) (by simp [allChannels]))) p c q
  have now : (untold s p c m x y).now = s.now := now_of_timebase (frame .timebase (by simp [allChannels]))
  have events : (untold s p c m x y).events[q] = s.events[q] := frame (.events q) (by simp [allChannels])
  rw [applyChange_eq, notifyChange_foldl p c _ (List.nodup_finRange 4), same, now, events]
  simp [List.mem_finRange]

theorem applyChange_changed : (applyChange s p c m x y).channels[c] = { s.channels[c] with
    mode := m, span := x, extraSettle := y, generation := s.channels[c].generation + 1 } := by
  rw [applyChange_channels, releasePartner_channel, if_neg, State.setChannel_channels, getElem_set_same]
  rintro ⟨-, partner, -⟩
  have next := (partnerOf_some.mp partner).2
  omega

variable {s p c m x y} in
/-- Of the other channels, a change touches the partner alone: the claim on it ends (R80). -/
theorem applyChange_others {d : Fin 16} (other : d ≠ c) (pairs : m = .paired → pairable p c s) :
    (applyChange s p c m x y).channels[d] =
      if m = .paired ∧ d.val = c.val + 1 then { s.channels[d] with holder := none } else s.channels[d] := by
  rw [applyChange_channels, releasePartner_channel, State.setChannel_channels, getElem_set_other _ _ _ _ other.symm]
  by_cases partner : m = .paired ∧ d.val = c.val + 1
  · obtain ⟨paired, next⟩ := partner
    obtain ⟨even, free⟩ := pairs paired
    refine Eq.trans ?_ (if_pos ⟨paired, next⟩).symm
    rcases (free d next).2 with noHolder | held
    · refine (if_neg fun h => Option.some_ne_none p (h.2.2.symm.trans noHolder)).trans ?_
      rw [← noHolder]
    · exact if_pos ⟨paired, partnerOf_some.mpr ⟨even, next⟩, held⟩
  · refine (if_neg fun h => partner ?_).trans (if_neg partner).symm
    exact ⟨h.1, (partnerOf_some.mp h.2.1).2⟩

end Change

/-- Settles O43: an accepted CONFIGURE that changes the channel, part by part. -/
theorem configureChangesTheChannel : Obligations.ConfigureChangesTheChannel := by
  intro p s c m x y due isOpen named config held changes pairs
  have effect : withSession p (configure p s.ports[p].frame.args) (raiseSelect s p)
      = (applyChange (raiseSelect s p) p c m x y, ⟨.ok, s.channels[c].generation + 1⟩) :=
    calc
      _ = configure p s.ports[p].frame.args (raiseSelect s p) := withSession_open (s := raiseSelect s p) isOpen
      _ = configureChannel p c m x y (raiseSelect s p) := configure_valid named config
      _ = _ := configureChannel_passes (s := raiseSelect s p) held pairs
      _ = _ := if_neg changes
  refine ⟨_, (exec_configure p s).trans (takeSetting_due due rfl _),
    riseEffect_accepted effect (sameBut_applyChange _ p c m x y) (by simp [allChannels, allEvents])
      (by simp [allChannels, allEvents]) (.inl (by simp [allChannels, allEvents])), ?_, fun d other => ?_, ?_, fun q => ?_⟩
  · rw [riseEffect_channels, effect]; exact applyChange_changed (raiseSelect s p) p c m x y
  · rw [riseEffect_channels, effect]; exact applyChange_others (s := raiseSelect s p) other pairs
  · rw [riseEffect_conv, effect]; exact (applyChange_conv (raiseSelect s p) p c m x y).trans (reportChange_eq _ _)
  · rw [riseEffect_events, effect]
    refine (applyChange_events (raiseSelect s p) p c m x y q).trans (if_congr ?_ rfl rfl)
    exact tells_iff (s := raiseSelect s p)

/-! ### RELEASE_QUEUE (R25) -/

theorem releaseQueue_some {p : Port} {s : State} {q : SampleQueue} (queue : s.queues[p] = some q) :
    releaseQueue p s = (s.setQueue p (some { q with hold := false }), ⟨.ok, BitVec.ofNat 8 q.pendingGap⟩) := by
  rw [releaseQueue, queue]

/-- Settles O44: RELEASE_QUEUE clears the hold, and answers the pending gap. -/
theorem releaseQueueClearsTheHold : Obligations.ReleaseQueueClearsTheHold := by
  intro p s q due isOpen queue
  have effect : withSession p (releaseQueue p) (raiseSelect s p) = _ :=
    (withSession_open (s := raiseSelect s p) isOpen).trans (releaseQueue_some (s := raiseSelect s p) queue)
  refine ⟨_, (exec_releaseQueue p s).trans (takeSetting_due due rfl _),
    riseEffect_accepted effect (sameBut_setQueue _ p _) (by simp) (by simp) (.inl (by simp)), ?_⟩
  rw [riseEffect_queues, effect]
  exact getElem_set_same _ _ _

end Sys2Proof.Machine
end

