-- ==== Sys2Proof/Proofs/WatchWrite.lean ====
section
/-! PROOF. WATCH_SET: the argument block and the watch that it writes (R121, 11.5). -/

namespace Sys2Proof.Machine

/-! ### The argument block (11.5) -/

theorem selectorOfByte_none {b : Byte} : selectorOfByte b = none ↔ 31 < b.toNat ∧ b ≠ 0xFF := by
  unfold selectorOfByte
  by_cases any : b = 0xFF
  · rw [if_pos any]; exact iff_of_false nofun fun h => h.2 any
  · rw [if_neg any, Option.map_eq_none_iff]
    by_cases isSlot : b.toNat < 32
    · exact iff_of_false (by rw [slotOfByte, dif_pos isSlot]; exact nofun) (by omega)
    · exact iff_of_true (dif_neg isSlot) ⟨by omega, any⟩

theorem selectorOfByte_some {b : Byte} {x : Selector} (selector : selectorOfByte b = some x) :
    (∀ n : SlotNo, x = .slot n ↔ b.toNat = n.val) ∧ (x = .anyOwn ↔ b = 0xFF) := by
  unfold selectorOfByte at selector
  by_cases any : b = 0xFF
  · rw [if_pos any] at selector
    cases selector
    refine ⟨fun n => iff_of_false nofun fun named => ?_, iff_of_true rfl any⟩
    rw [any] at named
    exact absurd (named ▸ n.isLt) (by decide)
  · rw [if_neg any] at selector
    obtain ⟨m, isSlot, rfl⟩ := Option.map_eq_some_iff.mp selector
    unfold slotOfByte at isSlot
    split at isSlot
    · cases isSlot
      exact ⟨fun n => by rw [Selector.slot.injEq, Fin.ext_iff], iff_of_false nofun any⟩
    · cases isSlot

theorem actionOfBits_none : ∀ x : BitVec 2, actionOfBits x = none ↔ x = 3#2 := by decide

theorem actionOfBits_some : ∀ (x : BitVec 2), ∀ a ∈ actionOfBits x,
    (match a with | .notify => 0#2 | .capture => 1#2 | .hold => 2#2) = x := by decide

theorem termOfBits_bits : ∀ x : BitVec 2, (termOfBits x).bits = x := by decide

/-- A pair of bits of the upper and of the lower of two bytes. -/
theorem pair_of_upper (x y : Byte) {i : Nat} (h : i ≤ 6) : (x ++ y).extractLsb' (8 + i) 2 = x.extractLsb' i 2 := by
  refine BitVec.eq_of_getLsbD_eq fun j hj => ?_
  simp only [BitVec.getLsbD_extractLsb', BitVec.getLsbD_append]
  rw [if_neg (by omega)]
  congr 2
  omega

theorem pair_of_lower (x y : Byte) {i : Nat} (h : i ≤ 6) : (x ++ y).extractLsb' i 2 = y.extractLsb' i 2 := by
  refine BitVec.eq_of_getLsbD_eq fun j hj => ?_
  simp only [BitVec.getLsbD_extractLsb', BitVec.getLsbD_append]
  rw [if_pos (by omega)]

theorem watchBlock_none {b0 b1 b2 b3 b4 : Byte} : watchBlock b0 b1 b2 b3 b4 = none ↔
    (31 < b0.toNat ∧ b0 ≠ 0xFF) ∨ b2.extractLsb' 0 4 ≠ 0#4 ∨ b3.extractLsb' 2 5 ≠ 0#5 ∨ b3.extractLsb' 0 2 = 3#2 := by
  rw [← selectorOfByte_none, ← actionOfBits_none]
  unfold watchBlock
  cases selectorOfByte b0 with
  | none => simp
  | some x =>
    cases actionOfBits (b3.extractLsb' 0 2) with
    | none => simp
    | some a => simp [← not_and_or]

/-- What a block that is in order holds. -/
theorem watchBlock_some {b0 b1 b2 b3 b4 : Byte} {x : WatchBlock} (block : watchBlock b0 b1 b2 b3 b4 = some x) :
    selectorOfByte b0 = some x.selector ∧ actionOfBits (b3.extractLsb' 0 2) = some x.action
      ∧ x.pattern = patternOfBits (b1 ++ b2)
      ∧ x.mode = (if b3.extractLsb' 7 1 = 0#1 then .once else .repeating) ∧ x.captureByte = b4 := by
  unfold watchBlock at block
  split at block
  · rename_i selector action isSelector isAction
    split at block
    · cases block; exact ⟨isSelector, isAction, rfl, rfl, rfl⟩
    · cases block
  · cases block

/-! ### The checks of WATCH_SET (R121) -/

section Checks

variable {p : Port} {args : List Byte} {i : Fin 8} {s : State} {b : WatchBlock}

theorem watchSet_badBlock
    (bad : watchBlock (argByte args 1) (argByte args 2) (argByte args 3) (argByte args 4) (argByte args 5) = none) :
    watchSet p args i s = .error .badArg := by
  unfold watchSet; rw [bad]

theorem watchSet_block
    (block : watchBlock (argByte args 1) (argByte args 2) (argByte args 3) (argByte args 4) (argByte args 5) = some b) :
    watchSet p args i s = if !selectorOwn s p b.selector then .error .notOwner
      else match captureSlotOf s p b with
        | none => .error .badArg
        | some n => .ok (s.setWatch p i
            { state := .disarmed, selector := b.selector, pattern := b.pattern, mode := b.mode, action := b.action
              captureSlot := n, hitCount := 0 }) := by
  unfold watchSet
  rw [block] <;> rfl

theorem selectorOwn_iff {x : Selector} : selectorOwn s p x = true ↔ ∀ n, x = .slot n →
    s.slots[n].owner = some p ∧ (s.slots[n].state = .stopped ∨ s.slots[n].state = .running) := by
  cases x with
  | anyOwn => exact iff_of_true rfl nofun
  | slot m =>
    refine ownLive_iff.trans ⟨fun own n same => ?_, fun all => all m rfl⟩
    cases same; exact own

theorem captureSlotOf_some {n : SlotNo}
    (captures : b.action = .capture → b.captureByte.toNat = n.val ∧ ownLive s p n = true ∧ s.slots[n].settings.kind = .burst)
    (otherwise : b.action ≠ .capture → n = 0) : captureSlotOf s p b = some n := by
  unfold captureSlotOf
  cases action : b.action with
  | capture =>
    obtain ⟨named, own, kind⟩ := captures action
    simp only [slotOfByte_some named, own, kind, decide_true, Bool.and_self, if_true]
  | notify => rw [otherwise (by rw [action]; exact nofun)]
  | hold => rw [otherwise (by rw [action]; exact nofun)]

theorem captureSlotOf_none (action : b.action = .capture)
    (noBurst : ∀ n : SlotNo, b.captureByte.toNat = n.val → ownLive s p n = true → s.slots[n].settings.kind ≠ .burst) :
    captureSlotOf s p b = none := by
  unfold captureSlotOf
  rw [action]
  simp only
  split
  · rename_i n isSlot
    have named : b.captureByte.toNat = n.val := by
      unfold slotOfByte at isSlot
      split at isSlot
      · cases isSlot; rfl
      · cases isSlot
    refine if_neg fun passes => ?_
    rw [Bool.and_eq_true, decide_eq_true_iff] at passes
    exact noBurst n named passes.1 passes.2
  · rfl

end Checks

/-- Settles O49: the argument block of WATCH_SET, its checks in their order, and the watch that it writes. -/
theorem watchSetWritesTheWatch : Obligations.WatchSetWritesTheWatch := by
  refine ⟨fun b0 b1 b2 b3 b4 => watchBlock_none, fun b0 b1 b2 b3 b4 x block => ?_, fun p s due isOpen => ?_⟩
  · obtain ⟨selector, action, pattern, mode, capture⟩ := watchBlock_some block
    obtain ⟨isSlot, isAny⟩ := selectorOfByte_some selector
    refine ⟨isSlot, isAny, ?_, ?_, ?_, ?_, ?_, ?_, ?_, actionOfBits_some _ _ action, capture⟩
    · rw [pattern]; exact (termOfBits_bits _).trans (pair_of_upper b1 b2 (i := 6) (by decide))
    · rw [pattern]; exact (termOfBits_bits _).trans (pair_of_upper b1 b2 (i := 4) (by decide))
    · rw [pattern]; exact (termOfBits_bits _).trans (pair_of_upper b1 b2 (i := 2) (by decide))
    · rw [pattern]; exact (termOfBits_bits _).trans (pair_of_upper b1 b2 (i := 0) (by decide))
    · rw [pattern]; exact (termOfBits_bits _).trans (pair_of_lower b1 b2 (i := 6) (by decide))
    · rw [pattern]; exact (termOfBits_bits _).trans (pair_of_lower b1 b2 (i := 4) (by decide))
    · rw [mode]
      simp only [bit_eq_zero]
      cases b3.getLsbD 7 <;> rfl
  · have stillOpen : (raiseSelect s p).isOpen p = true := isOpen
    refine ⟨_, (exec_watchSet p s).trans (takeSetting_due due rfl _), fun bad => ?_, fun i b named block => ?_⟩
    · have byteOrBlock : 7 < (arg s p 0).toNat ∨ ∃ i : Fin 8, (arg s p 0).toNat = i.val := by
        by_cases above : 7 < (arg s p 0).toNat
        · exact .inl above
        · exact .inr ⟨⟨_, Nat.lt_succ_of_le (Nat.not_lt.mp above)⟩, rfl⟩
      rcases byteOrBlock with above | ⟨i, named⟩
      · exact riseEffect_refused (onWatch_badArg stillOpen above)
      · exact riseEffect_refused (onWatch_refuses stillOpen named
          (watchSet_badBlock (bad.resolve_left (by have := i.isLt; omega))))
    · have checked := watchSet_block (p := p) (i := i) (s := raiseSelect s p) block
      refine ⟨fun n selector notOwn => ?_, fun own action noBurst => ?_, fun k own captures otherwise => ?_⟩
      · have notOwner : selectorOwn (raiseSelect s p) p b.selector = false :=
          Bool.eq_false_iff.mpr fun own => notOwn (selectorOwn_iff.mp own n selector)
        refine riseEffect_refused (onWatch_refuses stillOpen named (checked.trans ?_))
        rw [notOwner]; rfl
      · have isOwn : selectorOwn (raiseSelect s p) p b.selector = true := selectorOwn_iff.mpr own
        have noSlot : captureSlotOf (raiseSelect s p) p b = none :=
          captureSlotOf_none action fun n byte live => noBurst n byte (ownLive_iff.mp live)
        refine riseEffect_refused (onWatch_refuses stillOpen named (checked.trans ?_))
        rw [isOwn, noSlot]; rfl
      · have isOwn : selectorOwn (raiseSelect s p) p b.selector = true := selectorOwn_iff.mpr own
        have slot : captureSlotOf (raiseSelect s p) p b = some k := captureSlotOf_some (fun action => by
          obtain ⟨byte, live, kind⟩ := captures action
          exact ⟨byte, ownLive_iff.mpr live, kind⟩) otherwise
        rw [isOwn, slot] at checked
        have effect := onWatch_acts stillOpen named checked
        refine ⟨riseEffect_accepted effect (sameBut_setWatch _ p i _) (by simp) (by simp) (.inl (by simp)), ?_⟩
        rw [riseEffect_watches, effect]
        exact setWatch_same _ p i _

end Sys2Proof.Machine
end

