-- ==== Sys2Proof/Proofs/Phases.lean ====
section
/-! PROOF. The ends of the converter's phases and the code of a repeat (R59 to R62). -/

namespace Sys2Proof.Machine

/-! ### The transfer function (R62) -/

/-- A level code is at least k, for a code that a conversion can give, when the level is. -/
theorem le_limitCode {k : Nat} {x : Int} (positive : 1 ≤ k) (inRange : k ≤ 4095) : k ≤ limitCode x ↔ (k : Int) ≤ x := by
  unfold limitCode
  omega

theorem femtovolts_pos (x : Span) : 0 < x.femtovolts := by cases x <;> decide

theorem le_transfer_single {k : Nat} {x : Span} {level : Int} (positive : 1 ≤ k) (inRange : k ≤ 4095) :
    k ≤ transfer .single x level ↔ x.femtovolts * k ≤ level * 4096 := by
  refine (le_limitCode positive inRange).trans ((Int.le_ediv_iff_mul_le (femtovolts_pos x)).trans ?_)
  rw [Int.mul_comm]

theorem le_transfer_paired {k : Nat} {x : Span} {level : Int} (positive : 1 ≤ k) (inRange : k ≤ 4095) :
    k ≤ transfer .paired x level ↔ x.femtovolts * (k - 2048) ≤ level * 2048 := by
  have above : (k : Int) ≤ 2048 + level * 2048 / x.femtovolts ↔ (k : Int) - 2048 ≤ level * 2048 / x.femtovolts := by omega
  refine (le_limitCode positive inRange).trans (above.trans ((Int.le_ediv_iff_mul_le (femtovolts_pos x)).trans ?_))
  rw [Int.mul_comm]

/-! ### The multiplexer (R59, R63) -/

theorem connectedLevel_single {x : AnalogInputs} {i : Channel} {c : Fin 16} (isExternal : i.val = c.val) :
    connectedLevel x i .single = x.ain[c] := by
  have below : i.val < 16 := isExternal ▸ c.isLt
  rw [connectedLevel, dif_pos below]
  simp only [isExternal]
  rfl

theorem connectedLevel_paired {x : AnalogInputs} {i : Channel} {c d : Fin 16} (isExternal : i.val = c.val)
    (partner : d.val = c.val + 1) : connectedLevel x i .paired = x.ain[c] - x.ain[d] := by
  have below : i.val < 16 := isExternal ▸ c.isLt
  have next : i.val + 1 < 16 := by have := d.isLt; omega
  rw [connectedLevel, dif_pos below]
  have inRange : d.val < 16 := d.isLt
  simp only [isExternal, ← partner, dif_pos inRange]
  rfl

theorem connectedLevel_internal {x : AnalogInputs} {i : Channel} {c : Fin 4} (m : Mode) (isInternal : i.val = 16 + c.val) :
    connectedLevel x i m = x.internal[c] := by
  rw [connectedLevel, dif_neg (by omega)]
  simp only [isInternal, Nat.add_sub_cancel_left]
  rfl

/-! ### The rows at the end of a phase -/

theorem convertEnd_due {s : State} {r : InFlight} (phase : s.conv.phase = .convert) (atEnd : phaseAtEnd s)
    (record : s.conv.record = some r) (more : r.repeatsDone < averaging r.avgCode) : exec .convertEnd s =
      if r.repeatsDone + 1 < averaging r.avgCode
      then .next (s.setConv (s.conv.enter .sample (sampleTicks r.sampleCode) (some r.repeated)))
      else .next (s.setConv { s.conv with record := some r.repeated }) := by
  rw [exec_convertEnd, execConvertEnd, atPhaseEnd_due phase nofun atEnd record]
  exact if_pos more

/-- The rows at the end of a phase are refused before it. -/
theorem phaseRow_early {s : State} {i : Instr} (early : ¬ phaseAtEnd s)
    (row : i = .settleEnd ∨ (∃ inputs, i = .sampleEnd inputs) ∨ i = .convertEnd ∨ i = .completion ∨ i = .recoverEnd) :
    ∃ x, exec i s = .refused x := by
  rcases row with rfl | ⟨inputs, rfl⟩ | rfl | rfl | rfl
  · rw [exec_settleEnd]; exact atPhaseEnd_early early
  · rw [exec_sampleEnd]; exact atPhaseEnd_early early
  · rw [exec_convertEnd]; exact atPhaseEnd_early early
  · rw [exec_completion]; exact atPhaseEnd_early early
  · rw [exec_recoverEnd, execRecoverEnd]
    split
    · exact ⟨_, rfl⟩
    · rw [if_neg fun isOver => early ((phaseOver_iff s).mp isOver).2]
      exact ⟨_, rfl⟩

/-- Settles O56: the phases of a conversion, one row each, and their refusal before the phase has run. -/
theorem converterPhasesRun : Obligations.ConverterPhasesRun := by
  refine ⟨fun s r phase atEnd record => ?settle, fun inputs s r phase atEnd record => ?sample,
    fun s r phase atEnd record more => ?convert, fun i s row early => phaseRow_early early row⟩
  case settle =>
    refine ⟨_, ?_, sameBut_setConv s _, rfl⟩
    rw [exec_settleEnd, execSettleEnd, atPhaseEnd_due phase nofun atEnd record]
    rfl
  case sample =>
    refine ⟨_, connectedLevel inputs r.channel r.mode, ?_, sameBut_setConv s _, rfl, fun c isExternal single => ?_,
      fun c d isExternal partner paired => ?_, fun c isInternal => connectedLevel_internal _ isInternal⟩
    · rw [exec_sampleEnd, execSampleEnd, atPhaseEnd_due phase nofun atEnd record]
      rfl
    · rw [single]; exact connectedLevel_single isExternal
    · rw [paired]; exact connectedLevel_paired isExternal partner
  case convert =>
    have taken := convertEnd_due phase atEnd record more
    have codes (k : Nat) (positive : 1 ≤ k) (inRange : k ≤ 4095) : k ≤ transfer r.mode r.span r.level ↔
        match r.mode, r.span with
        | .single, .full => 2500000000000000 * (k : Int) ≤ r.level * 4096
        | .single, .half => 1250000000000000 * (k : Int) ≤ r.level * 4096
        | .paired, .full => 2500000000000000 * ((k : Int) - 2048) ≤ r.level * 2048
        | .paired, .half => 1250000000000000 * ((k : Int) - 2048) ≤ r.level * 2048 := by
      cases r.mode with
      | single => cases span : r.span <;> exact le_transfer_single positive inRange
      | paired => cases span : r.span <;> exact le_transfer_paired positive inRange
    by_cases again : r.repeatsDone + 1 < averaging r.avgCode
    · refine ⟨_, _, taken.trans (if_pos again), sameBut_setConv s _, transfer_le _ _ _, codes, ?_⟩
      rw [decide_eq_true (show r.repeatsDone + 1 < 2 ^ r.avgCode.toNat from again)]
      rfl
    · refine ⟨_, _, taken.trans (if_neg again), sameBut_setConv s _, transfer_le _ _ _, codes, ?_⟩
      rw [decide_eq_false (show ¬ r.repeatsDone + 1 < 2 ^ r.avgCode.toNat from again), phase.symm]
      rfl

end Sys2Proof.Machine
end

