-- ==== Sys2Proof/Proofs/Releases.lean ====
section
/-! PROOF. The release of the RETIRING slots that a record names (R22), and the abandonment of a conversion (R48 to R51, R70). -/

namespace Sys2Proof.Machine

/-! ### The release of slots (R22) -/

/-- The SLOT_RELEASED event of slot n. -/
def released (tick : Tick) (n : SlotNo) : EventRecord :=
  { kind := .slotReleased, subject := BitVec.ofNat 8 n.val, tick := tick, detail := 0 }

theorem sendToOwner_events (s : State) (o : Option Port) (e : EventRecord) (q : Port) : (sendToOwner s o e).events[q] =
    if o = some q ∧ s.isOpen q = true then s.events[q].offer e else s.events[q] := by
  cases o with
  | none => exact (if_neg (fun h => nomatch h.1)).symm
  | some p =>
    show (sendEvent s p e).events[q] = _
    by_cases same : p = q
    · subst same
      unfold sendEvent
      split
      · rename_i isOpen
        exact (getElem_set_same _ _ _).trans (if_pos ⟨rfl, isOpen⟩).symm
      · rename_i isClosed
        exact (if_neg fun h => isClosed h.2).symm
    · refine Eq.trans ?_ (if_neg fun h => same (Option.some.inj h.1)).symm
      exact sameBut_sendEvent s p e (.events q) (by simpa using Ne.symm same)

theorem releaseSlot_slots (s : State) (n m : SlotNo) :
    (releaseSlot s n).slots[m] = if n = m then Slot.free else s.slots[m] := by
  unfold releaseSlot
  rw [State.setSlot_slots, getElem_set_at, sendToOwner_slots]

theorem releaseSlot_events (s : State) (n : SlotNo) (q : Port) : (releaseSlot s n).events[q] =
    if s.slots[n].owner = some q ∧ s.isOpen q = true then s.events[q].offer (released s.now n) else s.events[q] :=
  sendToOwner_events s _ _ q

theorem releaseSlot_isOpen (s : State) (n : SlotNo) (q : Port) : (releaseSlot s n).isOpen q = s.isOpen q :=
  isOpen_of_same (sameBut_releaseSlot s n (.session q) (by simp [allEvents]))

theorem releaseSlot_now (s : State) (n : SlotNo) : (releaseSlot s n).now = s.now :=
  now_of_timebase (sameBut_releaseSlot s n .timebase (by simp [allEvents]))

theorem releaseSlots_slots (l : List SlotNo) (s : State) (m : SlotNo) :
    (l.foldl releaseSlot s).slots[m] = if m ∈ l then Slot.free else s.slots[m] := by
  induction l generalizing s with
  | nil => simp
  | cons n l ih =>
    rw [List.foldl_cons, ih, releaseSlot_slots]
    by_cases later : m ∈ l
    · simp [later]
    · by_cases head : n = m
      · simp [head]
      · simp [later, head, Ne.symm head]

/-- The owner with an OPEN session is told of the slots of a list that are its own, in the order of the list. -/
theorem releaseSlots_events {l : List SlotNo} (once : l.Nodup) (s : State) (q : Port) :
    (l.foldl releaseSlot s).events[q] =
      if s.isOpen q then (l.filter fun n => decide (s.slots[n].owner = some q)).foldl
        (fun x n => x.offer (released s.now n)) s.events[q]
      else s.events[q] := by
  induction l generalizing s with
  | nil => simp
  | cons n l ih =>
    obtain ⟨notAgain, once⟩ := List.nodup_cons.mp once
    have owners : (l.filter fun m => decide ((releaseSlot s n).slots[m].owner = some q))
        = l.filter fun m => decide (s.slots[m].owner = some q) := by
      refine List.filter_congr fun m mem => ?_
      rw [releaseSlot_slots, if_neg fun same : n = m => notAgain (same ▸ mem)]
    rw [List.foldl_cons, ih once, releaseSlot_isOpen, releaseSlot_now, owners, releaseSlot_events]
    by_cases isOpen : s.isOpen q = true
    · by_cases own : s.slots[n].owner = some q
      · simp only [isOpen, own, and_self, if_true, List.filter_cons, decide_true, List.foldl_cons]
      · simp only [isOpen, own, false_and, if_false, if_true, List.filter_cons, decide_false, Bool.false_eq_true]
    · simp only [isOpen, and_false, if_false, Bool.false_eq_true]

theorem names_subs (r : InFlight) (n : SlotNo) : names (r.subs.map (·.sub)) (.slot n) = namesSlot r n := by
  simp [names, namesSlot, List.any_map, Function.comp_def]

theorem mem_retiringNamed {s : State} {r : InFlight} {n : SlotNo} : n ∈ retiringNamed s (r.subs.map (·.sub)) ↔
    (namesSlot r n && decide (s.slots[n].state = .retiring)) = true := by
  rw [retiringNamed, List.mem_filter, names_subs]
  exact and_iff_right (List.mem_finRange n)

/-- The RETIRING slots that a record names are released in ascending order (R22). -/
theorem retiring_released (s : State) (r : InFlight) :
    retiringReleased r s ((retiringNamed s (r.subs.map (·.sub))).foldl releaseSlot s) := by
  refine ⟨fun n => ?_, fun p => ?_, sameBut_releaseSlots _ s⟩
  · rw [releaseSlots_slots]
    exact if_congr mem_retiringNamed rfl rfl
  · have once : (retiringNamed s (r.subs.map (·.sub))).Nodup := (List.nodup_finRange 32).filter _
    have leaving : (retiringNamed s (r.subs.map (·.sub))).filter (fun n => decide (s.slots[n].owner = some p))
        = (List.finRange 32).filter fun n =>
          (namesSlot r n && decide (s.slots[n].state = .retiring)) && decide (s.slots[n].owner = some p) := by
      rw [retiringNamed, List.filter_filter]
      refine List.filter_congr fun n _ => ?_
      rw [names_subs, Bool.and_comm]
    rw [releaseSlots_events once, leaving]
    rfl

/-! ### The end of demands (R41, R116) -/

theorem endDemands_outstanding (s : State) (subs : List FlightEntry) (pick : FlightEntry → Bool) (p : Port) :
    (endDemands s subs pick).sessions[p].demandOutstanding = (s.sessions[p].demandOutstanding
      && !subs.any fun x => pick x && decide (x.sub.origin = .demand p)) := by
  unfold endDemands
  rw [getElem_ofFn_at]
  split
  · rename_i ends; simp [ends]
  · rename_i kept; simp [Bool.eq_false_iff.mpr kept]

/-! ### The abandonment (R48 to R51, R70) -/

section Abandon

variable (u : State) (r : InFlight)

/-- The subscriber entries that return (R48). -/
def backOf : List SubEntry := (r.subs.filter (returnsRule u)).map fun x => x.sub

theorem returns_eq (x : FlightEntry) : returns u x = returnsRule u x := by
  unfold returns returnsRule
  cases x.sub.origin with
  | slot n => exact Bool.and_comm _ _
  | demand p => exact (Bool.and_true _).symm

theorem collides_eq (x : SubEntry) : collides u x = collisionRule u x := by
  unfold collides collisionRule
  cases x.origin <;> rfl

theorem names_backOf (n : SlotNo) : names (backOf u r) (.slot n) = (backOf u r).any fun x => decide (x.origin = .slot n) := rfl

theorem names_collided (o : Origin) : names ((backOf u r).filter (collides u)) o
    = (backOf u r).any fun x => collisionRule u x && decide (x.origin = o) := by
  simp only [names, List.any_filter, collides_eq]

theorem returnEntry_back : returnEntry u r =
    (u.setRequests (if (backOf u r).isEmpty
        then withdrawWhere (fun x => names ((backOf u r).filter (collides u)) x.origin) u.requests
        else withdrawWhere (fun x => names ((backOf u r).filter (collides u)) x.origin) u.requests ++
          [{ channel := r.channel, sampleCode := r.sampleCode, avgCode := r.avgCode
             subs := (backOf u r).map (returnedSub u), preemptCount := r.preemptCount + 1 }])).mapSlots fun n t =>
      { t with
        inFlightFlag := if names (r.subs.map (·.sub)) (.slot n) then false else t.inFlightFlag
        pendingFlag := if names (backOf u r) (.slot n) then true else t.pendingFlag
        overrunCount :=
          if names (backOf u r) (.slot n) && t.pendingFlag && decide (t.settings.kind = .periodic)
          then hold65535 t.overrunCount 1 else t.overrunCount } := by
  have back : (r.subs.filter (returns u)).map (·.sub) = backOf u r := by
    rw [backOf]
    exact congrArg (fun f => (r.subs.filter f).map (·.sub)) (funext fun x => returns_eq u x)
  unfold returnEntry
  rw [back]

theorem returnEntry_slot (n : SlotNo) : (returnEntry u r).slots[n] = { u.slots[n] with
    inFlightFlag := u.slots[n].inFlightFlag && !namesSlot r n
    pendingFlag := u.slots[n].pendingFlag || (backOf u r).any fun x => decide (x.origin = .slot n)
    overrunCount :=
      if ((backOf u r).any fun x => decide (x.origin = .slot n)) && u.slots[n].pendingFlag
        && decide (u.slots[n].settings.kind = .periodic)
      then min 65535 (u.slots[n].overrunCount + 1) else u.slots[n].overrunCount } := by
  rw [returnEntry_back, State.mapSlots_slots, getElem_ofFn_at, names_subs, names_backOf]
  have flag (b c : Bool) : (if b = true then false else c) = (c && !b) := by cases b <;> cases c <;> rfl
  have flag' (b c : Bool) : (if b = true then true else c) = (c || b) := by cases b <;> cases c <;> rfl
  rw [State.setRequests_slots, flag, flag']
  rfl

theorem collisionOverruns_eq {x : SubEntry} (mem : x ∈ backOf u r) : collisionOverruns u x = (match x.origin with
    | .slot n => ((backOf u r).any fun y => decide (y.origin = .slot n)) && u.slots[n].pendingFlag
        && decide (u.slots[n].settings.kind = .periodic)
    | .demand _ => false) := by
  unfold collisionOverruns
  cases origin : x.origin with
  | slot n =>
    have returned : ((backOf u r).any fun y => decide (y.origin = .slot n)) = true :=
      List.any_eq_true.mpr ⟨x, mem, decide_eq_true origin⟩
    simp only [collides, origin, returned, Bool.true_and]
  | demand p => rfl

theorem returnEntry_requests : (returnEntry u r).requests =
    ((u.requests.map fun e => { e with
        subs := e.subs.filter fun y => !(backOf u r).any fun x => collisionRule u x && decide (x.origin = y.origin) }).filter
        fun e => !e.subs.isEmpty)
      ++ (if backOf u r = [] then [] else
        [{ channel := r.channel, sampleCode := r.sampleCode, avgCode := r.avgCode, preemptCount := r.preemptCount + 1
           subs := (backOf u r).map fun x =>
             { x with
               preempted := true
               overrun := x.overrun || (match x.origin with
                 | .slot n => ((backOf u r).any fun y => decide (y.origin = .slot n)) && u.slots[n].pendingFlag
                     && decide (u.slots[n].settings.kind = .periodic)
                 | .demand _ => false) } }]) := by
  have entry : (backOf u r).map (returnedSub u) = (backOf u r).map fun x => { x with
      preempted := true
      overrun := x.overrun || (match x.origin with
        | .slot n => ((backOf u r).any fun y => decide (y.origin = .slot n)) && u.slots[n].pendingFlag
            && decide (u.slots[n].settings.kind = .periodic)
        | .demand _ => false) } :=
    List.map_congr_left fun x mem => by rw [returnedSub, collisionOverruns_eq u r mem]
  rw [returnEntry_back, State.mapSlots_requests, State.setRequests_requests, withdrawWhere, entry]
  simp only [names_collided]
  by_cases empty : backOf u r = []
  · rw [if_pos (List.isEmpty_iff.mpr empty), if_pos empty, List.append_nil]
  · rw [if_neg (fun h => empty (List.isEmpty_iff.mp h)), if_neg empty]

end Abandon

/-- The converter has left the conversion for RECOVER (R70). -/
def recovering (u : State) : State := u.setConv ({ u.conv with identity := none }.enter .recover recoverTicks none)

/-- The state of an abandonment before its RETIRING slots are released. -/
def unreleased (u : State) (r : InFlight) : State := endDemands (returnEntry (recovering u) r) r.subs fun x => x.marked

theorem abandon_eq (u : State) (r : InFlight) : abandon u r =
    (retiringNamed (unreleased u r) (r.subs.map (·.sub))).foldl releaseSlot (unreleased u r) := rfl

/-- A conversion that is abandoned ends, its entries return or are dropped, as R48 to R51 and R70 state it. -/
theorem abandon_abandonedFrom (u : State) (r : InFlight) : abandonedFrom r u (abandon u r) := by
  have ended : sameBut allDemands (returnEntry (recovering u) r) (unreleased u r) := sameBut_endDemands _ _ _
  have returned := sameBut_returnEntry (recovering u) r
  rw [abandon_eq]
  refine ⟨unreleased u r, retiring_released _ r, ?_, ?_, ?_, fun n => ?_, fun p => ?_⟩
  · refine sameBut_trans (sameBut_mono (sameBut_setConv u _) (by simp)) (sameBut_trans (sameBut_mono returned ?_)
      (sameBut_mono ended fun _ mem => List.mem_append_right _ mem))
    simp +contextual
  · exact (ended .converter (by simp [allDemands])).trans (returned .converter (by simp [allSlots]))
  · exact (ended .requests (by simp [allDemands])).trans (returnEntry_requests (recovering u) r)
  · exact (ended (.slot n) (by simp [allDemands])).trans (returnEntry_slot (recovering u) r n)
  · rw [unreleased, endDemands_outstanding]
    exact congrArg (· && _) (returned (.demand p) (by simp [allSlots]))

end Sys2Proof.Machine
end

