-- ==== Sys2Proof/Proofs/Edges.lean ====
section
/-! PROOF. A trigger edge: what it does to every slot, to the pending list and to the converter (R3, R36, R47). -/

namespace Sys2Proof.Machine

/-! ### An edge at one slot (R36, steps 1 and 2) -/

/-- The edge brings the slot to its divider. -/
def Slot.reachesAt (e : Edge) (x : Slot) : Bool := x.countsEdge e && x.reachesDivider

/-- The edge makes a request of the slot, or an overrun of the request that it has. -/
def Slot.addsAt (e : Edge) (x : Slot) : Bool := x.reachesAt e && !x.pendingFlag
def Slot.overrunsAt (e : Edge) (x : Slot) : Bool := x.reachesAt e && x.pendingFlag

/-- The slot after the edge. -/
def Slot.edged (e : Edge) (x : Slot) : Slot := { x with
  edgeCount := if x.reachesAt e then 0 else if x.countsEdge e then x.edgeCount + 1 else x.edgeCount
  pendingFlag := x.pendingFlag || x.addsAt e
  overrunCount := if x.overrunsAt e then min 65535 (x.overrunCount + 1) else x.overrunCount }

/-- The request that the edge makes of slot n. -/
def edgeEntry (e : Edge) (s : State) (n : SlotNo) : PendingEntry :=
  { channel := s.slots[n].settings.channel, sampleCode := s.slots[n].settings.sampleCode
    avgCode := s.slots[n].settings.avgCode, preemptCount := 0, subs := [⟨.slot n, .triggered, e.tick, false, false⟩] }

/-- The overrun rule for every slot that P chooses. -/
def overrunWhere (P : SlotNo → Bool) (l : List PendingEntry) : List PendingEntry :=
  l.map fun x => { x with subs := x.subs.map fun y =>
    { y with overrun := y.overrun || (match y.origin with | .slot n => P n | .demand _ => false) } }

theorem qualifies_eq (x : EdgeSetting) (d : Direction) : x.qualifies d = (decide (x = .both)
    || (decide (x = .rise) && decide (d = .rise)) || (decide (x = .fall) && decide (d = .fall))) := by
  cases x <;> cases d <;> rfl

theorem countsEdge_kind {x : Slot} {e : Edge} (counts : x.countsEdge e = true) : x.settings.kind = .triggered := by
  unfold Slot.countsEdge at counts
  simp only [Bool.and_eq_true, decide_eq_true_eq] at counts
  exact counts.1.1.2

theorem overrunWhere_nothing (l : List PendingEntry) {P : SlotNo → Bool} (nothing : ∀ n, P n = false) :
    overrunWhere P l = l := by
  have same (y : SubEntry) :
      { y with overrun := y.overrun || (match y.origin with | .slot n => P n | .demand _ => false) } = y := by
    obtain ⟨origin, cls, due, overrun, preempted⟩ := y
    cases origin <;> simp [nothing]
  unfold overrunWhere
  simp [same]

theorem overrunWhere_twice (P Q : SlotNo → Bool) (l : List PendingEntry) :
    overrunWhere P (overrunWhere Q l) = overrunWhere (fun n => Q n || P n) l := by
  unfold overrunWhere
  simp only [List.map_map, Function.comp_def]
  refine List.map_congr_left fun x _ => ?_
  congr 1
  refine List.map_congr_left fun y _ => ?_
  cases y.origin <;> simp [Bool.or_assoc]

theorem overrunWhere_append (P : SlotNo → Bool) (l k : List PendingEntry) :
    overrunWhere P (l ++ k) = overrunWhere P l ++ overrunWhere P k := List.map_append

theorem overrunWhere_edgeEntry {P : SlotNo → Bool} {n : SlotNo} (e : Edge) (s : State) (notChosen : P n = false) :
    overrunWhere P [edgeEntry e s n] = [edgeEntry e s n] := by
  simp [overrunWhere, edgeEntry, notChosen]

theorem markOverrun_slot (n : SlotNo) (l : List PendingEntry) :
    markOverrun (.slot n) l = overrunWhere (fun m => decide (m = n)) l := by
  unfold markOverrun overrunWhere
  refine List.map_congr_left fun x _ => ?_
  congr 1
  refine List.map_congr_left fun y _ => ?_
  obtain ⟨origin, cls, due, overrun, preempted⟩ := y
  cases origin with
  | slot m => by_cases same : m = n <;> simp [same]
  | demand p => simp

section AtSlot

variable {e : Edge} {s : State} {n : SlotNo}

theorem Slot.edged_overruns {x : Slot} (overruns : x.overrunsAt e = true) :
    x.edged e = { x with edgeCount := 0, overrunCount := min 65535 (x.overrunCount + 1) } := by
  have overrun := overruns
  simp only [Slot.overrunsAt, Bool.and_eq_true] at overrun
  simp [Slot.edged, Slot.addsAt, overruns, overrun]

theorem Slot.edged_adds {x : Slot} (adds : x.addsAt e = true) :
    x.edged e = { x with edgeCount := 0, pendingFlag := true } := by
  have added := adds
  simp only [Slot.addsAt, Bool.and_eq_true, Bool.not_eq_true'] at added
  simp [Slot.edged, Slot.overrunsAt, adds, added]

theorem Slot.edged_counts {x : Slot} (notReached : x.reachesAt e = false) :
    x.edged e = if x.countsEdge e then { x with edgeCount := x.edgeCount + 1 } else x := by
  by_cases counts : x.countsEdge e = true <;>
    simp [Slot.edged, Slot.addsAt, Slot.overrunsAt, notReached, counts]

theorem edgeAtSlot_overruns (overruns : s.slots[n].overrunsAt e = true) : edgeAtSlot e s n =
    overrunSlot (s.setSlot n { s.slots[n] with edgeCount := 0 }) n := by
  simp only [Slot.overrunsAt, Slot.reachesAt, Bool.and_eq_true] at overruns
  obtain ⟨⟨counts, reaches⟩, pending⟩ := overruns
  unfold edgeAtSlot
  simp only [counts, reaches, pending, if_true]

theorem edgeAtSlot_adds (adds : s.slots[n].addsAt e = true) : edgeAtSlot e s n =
    requestSlot (s.setSlot n { s.slots[n] with edgeCount := 0 }) n e.tick := by
  simp only [Slot.addsAt, Slot.reachesAt, Bool.and_eq_true, Bool.not_eq_true'] at adds
  obtain ⟨⟨counts, reaches⟩, free⟩ := adds
  unfold edgeAtSlot
  simp only [counts, reaches, free, if_true, Bool.false_eq_true, if_false]

theorem edgeAtSlot_counts (notReached : s.slots[n].reachesAt e = false) : edgeAtSlot e s n =
    if s.slots[n].countsEdge e then s.setSlot n { s.slots[n] with edgeCount := s.slots[n].edgeCount + 1 } else s := by
  unfold edgeAtSlot
  by_cases counts : s.slots[n].countsEdge e = true
  · simp only [Slot.reachesAt, counts, Bool.true_and] at notReached
    simp only [counts, notReached, if_true, Bool.false_eq_true, if_false]
  · simp only [if_neg counts]

/-- An edge at a slot is an overrun, or makes a request, or at most counts. -/
theorem edge_cases (e : Edge) (x : Slot) :
    x.overrunsAt e = true ∨ x.addsAt e = true ∨ x.reachesAt e = false := by
  unfold Slot.addsAt Slot.overrunsAt
  cases x.reachesAt e <;> cases x.pendingFlag <;> simp

theorem edgeAtSlot_slot : (edgeAtSlot e s n).slots[n] = s.slots[n].edged e := by
  rcases edge_cases e s.slots[n] with overruns | adds | notReached
  · rw [edgeAtSlot_overruns overruns, overrunSlot_slot, State.setSlot_slots, getElem_set_same, Slot.edged_overruns overruns]
    rfl
  · rw [edgeAtSlot_adds adds, requestSlot_slot, State.setSlot_slots, getElem_set_same, Slot.edged_adds adds]
  · rw [edgeAtSlot_counts notReached, Slot.edged_counts notReached]
    split
    · exact getElem_set_same _ _ _
    · rfl

theorem edgeAtSlot_requests : (edgeAtSlot e s n).requests =
    overrunWhere (fun m => decide (m = n) && s.slots[n].overrunsAt e) s.requests
      ++ (if s.slots[n].addsAt e then [edgeEntry e s n] else []) := by
  rcases edge_cases e s.slots[n] with overruns | adds | notReached
  · have adds : s.slots[n].addsAt e = false := by
      simp only [Slot.overrunsAt, Bool.and_eq_true] at overruns
      simp [Slot.addsAt, overruns, -Fin.getElem_fin]
    rw [edgeAtSlot_overruns overruns, adds, overruns]
    simp only [Bool.and_true, ← markOverrun_slot, Bool.false_eq_true, if_false, List.append_nil]
    rfl
  · have overruns : s.slots[n].overrunsAt e = false := by
      simp only [Slot.addsAt, Bool.and_eq_true, Bool.not_eq_true'] at adds
      simp [Slot.overrunsAt, adds, -Fin.getElem_fin]
    have kind : s.slots[n].settings.kind = .triggered := by
      simp only [Slot.addsAt, Slot.reachesAt, Bool.and_eq_true] at adds
      exact countsEdge_kind adds.1.1
    rw [edgeAtSlot_adds adds, adds, overruns, overrunWhere_nothing _ fun m => Bool.and_false _]
    unfold requestSlot
    simp only [State.setSlot_slots, getElem_set_same, State.setSlot_requests, State.setRequests_requests, kind]
    rfl
  · have neither : s.slots[n].addsAt e = false ∧ s.slots[n].overrunsAt e = false := by
      simp [Slot.addsAt, Slot.overrunsAt, notReached, -Fin.getElem_fin]
    rw [edgeAtSlot_counts notReached, neither.1, neither.2, overrunWhere_nothing _ fun m => Bool.and_false _]
    split <;> exact (List.append_nil _).symm

end AtSlot

/-! ### An edge at every slot (R36) -/

section AtSlots

variable {e : Edge} {s : State}

theorem edgeAtSlots_slots {l : List SlotNo} (once : l.Nodup) (u : State) (m : SlotNo) :
    (l.foldl (edgeAtSlot e) u).slots[m] = if m ∈ l then u.slots[m].edged e else u.slots[m] := by
  induction l generalizing u with
  | nil => simp
  | cons n l ih =>
    obtain ⟨notAgain, once⟩ := List.nodup_cons.mp once
    rw [List.foldl_cons, ih once]
    by_cases head : m = n
    · subst head
      rw [if_neg notAgain, edgeAtSlot_slot, if_pos List.mem_cons_self]
    · have kept : (edgeAtSlot e u n).slots[m] = u.slots[m] := sameBut_edgeAtSlot e u n (.slot m) (by simp [head])
      rw [kept]
      simp [head]

/-- The list after an edge: the overruns of the pending requests, then the new requests in the order of their slots. -/
theorem edgeAtSlots_requests {l : List SlotNo} (once : l.Nodup) (u : State)
    (same : ∀ n ∈ l, u.slots[n] = s.slots[n]) : (l.foldl (edgeAtSlot e) u).requests =
      overrunWhere (fun n => decide (n ∈ l) && s.slots[n].overrunsAt e) u.requests
        ++ ((l.filter fun n => s.slots[n].addsAt e).map (edgeEntry e s)) := by
  induction l generalizing u with
  | nil => simp [overrunWhere_nothing]
  | cons n l ih =>
    obtain ⟨notAgain, once⟩ := List.nodup_cons.mp once
    obtain ⟨atHead, later⟩ := List.forall_mem_cons.mp same
    have kept : ∀ m ∈ l, (edgeAtSlot e u n).slots[m] = s.slots[m] := fun m mem =>
      (sameBut_edgeAtSlot e u n (.slot m) (by simpa using fun same : m = n => notAgain (same ▸ mem))).trans (later m mem)
    have entry : edgeEntry e u n = edgeEntry e s n := by unfold edgeEntry; rw [atHead]
    rw [List.foldl_cons, ih once _ kept, edgeAtSlot_requests, atHead, entry]
    have chosen : (fun m => decide (m = n) && s.slots[n].overrunsAt e || decide (m ∈ l) && s.slots[m].overrunsAt e)
        = fun m => decide (m ∈ n :: l) && s.slots[m].overrunsAt e := by
      funext m
      by_cases head : m = n
      · subst head; simp [notAgain]
      · simp [head]
    rw [overrunWhere_append, overrunWhere_twice, chosen, List.append_assoc, List.filter_cons]
    split
    · rw [overrunWhere_edgeEntry e s (by simp [notAgain])]; rfl
    · rfl

end AtSlots

theorem edgeAdds_iff {e : Edge} {s : State} : edgeAdds e s = true ↔ ∃ n : SlotNo, s.slots[n].addsAt e = true := by
  unfold edgeAdds
  rw [List.any_eq_true]
  exact exists_congr fun n => and_iff_right (List.mem_finRange n)

/-- The state after an edge at every slot, before the decision for the converter. -/
def edgeCounted (e : Edge) (s : State) : State := (List.finRange 32).foldl (edgeAtSlot e) s

theorem sameBut_edgeCounted (e : Edge) (s : State) : sameBut (.requests :: allSlots) s (edgeCounted e s) :=
  sameBut_foldl (fun u n => sameBut_mono (sameBut_edgeAtSlot e u n) (by simp)) _ s

theorem edgeCounted_slots (e : Edge) (s : State) (n : SlotNo) : (edgeCounted e s).slots[n] = s.slots[n].edged e := by
  rw [edgeCounted, edgeAtSlots_slots (List.nodup_finRange 32), if_pos (List.mem_finRange n)]

theorem edgeCounted_requests (e : Edge) (s : State) : (edgeCounted e s).requests =
    overrunWhere (fun n => s.slots[n].overrunsAt e) s.requests
      ++ (((List.finRange 32).filter fun n => s.slots[n].addsAt e).map (edgeEntry e s)) := by
  rw [edgeCounted, edgeAtSlots_requests (List.nodup_finRange 32) s fun _ _ => rfl]
  simp [List.mem_finRange]

/-! ### The decision for the converter (R36, R47) -/

/-- The conversion of record r may be abandoned for a TRIGGERED arrival (R47). -/
def preempts (s : State) (r : InFlight) : Prop :=
  s.conv.record = some r ∧ (s.conv.phase = .settle ∨ s.conv.phase = .sample ∨ s.conv.phase = .convert)
    ∧ r.cls ≠ .triggered ∧ r.preemptCount < 3

theorem preemptable_iff {s : State} : preemptable s.conv = true ↔ ∃ r, preempts s r := by
  unfold preemptable preempts
  cases s.conv.record with
  | none => simp
  | some r => simp [and_assoc, or_assoc]

theorem edgeDecision_idle {s : State} (idle : s.conv.phase = .idle) : edgeDecision s = select s := if_pos idle

theorem edgeDecision_preempts {s : State} {r : InFlight} (ok : preempts s r) : edgeDecision s = abandon s r := by
  have busy : s.conv.phase ≠ .idle := by
    rcases ok.2.1 with phase | phase | phase <;> rw [phase] <;> exact nofun
  unfold edgeDecision
  rw [if_neg busy, if_pos (preemptable_iff.mpr ⟨r, ok⟩), ok.1]

theorem edgeDecision_waits {s : State} (busy : s.conv.phase ≠ .idle) (none : ∀ r, ¬ preempts s r) :
    edgeDecision s = s := by
  unfold edgeDecision
  rw [if_neg busy, if_neg fun ok => (preemptable_iff.mp ok).elim none]

theorem exec_triggerEdge_edge {line : Line} {s : State} {e : Edge}
    (oldest : (s.timebase.edges.find? fun x => decide (x.line = line)) = some e) :
    exec (.triggerEdge line) s =
      .next (takeEdge e (s.setTimebase { s.timebase with edges := s.timebase.edges.erase e })) := by
  rw [exec_triggerEdge, execTriggerEdge, oldest]

theorem countsEdge_eq {x : Slot} {e : Edge} {line : Line} (isLine : e.line = line) : x.countsEdge e =
    (decide (x.state = .running) && decide (x.settings.kind = .triggered) && decide (x.settings.line = line)
      && (decide (x.settings.edge = .both) || (decide (x.settings.edge = .rise) && decide (e.direction = .rise))
        || (decide (x.settings.edge = .fall) && decide (e.direction = .fall)))) := by
  rw [Slot.countsEdge, qualifies_eq, isLine]

theorem reachesDivider_eq (x : Slot) : x.reachesDivider = decide (x.edgeCount = x.settings.dividerCode.toNat) :=
  decide_eq_decide.mpr Nat.succ_inj

theorem takeEdge_adds {e : Edge} {s : State} (adds : edgeAdds e s = true) :
    takeEdge e s = edgeDecision (edgeCounted e s) := if_pos adds

theorem takeEdge_none {e : Edge} {s : State} (none : edgeAdds e s = false) : takeEdge e s = edgeCounted e s :=
  if_neg (by rw [none]; exact Bool.false_ne_true)

/-- Settles O55: a trigger edge at every slot, and its decision for the converter. -/
theorem triggerEdgeCountsAndPreempts : Obligations.TriggerEdgeCountsAndPreempts := by
  intro line s e oldest counts reaches adds overruns canPreempt
  have isLine : e.line = line :=
    of_decide_eq_true (List.find?_some (p := fun x : Edge => decide (x.line = line)) oldest)
  have countsEq : ∀ n, counts n = s.slots[n].countsEdge e := fun n => (countsEdge_eq isLine).symm
  have reachesEq : ∀ n, reaches n = s.slots[n].reachesAt e := fun n => by
    rw [Slot.reachesAt, reachesDivider_eq, ← countsEq]
  have addsEq : adds = fun n => s.slots[n].addsAt e := funext fun n => by rw [Slot.addsAt, ← reachesEq]
  have overrunsEq : overruns = fun n => s.slots[n].overrunsAt e := funext fun n => by rw [Slot.overrunsAt, ← reachesEq]
  have preemptsEq : canPreempt = preempts s := rfl
  clear_value counts reaches adds overruns canPreempt
  subst addsEq overrunsEq preemptsEq
  have taken := exec_triggerEdge_edge oldest
  generalize erased : s.setTimebase { s.timebase with edges := s.timebase.edges.erase e } = b at taken
  have before : sameBut [.timebase] s b := erased ▸ sameBut_setTimebase s _
  have slots (n : SlotNo) : b.slots[n] = s.slots[n] := before (.slot n) (by simp)
  have counted := sameBut_edgeCounted e b
  have conv : (edgeCounted e b).conv = s.conv := (counted .converter (by simp [allSlots])).trans (before .converter (by simp))
  have someAdds : edgeAdds e b = true ↔ ∃ n : SlotNo, s.slots[n].addsAt e = true :=
    edgeAdds_iff.trans (exists_congr fun n => by rw [slots])
  have entries : (edgeEntry e b) = edgeEntry e s := funext fun n => by unfold edgeEntry; rw [slots]
  have requests : (edgeCounted e b).requests = overrunWhere (fun n => s.slots[n].overrunsAt e) s.requests
      ++ (((List.finRange 32).filter fun n => s.slots[n].addsAt e).map (edgeEntry e s)) := by
    have unchanged : b.requests = s.requests := before .requests (by simp)
    rw [edgeCounted_requests, entries, unchanged]
    simp only [slots]
  refine ⟨edgeCounted e b, _, taken, ?_, ?_, requests, fun n => ?_, fun noneAdds => ?_, fun adds idle => ?_,
    fun r adds ok => ?_, fun adds busy none => ?_⟩
  · exact sameBut_trans (sameBut_mono before (by simp)) (sameBut_mono counted (by simp +contextual))
  · exact (counted .timebase (by simp [allSlots])).trans (erased ▸ rfl)
  · rw [edgeCounted_slots, slots, Slot.edged, ← countsEq, ← reachesEq]
  · refine takeEdge_none (Bool.eq_false_iff.mpr fun adds => ?_)
    obtain ⟨n, added⟩ := someAdds.mp adds
    exact Bool.false_ne_true ((noneAdds n).symm.trans added)
  · rw [takeEdge_adds (someAdds.mpr adds), edgeDecision_idle (by rw [conv, idle])]
    refine select_selectedFrom fun empty => ?_
    obtain ⟨n, added⟩ := adds
    rw [requests] at empty
    have mem : n ∈ (List.finRange 32).filter fun n => s.slots[n].addsAt e :=
      List.mem_filter.mpr ⟨List.mem_finRange n, added⟩
    rw [List.map_eq_nil_iff.mp (List.append_eq_nil_iff.mp empty).2] at mem
    exact absurd mem List.not_mem_nil
  · have ok : preempts (edgeCounted e b) r := by unfold preempts; rw [conv]; exact ok
    rw [takeEdge_adds (someAdds.mpr adds), edgeDecision_preempts ok]
    exact abandon_abandonedFrom _ r
  · have notPreempts : ∀ r, ¬ preempts (edgeCounted e b) r := fun r ok => none r (by unfold preempts at ok; rwa [conv] at ok)
    rw [takeEdge_adds (someAdds.mpr adds), edgeDecision_waits (by rwa [conv]) notPreempts]

end Sys2Proof.Machine
end

