-- ==== Sys2Proof/Proofs/Completions.lean ====
section
/-! PROOF. A completion: its stages, the latest-sample entry and the end of the demands (R44, R68, R69, R88). -/

namespace Sys2Proof.Machine

/-! ### The stages of a completion (R69) -/

theorem exec_completion_due {s : State} {r : InFlight} (due : completionDue s r) :
    exec .completion s = .next (select (complete s r)) := by
  obtain ⟨phase, atEnd, record, done⟩ := due
  rw [exec_completion, execCompletion, atPhaseEnd_due phase nofun atEnd record]
  exact if_pos done

section Stages

variable (s : State) (r : InFlight)

/-- The state before the slots are served: the converter is IDLE, the latest-sample entry is in, the in-flight flags are
clear. -/
def latestWritten : State :=
  clearInFlight ((s.setConv (Converter.completed r)).setLatest r.channel
    (s.latest[r.channel].update (completionReport s r) (producingPort s r))) r

/-- The state with the served slots' and the demands' records delivered. -/
def slotsServed : State := (servedSlots s r).foldl (serveSlot (completionReport s r)) (latestWritten s r)
def demandsServed : State := r.subs.foldl (serveDemand (completionReport s r)) (slotsServed s r)

/-- The state before the RETIRING slots are released. -/
def demandsEnded : State := endDemands (demandsServed s r) r.subs fun _ => true

theorem complete_eq : complete s r =
    (retiringNamed (demandsEnded s r) (r.subs.map (·.sub))).foldl releaseSlot (demandsEnded s r) := rfl

theorem sameBut_latestWritten : sameBut ([.converter, .latest r.channel] ++ allSlots) s (latestWritten s r) :=
  sameBut_trans (sameBut_mono (sameBut_setConv s _) (by simp)) (sameBut_trans
    (sameBut_mono (sameBut_setLatest _ _ _) (by simp)) (sameBut_mapSlots _ _ _ fun n => .inl (by simp)))

theorem sameBut_slotsServed : sameBut servingParts (latestWritten s r) (slotsServed s r) :=
  sameBut_foldl (sameBut_serveSlot _) _ _

theorem sameBut_demandsServed : sameBut servingParts (slotsServed s r) (demandsServed s r) :=
  sameBut_foldl (sameBut_serveDemand _) _ _

theorem sameBut_demandsEnded : sameBut allDemands (demandsServed s r) (demandsEnded s r) := sameBut_endDemands _ _ _

theorem sameBut_complete_ended : sameBut (allSlots ++ allEvents) (demandsEnded s r) (complete s r) :=
  sameBut_releaseSlots _ _

theorem latestWritten_slots (n : SlotNo) : (latestWritten s r).slots[n] =
    { s.slots[n] with inFlightFlag := s.slots[n].inFlightFlag && !namesSlot r n } := by
  unfold latestWritten clearInFlight
  rw [State.mapSlots_slots, getElem_ofFn_at, names_subs, State.setLatest_slots, State.setConv_slots]
  split
  · rename_i named; simp [named]
  · rename_i notNamed; simp [Bool.eq_false_iff.mpr notNamed]

theorem complete_latest (c : Channel) : (complete s r).latest[c] = (latestWritten s r).latest[c] :=
  sameBut_complete_served s r (.latest c)
    (by simp [servingParts, allSlots, allQueues, allWatches, allEvents, allDemands])

theorem latestWritten_latest : (latestWritten s r).latest[r.channel] =
    s.latest[r.channel].update (completionReport s r) (producingPort s r) := by
  unfold latestWritten clearInFlight
  rw [State.mapSlots_latest, State.setLatest_latest, getElem_set_same]

/-- The demands of the record have ended, and no other (R41, R116). -/
theorem complete_demand (p : Port) : (complete s r).sessions[p].demandOutstanding =
    (s.sessions[p].demandOutstanding && !r.subs.any fun x => decide (x.sub.origin = .demand p)) := by
  have kept : (demandsServed s r).sessions[p].demandOutstanding = s.sessions[p].demandOutstanding :=
    (sameBut_demandsServed s r (.demand p)
      (by simp [servingParts, allSlots, allQueues, allWatches, allEvents])).trans
    ((sameBut_slotsServed s r (.demand p)
      (by simp [servingParts, allSlots, allQueues, allWatches, allEvents])).trans
    (sameBut_latestWritten s r (.demand p) (by simp [allSlots])))
  refine (sameBut_complete_ended s r (.demand p) (by simp [allSlots, allEvents])).trans ?_
  rw [demandsEnded, endDemands_outstanding, kept]
  simp

end Stages

/-! ### The producing port (R88) -/

/-- The first of all numbers that a test chooses is the lowest. -/
theorem find?_finRange {k : Nat} {P : Fin k → Bool} {i : Fin k} :
    (List.finRange k).find? P = some i ↔ P i = true ∧ ∀ j, P j = true → i ≤ j := by
  rw [← Fin.find?_eq_find?_finRange, Fin.find?_eq_some_iff]
  refine and_congr_right fun _ => forall_congr' fun j => ?_
  cases P j <;> simp

/-- A subscriber is counted for port p (R88). -/
def countedFor (s : State) (r : InFlight) (p : Port) : Prop := ∃ x ∈ r.subs,
  x.sub.origin = .demand p ∨ ∃ n : SlotNo, x.sub.origin = .slot n ∧ x.marked = false
    ∧ s.slots[n].owner = some p ∧ (s.slots[n].state = .stopped ∨ s.slots[n].state = .running)

theorem isLive_iff {s : State} {n : SlotNo} :
    s.isLive n = true ↔ s.slots[n].state = .stopped ∨ s.slots[n].state = .running := by
  simp [State.isLive]

theorem any_counted {s : State} {r : InFlight} {p : Port} :
    ((counted s r).any fun x => decide (portOf s x = some p)) = true ↔ countedFor s r p := by
  simp only [counted, List.any_filter, List.any_eq_true, countedFor]
  refine exists_congr fun x => and_congr_right fun _ => ?_
  unfold portOf
  cases x.sub.origin with
  | slot n =>
    simp only [Bool.and_eq_true, Bool.not_eq_true', isLive_iff, decide_eq_true_eq, reduceCtorEq, false_or,
      Origin.slot.injEq, exists_eq_left']
    tauto
  | demand q => simp

theorem producingPort_some {s : State} {r : InFlight} {p : Port} :
    producingPort s r = some p ↔ countedFor s r p ∧ ∀ q, countedFor s r q → p ≤ q := by
  unfold producingPort
  rw [find?_finRange]
  simp only [any_counted]

theorem producingPort_none {s : State} {r : InFlight} :
    producingPort s r = none ↔ ∀ p, ¬ countedFor s r p := by
  unfold producingPort
  rw [List.find?_eq_none]
  simp only [any_counted, List.mem_finRange, forall_const]

/-- Settles O58: the latest-sample entry of a completion, its producing port, and the end of its demands. -/
theorem completionUpdatesTheLatestSample : Obligations.CompletionUpdatesTheLatestSample := by
  intro s r k due start
  have frame : sameBut (completionParts r.channel) s (select (complete s r)) :=
    sameBut_trans (sameBut_complete s r) (sameBut_mono (sameBut_select _) (by simp +contextual [completionParts]))
  have selects := sameBut_select (complete s r)
  have latest : (select (complete s r)).latest[r.channel]
      = s.latest[r.channel].update (completionReport s r) (producingPort s r) :=
    (selects (.latest r.channel) (by simp [allSlots])).trans
      ((complete_latest s r r.channel).trans (latestWritten_latest s r))
  refine ⟨_, exec_completion_due due, frame, ?_⟩
  rw [latest]
  refine ⟨rfl, ?_, rfl, rfl, rfl, rfl, ⟨fun p => producingPort_some, producingPort_none⟩, fun p => ?_⟩
  · show r.startTick.getD s.now = k
    rw [start]; rfl
  · exact (selects (.demand p) (by simp [allSlots])).trans (complete_demand s r p)

end Sys2Proof.Machine
end

