-- ==== Sys2Proof/Proofs/Serving.lean ====
section
/-! PROOF. What a completion does to the slots: the served ones count the conversion, the others rest, but for the bursts that start and end (R22, R24 to R26, R133). -/

namespace Sys2Proof.Machine

/-! ### A slot at rest -/

/-- What the delivery of a conversion leaves of every slot, and what it leaves of the slots that are not of kind BURST. -/
def Slot.record (x : Slot) : Option Port × Settings × BitVec 16 × Nat := (x.owner, x.settings, x.sequence, x.overrunCount)
def Slot.standing (x : Slot) : SlotState × WindowPos × Nat := (x.state, x.windowPos, x.decimationCount)

/-- y is what slot x may become while records and watches are served: of the same standing, unless a burst of it starts or
ends. -/
def Slot.rests (x y : Slot) : Prop :=
  y.record = x.record ∧ (y.standing = x.standing ∨ x.settings.kind = .burst ∧ x.live ∧ y.live)

/-- No entry of the pending list is of slot n. -/
def unnamed (s : State) (n : SlotNo) : Prop := ∀ e ∈ s.requests, ∀ y ∈ e.subs, y.origin ≠ .slot n

/-- Every slot of s rests in t, and no slot that is not live gets a request. -/
@[irreducible] def slotsRest (s t : State) : Prop :=
  ∀ n : SlotNo, s.slots[n].rests t.slots[n] ∧ (¬ s.slots[n].live → unnamed s n → unnamed t n)

theorem Slot.rests_of_same {x y : Slot} (record : y.record = x.record) (standing : y.standing = x.standing) : x.rests y :=
  ⟨record, .inl standing⟩

theorem Slot.rests_refl (x : Slot) : x.rests x := ⟨rfl, .inl rfl⟩

theorem Slot.settings_of_record {x y : Slot} (same : y.record = x.record) : y.settings = x.settings :=
  congrArg (fun r : Option Port × Settings × BitVec 16 × Nat => r.2.1) same

theorem Slot.live_of_standing {x y : Slot} (same : y.standing = x.standing) : y.live ↔ x.live := by
  have state : y.state = x.state := congrArg Prod.fst same
  unfold Slot.live
  rw [state]

theorem Slot.rests_live {x y : Slot} (h : x.rests y) : y.live ↔ x.live := by
  rcases h.2 with same | ⟨-, liveX, liveY⟩
  · exact Slot.live_of_standing same
  · exact iff_of_true liveY liveX

theorem Slot.rests_trans {x y z : Slot} (h : x.rests y) (k : y.rests z) : x.rests z := by
  have settings := Slot.settings_of_record h.1
  refine ⟨k.1.trans h.1, ?_⟩
  rcases k.2 with same | ⟨burst, liveY, liveZ⟩
  · rcases h.2 with same' | ⟨burst, liveX, liveY⟩
    · exact .inl (same.trans same')
    · exact .inr ⟨burst, liveX, (Slot.live_of_standing same).mpr liveY⟩
  · exact .inr ⟨settings ▸ burst, (Slot.rests_live h).mp liveY, liveZ⟩

theorem slotsRest_iff {s t : State} : slotsRest s t ↔
    ∀ n : SlotNo, s.slots[n].rests t.slots[n] ∧ (¬ s.slots[n].live → unnamed s n → unnamed t n) := by
  unfold slotsRest; exact Iff.rfl

theorem slotsRest_refl (s : State) : slotsRest s s := slotsRest_iff.mpr fun _ => ⟨Slot.rests_refl _, fun _ h => h⟩

theorem slotsRest_trans {s t u : State} (h : slotsRest s t) (k : slotsRest t u) : slotsRest s u :=
  slotsRest_iff.mpr fun n => by
    obtain ⟨rests, free⟩ := slotsRest_iff.mp h n
    obtain ⟨rests', free'⟩ := slotsRest_iff.mp k n
    exact ⟨Slot.rests_trans rests rests',
      fun dead none => free' (fun live => dead ((Slot.rests_live rests).mp live)) (free dead none)⟩

theorem slotsRest_ite {c : Prop} [Decidable c] {s t u : State} (h : slotsRest s t) (k : slotsRest s u) :
    slotsRest s (if c then t else u) := by
  split
  · exact h
  · exact k

theorem slotsRest_foldl {α : Type} {f : State → α → State} (h : ∀ s a, slotsRest s (f s a)) (l : List α) (s : State) :
    slotsRest s (l.foldl f s) := by
  induction l generalizing s with
  | nil => exact slotsRest_refl s
  | cons a l ih => exact slotsRest_trans (h s a) (ih (f s a))

theorem unnamed_congr {s t : State} (requests : t.requests = s.requests) (n : SlotNo) : unnamed t n ↔ unnamed s n := by
  unfold unnamed; rw [requests]

/-- A change outside the slots and the pending list. -/
theorem slotsRest_of_frame {l : List Part} {s t : State} (frame : sameBut l s t) (noSlot : ∀ n, Part.slot n ∉ l)
    (noRequest : Part.requests ∉ l) : slotsRest s t := slotsRest_iff.mpr fun n => by
  have slot : t.slots[n] = s.slots[n] := frame (.slot n) (noSlot n)
  rw [slot]
  exact ⟨Slot.rests_refl _, fun _ => (unnamed_congr (frame .requests noRequest) n).mpr⟩

/-- A slot that is written, and the pending list left as it is. -/
theorem slotsRest_setSlot {s u : State} {n : SlotNo} {x : Slot} (slots : u.slots = s.slots)
    (requests : u.requests = s.requests) (h : s.slots[n].rests x) : slotsRest s (u.setSlot n x) :=
  slotsRest_iff.mpr fun m => by
    refine ⟨?_, fun _ => (unnamed_congr requests m).mpr⟩
    rw [State.setSlot_slots, getElem_set_at, slots]
    split
    · rename_i e; exact e ▸ h
    · exact Slot.rests_refl _

/-! ### Requests and bursts -/

/-- A live slot may be given a request. -/
theorem slotsRest_requestSlot {s : State} {n : SlotNo} (due : Tick) (live : s.slots[n].live) :
    slotsRest s (requestSlot s n due) := slotsRest_iff.mpr fun m => by
  by_cases same : m = n
  · subst same
    rw [requestSlot_slot]
    exact ⟨Slot.rests_of_same rfl rfl, fun dead => absurd live dead⟩
  · have kept : (requestSlot s n due).slots[m] = s.slots[m] := sameBut_requestSlot s n due (.slot m) (by simp [same])
    rw [kept]
    refine ⟨Slot.rests_refl _, fun _ none e mem y memY => ?_⟩
    rcases List.mem_append.mp (show e ∈ s.requests ++ _ from mem) with before | added
    · exact none e before y memY
    · cases List.mem_singleton.mp added
      cases List.mem_singleton.mp memY
      exact fun origin => same (Origin.slot.inj origin).symm

theorem withdrawSlot_slot (s : State) (n : SlotNo) :
    (withdrawSlot s n).slots[n] = { s.slots[n] with pendingFlag := false } := getElem_set_same _ _ _

theorem slotsRest_withdrawSlot (s : State) (n : SlotNo) : slotsRest s (withdrawSlot s n) := slotsRest_iff.mpr fun m => by
  constructor
  · by_cases same : m = n
    · subst same; rw [withdrawSlot_slot]; exact Slot.rests_of_same rfl rfl
    · have kept : (withdrawSlot s n).slots[m] = s.slots[m] := sameBut_withdrawSlot s n (.slot m) (by simp [same])
      rw [kept]; exact Slot.rests_refl _
  · intro _ none e mem y memY
    have withdrawn : e ∈ withdrawWhere (SubEntry.isFrom (.slot n)) s.requests := mem
    obtain ⟨e', memE', rfl⟩ := List.mem_map.mp (List.mem_filter.mp withdrawn).1
    exact none e' memE' y (List.mem_filter.mp memY).1

theorem slotsRest_startBurstAt {s : State} {n : SlotNo} (due : Tick) (kind : s.slots[n].settings.kind = .burst)
    (stopped : s.slots[n].state = .stopped) : slotsRest s (startBurstAt s n due) := by
  unfold startBurstAt
  refine slotsRest_trans (slotsRest_setSlot rfl rfl ?_) (slotsRest_requestSlot due ?_)
  · exact ⟨rfl, .inr ⟨kind, .inl stopped, .inr rfl⟩⟩
  · rw [State.setSlot_slots, getElem_set_same]; exact .inr rfl

/-! ### Watches -/

theorem slotsRest_sendEvent (s : State) (p : Port) (e : EventRecord) : slotsRest s (sendEvent s p e) :=
  slotsRest_of_frame (sameBut_sendEvent s p e) (by simp) (by simp)

theorem slotsRest_setWatch (s : State) (p : Port) (w : Fin 8) (x : Watch) : slotsRest s (s.setWatch p w x) :=
  slotsRest_of_frame (sameBut_setWatch s p w x) (by simp) (by simp)

theorem slotsRest_captureAction (s : State) (p : Port) (w : Fin 8) (b : SlotNo) (tick : Tick) :
    slotsRest s (captureAction s p w b tick) := by
  unfold captureAction
  simp only
  split
  · rename_i own; exact slotsRest_startBurstAt tick own.2.1 own.2.2
  · exact slotsRest_ite (slotsRest_sendEvent s p _) (slotsRest_sendEvent s p _)

theorem slotsRest_watchAction (s : State) (p : Port) (w : Fin 8) (x : Watch) (tick : Tick) :
    slotsRest s (watchAction s p w x tick) := by
  unfold watchAction
  split
  · exact slotsRest_refl s
  · exact slotsRest_of_frame (sameBut_holdAction s p w tick) (by simp) (by simp)
  · exact slotsRest_captureAction s p w _ tick

theorem slotsRest_carryOutMatch (s : State) (p : Port) (w : Fin 8) (n : SlotNo) (tick : Tick) (c : Conditions) :
    slotsRest s (carryOutMatch s p w n tick c) := by
  have noted (x : Watch) (e : EventRecord) : slotsRest s (sendEvent (s.setWatch p w x) p e) :=
    slotsRest_trans (slotsRest_setWatch s p w x) (slotsRest_sendEvent _ p e)
  unfold carryOutMatch
  simp only
  split
  · exact slotsRest_trans (slotsRest_trans (noted _ _) (slotsRest_watchAction _ p w _ tick)) (slotsRest_setWatch _ p w _)
  · exact slotsRest_trans (noted _ _) (slotsRest_watchAction _ p w _ tick)

theorem slotsRest_evaluateWatches (s : State) (p : Port) (n : SlotNo) (tick : Tick) (c : Conditions) :
    slotsRest s (evaluateWatches s p n tick c) :=
  slotsRest_foldl (fun u w => slotsRest_ite (slotsRest_carryOutMatch u p w n tick c) (slotsRest_refl u)) _ s

/-! ### A served slot (R24 to R26) -/

theorem slotsRest_deliverTo (s : State) (c : Report) (n : SlotNo) (t : Slot) (sub : Option SubEntry) :
    slotsRest s (deliverTo s c n t sub) := by
  unfold deliverTo
  simp only
  split
  · refine slotsRest_trans ?_ (slotsRest_evaluateWatches _ _ _ _ _)
    exact slotsRest_ite (slotsRest_of_frame (sameBut_offerRecord s _ _ _) (by simp) (by simp)) (slotsRest_refl s)
  · exact slotsRest_refl s

theorem slotsRest_sendToOwner (s : State) (o : Option Port) (e : EventRecord) : slotsRest s (sendToOwner s o e) :=
  slotsRest_of_frame (sameBut_sendToOwner s o e) (by simp [allEvents]) (by simp [allEvents])

/-- Burst accounting counts a RUNNING burst, asks for its next conversion, or stops it (R26). -/
theorem slotsRest_burstAccounting (s : State) (n : SlotNo) (tick : Tick) : slotsRest s (burstAccounting s n tick) := by
  unfold burstAccounting
  simp only
  split
  · rename_i running
    obtain ⟨kind, running, -⟩ := running
    have counted (k : Nat) : slotsRest s (s.setSlot n { s.slots[n] with burstRemaining := k }) :=
      slotsRest_setSlot rfl rfl (Slot.rests_of_same rfl rfl)
    have live (k : Nat) : (s.setSlot n { s.slots[n] with burstRemaining := k }).slots[n].live := by
      rw [State.setSlot_slots, getElem_set_same]; exact .inr running
    have isBurst (k : Nat) : (s.setSlot n { s.slots[n] with burstRemaining := k }).slots[n].settings.kind = .burst := by
      rw [State.setSlot_slots, getElem_set_same]; exact kind
    split
    · exact slotsRest_ite (counted _) (slotsRest_trans (counted _) (slotsRest_requestSlot tick (live _)))
    · refine slotsRest_trans ?_ (slotsRest_sendToOwner _ _ _)
      refine slotsRest_trans (counted (s.slots[n].burstRemaining - 1)) (slotsRest_trans
        (slotsRest_ite (slotsRest_withdrawSlot _ n) (slotsRest_refl _)) (slotsRest_setSlot rfl rfl ?_))
      refine ⟨rfl, .inr ⟨?_, ?_, .inl rfl⟩⟩
      · split
        · rw [withdrawSlot_slot]; exact isBurst _
        · exact isBurst _
      · split
        · rw [withdrawSlot_slot]; exact live _
        · exact live _
  · exact slotsRest_refl s

theorem slotsRest_serveSlot (c : Report) (s : State) (x : SlotNo × Option SubEntry) :
    slotsRest (s.setSlot x.1 (s.slots[x.1].served c.value)) (serveSlot c s x) :=
  slotsRest_trans (slotsRest_deliverTo _ c _ _ _) (slotsRest_burstAccounting _ _ _)

/-! ### The served slots of a completion (R24) -/

/-- A slot at rest may be served later. -/
theorem Slot.rests_served {x y : Slot} (v : BitVec 12) (h : x.rests y) : (x.served v).rests (y.served v) := by
  obtain ⟨record, standing⟩ := h
  simp only [Slot.record, Prod.mk.injEq] at record
  obtain ⟨owner, settings, sequence, overruns⟩ := record
  refine ⟨?_, standing.imp (fun same => ?_) id⟩
  · simp only [Slot.record, Slot.served, owner, settings, sequence, overruns]
  · simp only [Slot.standing, Prod.mk.injEq] at same
    obtain ⟨state, -, decimation⟩ := same
    have produces : y.producesRecord = x.producesRecord := by
      unfold Slot.producesRecord; rw [settings, decimation]
    simp only [Slot.standing, Slot.served, produces, settings, state, decimation]

/-- The slots after the served slots of a list have been served: those of the list have counted the conversion. -/
theorem served_foldl (c : Report) {l : List (SlotNo × Option SubEntry)} (once : (l.map (·.1)).Nodup) (u : State)
    (n : SlotNo) :
    (if n ∈ l.map (·.1) then u.slots[n].served c.value else u.slots[n]).rests (l.foldl (serveSlot c) u).slots[n]
      ∧ (¬ u.slots[n].live → unnamed u n → unnamed (l.foldl (serveSlot c) u) n) := by
  induction l generalizing u with
  | nil => exact ⟨Slot.rests_refl _, fun _ none => none⟩
  | cons x l ih =>
    obtain ⟨notAgain, once⟩ := List.nodup_cons.mp once
    obtain ⟨rests, free⟩ := slotsRest_iff.mp (slotsRest_serveSlot c u x) n
    obtain ⟨later, later_free⟩ := ih once (serveSlot c u x)
    rw [State.setSlot_slots, getElem_set_at] at rests free
    rw [List.foldl_cons]
    by_cases head : x.1 = n
    · subst head
      rw [if_pos rfl] at rests free
      rw [if_neg notAgain] at later
      have inList : x.1 ∈ (x :: l).map (·.1) := List.mem_cons_self
      rw [if_pos inList]
      exact ⟨Slot.rests_trans rests later, fun dead none =>
        later_free (fun live => dead ((Slot.rests_live rests).mp live)) (free dead none)⟩
    · rw [if_neg head] at rests free
      have inList : n ∈ (x :: l).map (·.1) ↔ n ∈ l.map (·.1) := by simp [Ne.symm head]
      refine ⟨?_, fun dead none => later_free (fun live => dead ((Slot.rests_live rests).mp live)) (free dead none)⟩
      rw [if_congr inList rfl rfl]
      refine Slot.rests_trans ?_ later
      split
      · exact Slot.rests_served _ rests
      · exact rests

theorem find?_counted {s : State} {r : InFlight} {n : SlotNo} {x : FlightEntry}
    (found : (counted s r).find? (fun x => decide (x.sub.origin = .slot n)) = some x) :
    x ∈ r.subs ∧ x.sub.origin = .slot n ∧ x.marked = false ∧ s.isLive n = true := by
  have origin : x.sub.origin = .slot n :=
    of_decide_eq_true (List.find?_some (p := fun x : FlightEntry => decide (x.sub.origin = .slot n)) found)
  obtain ⟨mem, isCounted⟩ := List.mem_filter.mp (List.mem_of_find?_eq_some found)
  rw [origin] at isCounted
  simp only [Bool.and_eq_true, Bool.not_eq_true'] at isCounted
  exact ⟨mem, origin, isCounted⟩

theorem isAttached_iff {s : State} {n : SlotNo} {c : Channel} : s.isAttached n c = true ↔
    s.slots[n].state = .running ∧ s.slots[n].settings.kind = .listen ∧ s.slots[n].settings.channel = c := by
  simp [State.isAttached, and_assoc]

/-- A slot entry that a completion counts (R88). -/
theorem mem_counted_slot {s : State} {r : InFlight} {n : SlotNo} {x : FlightEntry} (origin : x.sub.origin = .slot n) :
    x ∈ counted s r ↔ x ∈ r.subs ∧ x.marked = false ∧ s.isLive n = true := by
  unfold counted
  rw [List.mem_filter, origin]
  simp only [Bool.and_eq_true, Bool.not_eq_true']

theorem servedAs_isServed {s : State} {r : InFlight} {n : SlotNo} : (servedAs s r n).isSome = true ↔ isServed s r n := by
  unfold servedAs isServed
  split
  · rename_i x found
    obtain ⟨mem, origin, unmarked, live⟩ := find?_counted found
    exact iff_of_true rfl (.inl ⟨⟨x, mem, unmarked, origin⟩, isLive_iff.mp live⟩)
  · rename_i notFound
    have notCounted : ¬ ((∃ x ∈ r.subs, x.marked = false ∧ x.sub.origin = .slot n)
        ∧ (s.slots[n].state = .stopped ∨ s.slots[n].state = .running)) := fun ⟨⟨x, mem, unmarked, origin⟩, live⟩ => by
      have isCounted := (mem_counted_slot (s := s) origin).mpr ⟨mem, unmarked, isLive_iff.mpr live⟩
      exact absurd (decide_eq_true origin) (List.find?_eq_none.mp notFound x isCounted)
    rw [or_iff_right notCounted, ← isAttached_iff]
    cases s.isAttached n r.channel <;> simp

theorem mem_servedSlots {s : State} {r : InFlight} {n : SlotNo} {x : Option SubEntry} :
    (n, x) ∈ servedSlots s r ↔ servedAs s r n = some x := by
  simp [servedSlots, List.mem_filterMap, List.mem_finRange]

theorem mem_served_iff {s : State} {r : InFlight} {n : SlotNo} :
    n ∈ (servedSlots s r).map (·.1) ↔ isServed s r n := by
  rw [← servedAs_isServed, Option.isSome_iff_exists, List.mem_map]
  constructor
  · rintro ⟨⟨m, x⟩, mem, rfl⟩; exact ⟨x, mem_servedSlots.mp mem⟩
  · rintro ⟨x, served⟩; exact ⟨(n, x), mem_servedSlots.mpr served, rfl⟩

/-- The served slots stand in ascending order (R24). -/
theorem servedSlots_ascend (s : State) (r : InFlight) : ((servedSlots s r).map (·.1)).Pairwise (· < ·) := by
  unfold servedSlots
  rw [List.map_filterMap, List.pairwise_filterMap]
  refine (List.pairwise_lt_finRange 32).imp fun {m n} below m' isM n' isN => ?_
  simp only [Option.map_map, Option.map_eq_some_iff] at isM isN
  obtain ⟨-, -, rfl⟩ := isM
  obtain ⟨-, -, rfl⟩ := isN
  exact below

/-! ### The whole completion (R44, R69) -/

theorem slotsRest_serveDemand (c : Report) (s : State) (x : FlightEntry) : slotsRest s (serveDemand c s x) := by
  unfold serveDemand
  split
  · exact slotsRest_refl s
  · exact slotsRest_ite (slotsRest_refl s) (slotsRest_of_frame (sameBut_offerRecord s _ _ _) (by simp) (by simp))

section Whole

variable {s : State} {r : InFlight} {n : SlotNo}

theorem slotsRest_demandsEnded : slotsRest (slotsServed s r) (demandsEnded s r) :=
  slotsRest_trans (slotsRest_foldl (slotsRest_serveDemand _) _ _)
    (slotsRest_of_frame (sameBut_demandsEnded s r) (by simp [allDemands]) (by simp [allDemands]))

theorem rests_latestWritten : s.slots[n].rests (latestWritten s r).slots[n] := by
  rw [latestWritten_slots]; exact Slot.rests_of_same rfl rfl

theorem nodup_servedSlots : ((servedSlots s r).map (·.1)).Nodup :=
  (servedSlots_ascend s r).imp fun below => below.ne

/-- The served slots have counted the conversion, the others rest (R24, R25). -/
theorem slotsServed_slot (s : State) (r : InFlight) (n : SlotNo) :
    (if n ∈ (servedSlots s r).map (·.1) then (latestWritten s r).slots[n].served (completionReport s r).value
      else (latestWritten s r).slots[n]).rests (slotsServed s r).slots[n]
      ∧ (¬ (latestWritten s r).slots[n].live → unnamed (latestWritten s r) n → unnamed (slotsServed s r) n) :=
  served_foldl _ nodup_servedSlots _ n

theorem served_demandsEnded (isServed : isServed s r n) :
    (s.slots[n].served (completionReport s r).value).rests (demandsEnded s r).slots[n] := by
  have served := (slotsServed_slot s r n).1
  rw [if_pos (mem_served_iff.mpr isServed)] at served
  exact Slot.rests_trans (Slot.rests_served _ rests_latestWritten)
    (Slot.rests_trans served (slotsRest_iff.mp slotsRest_demandsEnded n).1)

theorem notServed_demandsEnded (notServed : ¬ isServed s r n) : s.slots[n].rests (demandsEnded s r).slots[n] := by
  have rests := (slotsServed_slot s r n).1
  rw [if_neg fun mem => notServed (mem_served_iff.mp mem)] at rests
  exact Slot.rests_trans rests_latestWritten (Slot.rests_trans rests (slotsRest_iff.mp slotsRest_demandsEnded n).1)

theorem unnamed_demandsEnded (dead : ¬ s.slots[n].live) (none : unnamed s n) : unnamed (demandsEnded s r) n := by
  have dead' : ¬ (latestWritten s r).slots[n].live := fun live => dead ((Slot.rests_live rests_latestWritten).mp live)
  have unchanged : (latestWritten s r).requests = s.requests := sameBut_latestWritten s r .requests (by simp [allSlots])
  have served := (slotsServed_slot s r n)
  have notServed : ¬ n ∈ (servedSlots s r).map (·.1) := fun mem => dead (by
    rcases mem_served_iff.mp mem with ⟨-, live⟩ | ⟨running, -⟩
    · exact live
    · exact .inr running)
  rw [if_neg notServed] at served
  refine (slotsRest_iff.mp slotsRest_demandsEnded n).2 (fun live => ?_) (served.2 dead' ((unnamed_congr unchanged n).mpr none))
  exact dead' ((Slot.rests_live served.1).mp live)

/-- A slot that is not RETIRING is not released. -/
theorem complete_slot (notRetiring : (demandsEnded s r).slots[n].state ≠ .retiring) :
    (complete s r).slots[n] = (demandsEnded s r).slots[n] := by
  rw [complete_eq, releaseSlots_slots, if_neg]
  intro mem
  have retiring := mem_retiringNamed.mp mem
  rw [Bool.and_eq_true, decide_eq_true_iff] at retiring
  exact notRetiring retiring.2

theorem complete_slot_released (retiring : (demandsEnded s r).slots[n].state = .retiring) (named : namesSlot r n = true) :
    (complete s r).slots[n] = Slot.free := by
  rw [complete_eq, releaseSlots_slots, if_pos]
  rw [mem_retiringNamed, named, decide_eq_true retiring]
  rfl

end Whole

theorem rests_select (u : State) (n : SlotNo) : u.slots[n].rests (select u).slots[n] := by
  unfold select
  split
  · rw [startConversion_slot]
    split
    · exact Slot.rests_of_same rfl rfl
    · exact Slot.rests_refl _
  · exact Slot.rests_refl _

/-- A selection does not touch a slot without a pending entry. -/
theorem select_unnamed {u : State} {n : SlotNo} (none : unnamed u n) : (select u).slots[n] = u.slots[n] := by
  unfold select
  split
  · rename_i w _
    rw [startConversion_slot, if_neg]
    intro named
    obtain ⟨x, mem, isNamed⟩ := List.any_eq_true.mp named
    obtain ⟨-, e, memE, -, memX⟩ := (mem_startedRecord u w x).mp mem
    exact none e memE x.sub memX (of_decide_eq_true isNamed)
  · rfl

theorem newPosition_eq (w : Option Window) (v : BitVec 12) : newPosition w v = positionRule w v := by
  cases w with
  | none => rfl
  | some w =>
    show windowPosition w v = if v.toNat < w.low.toNat then .below else if v.toNat ≤ w.high.toNat then .inside else .above
    unfold windowPosition
    split
    · rfl
    · simp only [← Nat.not_lt, ite_not]

theorem Slot.rests_fields {x y : Slot} (h : x.rests y) : y.owner = x.owner ∧ y.settings = x.settings
    ∧ y.sequence = x.sequence ∧ y.overrunCount = x.overrunCount
    ∧ (x.settings.kind ≠ .burst → y.state = x.state ∧ y.windowPos = x.windowPos ∧ y.decimationCount = x.decimationCount) := by
  obtain ⟨record, standing⟩ := h
  simp only [Slot.record, Prod.mk.injEq] at record
  obtain ⟨owner, settings, sequence, overruns⟩ := record
  refine ⟨owner, settings, sequence, overruns, fun notBurst => ?_⟩
  have same := standing.resolve_right fun burst => notBurst burst.1
  simpa only [Slot.standing, Prod.mk.injEq] using same

/-- Settles O59: the served slots count the conversion, a RETIRING slot that it names is released, the others rest. -/
theorem completionServesTheSlots : Obligations.CompletionServesTheSlots := by
  intro s r n due
  have notRetiring {x y : Slot} (h : x.rests y) (notRetiring : x.state ≠ .retiring) : y.state ≠ .retiring := fun retiring => by
    rcases h.2 with same | ⟨-, -, live⟩
    · exact notRetiring ((congrArg Prod.fst same).symm.trans retiring)
    · rcases live with live | live <;> rw [retiring] at live <;> cases live
  refine ⟨_, exec_completion_due due, fun isServed => ?served, fun notServed retiring named none => ?released,
    fun notServed notRetires => ?rests⟩
  case served =>
    have rests := served_demandsEnded isServed
    have live : s.slots[n].live := by
      rcases isServed with ⟨-, live⟩ | ⟨running, -⟩
      · exact live
      · exact .inr running
    have kept := complete_slot (notRetiring rests (by
      rcases live with live | live
      · exact fun retiring => nomatch live.symm.trans retiring
      · exact fun retiring => nomatch live.symm.trans retiring))
    have all := Slot.rests_trans rests (kept ▸ rests_select (complete s r) n)
    obtain ⟨owner, settings, sequence, -, standing⟩ := Slot.rests_fields all
    refine ⟨sequence, settings, owner, fun notBurst => ?_⟩
    obtain ⟨state, position, decimation⟩ := standing notBurst
    refine ⟨state, position.trans (newPosition_eq _ _), decimation.trans ?_⟩
    exact if_congr decide_eq_true_iff rfl rfl
  case released =>
    have dead : ¬ s.slots[n].live := by
      rintro (live | live) <;> rw [retiring] at live <;> cases live
    have rests := notServed_demandsEnded notServed
    have stillRetiring : (demandsEnded s r).slots[n].state = .retiring := by
      refine (congrArg Prod.fst (rests.2.resolve_right fun burst => dead burst.2.1)).trans retiring
    have isNamed : namesSlot r n = true := by
      obtain ⟨x, mem, origin⟩ := named
      exact List.any_eq_true.mpr ⟨x, mem, decide_eq_true origin⟩
    have unchanged : (complete s r).requests = (demandsEnded s r).requests :=
      sameBut_complete_ended s r .requests (by simp [allSlots, allEvents])
    have stillNone : unnamed (complete s r) n := (unnamed_congr unchanged n).mpr (unnamed_demandsEnded dead none)
    exact (select_unnamed stillNone).trans (complete_slot_released stillRetiring isNamed)
  case rests =>
    have rests := notServed_demandsEnded notServed
    have kept := complete_slot (notRetiring rests notRetires)
    have all := Slot.rests_trans rests (kept ▸ rests_select (complete s r) n)
    obtain ⟨-, settings, sequence, overruns, standing⟩ := Slot.rests_fields all
    exact ⟨sequence, overruns, settings, standing⟩

end Sys2Proof.Machine
end

