-- ==== Sys2Proof/Proofs/Deliveries.lean ====
section
/-! PROOF. What a completion delivers: the record of a served slot, its watches, its burst, and the demand records (R26, R69, R93, R97 to R99, R116, R127). -/

namespace Sys2Proof.Machine

/-! ### A record offered to a queue (R104) -/

theorem offerRecord_queue (s : State) (p : Port) (b : Bool) (r : SampleRecord) :
    (offerRecord s p b r).queues[p] = s.queues[p].map fun q => q.offer b r := by
  unfold offerRecord
  split
  · rename_i q queue
    rw [State.setQueue_queues, getElem_set_same, queue]
    rfl
  · rename_i queue
    rw [queue]
    rfl

theorem slotConditions_eq (w : Option Window) (old : WindowPos) (v : BitVec 12) (sub : Option SubEntry) (b : Bool) :
    slotConditions w old v sub b = conditionsRule w old v sub b := by
  unfold slotConditions conditionsRule
  simp only [newPosition_eq]
  cases w <;> cases sub <;> simp

/-! ### A served slot with an owner (R93, R97) -/

section Owned

variable (c : Report) (u : State) (n : SlotNo) (p : Port) (sub : Option SubEntry)

/-- The slot has counted the conversion, and its record, if decimation gives one, is offered to the owner's queue. -/
def recordOffered : State :=
  let x := u.slots[n]
  let s1 := u.setSlot n (x.served c.value)
  if x.producesRecord then
    offerRecord s1 p x.holdable (buildRecord c (servedOrigin c n (x.served c.value) sub)
      (slotConditions x.settings.window x.windowPos c.value sub c.clipped))
  else s1

theorem serveSlot_owned {c : Report} {u : State} {n : SlotNo} {p : Port} {sub : Option SubEntry}
    (owner : u.slots[n].owner = some p) : serveSlot c u (n, sub) =
      burstAccounting (evaluateWatches (recordOffered c u n p sub) p n c.tick
        (slotConditions u.slots[n].settings.window u.slots[n].windowPos c.value sub c.clipped)) n c.tick := by
  unfold serveSlot deliverTo
  simp only [owner]
  rfl

theorem sameBut_recordOffered : sameBut [.slot n, .queue p] u (recordOffered c u n p sub) := by
  have served : sameBut [.slot n, .queue p] u (u.setSlot n (u.slots[n].served c.value)) :=
    sameBut_mono (sameBut_setSlot u n _) (by simp)
  exact sameBut_ite (sameBut_trans served (sameBut_mono (sameBut_offerRecord _ p _ _) (by simp))) served

theorem recordOffered_slot : (recordOffered c u n p sub).slots[n] = u.slots[n].served c.value := by
  have slots : (recordOffered c u n p sub).slots = u.slots.set n (u.slots[n].served c.value) := by
    unfold recordOffered
    simp only
    split
    · exact offerRecord_slots _ _ _ _
    · rfl
  rw [slots, getElem_set_same]

theorem recordOffered_queue : (recordOffered c u n p sub).queues[p] =
    if u.slots[n].producesRecord then u.queues[p].map fun q => q.offer u.slots[n].holdable
      (buildRecord c (servedOrigin c n (u.slots[n].served c.value) sub)
        (slotConditions u.slots[n].settings.window u.slots[n].windowPos c.value sub c.clipped))
    else u.queues[p] := by
  unfold recordOffered
  simp only
  split
  · rw [offerRecord_queue, State.setSlot_queues]
  · rfl

end Owned

/-! ### Burst accounting (R26) -/

section Burst

variable {s : State} {n : SlotNo} {tick : Tick}

theorem burstAccounting_rests
    (rests : s.slots[n].settings.kind ≠ .burst ∨ s.slots[n].state ≠ .running ∨ s.slots[n].burstRemaining = 0) :
    burstAccounting s n tick = s :=
  if_neg fun ⟨kind, running, more⟩ => by
    rcases rests with h | h | h
    · exact h kind
    · exact h running
    · omega

theorem burstAccounting_pending (kind : s.slots[n].settings.kind = .burst) (running : s.slots[n].state = .running)
    (more : 1 < s.slots[n].burstRemaining) (pending : s.slots[n].pendingFlag = true) : burstAccounting s n tick =
      s.setSlot n { s.slots[n] with burstRemaining := s.slots[n].burstRemaining - 1 } :=
  (if_pos ⟨kind, running, by omega⟩).trans ((if_pos more).trans (if_pos pending))

theorem burstAccounting_requests (kind : s.slots[n].settings.kind = .burst) (running : s.slots[n].state = .running)
    (more : 1 < s.slots[n].burstRemaining) (free : s.slots[n].pendingFlag = false) : burstAccounting s n tick =
      requestSlot (s.setSlot n { s.slots[n] with burstRemaining := s.slots[n].burstRemaining - 1 }) n tick :=
  (if_pos ⟨kind, running, by omega⟩).trans ((if_pos more).trans (if_neg (by rw [free]; exact Bool.false_ne_true)))

/-- The slot of a burst that has had its last conversion. -/
def burstEnded (x : Slot) : Slot := { x with burstRemaining := 0, state := .stopped, pendingFlag := false }

/-- The BURST_DONE event of slot n (R26). -/
def burstDone (n : SlotNo) (x : Slot) (tick : Tick) : EventRecord :=
  { kind := .burstDone, subject := BitVec.ofNat 8 n.val, tick := tick, detail := BitVec.ofNat 16 x.settings.burstCount }

/-- Of two writes of a slot the second counts, whatever was withdrawn between them. -/
theorem setSlot_setSlot (s : State) (n : SlotNo) (x y : Slot) : (s.setSlot n x).setSlot n y = s.setSlot n y := by
  simp only [State.setSlot, Vector.set_set]

theorem withdrawSlot_setSlot (s : State) (n : SlotNo) (x y : Slot) :
    (withdrawSlot (s.setSlot n x) n).setSlot n y = (withdrawSlot s n).setSlot n y := by
  simp only [withdrawSlot, State.setSlot, State.setRequests, Vector.set_set]

theorem burstAccounting_ends (kind : s.slots[n].settings.kind = .burst) (running : s.slots[n].state = .running)
    (last : s.slots[n].burstRemaining = 1) : burstAccounting s n tick =
      sendToOwner ((withdrawPending s n).setSlot n (burstEnded s.slots[n]))
        s.slots[n].owner (burstDone n s.slots[n] tick) := by
  have counts : burstAccounting s n tick = _ := if_pos ⟨kind, running, by omega⟩
  rw [counts, if_neg (by omega)]
  unfold withdrawPending
  by_cases pending : s.slots[n].pendingFlag = true
  · simp only [if_pos pending, withdrawSlot_slot, withdrawSlot_setSlot, State.setSlot_slots, getElem_set_same, last]
    rfl
  · simp only [if_neg pending, setSlot_setSlot, State.setSlot_slots, getElem_set_same, last]
    have ended : { s.slots[n] with burstRemaining := 0, state := .stopped } = burstEnded s.slots[n] := by
      unfold burstEnded; rw [← Bool.eq_false_iff.mpr pending]
    rw [← ended]
    rfl

/-- Burst accounting that does not end a burst touches the slot and its request alone. -/
theorem sameBut_burstAccounting_goes
    (goes : ¬ (s.slots[n].settings.kind = .burst ∧ s.slots[n].state = .running ∧ s.slots[n].burstRemaining = 1)) :
    sameBut [.slot n, .requests] s (burstAccounting s n tick) := by
  have counted (k : Nat) : sameBut [.slot n, .requests] s (s.setSlot n { s.slots[n] with burstRemaining := k }) :=
    sameBut_mono (sameBut_setSlot s n _) (by simp)
  by_cases rests : s.slots[n].settings.kind ≠ .burst ∨ s.slots[n].state ≠ .running ∨ s.slots[n].burstRemaining = 0
  · rw [burstAccounting_rests rests]; exact sameBut_refl _ s
  · simp only [not_or, Decidable.not_not] at rests
    obtain ⟨kind, running, remains⟩ := rests
    have notLast : s.slots[n].burstRemaining ≠ 1 := fun last => goes ⟨kind, running, last⟩
    have more : 1 < s.slots[n].burstRemaining := by omega
    by_cases pending : s.slots[n].pendingFlag = true
    · rw [burstAccounting_pending kind running more pending]; exact counted _
    · rw [burstAccounting_requests kind running more (Bool.eq_false_iff.mpr pending)]
      exact sameBut_trans (counted _) (sameBut_requestSlot _ n tick)

/-- The events of burst accounting: BURST_DONE to the owner of the slot whose burst ends. -/
theorem burstAccounting_events (q : Port) : (burstAccounting s n tick).events[q] =
    if (s.slots[n].settings.kind = .burst ∧ s.slots[n].state = .running ∧ s.slots[n].burstRemaining = 1)
      ∧ s.slots[n].owner = some q ∧ s.isOpen q = true
    then s.events[q].offer (burstDone n s.slots[n] tick) else s.events[q] := by
  by_cases ends : s.slots[n].settings.kind = .burst ∧ s.slots[n].state = .running ∧ s.slots[n].burstRemaining = 1
  · have frame := (withdrawPending_written s n (burstEnded s.slots[n])).1
    have isOpen := isOpen_of_same (frame (.session q) (by simp))
    have events := frame (.events q) (by simp)
    obtain ⟨kind, running, last⟩ := ends
    rw [burstAccounting_ends kind running last, sendToOwner_events, isOpen, events]
    exact if_congr (and_iff_right ⟨kind, running, last⟩).symm rfl rfl
  · exact (sameBut_burstAccounting_goes ends (.events q) (by simp)).trans (if_neg fun h => ends h.1).symm

end Burst

/-! ### The watches (R127) -/

/-- A port without an ARMED watch has nothing to evaluate. -/
theorem evaluateWatches_unarmed {s : State} {p : Port} (n : SlotNo) (tick : Tick) (c : Conditions)
    (unarmed : ∀ w : Fin 8, s.watches[p][w].state ≠ .armed) : evaluateWatches s p n tick c = s := by
  have none (w : Fin 8) : testWatch p n tick c s w = s := by
    refine if_neg ?_
    simp [Watch.isMatch, unarmed w, -Fin.getElem_fin]
  have fold (l : List (Fin 8)) : l.foldl (testWatch p n tick c) s = s := by
    induction l with
    | nil => rfl
    | cons w l ih => rw [List.foldl_cons, none, ih]
  exact fold _

/-! ### The demand records (R116) -/

theorem serveDemand_slot {c : Report} {u : State} {x : FlightEntry} {n : SlotNo} (origin : x.sub.origin = .slot n) :
    serveDemand c u x = u := by unfold serveDemand; rw [origin]

theorem serveDemand_marked {c : Report} {u : State} {x : FlightEntry} (marked : x.marked = true) :
    serveDemand c u x = u := by
  unfold serveDemand
  split
  · rfl
  · exact if_pos marked

theorem serveDemand_demand {c : Report} {u : State} {x : FlightEntry} {p : Port} (unmarked : x.marked = false)
    (origin : x.sub.origin = .demand p) : serveDemand c u x = offerRecord u p false
      (buildRecord c (.demand (delayField x.sub.due c.startTick)) (demandConditions x.sub c.clipped)) := by
  unfold serveDemand
  rw [origin]
  exact if_neg (by rw [unmarked]; exact Bool.false_ne_true)

/-! ### How the slots of a completion are served (R24, R94) -/

theorem consumerCount_eq (s : State) (r : InFlight) : consumerCount s r = consumersOf s r := by
  rw [consumersOf, List.countP_eq_length_filter, List.countP_eq_length_filter]
  rfl

theorem completionReport_eq {s : State} {r : InFlight} {k : Tick} (start : r.startTick = some k) : completionReport s r =
    { channel := r.channel, value := BitVec.ofNat 12 (r.runningSum / 2 ^ r.avgCode.toNat), generation := r.generation
      startTick := k, tick := s.now, clipped := r.clipped, consumers := consumersOf s r } := by
  rw [completionReport, consumerCount_eq, start]
  rfl

theorem servedAs_some {s : State} {r : InFlight} {n : SlotNo} {x : SubEntry} (served : servedAs s r n = some (some x)) :
    x.origin = .slot n ∧ ⟨x, false⟩ ∈ r.subs := by
  unfold servedAs at served
  split at served
  · rename_i y found
    obtain ⟨mem, origin, unmarked, -⟩ := find?_counted found
    cases served
    refine ⟨origin, ?_⟩
    rw [← unmarked]
    exact mem
  · split at served <;> cases served

theorem servedAs_listen {s : State} {r : InFlight} {n : SlotNo} (served : servedAs s r n = some none) :
    ∀ x ∈ r.subs, x.marked = false → x.sub.origin ≠ .slot n := by
  intro x mem unmarked origin
  unfold servedAs at served
  split at served
  · cases served
  · rename_i notFound
    split at served
    · rename_i attached
      have live : s.isLive n = true := isLive_iff.mpr (.inr (isAttached_iff.mp attached).1)
      have isCounted := (mem_counted_slot (s := s) origin).mpr ⟨mem, unmarked, live⟩
      exact absurd (decide_eq_true origin) (List.find?_eq_none.mp notFound x isCounted)
    · cases served

/-! ### The parts of the statement -/

/-- The parts of a served slot with an owner: the record, the watches, the burst. -/
theorem serveSlot_burst {c : Report} {u : State} {n : SlotNo} {p : Port} {sub : Option SubEntry}
    (owner : u.slots[n].owner = some p) :
    serveSlot c u (n, sub) = burstAccounting (evaluateWatches (recordOffered c u n p sub) p n c.tick
      (conditionsRule u.slots[n].settings.window u.slots[n].windowPos c.value sub c.clipped)) n c.tick := by
  rw [serveSlot_owned owner, slotConditions_eq]

theorem servedOrigin_eq (c : Report) (n : SlotNo) (x : Slot) (sub : Option SubEntry) :
    servedOrigin c n (x.served c.value) sub = match sub with
      | some y => .slot n x.settings.label (BitVec.ofNat 16 (min 65535 (c.startTick - y.due).toNat)) (x.sequence + 1)
      | none => .listen n x.settings.label (x.sequence + 1) := by
  cases sub <;> rfl

/-! ### A completion of one slot -/

section One

variable {s : State} {r : InFlight} {x : SubEntry} {n : SlotNo} {p : Port}

theorem servedSlots_one (only : r.subs = [⟨x, false⟩]) (origin : x.origin = .slot n) (live : s.slots[n].live)
    (alone : ∀ m : SlotNo, s.slots[m].state = .running → s.slots[m].settings.kind = .listen →
      s.slots[m].settings.channel ≠ r.channel) : servedSlots s r = [(n, some x)] := by
  have isSub {y : FlightEntry} : y ∈ r.subs ↔ y = ⟨x, false⟩ := by rw [only, List.mem_singleton]
  have served (m : SlotNo) : isServed s r m ↔ m = n := by
    constructor
    · rintro (⟨⟨y, mem, -, named⟩, -⟩ | ⟨running, listen, same⟩)
      · rw [isSub.mp mem, origin] at named
        exact (Origin.slot.inj named).symm
      · exact absurd same (alone m running listen)
    · rintro rfl
      exact .inl ⟨⟨_, isSub.mpr rfl, rfl, origin⟩, live⟩
  have members (y : SlotNo × Option SubEntry) : y ∈ servedSlots s r ↔ y ∈ [(n, some x)] := by
    obtain ⟨m, sub⟩ := y
    rw [mem_servedSlots, List.mem_singleton, Prod.mk.injEq]
    constructor
    · intro isServed
      have same := (served m).mp (servedAs_isServed.mp (by rw [isServed]; rfl))
      subst same
      cases sub with
      | none => exact absurd origin (servedAs_listen isServed _ (isSub.mpr rfl) rfl)
      | some y =>
        obtain ⟨-, mem⟩ := servedAs_some isServed
        cases isSub.mp mem
        exact ⟨rfl, rfl⟩
    · rintro ⟨rfl, rfl⟩
      obtain ⟨sub, isServed⟩ := Option.isSome_iff_exists.mp (servedAs_isServed.mpr ((served m).mpr rfl))
      cases sub with
      | none => exact absurd origin (servedAs_listen isServed _ (isSub.mpr rfl) rfl)
      | some y =>
        obtain ⟨-, mem⟩ := servedAs_some isServed
        cases isSub.mp mem
        exact isServed
  have once : (servedSlots s r).Nodup := List.Nodup.of_map _ nodup_servedSlots
  exact List.perm_singleton.mp ((List.perm_ext_iff_of_nodup once (List.nodup_singleton _)).mpr members)

/-- The state with the one slot's record offered and its burst counted. -/
def oneServed (s : State) (r : InFlight) (x : SubEntry) (n : SlotNo) (p : Port) : State :=
  burstAccounting (recordOffered (completionReport s r) (latestWritten s r) n p (some x)) n s.now

/-- A completion of one slot of port p, whose watches are not ARMED, without an attached LISTEN slot. -/
theorem complete_one (only : r.subs = [⟨x, false⟩]) (origin : x.origin = .slot n) (live : s.slots[n].live)
    (owner : s.slots[n].owner = some p)
    (alone : ∀ m : SlotNo, s.slots[m].state = .running → s.slots[m].settings.kind = .listen →
      s.slots[m].settings.channel ≠ r.channel)
    (unarmed : ∀ w : Fin 8, s.watches[p][w].state ≠ .armed) :
    complete s r = endDemands (oneServed s r x n p) r.subs fun _ => true := by
  have isOwner : (latestWritten s r).slots[n].owner = some p := by rw [latestWritten_slots]; exact owner
  have watches (w : Fin 8) :
      (recordOffered (completionReport s r) (latestWritten s r) n p (some x)).watches[p][w] = s.watches[p][w] :=
    (sameBut_recordOffered _ _ n p _ (.watch p w) (by simp)).trans
      (sameBut_latestWritten s r (.watch p w) (by simp [allSlots]))
  have slots : slotsServed s r = oneServed s r x n p := by
    rw [slotsServed, servedSlots_one only origin live alone, List.foldl_cons, List.foldl_nil, serveSlot_burst isOwner,
      evaluateWatches_unarmed _ _ _ fun w => by rw [watches]; exact unarmed w]
    rfl
  have demands : demandsServed s r = oneServed s r x n p := by
    rw [demandsServed, slots, only, List.foldl_cons, List.foldl_nil]
    exact serveDemand_slot (x := ⟨x, false⟩) origin
  have isServed : isServed s r n := .inl ⟨⟨_, by rw [only]; exact List.mem_singleton_self _, rfl, origin⟩, live⟩
  have stays : (demandsEnded s r).slots[n].live := (Slot.rests_live (served_demandsEnded isServed)).mpr live
  have noneRetires : retiringNamed (demandsEnded s r) (r.subs.map (·.sub)) = [] := by
    refine List.eq_nil_iff_forall_not_mem.mpr fun m mem => ?_
    have leaves := mem_retiringNamed.mp mem
    simp only [Bool.and_eq_true, decide_eq_true_eq, namesSlot, only, List.any_cons, List.any_nil, Bool.or_false, origin,
      Origin.slot.injEq] at leaves
    obtain ⟨rfl, retiring⟩ := leaves
    rcases stays with h | h <;> rw [retiring] at h <;> cases h
  rw [complete_eq, noneRetires, List.foldl_nil, demandsEnded, demands]

end One

/-- The one subscriber is the one consumer (R94). -/
theorem consumersOf_one (only : r.subs = [⟨x, false⟩]) (origin : x.origin = .slot n) (live : s.slots[n].live)
    (alone : ∀ m : SlotNo, s.slots[m].state = .running → s.slots[m].settings.kind = .listen →
      s.slots[m].settings.channel ≠ r.channel) : consumersOf s r = 1 := by
  have attached : (List.finRange 32).countP (fun m => decide (s.slots[m].state = .running)
      && decide (s.slots[m].settings.kind = .listen) && decide (s.slots[m].settings.channel = r.channel)) = 0 := by
    refine List.countP_eq_zero.mpr fun m _ => ?_
    simp only [Bool.and_eq_true, decide_eq_true_eq, and_assoc]
    exact fun ⟨running, listen, same⟩ => alone m running listen same
  have isLive : (decide (s.slots[n].state = .stopped) || decide (s.slots[n].state = .running)) = true := by
    rw [Bool.or_eq_true, decide_eq_true_iff, decide_eq_true_iff]; exact live
  rw [consumersOf, attached, only, List.countP_singleton]
  simp only [origin, isLive]
  rfl

/-- Slot n after it has counted the conversion, before its burst is counted. -/
theorem recordOffered_one : (recordOffered (completionReport s r) (latestWritten s r) n p (some x)).slots[n] =
    ({ s.slots[n] with inFlightFlag := s.slots[n].inFlightFlag && !namesSlot r n } : Slot).served
      (completionReport s r).value := by
  rw [recordOffered_slot, latestWritten_slots]

theorem sameBut_recordOffered_one : sameBut ([.converter, .latest r.channel, .queue p] ++ allSlots) s
    (recordOffered (completionReport s r) (latestWritten s r) n p (some x)) :=
  sameBut_trans (sameBut_mono (sameBut_latestWritten s r) (by simp +contextual))
    (sameBut_mono (sameBut_recordOffered _ _ n p _) (by simp))

theorem sameBut_oneServed_queues : sameBut ([.converter, .latest r.channel, .queue p, .requests] ++ allSlots ++ allEvents)
    s (oneServed s r x n p) :=
  sameBut_trans (sameBut_mono sameBut_recordOffered_one (by simp +contextual))
    (sameBut_mono (sameBut_burstAccounting _ n s.now) (by simp +contextual))

theorem oneServed_queue : (oneServed s r x n p).queues[p] =
    if s.slots[n].producesRecord then s.queues[p].map fun q => q.offer s.slots[n].holdable
      (buildRecord (completionReport s r)
        (servedOrigin (completionReport s r) n (s.slots[n].served (completionReport s r).value) (some x))
        (slotConditions s.slots[n].settings.window s.slots[n].windowPos (completionReport s r).value (some x)
          (completionReport s r).clipped))
    else s.queues[p] := by
  have counted : (oneServed s r x n p).queues[p]
      = (recordOffered (completionReport s r) (latestWritten s r) n p (some x)).queues[p] :=
    sameBut_burstAccounting _ n s.now (.queue p) (by simp [allSlots, allEvents])
  have before : (latestWritten s r).queues[p] = s.queues[p] := sameBut_latestWritten s r (.queue p) (by simp [allSlots])
  rw [counted, recordOffered_queue, before, latestWritten_slots]
  rfl

/-- The burst of slot n has its last conversion. -/
abbrev lastOfBurst (s : State) (n : SlotNo) : Prop :=
  s.slots[n].settings.kind = .burst ∧ s.slots[n].state = .running ∧ s.slots[n].burstRemaining = 1

theorem oneServed_events (q : Port) : (oneServed s r x n p).events[q] =
    if lastOfBurst s n ∧ s.slots[n].owner = some q ∧ s.isOpen q = true
    then s.events[q].offer (burstDone n s.slots[n] s.now) else s.events[q] := by
  have frame := sameBut_recordOffered_one (s := s) (r := r) (x := x) (n := n) (p := p)
  have isOpen := isOpen_of_same (frame (.session q) (by simp [allSlots]))
  have events := frame (.events q) (by simp [allSlots])
  rw [oneServed, burstAccounting_events, isOpen, events, recordOffered_one]
  rfl

theorem oneServed_slot (last : lastOfBurst s n) : ∃ y, (oneServed s r x n p).slots[n] = burstEnded y := by
  obtain ⟨kind, running, remaining⟩ := last
  have one := recordOffered_one (s := s) (r := r) (x := x) (n := n) (p := p)
  refine ⟨(recordOffered (completionReport s r) (latestWritten s r) n p (some x)).slots[n], ?_⟩
  rw [oneServed, burstAccounting_ends (by rw [one]; exact kind) (by rw [one]; exact running) (by rw [one]; exact remaining),
    sendToOwner_slots]
  exact (withdrawPending_written _ n _).2

/-- A selection may take a slot's pending request, and changes its two flags alone. -/
theorem select_slot (u : State) (m : SlotNo) : (select u).slots[m].state = u.slots[m].state
    ∧ (select u).slots[m].burstRemaining = u.slots[m].burstRemaining
    ∧ (u.slots[m].pendingFlag = false → (select u).slots[m].pendingFlag = false) := by
  unfold select
  split
  · rw [startConversion_slot]
    split
    · exact ⟨rfl, rfl, fun _ => rfl⟩
    · exact ⟨rfl, rfl, id⟩
  · exact ⟨rfl, rfl, id⟩

/-- Settles O60: what a completion delivers, stage by stage, and a completion of one slot as a whole. -/
theorem completionOfOneSlotDeliversItsRecord : Obligations.CompletionOfOneSlotDeliversItsRecord := by
  refine ⟨fun s r k due start => ?stages, fun c u n p sub owner => ?slot, fun u p n tick c => ?watches,
    fun c u x => ?demands, fun s r k x n p q due start only origin live owner kind queue alone unarmed => ?one⟩
  case stages =>
    have report := completionReport_eq (s := s) start
    refine ⟨servedSlots s r, latestWritten s r, slotsServed s r, demandsServed s r, complete s r, select (complete s r),
      exec_completion_due due, sameBut_latestWritten s r, rfl, latestWritten_slots s r, servedSlots_ascend s r,
      fun n => ?_, fun n x served => servedAs_some (mem_servedSlots.mp served),
      fun n served => servedAs_listen (mem_servedSlots.mp served), ?_, ?_, ⟨demandsEnded s r, sameBut_demandsEnded s r,
        fun p => ?_, retiring_released _ r⟩, select_empty, select_selectedFrom⟩
    · rw [← servedAs_isServed, Option.isSome_iff_exists]
      exact exists_congr fun x => mem_servedSlots.symm
    · rw [← report]; rfl
    · rw [← report]; rfl
    · rw [demandsEnded, endDemands_outstanding]
      simp
  case slot =>
    intro x cond full built
    refine ⟨recordOffered c u n p sub, sameBut_recordOffered c u n p sub, ?_, ?_, ?_⟩
    · rw [recordOffered_slot, Slot.served, newPosition_eq]
      rfl
    · rw [recordOffered_queue, servedOrigin_eq, slotConditions_eq]
      rfl
    · intro b y z
      have isZ : z = burstAccounting b n c.tick := serveSlot_burst owner
      clear_value z b
      subst isZ
      refine ⟨burstAccounting_rests, fun kind running more pending => ?_, fun kind running more free => ?_,
        fun kind running last => ?_⟩
      · rw [burstAccounting_pending kind running more pending]
        exact ⟨sameBut_setSlot b n _, getElem_set_same _ _ _⟩
      · rw [burstAccounting_requests kind running more free]
        refine ⟨sameBut_trans (sameBut_mono (sameBut_setSlot b n _) (by simp)) (sameBut_requestSlot _ n c.tick), ?_, ?_⟩
        · rw [requestSlot_slot, State.setSlot_slots, getElem_set_same]
        · unfold requestSlot
          simp only [State.setSlot_slots, getElem_set_same, State.setSlot_requests, State.setRequests_requests]
          rw [kind]
          rfl
      · obtain ⟨frame, slot⟩ := withdrawPending_written b n (burstEnded b.slots[n])
        refine ⟨?_, ?_, ?_, fun q => ?_⟩
        · rw [burstAccounting_ends kind running last]
          exact sameBut_trans (sameBut_mono frame (by simp)) (sameBut_mono (sameBut_sendToOwner _ _ _) (by simp +contextual))
        · rw [burstAccounting_ends kind running last, sendToOwner_slots]
          exact slot
        · rw [burstAccounting_ends kind running last]
          exact (sameBut_sendToOwner _ _ _ .requests (by simp [allEvents])).trans (withdrawPending_requests b n)
        · rw [burstAccounting_events]
          exact if_congr (and_iff_right ⟨kind, running, last⟩) rfl rfl
  case watches => rfl
  case demands =>
    refine ⟨fun quiet => ?_, fun p unmarked origin => ?_⟩
    · rcases quiet with marked | ⟨n, origin⟩
      · exact serveDemand_marked marked
      · exact serveDemand_slot origin
    · rw [serveDemand_demand unmarked origin]
      exact ⟨sameBut_offerRecord u p _ _, offerRecord_queue u p _ _⟩
  case one =>
    have completed := complete_one only origin live owner alone unarmed
    have ended : sameBut allDemands (oneServed s r x n p) (complete s r) := completed ▸ sameBut_endDemands _ _ _
    have selects := sameBut_select (complete s r)
    have served := sameBut_oneServed_queues (s := s) (r := r) (x := x) (n := n) (p := p)
    have queues (p' : Port) : (select (complete s r)).queues[p'] = (oneServed s r x n p).queues[p'] :=
      (selects (.queue p') (by simp [allSlots])).trans (ended (.queue p') (by simp [allDemands]))
    have events (p' : Port) : (select (complete s r)).events[p'] = (oneServed s r x n p).events[p'] :=
      (selects (.events p') (by simp [allSlots])).trans (ended (.events p') (by simp [allDemands]))
    have watches (p' : Port) (w : Fin 8) : (select (complete s r)).watches[p'][w] = s.watches[p'][w] :=
      (selects (.watch p' w) (by simp [allSlots])).trans ((ended (.watch p' w) (by simp [allDemands])).trans
        (served (.watch p' w) (by simp [allSlots, allEvents])))
    refine ⟨_, exec_completion_due due, fun produces => ?_, fun skips => ?_, fun p' other => ⟨?_, ?_⟩, watches,
      fun goes => ?_, fun last => ?_⟩
    · have produces : s.slots[n].producesRecord = true := decide_eq_true produces
      rw [queues, oneServed_queue, if_pos produces, queue, slotConditions_eq, completionReport_eq start,
        consumersOf_one only origin live alone]
      rfl
    · have skips : ¬ s.slots[n].producesRecord = true := fun produces => skips (of_decide_eq_true produces)
      rw [queues, oneServed_queue, if_neg skips, queue]
    · exact (queues p').trans (served (.queue p') (by simp [allSlots, allEvents, other]))
    · rw [events, oneServed_events, if_neg]
      rintro ⟨-, own, -⟩
      rw [owner] at own
      exact other (Option.some.inj own).symm
    · rw [events, oneServed_events, if_neg]
      exact fun h => goes h.1
    · obtain ⟨y, isEnded⟩ := oneServed_slot (r := r) (x := x) (p := p) last
      have slot : (complete s r).slots[n] = burstEnded y := (ended (.slot n) (by simp [allDemands])).trans isEnded
      obtain ⟨state, remaining, pending⟩ := select_slot (complete s r) n
      rw [slot] at state remaining pending
      refine ⟨state, remaining, pending rfl, fun isOpen => ?_⟩
      rw [events, oneServed_events, if_pos ⟨last, owner, isOpen⟩]
      rfl

end Sys2Proof.Machine
end

