-- ==== Sys2Proof/Proofs/RequestCounts.lean ====
section
/-! PROOF. How often a list of pending entries names an origin, and how the operations on the list change that (R30, R32). -/

namespace Sys2Proof.Machine

/-- How often a list of subscriber entries, and one of pending entries, names an origin. -/
def subsName (l : List SubEntry) (o : Origin) : Nat := (l.map fun x => x.origin).count o
def listNames (l : List PendingEntry) (o : Origin) : Nat := subsName (l.flatMap fun e => e.subs) o

theorem waitingCount_eq (s : State) (o : Origin) : waitingCount s o = listNames s.requests o := rfl

theorem subsName_append (l k : List SubEntry) (o : Origin) : subsName (l ++ k) o = subsName l o + subsName k o := by
  unfold subsName; rw [List.map_append, List.count_append]

theorem listNames_nil (o : Origin) : listNames [] o = 0 := rfl

theorem listNames_cons (e : PendingEntry) (l : List PendingEntry) (o : Origin) :
    listNames (e :: l) o = subsName e.subs o + listNames l o := by
  unfold listNames; rw [List.flatMap_cons, subsName_append]

theorem listNames_append (l k : List PendingEntry) (o : Origin) :
    listNames (l ++ k) o = listNames l o + listNames k o := by
  unfold listNames; rw [List.flatMap_append, subsName_append]

theorem listNames_single (e : PendingEntry) (o : Origin) : listNames [e] o = subsName e.subs o := by
  rw [listNames_cons, listNames_nil, Nat.add_zero]

theorem subsName_single (x : SubEntry) (o : Origin) : subsName [x] o = oneIf (decide (x.origin = o)) := by
  unfold subsName oneIf
  rw [List.map_singleton, List.count_singleton]
  simp

theorem subsName_pos {l : List SubEntry} {o : Origin} : 0 < subsName l o ↔ ∃ x ∈ l, x.origin = o := by
  unfold subsName; rw [List.count_pos_iff, List.mem_map]

theorem subsName_eq_zero {l : List SubEntry} {o : Origin} : subsName l o = 0 ↔ ∀ x ∈ l, x.origin ≠ o := by
  unfold subsName
  rw [List.count_eq_zero, List.mem_map]
  simp

theorem names_iff {l : List SubEntry} {o : Origin} : names l o = true ↔ 0 < subsName l o := by
  rw [subsName_pos]; simp [names]

theorem names_false {l : List SubEntry} {o : Origin} : names l o = false ↔ subsName l o = 0 := by
  rw [← Bool.not_eq_true, names_iff, Nat.not_lt, Nat.le_zero]

/-- A list without the subscriber entries of the chosen origins. -/
theorem subsName_filter (Q : Origin → Bool) (l : List SubEntry) (o : Origin) :
    subsName (l.filter fun x => Q x.origin) o = if Q o then subsName l o else 0 := by
  have mapped : (l.filter fun x => Q x.origin).map (fun x => x.origin) = (l.map fun x => x.origin).filter Q :=
    List.filter_map.symm
  unfold subsName
  rw [mapped]
  split
  · rename_i chosen; exact List.count_filter chosen
  · rename_i notChosen; exact List.count_eq_zero.mpr fun mem => notChosen (List.mem_filter.mp mem).2

theorem listNames_map {g : PendingEntry → PendingEntry} {l : List PendingEntry} (o : Origin)
    (same : ∀ e ∈ l, subsName (g e).subs o = subsName e.subs o) : listNames (l.map g) o = listNames l o := by
  induction l with
  | nil => rfl
  | cons e l ih =>
    obtain ⟨head, tail⟩ := List.forall_mem_cons.mp same
    rw [List.map_cons, listNames_cons, listNames_cons, ih tail, head]

/-- A list parted in two names an origin as often as its parts together. -/
theorem listNames_filter_add (P : PendingEntry → Bool) (l : List PendingEntry) (o : Origin) :
    listNames (l.filter P) o + listNames (l.filter fun e => !P e) o = listNames l o := by
  induction l with
  | nil => rfl
  | cons e l ih =>
    rw [listNames_cons, ← ih]
    by_cases chosen : P e = true
    · rw [List.filter_cons_of_pos chosen, List.filter_cons_of_neg (by simp [chosen]), listNames_cons]
      omega
    · rw [List.filter_cons_of_neg chosen, List.filter_cons_of_pos (by simp [chosen]), listNames_cons]
      omega

theorem listNames_nonempty (l : List PendingEntry) (o : Origin) :
    listNames (l.filter fun e => !e.subs.isEmpty) o = listNames l o := by
  have empty : listNames (l.filter fun e => !!e.subs.isEmpty) o = 0 := by
    refine subsName_eq_zero.mpr fun x mem => ?_
    obtain ⟨e, memE, memX⟩ := List.mem_flatMap.mp mem
    have none : e.subs = [] := by simpa using (List.mem_filter.mp memE).2
    rw [none] at memX
    cases memX
  rw [← listNames_filter_add (fun e => !e.subs.isEmpty) l o, empty, Nat.add_zero]

/-- The withdrawal of the chosen origins (R40). -/
theorem listNames_withdrawWhere (Q : Origin → Bool) (l : List PendingEntry) (o : Origin) :
    listNames (withdrawWhere (fun x => Q x.origin) l) o = if Q o then 0 else listNames l o := by
  unfold withdrawWhere
  rw [listNames_nonempty]
  induction l with
  | nil => split <;> rfl
  | cons e l ih =>
    rw [List.map_cons, listNames_cons, ih, subsName_filter (fun o => !Q o), listNames_cons]
    cases Q o <;> rfl

/-! ### Pending entries in order (R52) -/

/-- A pending entry has a subscriber, a preempt count of at most 3 and a valid averaging. -/
def entryOk (e : PendingEntry) : Prop := e.subs ≠ [] ∧ e.preemptCount ≤ 3 ∧ avgOk e.avgCode

theorem withdrawWhere_ok {P : SubEntry → Bool} {l : List PendingEntry} (ok : ∀ e ∈ l, entryOk e) :
    ∀ e ∈ withdrawWhere P l, entryOk e := by
  intro e mem
  obtain ⟨mem, notEmpty⟩ := List.mem_filter.mp mem
  obtain ⟨e', mem', rfl⟩ := List.mem_map.mp mem
  obtain ⟨-, count, avg⟩ := ok e' mem'
  exact ⟨by simpa using notEmpty, count, avg⟩

end Sys2Proof.Machine
end

