-- ==== Sys2Proof/Proofs/PendingLaw.lean ====
section
/-! PROOF. The law of the pending list (R32, R33) slot by slot, apart from the converter, and the operations that keep it. -/

namespace Sys2Proof.Machine

/-! ### The law, slot by slot -/

/-- The law of one slot, which the pending list names `waits` times and the record `flights` times; a slot that `leaves` is
about to be released. -/
def slotLaw (waits flights : Nat) (leaves : Prop) (x : Slot) : Prop :=
  waits = oneIf x.pendingFlag ∧ flights = oneIf x.inFlightFlag ∧ (x.pendingFlag = true → x.state = .running)
    ∧ (x.state = .retiring → x.inFlightFlag = true ∨ leaves) ∧ (x.state = .free → x = Slot.free)
    ∧ (x.live → x.owner ≠ none) ∧ (x.state ≠ .free → avgOk x.settings.avgCode)

/-- The law of the pending list beside a record that names an origin o f o times. -/
def pendingLaw (f : Origin → Nat) (leaves : SlotNo → Prop) (s : State) : Prop :=
  (∀ e ∈ s.requests, entryOk e)
    ∧ (∀ n : SlotNo, slotLaw (listNames s.requests (.slot n)) (f (.slot n)) (leaves n) s.slots[n])
    ∧ ∀ p : Port, listNames s.requests (.demand p) + f (.demand p) = oneIf s.sessions[p].demandOutstanding

/-- The converter's own law (R52, R54, R55). -/
def converterLaw (v : Converter) : Prop :=
  (v.record.isSome = true ↔ v.phase = .settle ∨ v.phase = .sample ∨ v.phase = .convert) ∧ ∀ r ∈ v.record, r.ok v.phase

/-- How often the record of a converter names an origin. -/
def flightsOf (v : Converter) (o : Origin) : Nat := subsName ((v.record.map fun r => r.subs.map (·.sub)).getD []) o

theorem flightsOf_some {v : Converter} {r : InFlight} (record : v.record = some r) (o : Origin) :
    flightsOf v o = subsName (r.subs.map (·.sub)) o := by
  unfold flightsOf; rw [record]; rfl

theorem flightsOf_none {v : Converter} (record : v.record = none) (o : Origin) : flightsOf v o = 0 := by
  unfold flightsOf; rw [record]; rfl

theorem flightCount_eq (s : State) (o : Origin) : flightCount s o = flightsOf s.conv o := by
  unfold flightCount
  split
  · rename_i r record
    rw [flightsOf_some record, subsName, List.map_map]
    rfl
  · rename_i record; exact (flightsOf_none record o).symm

theorem RequestsOk_iff {s : State} :
    RequestsOk s ↔ converterLaw s.conv ∧ pendingLaw (flightsOf s.conv) (fun _ => False) s := by
  unfold RequestsOk ConverterOk converterLaw pendingLaw slotLaw entryOk
  simp only [waitingCount_eq, flightCount_eq, or_false, Slot.live]
  constructor
  · rintro ⟨⟨records, inRange, entries, averages⟩, slots, demands⟩
    refine ⟨⟨records, inRange⟩, entries, fun n => ?_, demands⟩
    obtain ⟨waits, flies, running, retiring, free, owner⟩ := slots n
    exact ⟨waits, flies, running, retiring, free, owner, averages n⟩
  · rintro ⟨⟨records, inRange⟩, entries, slots, demands⟩
    refine ⟨⟨records, inRange, entries, fun n => (slots n).2.2.2.2.2.2⟩, fun n => ?_, demands⟩
    obtain ⟨waits, flies, running, retiring, free, owner, -⟩ := slots n
    exact ⟨waits, flies, running, retiring, free, owner⟩

theorem slotLaw_free {leaves : Prop} : slotLaw 0 0 leaves Slot.free :=
  ⟨rfl, rfl, nofun, nofun, fun _ => rfl, (by rintro (h | h) <;> cases h), fun h => absurd rfl h⟩

/-- A slot that differs in no field that the law reads, and is not FREE. -/
theorem slotLaw_same {waits flights : Nat} {leaves : Prop} {x y : Slot} (law : slotLaw waits flights leaves x)
    (pending : y.pendingFlag = x.pendingFlag) (flight : y.inFlightFlag = x.inFlightFlag) (state : y.state = x.state)
    (owner : y.owner = x.owner) (avg : y.settings.avgCode = x.settings.avgCode) (used : x.state ≠ .free) :
    slotLaw waits flights leaves y := by
  obtain ⟨waits, flies, running, retiring, -, owned, average⟩ := law
  unfold slotLaw Slot.live at *
  rw [pending, flight, state, owner, avg]
  exact ⟨waits, flies, running, retiring, fun free => absurd free used, owned, average⟩

/-! ### Updates -/

section Updates

variable {f : Origin → Nat} {leaves : SlotNo → Prop} {s t : State} {n : SlotNo}

/-- A change outside the pending list, the slots and the demand flags. -/
theorem pendingLaw_frame {l : List Part} (frame : sameBut l s t) (noSlot : ∀ n, Part.slot n ∉ l)
    (noRequest : Part.requests ∉ l) (noDemand : ∀ p, Part.demand p ∉ l) (law : pendingLaw f leaves s) :
    pendingLaw f leaves t := by
  have requests : t.requests = s.requests := frame .requests noRequest
  have slot (n : SlotNo) : t.slots[n] = s.slots[n] := frame (.slot n) (noSlot n)
  have demand (p : Port) : t.sessions[p].demandOutstanding = s.sessions[p].demandOutstanding :=
    frame (.demand p) (noDemand p)
  obtain ⟨entries, slots, demands⟩ := law
  unfold pendingLaw
  rw [requests]
  exact ⟨entries, fun n => by rw [slot]; exact slots n, fun p => by rw [demand]; exact demands p⟩

/-- A change of one slot and of what the list says of it. -/
theorem pendingLaw_slot (law : pendingLaw f leaves s) (frame : sameBut [.slot n, .requests] s t)
    (entries : ∀ e ∈ t.requests, entryOk e)
    (others : ∀ o, o ≠ .slot n → listNames t.requests o = listNames s.requests o)
    (own : slotLaw (listNames t.requests (.slot n)) (f (.slot n)) (leaves n) t.slots[n]) : pendingLaw f leaves t := by
  obtain ⟨-, slots, demands⟩ := law
  refine ⟨entries, fun m => ?_, fun p => ?_⟩
  · by_cases same : m = n
    · exact same ▸ own
    · have kept : t.slots[m] = s.slots[m] := frame (.slot m) (by simp [same])
      rw [kept, others _ (by simpa using same)]
      exact slots m
  · have kept : t.sessions[p].demandOutstanding = s.sessions[p].demandOutstanding := frame (.demand p) (by simp)
    rw [kept, others (.demand p) nofun]
    exact demands p

theorem pendingLaw_setSlot {x : Slot} (law : pendingLaw f leaves s)
    (own : slotLaw (listNames s.requests (.slot n)) (f (.slot n)) (leaves n) x) : pendingLaw f leaves (s.setSlot n x) :=
  pendingLaw_slot (n := n) law (sameBut_mono (sameBut_setSlot s n x) (by simp)) law.1 (fun _ _ => rfl)
    (by rw [State.setSlot_slots, getElem_set_same]; exact own)

/-- A slot written with the fields that the law reads left as they are. -/
theorem pendingLaw_setSlot_same {x : Slot} (law : pendingLaw f leaves s) (pending : x.pendingFlag = s.slots[n].pendingFlag)
    (flight : x.inFlightFlag = s.slots[n].inFlightFlag) (state : x.state = s.slots[n].state)
    (owner : x.owner = s.slots[n].owner) (avg : x.settings.avgCode = s.slots[n].settings.avgCode)
    (used : s.slots[n].state ≠ .free) : pendingLaw f leaves (s.setSlot n x) :=
  pendingLaw_setSlot law (slotLaw_same (law.2.1 n) pending flight state owner avg used)

theorem pendingLaw_ite {c : Prop} [Decidable c] (h : pendingLaw f leaves s) (k : pendingLaw f leaves t) :
    pendingLaw f leaves (if c then s else t) := by
  split
  · exact h
  · exact k

/-! ### Requests -/

theorem requestSlot_names (s : State) (n : SlotNo) (due : Tick) (o : Origin) :
    listNames (requestSlot s n due).requests o = listNames s.requests o + oneIf (decide (.slot n = o)) := by
  show listNames (s.requests ++ [_]) o = _
  rw [listNames_append, listNames_single, subsName_single]

/-- A RUNNING slot without a pending request may make one (R32). -/
theorem pendingLaw_requestSlot (due : Tick) (running : s.slots[n].state = .running)
    (noRequest : s.slots[n].pendingFlag = false) (law : pendingLaw f leaves s) :
    pendingLaw f leaves (requestSlot s n due) := by
  obtain ⟨waits, flies, -, retiring, -, owner, average⟩ := law.2.1 n
  refine pendingLaw_slot law (sameBut_requestSlot s n due) ?_ (fun o other => ?_) ?_
  · refine List.forall_mem_append.mpr ⟨law.1, fun e mem => ?_⟩
    rw [List.mem_singleton.mp mem]
    exact ⟨List.cons_ne_nil _ _, Nat.zero_le 3, average (by rw [running]; exact nofun)⟩
  · rw [requestSlot_names, decide_eq_false (Ne.symm other)]
    rfl
  · rw [requestSlot_names, requestSlot_slot, decide_eq_true rfl, waits, noRequest]
    exact ⟨rfl, flies, fun _ => running, retiring, fun free => absurd (running.symm.trans free) nofun, owner, average⟩

theorem withdrawSlot_names (s : State) (n : SlotNo) (o : Origin) : listNames (withdrawSlot s n).requests o =
    if o = .slot n then 0 else listNames s.requests o := by
  refine (listNames_withdrawWhere (fun o => decide (o = .slot n)) s.requests o).trans ?_
  exact if_congr decide_eq_true_iff rfl rfl

/-- The withdrawal of a slot's request, with the slot written after it. -/
theorem pendingLaw_withdrawn {y : Slot} (law : pendingLaw f leaves s)
    (own : slotLaw 0 (f (.slot n)) (leaves n) y) : pendingLaw f leaves ((withdrawPending s n).setSlot n y) := by
  obtain ⟨frame, slot⟩ := withdrawPending_written s n y
  have names (o : Origin) : listNames ((withdrawPending s n).setSlot n y).requests o
      = if o = .slot n then 0 else listNames s.requests o := by
    rw [State.setSlot_requests]
    unfold withdrawPending
    split
    · exact withdrawSlot_names s n o
    · rename_i notPending
      split
      · rename_i same
        subst same
        rw [(law.2.1 n).1, Bool.eq_false_iff.mpr notPending]
        rfl
      · rfl
  refine pendingLaw_slot law frame ?_ (fun o other => ?_) ?_
  · rw [State.setSlot_requests]
    unfold withdrawPending
    split
    · exact withdrawWhere_ok law.1
    · exact law.1
  · rw [names, if_neg other]
  · rw [slot, names, if_pos rfl]; exact own

theorem overrunSlot_names (s : State) (n : SlotNo) (o : Origin) :
    listNames (overrunSlot s n).requests o = listNames s.requests o := by
  refine listNames_map (g := fun e => { e with
    subs := e.subs.map fun x => if x.origin = .slot n then { x with overrun := true } else x }) o fun e _ => ?_
  unfold subsName
  rw [List.map_map]
  refine congrArg (List.count o) (List.map_congr_left fun x _ => ?_)
  simp only [Function.comp_def]
  split <;> rfl

theorem pendingLaw_overrunSlot (used : s.slots[n].state ≠ .free) (law : pendingLaw f leaves s) :
    pendingLaw f leaves (overrunSlot s n) := by
  refine pendingLaw_slot law (sameBut_overrunSlot s n) ?_ (fun o _ => overrunSlot_names s n o) ?_
  · intro e mem
    obtain ⟨e', mem', rfl⟩ := List.mem_map.mp mem
    obtain ⟨notEmpty, count, avg⟩ := law.1 e' mem'
    exact ⟨by simpa using notEmpty, count, avg⟩
  · rw [overrunSlot_names, overrunSlot_slot]
    exact slotLaw_same (law.2.1 n) rfl rfl rfl rfl rfl used

/-! ### Bursts and watches (R20, R26, R132, R133) -/

/-- A STOPPED slot has no pending request. -/
theorem pendingLaw_stopped (law : pendingLaw f leaves s) (stopped : s.slots[n].state = .stopped) :
    s.slots[n].pendingFlag = false := by
  obtain ⟨-, -, running, -⟩ := law.2.1 n
  refine Bool.eq_false_iff.mpr fun pending => ?_
  exact absurd (stopped.symm.trans (running pending)) nofun

/-- A STOPPED slot that runs, without a request yet. -/
theorem slotLaw_runs {x y : Slot} {waits flights : Nat} {l : Prop} (law : slotLaw waits flights l x)
    (stopped : x.state = .stopped) (pending : y.pendingFlag = x.pendingFlag) (flight : y.inFlightFlag = x.inFlightFlag)
    (running : y.state = .running) (owner : y.owner = x.owner) (avg : y.settings = x.settings) :
    slotLaw waits flights l y := by
  obtain ⟨names, flies, -, -, -, owned, average⟩ := law
  refine ⟨pending ▸ names, flight ▸ flies, fun _ => running, fun h => absurd (running.symm.trans h) nofun,
    fun h => absurd (running.symm.trans h) nofun, fun _ => owner ▸ owned (.inl stopped), fun _ => ?_⟩
  rw [avg]
  exact average (by rw [stopped]; exact nofun)

theorem pendingLaw_startBurstAt (due : Tick) (stopped : s.slots[n].state = .stopped) (law : pendingLaw f leaves s) :
    pendingLaw f leaves (startBurstAt s n due) := by
  have noRequest := pendingLaw_stopped law stopped
  refine pendingLaw_requestSlot due ?_ ?_ (pendingLaw_setSlot law (slotLaw_runs (law.2.1 n) stopped rfl rfl rfl rfl rfl))
  · rw [State.setSlot_slots, getElem_set_same]
  · rw [State.setSlot_slots, getElem_set_same]; exact noRequest

theorem pendingLaw_sendEvent (p : Port) (e : EventRecord) (law : pendingLaw f leaves s) :
    pendingLaw f leaves (sendEvent s p e) :=
  pendingLaw_frame (sameBut_sendEvent s p e) (by simp) (by simp) (by simp) law

theorem pendingLaw_setWatch (p : Port) (w : Fin 8) (x : Watch) (law : pendingLaw f leaves s) :
    pendingLaw f leaves (s.setWatch p w x) :=
  pendingLaw_frame (sameBut_setWatch s p w x) (by simp) (by simp) (by simp) law

theorem pendingLaw_captureAction (p : Port) (w : Fin 8) (b : SlotNo) (tick : Tick) (law : pendingLaw f leaves s) :
    pendingLaw f leaves (captureAction s p w b tick) := by
  unfold captureAction
  simp only
  split
  · rename_i own; exact pendingLaw_startBurstAt tick own.2.2 law
  · exact pendingLaw_ite (pendingLaw_sendEvent p _ law) (pendingLaw_sendEvent p _ law)

theorem pendingLaw_watchAction (p : Port) (w : Fin 8) (x : Watch) (tick : Tick) (law : pendingLaw f leaves s) :
    pendingLaw f leaves (watchAction s p w x tick) := by
  unfold watchAction
  split
  · exact law
  · exact pendingLaw_frame (sameBut_holdAction s p w tick) (by simp) (by simp) (by simp) law
  · exact pendingLaw_captureAction p w _ tick law

theorem pendingLaw_carryOutMatch (p : Port) (w : Fin 8) (m : SlotNo) (tick : Tick) (c : Conditions)
    (law : pendingLaw f leaves s) : pendingLaw f leaves (carryOutMatch s p w m tick c) := by
  unfold carryOutMatch
  simp only
  have hit := pendingLaw_watchAction p w s.watches[p][w] tick
    (pendingLaw_sendEvent p { kind := .watchHit, subject := BitVec.ofNat 8 w.val, tick := tick, detail := watchHitDetail m c }
      (pendingLaw_setWatch p w { s.watches[p][w] with hitCount := hold65535 s.watches[p][w].hitCount 1 } law))
  split
  · exact pendingLaw_setWatch p w _ hit
  · exact hit

theorem pendingLaw_evaluateWatches (p : Port) (m : SlotNo) (tick : Tick) (c : Conditions) (law : pendingLaw f leaves s) :
    pendingLaw f leaves (evaluateWatches s p m tick c) := by
  refine foldl_keeps (fun u w h => ?_) _ law
  exact pendingLaw_ite (pendingLaw_carryOutMatch p w m tick c h) h

theorem pendingLaw_sendToOwner (o : Option Port) (e : EventRecord) (law : pendingLaw f leaves s) :
    pendingLaw f leaves (sendToOwner s o e) :=
  pendingLaw_frame (sameBut_sendToOwner s o e) (by simp [allEvents]) (by simp [allEvents]) (by simp [allEvents]) law

theorem pendingLaw_burstAccounting (m : SlotNo) (tick : Tick) (law : pendingLaw f leaves s) :
    pendingLaw f leaves (burstAccounting s m tick) := by
  by_cases rests : s.slots[m].settings.kind ≠ .burst ∨ s.slots[m].state ≠ .running ∨ s.slots[m].burstRemaining = 0
  · rw [burstAccounting_rests rests]; exact law
  · simp only [not_or, Decidable.not_not] at rests
    obtain ⟨kind, running, remains⟩ := rests
    have counted (k : Nat) : pendingLaw f leaves (s.setSlot m { s.slots[m] with burstRemaining := k }) :=
      pendingLaw_setSlot_same law rfl rfl rfl rfl rfl (by rw [running]; exact nofun)
    by_cases last : s.slots[m].burstRemaining = 1
    · rw [burstAccounting_ends kind running last]
      refine pendingLaw_sendToOwner _ _ (pendingLaw_withdrawn law ?_)
      obtain ⟨-, flies, -, -, -, owner, average⟩ := law.2.1 m
      exact ⟨rfl, flies, nofun, nofun, nofun, fun _ => owner (.inr running), fun _ => average (by rw [running]; exact nofun)⟩
    · have more : 1 < s.slots[m].burstRemaining := by omega
      by_cases pending : s.slots[m].pendingFlag = true
      · rw [burstAccounting_pending kind running more pending]; exact counted _
      · rw [burstAccounting_requests kind running more (Bool.eq_false_iff.mpr pending)]
        refine pendingLaw_requestSlot tick ?_ ?_ (counted _)
        · rw [State.setSlot_slots, getElem_set_same]; exact running
        · rw [State.setSlot_slots, getElem_set_same]; exact Bool.eq_false_iff.mpr pending

/-- A served slot that is not FREE keeps the law. -/
theorem pendingLaw_serveSlot (c : Report) {x : SlotNo × Option SubEntry} (live : s.slots[x.1].live)
    (law : pendingLaw f leaves s) : pendingLaw f leaves (serveSlot c s x) := by
  have used : s.slots[x.1].state ≠ .free := by rcases live with h | h <;> rw [h] <;> exact nofun
  have counted : pendingLaw f leaves (s.setSlot x.1 (s.slots[x.1].served c.value)) :=
    pendingLaw_setSlot_same law rfl rfl rfl rfl rfl used
  refine pendingLaw_burstAccounting x.1 c.tick ?_
  unfold deliverTo
  simp only
  split
  · refine pendingLaw_evaluateWatches _ _ _ _ (pendingLaw_ite ?_ counted)
    exact pendingLaw_frame (sameBut_offerRecord _ _ _ _) (by simp) (by simp) (by simp) counted
  · exact counted

end Updates

end Sys2Proof.Machine
end

