-- ==== Sys2Proof/Proofs/PendingMoves.lean ====
section
/-! PROOF. The law of the pending list where entries move between the list and the record: a selection, an abandonment, a completion (R32, R33, R44 to R51). -/

namespace Sys2Proof.Machine

/-! ### A selection (R44 to R46, R52) -/

theorem startedRecord_subs (u : State) (w : PendingEntry) :
    (startedRecord u w).subs.map (·.sub) = (mergedWith w u.requests).flatMap fun e => e.subs := by
  unfold startedRecord newRecord
  rw [List.map_map]
  exact List.map_id _

theorem startedRecord_flights (u : State) (w : PendingEntry) (o : Origin) :
    flightsOf (startConversion u w).conv o = listNames (mergedWith w u.requests) o := by
  rw [flightsOf_some (startConversion_record u w).1, startedRecord_subs]
  rfl

theorem startConversion_names (u : State) (w : PendingEntry) (o : Origin) :
    listNames (mergedWith w u.requests) o + listNames (startConversion u w).requests o = listNames u.requests o :=
  listNames_filter_add (fun e => e.sameConversion w) u.requests o

/-- A slot that moves from the list into the record, or stays where it is. -/
theorem slotLaw_moved {waits merged rest : Nat} {leaves : Prop} {x : Slot} (law : slotLaw waits 0 leaves x)
    (parts : merged + rest = waits) :
    slotLaw rest merged leaves (if 0 < merged then { x with pendingFlag := false, inFlightFlag := true } else x) := by
  obtain ⟨names, flies, running, retiring, free, owner, average⟩ := law
  have bound : oneIf x.pendingFlag ≤ 1 := by cases x.pendingFlag <;> decide
  split
  · rename_i named
    have pending : x.pendingFlag = true := by
      cases flag : x.pendingFlag with
      | true => rfl
      | false => rw [flag] at names; unfold oneIf at names; simp at names; omega
    have isRunning := running pending
    refine ⟨?_, ?_, nofun, fun _ => .inl rfl, fun isFree => ?_, owner, average⟩
    · show rest = 0
      omega
    · show merged = 1
      omega
    · exact absurd (isRunning.symm.trans isFree) nofun
  · refine ⟨by omega, ?_, running, retiring, free, owner, average⟩
    omega

theorem pendingLaw_startConversion {f : Origin → Nat} {leaves : SlotNo → Prop} {u : State} (w : PendingEntry)
    (none : ∀ o, f o = 0) (law : pendingLaw f leaves u) :
    pendingLaw (flightsOf (startConversion u w).conv) leaves (startConversion u w) := by
  obtain ⟨entries, slots, demands⟩ := law
  refine ⟨fun e mem => entries e (List.mem_filter.mp mem).1, fun n => ?_, fun p => ?_⟩
  · have isNamed : namesSlot (startedRecord u w) n = true ↔ 0 < listNames (mergedWith w u.requests) (.slot n) := by
      rw [startedRecord_names]; exact names_iff
    rw [startedRecord_flights, startConversion_slot, if_congr isNamed rfl rfl]
    have law := slots n
    rw [none] at law
    exact slotLaw_moved law (startConversion_names u w (.slot n))
  · rw [startedRecord_flights, startConversion_sessions, ← demands p, none, ← startConversion_names u w (.demand p)]
    omega

theorem startedRecord_ok {u : State} {w : PendingEntry} (mem : w ∈ u.requests) (entries : ∀ e ∈ u.requests, entryOk e) :
    (startedRecord u w).ok (startConversion u w).conv.phase := by
  have count : (startedRecord u w).preemptCount ≤ 3 := by
    rcases foldl_max_attained ((mergedWith w u.requests).map fun e => e.preemptCount) 0 with zero | attained
    · exact zero.trans_le (Nat.zero_le 3)
    · obtain ⟨e, memE, isCount⟩ := List.mem_map.mp attained
      exact isCount.symm.trans_le (entries e (mem_mergedWith.mp memE).1).2.1
  have positive : 0 < averaging (startedRecord u w).avgCode := Nat.two_pow_pos _
  obtain ⟨samples, settles⟩ := startConversion_phase u w
  refine ⟨(entries w mem).2.2, Nat.zero_le _, fun _ => positive, Nat.zero_le _, count, fun notSettle => ?_⟩
  by_cases settle : u.conv.identity ≠ some (w.channel, (u.channelView w.channel).generation)
  · exact absurd (settles settle).2.1 notSettle
  · rw [(samples settle).2.2.1]; rfl

theorem startConversion_law {u : State} {w : PendingEntry} (mem : w ∈ u.requests) (entries : ∀ e ∈ u.requests, entryOk e) :
    converterLaw (startConversion u w).conv := by
  have isRecord := (startConversion_record u w).1
  obtain ⟨samples, settles⟩ := startConversion_phase u w
  refine ⟨iff_of_true (by rw [isRecord]; rfl) ?_, fun r isR => ?_⟩
  · by_cases settle : u.conv.identity ≠ some (w.channel, (u.channelView w.channel).generation)
    · exact .inl (settles settle).2.1
    · exact .inr (.inl (samples settle).2.1)
  · rw [isRecord] at isR
    cases isR
    exact startedRecord_ok mem entries

/-- A selection keeps the law when no record is in flight. -/
theorem RequestsOk_select {s : State} (record : s.conv.record = none) (ok : RequestsOk s) : RequestsOk (select s) := by
  obtain ⟨converter, law⟩ := RequestsOk_iff.mp ok
  by_cases empty : s.requests = []
  · rw [select_empty empty]; exact ok
  · obtain ⟨w, isWinner, mem, -⟩ := winner_some s.now empty
    have selects : select s = startConversion s w := by unfold select; rw [isWinner]
    rw [selects]
    exact RequestsOk_iff.mpr ⟨startConversion_law mem law.1,
      pendingLaw_startConversion w (flightsOf_none record) law⟩

/-- An IDLE converter has no record. -/
theorem record_none {s : State} (ok : RequestsOk s) (settle : s.conv.phase ≠ .settle) (sample : s.conv.phase ≠ .sample)
    (convert : s.conv.phase ≠ .convert) : s.conv.record = none := by
  obtain ⟨⟨records, -⟩, -⟩ := RequestsOk_iff.mp ok
  cases record : s.conv.record with
  | none => rfl
  | some r =>
    rcases records.mp (by rw [record]; rfl) with h | h | h
    · exact absurd h settle
    · exact absurd h sample
    · exact absurd h convert

theorem RequestsOk_selectIfIdle {s : State} (ok : RequestsOk s) : RequestsOk (selectIfIdle s) := by
  unfold selectIfIdle
  split
  · rename_i idle
    exact RequestsOk_select (record_none ok (by rw [idle]; exact nofun) (by rw [idle]; exact nofun)
      (by rw [idle]; exact nofun)) ok
  · exact ok

/-! ### The end of demands and the release of slots (R22, R41) -/

/-- How often the entries of a record that `pick` chooses name an origin. -/
def picked (l : List FlightEntry) (pick : FlightEntry → Bool) (o : Origin) : Nat :=
  l.countP fun x => pick x && decide (x.sub.origin = o)

theorem picked_filter (l : List FlightEntry) (pick : FlightEntry → Bool) (o : Origin) :
    subsName ((l.filter pick).map (·.sub)) o = picked l pick o := by
  unfold subsName picked
  rw [List.map_map, List.count, List.countP_map, List.countP_filter]
  exact List.countP_congr fun x _ => by simp [and_comm]

theorem picked_all (l : List FlightEntry) (o : Origin) : subsName (l.map (·.sub)) o = picked l (fun _ => true) o := by
  rw [← picked_filter, List.filter_true]

theorem picked_cons (x : FlightEntry) (l : List FlightEntry) (pick : FlightEntry → Bool) (o : Origin) :
    picked (x :: l) pick o = picked l pick o + oneIf (pick x && decide (x.sub.origin = o)) := List.countP_cons

theorem picked_not_add (l : List FlightEntry) (pick : FlightEntry → Bool) (o : Origin) :
    picked l pick o + picked l (fun x => !pick x) o = picked l (fun _ => true) o := by
  induction l with
  | nil => rfl
  | cons x l ih =>
    have either (b c : Bool) : oneIf (b && c) + oneIf (!b && c) = oneIf (true && c) := by cases b <;> cases c <;> rfl
    have head := either (pick x) (decide (x.sub.origin = o))
    rw [picked_cons, picked_cons, picked_cons]
    omega

theorem picked_le (l : List FlightEntry) (pick : FlightEntry → Bool) (o : Origin) :
    picked l pick o ≤ picked l (fun _ => true) o := by
  have both := picked_not_add l pick o
  omega

theorem any_picked {l : List FlightEntry} {pick : FlightEntry → Bool} {o : Origin} :
    (l.any fun x => pick x && decide (x.sub.origin = o)) = true ↔ 0 < picked l pick o := by
  unfold picked
  rw [List.countP_pos_iff, List.any_eq_true]

/-- The flights of demands alone. -/
def noFlights : Origin → Nat := fun _ => 0

section Ends

variable {f : Origin → Nat} {leaves : SlotNo → Prop} {s : State} {r : InFlight}

/-- The demands that are chosen from a record end, when the others are in the list. -/
theorem pendingLaw_endDemands {pick : FlightEntry → Bool} (law : pendingLaw f leaves s)
    (slotsNone : ∀ n, f (.slot n) = 0) (demandsPicked : ∀ p, f (.demand p) = picked r.subs pick (.demand p)) :
    pendingLaw noFlights leaves (endDemands s r.subs pick) := by
  obtain ⟨entries, slots, demands⟩ := law
  have frame := sameBut_endDemands s r.subs pick
  have requests : (endDemands s r.subs pick).requests = s.requests := frame .requests (by simp [allDemands])
  refine ⟨requests ▸ entries, fun n => ?_, fun p => ?_⟩
  · have slot : (endDemands s r.subs pick).slots[n] = s.slots[n] := frame (.slot n) (by simp [allDemands])
    have law := slots n
    rw [slotsNone] at law
    rw [requests, slot]
    exact law
  · have count := demands p
    rw [demandsPicked] at count
    rw [requests, endDemands_outstanding]
    show listNames s.requests (.demand p) + 0 = _
    have bound : oneIf s.sessions[p].demandOutstanding ≤ 1 := by cases s.sessions[p].demandOutstanding <;> decide
    by_cases some : (r.subs.any fun x => pick x && decide (x.sub.origin = .demand p)) = true
    · have isPicked := any_picked.mp some
      rw [some]
      have zero : oneIf (s.sessions[p].demandOutstanding && !true) = 0 := by
        cases s.sessions[p].demandOutstanding <;> rfl
      omega
    · have notPicked : picked r.subs pick (.demand p) = 0 := Nat.eq_zero_of_not_pos fun pos => some (any_picked.mpr pos)
      rw [Bool.eq_false_iff.mpr some, Bool.not_false, Bool.and_true]
      omega

/-- The RETIRING slots that are about to leave are released. -/
theorem pendingLaw_released (law : pendingLaw noFlights (fun n => namesSlot r n = true) s) :
    pendingLaw noFlights (fun _ => False)
      ((retiringNamed s (r.subs.map (·.sub))).foldl releaseSlot s) := by
  obtain ⟨entries, slots, demands⟩ := law
  have frame := sameBut_releaseSlots (retiringNamed s (r.subs.map (·.sub))) s
  have requests := frame .requests (by simp [allSlots, allEvents])
  refine ⟨requests ▸ entries, fun n => ?_, fun p => ?_⟩
  · obtain ⟨names, flies, running, retiring, free, owner, average⟩ := slots n
    rw [requests, releaseSlots_slots]
    split
    · rename_i mem
      have leaving := mem_retiringNamed.mp mem
      rw [Bool.and_eq_true, decide_eq_true_iff] at leaving
      have noRequest : s.slots[n].pendingFlag = false :=
        Bool.eq_false_iff.mpr fun pending => nomatch leaving.2.symm.trans (running pending)
      rw [names, noRequest]
      exact slotLaw_free
    · rename_i notMem
      refine ⟨names, flies, running, fun retires => ?_, free, owner, average⟩
      refine .inl ((retiring retires).resolve_right fun named => notMem (mem_retiringNamed.mpr ?_))
      rw [named, decide_eq_true retires]
      rfl
  · have demand := frame (.demand p) (by simp [allSlots, allEvents])
    rw [requests, demand]
    exact demands p

end Ends

/-! ### A completion (R44, R69) -/

section Completion

variable {s : State} {r : InFlight}

/-- The flights that are left once the slots' flags are clear: the demands'. -/
def demandFlights (l : List FlightEntry) (pick : FlightEntry → Bool) : Origin → Nat
  | .slot _ => 0
  | .demand p => picked l pick (.demand p)

theorem namesSlot_iff {n : SlotNo} : namesSlot r n = true ↔ 0 < picked r.subs (fun _ => true) (.slot n) := by
  rw [← any_picked]
  simp [namesSlot]

theorem flightsOf_picked (record : s.conv.record = some r) (o : Origin) :
    flightsOf s.conv o = picked r.subs (fun _ => true) o := by
  rw [flightsOf_some record, picked_all]

theorem oneIf_pos {b : Bool} : 0 < oneIf b ↔ b = true := by cases b <;> decide

/-- The in-flight flag of a slot says whether the record names it. -/
theorem inFlightFlag_eq (ok : RequestsOk s) (record : s.conv.record = some r) (n : SlotNo) :
    s.slots[n].inFlightFlag = namesSlot r n := by
  obtain ⟨-, -, slots, -⟩ := RequestsOk_iff.mp ok
  obtain ⟨-, flies, -⟩ := slots n
  rw [Bool.eq_iff_iff, namesSlot_iff, ← oneIf_pos, ← flies, flightsOf_picked record]

/-- A slot whose in-flight flag is cleared, and which leaves if it is RETIRING. -/
theorem slotLaw_landed {waits flights : Nat} {x : Slot} (law : slotLaw waits flights False x) :
    slotLaw waits 0 (x.inFlightFlag = true) { x with inFlightFlag := false } := by
  obtain ⟨names, -, running, retiring, free, owner, average⟩ := law
  refine ⟨names, rfl, running, fun retires => .inr ((retiring retires).resolve_right id), fun isFree => ?_, owner, average⟩
  rw [free isFree]
  rfl

theorem pendingLaw_latestWritten (ok : RequestsOk s) (record : s.conv.record = some r) :
    pendingLaw (demandFlights r.subs fun _ => true) (fun n => namesSlot r n = true) (latestWritten s r) := by
  obtain ⟨-, entries, slots, demands⟩ := RequestsOk_iff.mp ok
  have frame := sameBut_latestWritten s r
  have requests : (latestWritten s r).requests = s.requests := frame .requests (by simp [allSlots])
  refine ⟨by rw [requests]; exact entries, fun n => ?_, fun p => ?_⟩
  · have landed := slotLaw_landed (slots n)
    have flag : (s.slots[n].inFlightFlag && !namesSlot r n) = false := by
      rw [inFlightFlag_eq ok record]; exact Bool.and_not_self _
    rw [inFlightFlag_eq ok record] at landed
    rw [requests, latestWritten_slots, flag]
    exact landed
  · have demand : (latestWritten s r).sessions[p].demandOutstanding = s.sessions[p].demandOutstanding :=
      frame (.demand p) (by simp [allSlots])
    rw [requests, demand, ← demands p, flightsOf_picked record, demandFlights]

/-- The served slots are live, one after the other. -/
theorem pendingLaw_served {f : Origin → Nat} {leaves : SlotNo → Prop} (c : Report) {l : List (SlotNo × Option SubEntry)}
    (u : State) (live : ∀ x ∈ l, u.slots[x.1].live) (law : pendingLaw f leaves u) :
    pendingLaw f leaves (l.foldl (serveSlot c) u) := by
  induction l generalizing u with
  | nil => exact law
  | cons x l ih =>
    obtain ⟨isLive, later⟩ := List.forall_mem_cons.mp live
    refine ih _ (fun y mem => ?_) (pendingLaw_serveSlot c isLive law)
    have rests := (slotsRest_iff.mp (slotsRest_serveSlot c u x) y.1).1
    refine (Slot.rests_live rests).mpr ?_
    rw [State.setSlot_slots, getElem_set_at]
    split
    · exact isLive
    · exact later y mem

theorem isServed_live {n : SlotNo} (isServed : isServed s r n) : s.slots[n].live := by
  rcases isServed with ⟨-, live⟩ | ⟨running, -⟩
  · exact live
  · exact .inr running

theorem RequestsOk_complete (ok : RequestsOk s) (record : s.conv.record = some r) : RequestsOk (complete s r) := by
  have served : pendingLaw (demandFlights r.subs fun _ => true) (fun n => namesSlot r n = true) (slotsServed s r) :=
    pendingLaw_served _ _ (fun x mem => (Slot.rests_live rests_latestWritten).mpr
      (isServed_live (mem_served_iff.mp (List.mem_map_of_mem mem)))) (pendingLaw_latestWritten ok record)
  have delivered : pendingLaw (demandFlights r.subs fun _ => true) (fun n => namesSlot r n = true) (demandsServed s r) := by
    refine foldl_keeps (fun u x law => ?_) _ served
    unfold serveDemand
    split
    · exact law
    · exact pendingLaw_ite law
        (pendingLaw_frame (sameBut_offerRecord _ _ _ _) (by simp) (by simp) (by simp) law)
  have ended : pendingLaw noFlights (fun n => namesSlot r n = true) (demandsEnded s r) :=
    pendingLaw_endDemands delivered (fun _ => rfl) fun _ => rfl
  have none : (complete s r).conv.record = none := by rw [complete_conv]; rfl
  have law : pendingLaw noFlights (fun _ => False) (complete s r) := pendingLaw_released ended
  refine RequestsOk_iff.mpr ⟨?_, ?_⟩
  · rw [complete_conv]
    exact ⟨iff_of_false nofun (by rintro (h | h | h) <;> cases h), nofun⟩
  · have flights : flightsOf (complete s r).conv = noFlights := funext fun o => flightsOf_none none o
    rw [flights]
    exact law

end Completion

end Sys2Proof.Machine
end

