-- ==== Sys2Proof/Proofs/PendingReturns.lean ====
section
/-! PROOF. An abandonment keeps the law of the pending list (R32, R33, R48 to R51). -/

namespace Sys2Proof.Machine

/-! ### The entries that come back (R48 to R51) -/

section Abandonment

variable (u : State) (r : InFlight)

theorem subsName_back (o : Origin) : subsName (backOf u r) o = picked r.subs (returnsRule u) o :=
  picked_filter r.subs (returnsRule u) o

/-- Whether a returned entry of an origin collides with a newer one: its slot has a pending request (R51). -/
def originCollides : Origin → Bool
  | .slot n => u.slots[n].pendingFlag
  | .demand _ => false

theorem collides_origin (x : SubEntry) : collides u x = originCollides u x.origin := by
  unfold collides originCollides
  cases x.origin <;> rfl

theorem names_collided_iff (o : Origin) : names ((backOf u r).filter (collides u)) o = true ↔
    0 < picked r.subs (returnsRule u) o ∧ originCollides u o = true := by
  have filtered : (backOf u r).filter (collides u) = (backOf u r).filter fun x => originCollides u x.origin :=
    List.filter_congr fun x _ => collides_origin u x
  rw [names_iff, filtered, subsName_filter, ← subsName_back]
  cases originCollides u o <;> simp

theorem returnedSub_names (o : Origin) (l : List SubEntry) : subsName (l.map (returnedSub u)) o = subsName l o := by
  unfold subsName
  rw [List.map_map]
  rfl

/-- The list after a return: without the colliding requests, and with the entries that come back (R50, R51). -/
theorem returnEntry_names (o : Origin) : listNames (returnEntry u r).requests o =
    (if 0 < picked r.subs (returnsRule u) o ∧ originCollides u o = true then 0 else listNames u.requests o)
      + picked r.subs (returnsRule u) o := by
  rw [returnEntry_back, State.mapSlots_requests, State.setRequests_requests, ← if_congr (names_collided_iff u r o) rfl rfl,
    ← listNames_withdrawWhere (fun o => names ((backOf u r).filter (collides u)) o), ← subsName_back]
  split
  · rename_i empty
    rw [List.isEmpty_iff.mp empty]
    rfl
  · rw [listNames_append, listNames_single, returnedSub_names]

theorem returnEntry_entries (entries : ∀ e ∈ u.requests, entryOk e) (count : r.preemptCount < 3)
    (avg : avgOk r.avgCode) : ∀ e ∈ (returnEntry u r).requests, entryOk e := by
  rw [returnEntry_back, State.mapSlots_requests, State.setRequests_requests]
  split
  · exact withdrawWhere_ok entries
  · rename_i notEmpty
    refine List.forall_mem_append.mpr ⟨withdrawWhere_ok entries, fun e mem => ?_⟩
    rw [List.mem_singleton.mp mem]
    exact ⟨fun none => notEmpty (List.isEmpty_iff.mpr (List.map_eq_nil_iff.mp none)), count, avg⟩

end Abandonment

/-- A slot whose conversion is abandoned: its entry comes back, or it does not. -/
theorem slotLaw_returned {waits flights back k : Nat} {x : Slot} (law : slotLaw waits flights False x)
    (le : back ≤ flights) (running : 0 < back → x.state = .running) (overruns : back = 0 → k = x.overrunCount) :
    slotLaw ((if 0 < back ∧ x.pendingFlag = true then 0 else waits) + back) 0 (0 < flights)
      { x with
        inFlightFlag := x.inFlightFlag && !decide (0 < flights)
        pendingFlag := x.pendingFlag || decide (0 < back)
        overrunCount := k } := by
  obtain ⟨names, flies, runs, retiring, free, owner, average⟩ := law
  have landed : (x.inFlightFlag && !decide (0 < flights)) = false := by
    rw [flies]; cases x.inFlightFlag <;> rfl
  have atMost : flights ≤ 1 := by rw [flies]; cases x.inFlightFlag <;> decide
  rw [landed]
  by_cases returns : 0 < back
  · have isRunning := running returns
    have one : back = 1 := by omega
    rw [decide_eq_true returns, Bool.or_true, one, if_congr (and_iff_right Nat.one_pos) rfl rfl]
    refine ⟨?_, rfl, fun _ => isRunning, fun h => absurd (isRunning.symm.trans h) nofun,
      fun h => absurd (isRunning.symm.trans h) nofun, owner, average⟩
    split
    · rfl
    · rename_i notPending
      rw [names, Bool.eq_false_iff.mpr notPending]
      rfl
  · have none : back = 0 := by omega
    rw [if_neg (fun h => returns h.1), decide_eq_false returns, Bool.or_false, none, Nat.add_zero, overruns none]
    refine ⟨names, rfl, runs, fun retires => .inr ?_, fun isFree => ?_, owner, average⟩
    · rw [flies, oneIf_pos]; exact (retiring retires).resolve_right id
    · rw [free isFree]; rfl

section Abandon

variable {s u : State} {r : InFlight}

theorem pendingLaw_returnEntry (count : r.preemptCount < 3) (avg : avgOk r.avgCode)
    (law : pendingLaw (picked r.subs fun _ => true) (fun _ => False) u) :
    pendingLaw (demandFlights r.subs fun x => x.marked) (fun n => namesSlot r n = true) (returnEntry u r) := by
  obtain ⟨entries, slots, demands⟩ := law
  refine ⟨returnEntry_entries u r entries count avg, fun n => ?_, fun p => ?_⟩
  · have returned : ((backOf u r).any fun x => decide (x.origin = .slot n))
        = decide (0 < picked r.subs (returnsRule u) (.slot n)) := by
      rw [Bool.eq_iff_iff, decide_eq_true_iff, ← subsName_back]
      exact names_iff
    have named : namesSlot r n = decide (0 < picked r.subs (fun _ => true) (.slot n)) := by
      rw [Bool.eq_iff_iff, decide_eq_true_iff]; exact namesSlot_iff
    have running : 0 < picked r.subs (returnsRule u) (.slot n) → u.slots[n].state = .running := fun back => by
      obtain ⟨x, -, isBack⟩ := List.any_eq_true.mp (any_picked.mpr back)
      obtain ⟨returns, origin⟩ := (Bool.and_eq_true _ _).mp isBack
      unfold returnsRule at returns
      rw [of_decide_eq_true origin] at returns
      exact of_decide_eq_true ((Bool.and_eq_true _ _).mp returns).2
    show slotLaw _ 0 (namesSlot r n = true) _
    rw [returnEntry_names, returnEntry_slot, returned, named, decide_eq_true_iff]
    refine slotLaw_returned (slots n) (picked_le _ _ _) running fun none => ?_
    rw [none]
    rfl
  · have sessions : (returnEntry u r).sessions[p].demandOutstanding = u.sessions[p].demandOutstanding :=
      sameBut_returnEntry u r (.demand p) (by simp [allSlots])
    have unmarked : picked r.subs (returnsRule u) (.demand p) = picked r.subs (fun x => !x.marked) (.demand p) := by
      refine List.countP_congr fun x _ => ?_
      rw [Bool.and_eq_true, Bool.and_eq_true]
      refine and_congr_left fun origin => ?_
      unfold returnsRule
      rw [of_decide_eq_true origin, Bool.and_true]
    have both := picked_not_add r.subs (fun x => x.marked) (.demand p)
    have before := demands p
    rw [returnEntry_names, sessions, if_neg (fun h => nomatch h.2), unmarked]
    show _ + picked r.subs (fun x => x.marked) (.demand p) = _
    omega

theorem RequestsOk_abandon (ok : RequestsOk s) (record : s.conv.record = some r) (count : r.preemptCount < 3) :
    RequestsOk (abandon s r) := by
  obtain ⟨⟨-, inRange⟩, law⟩ := RequestsOk_iff.mp ok
  have flights : flightsOf s.conv = picked r.subs fun _ => true := funext (flightsOf_picked record)
  rw [flights] at law
  have begun : pendingLaw (picked r.subs fun _ => true) (fun _ => False) (recovering s) :=
    pendingLaw_frame (sameBut_setConv s _) (by simp) (by simp) (by simp) law
  have returned := pendingLaw_returnEntry count (inRange r record).1 begun
  have ended : pendingLaw noFlights (fun n => namesSlot r n = true) (unreleased s r) :=
    pendingLaw_endDemands returned (fun _ => rfl) fun _ => rfl
  have conv : (abandon s r).conv = (recovering s).conv :=
    (sameBut_releaseSlots _ (unreleased s r) .converter (by simp [allSlots, allEvents])).trans
      ((sameBut_endDemands (returnEntry (recovering s) r) r.subs (fun x => x.marked) .converter (by simp [allDemands])).trans
        (sameBut_returnEntry (recovering s) r .converter (by simp [allSlots])))
  have none : (abandon s r).conv.record = none := by rw [conv]; rfl
  refine RequestsOk_iff.mpr ⟨?_, ?_⟩
  · rw [conv]
    exact ⟨iff_of_false nofun (by rintro (h | h | h) <;> cases h), nofun⟩
  · have noneFlies : flightsOf (abandon s r).conv = noFlights := funext (flightsOf_none none)
    rw [noneFlies]
    exact pendingLaw_released ended

end Abandon

end Sys2Proof.Machine
end

