-- ==== Sys2Proof/Proofs/PendingCommands.lean ====
section
/-! PROOF. Session ends and set commands keep the law of the pending list (R32, R33, R40). -/

namespace Sys2Proof.Machine

/-! ### What the law reads -/

/-- The parts that RequestsOk reads. -/
def Part.ofRequests (x : Part) : Bool :=
  match x with
  | .slot _ | .requests | .demand _ | .converter => true
  | _ => false

/-- A change outside its parts keeps RequestsOk. -/
theorem RequestsOk_frame {l : List Part} {s t : State} (frame : sameBut l s t) (ok : RequestsOk s)
    (outside : l.any Part.ofRequests = false) : RequestsOk t := by
  have notIn (x : Part) (read : x.ofRequests = true) : x ∉ l := fun mem => List.any_eq_false.mp outside x mem read
  have conv : t.conv = s.conv := frame .converter (notIn _ rfl)
  rw [RequestsOk_iff] at ok ⊢
  rw [conv]
  exact ⟨ok.1, pendingLaw_frame frame (fun n => notIn _ rfl) (notIn _ rfl) (fun p => notIn _ rfl) ok.2⟩

/-- A change that leaves the converter. -/
theorem RequestsOk_of_law {s t : State} (conv : t.conv = s.conv)
    (keeps : pendingLaw (flightsOf s.conv) (fun _ => False) s → pendingLaw (flightsOf s.conv) (fun _ => False) t)
    (ok : RequestsOk s) : RequestsOk t := by
  rw [RequestsOk_iff] at ok ⊢
  rw [conv]
  exact ⟨ok.1, keeps ok.2⟩

theorem pendingLaw_congr {f : Origin → Nat} {leaves : SlotNo → Prop} {s t : State} (requests : t.requests = s.requests)
    (slots : t.slots = s.slots) (demand : ∀ p : Port, t.sessions[p].demandOutstanding = s.sessions[p].demandOutstanding)
    (law : pendingLaw f leaves s) : pendingLaw f leaves t := by
  unfold pendingLaw at *
  rw [requests, slots]
  exact ⟨law.1, law.2.1, fun p => by rw [demand]; exact law.2.2 p⟩

/-! ### Another record that names the same origins (R17, R41, R82) -/

section Records

variable {v w : Converter} {g : InFlight → InFlight}

theorem converterLaw_map (phase : w.phase = v.phase) (record : w.record = v.record.map g)
    (keeps : ∀ r : InFlight, r.ok v.phase → (g r).ok v.phase) (law : converterLaw v) : converterLaw w := by
  unfold converterLaw at *
  rw [record, phase, Option.isSome_map]
  refine ⟨law.1, fun r mem => ?_⟩
  obtain ⟨r', mem', rfl⟩ := Option.mem_map.mp mem
  exact keeps r' (law.2 r' mem')

theorem flightsOf_map (record : w.record = v.record.map g)
    (subs : ∀ r : InFlight, (g r).subs.map (·.sub) = r.subs.map (·.sub)) : flightsOf w = flightsOf v := by
  funext o
  unfold flightsOf
  rw [record, Option.map_map]
  have same : (fun r : InFlight => r.subs.map (·.sub)) ∘ g = fun r => r.subs.map (·.sub) := funext subs
  rw [same]

/-- A record with the entries of an origin marked: superseded, or orphaned. -/
def markEntries (o : Origin) (r : InFlight) : InFlight :=
  { r with subs := r.subs.map fun x => if x.sub.origin = o then { x with marked := true } else x }

theorem markEntries_subs (o : Origin) (r : InFlight) : (markEntries o r).subs.map (·.sub) = r.subs.map (·.sub) := by
  unfold markEntries
  rw [List.map_map]
  refine List.map_congr_left fun x _ => ?_
  simp only [Function.comp_def]
  split <;> rfl

theorem RequestsOk_record {s t : State} (phase : t.conv.phase = s.conv.phase) (record : t.conv.record = s.conv.record.map g)
    (keeps : ∀ r : InFlight, r.ok s.conv.phase → (g r).ok s.conv.phase)
    (subs : ∀ r : InFlight, (g r).subs.map (·.sub) = r.subs.map (·.sub))
    (law : pendingLaw (flightsOf s.conv) (fun _ => False) s → pendingLaw (flightsOf s.conv) (fun _ => False) t)
    (ok : RequestsOk s) : RequestsOk t := by
  rw [RequestsOk_iff] at ok ⊢
  rw [flightsOf_map record subs]
  exact ⟨converterLaw_map phase record keeps ok.1, law ok.2⟩

end Records

/-! ### The session end (R28, R40, R41, R155) -/

/-- Whether a session end of port p withdraws the requests of an origin. -/
def originOwned (s : State) (p : Port) : Origin → Bool
  | .slot n => decide (s.slots[n].owner = some p)
  | .demand q => decide (q = p)

theorem sessionEnd_names (s : State) (p : Port) (after : SessionState) (o : Origin) :
    listNames (sessionEnd s p after).requests o = if originOwned s p o then 0 else listNames s.requests o := by
  have owned : ownedBy s p = fun x => originOwned s p x.origin := by
    funext x
    unfold ownedBy originOwned
    cases x.origin <;> rfl
  rw [sessionEnd_requests, owned, listNames_withdrawWhere]

theorem demandWaiting_iff {s : State} {p : Port} : demandWaiting s p = true ↔ 0 < listNames s.requests (.demand p) := by
  unfold demandWaiting listNames
  rw [List.any_eq_true, subsName_pos]
  simp only [names_iff, subsName_pos, List.mem_flatMap]
  constructor
  · rintro ⟨e, memE, x, memX, origin⟩; exact ⟨x, ⟨e, memE, memX⟩, origin⟩
  · rintro ⟨x, ⟨e, memE, memX⟩, origin⟩; exact ⟨e, memE, x, memX, origin⟩

/-- A slot at the end of a session, its requests withdrawn if the port owns it. -/
theorem slotLaw_atSessionEnd {waits flights : Nat} {x : Slot} (p : Port) (law : slotLaw waits flights False x) :
    slotLaw (if decide (x.owner = some p) then 0 else waits) flights False (slotAtSessionEnd p x) := by
  unfold slotAtSessionEnd
  by_cases own : x.owner = some p
  · rw [decide_eq_true own, if_pos rfl, if_pos own]
    obtain ⟨names, flies, running, retiring, free, owner, average⟩ := law
    have ended (used : x.state ≠ .free) : slotLaw 0 flights False
        (if x.inFlightFlag then { x with state := .retiring, owner := none, pendingFlag := false } else Slot.free) := by
      split
      · rename_i flag
        exact ⟨rfl, flies, nofun, fun _ => .inl flag, nofun, (by rintro (h | h) <;> cases h), fun _ => average used⟩
      · rename_i noFlag
        rw [flies, Bool.eq_false_iff.mpr noFlag]
        exact slotLaw_free
    cases state : x.state with
    | stopped | running => exact ended (by rw [state]; exact nofun)
    | retiring =>
      have noRequest : x.pendingFlag = false :=
        Bool.eq_false_iff.mpr fun pending => absurd (state.symm.trans (running pending)) nofun
      show slotLaw 0 flights False { x with state := .retiring, owner := none }
      exact ⟨by rw [noRequest]; rfl, flies, fun pending => absurd (noRequest.symm.trans pending) nofun,
        fun _ => retiring state, nofun, (by rintro (h | h) <;> cases h), fun _ => average (by rw [state]; exact nofun)⟩
    | free =>
      rw [free state] at own
      exact absurd own nofun
  · rw [decide_eq_false own, if_neg Bool.false_ne_true, if_neg own]
    exact law

theorem pendingLaw_sessionEnd {f : Origin → Nat} {s : State} (p : Port) (after : SessionState)
    (law : pendingLaw f (fun _ => False) s) : pendingLaw f (fun _ => False) (sessionEnd s p after) := by
  obtain ⟨entries, slots, demands⟩ := law
  refine ⟨?_, fun n => ?_, fun q => ?_⟩
  · rw [sessionEnd_requests]; exact withdrawWhere_ok entries
  · rw [sessionEnd_names, sessionEnd_slot]; exact slotLaw_atSessionEnd p (slots n)
  · have before := demands q
    by_cases same : q = p
    · subst same
      have bound : oneIf s.sessions[q].demandOutstanding ≤ 1 := by cases s.sessions[q].demandOutstanding <;> decide
      rw [sessionEnd_names, originOwned, decide_eq_true rfl, if_pos rfl, sessionEnd_session]
      show 0 + f (.demand q) = oneIf (s.sessions[q].demandOutstanding && !demandWaiting s q)
      by_cases waits : demandWaiting s q = true
      · have named := demandWaiting_iff.mp waits
        have zero : oneIf (s.sessions[q].demandOutstanding && !true) = 0 := by rw [Bool.not_true, Bool.and_false]; rfl
        rw [waits, zero]
        omega
      · have notNamed := mt demandWaiting_iff.mpr waits
        rw [Bool.eq_false_iff.mpr waits, Bool.not_false, Bool.and_true]
        omega
    · rw [sessionEnd_names, originOwned, decide_eq_false same, sessionEnd_otherSession after (Ne.symm same)]
      exact before

theorem RequestsOk_sessionEnd {s : State} (p : Port) (after : SessionState) (ok : RequestsOk s) :
    RequestsOk (sessionEnd s p after) :=
  RequestsOk_record (g := markEntries (.demand p)) (by rw [sessionEnd_conv]) (by rw [sessionEnd_conv]; rfl) (fun _ h => h)
    (markEntries_subs _) (pendingLaw_sessionEnd p after) ok

/-! ### The slot commands (R12 to R21) -/

theorem avgOk_staged {w : Vector (BitVec 32) 4} {x : Staged} (staged : stagedOf w = some x) : avgOk x.settings.avgCode := by
  obtain ⟨c, v, -, -, -, ⟨inRange, -⟩, rfl⟩ := stagedOf_some.mp staged
  show avgOk (if stagedKind w = .listen then 0 else w[0].extractLsb' 24 3)
  split
  · exact Nat.zero_le 4
  · rename_i converts; exact inRange converts

section Slots

variable {s : State} {p : Port} {n : SlotNo}

theorem RequestsOk_installs {x : Staged} (staged : ∃ w, stagedOf w = some x) (free : s.slots[n].state = .free)
    (ok : RequestsOk s) : RequestsOk (s.setSlot n (installedSlot p s.now x)) := by
  refine RequestsOk_of_law (s := s) rfl (fun law => pendingLaw_setSlot law ?_) ok
  obtain ⟨w, staged⟩ := staged
  obtain ⟨waits, flies, -, -, isFree, -, -⟩ := law.2.1 n
  rw [isFree free] at waits flies
  have live : (installedSlot p s.now x).state = .stopped ∨ (installedSlot p s.now x).state = .running := by
    show x.installState = .stopped ∨ x.installState = .running
    unfold Staged.installState
    split
    · exact .inr rfl
    · exact .inl rfl
  refine ⟨waits, flies, nofun, fun h => ?_, fun h => ?_, fun _ => nofun, fun _ => avgOk_staged staged⟩
  · rcases live with k | k <;> exact absurd (k.symm.trans h) nofun
  · rcases live with k | k <;> exact absurd (k.symm.trans h) nofun

/-- A live slot of a law whose request is withdrawn, and which stays live. -/
theorem slotLaw_rewritten {x y : Slot} {waits flights : Nat} {l : Prop} (law : slotLaw waits flights l x)
    (noRequest : y.pendingFlag = false) (flight : y.inFlightFlag = x.inFlightFlag) (live : x.live) (stays : y.live)
    (owner : y.owner = x.owner) (avg : avgOk y.settings.avgCode) : slotLaw 0 flights l y := by
  obtain ⟨-, flies, -, -, -, owned, -⟩ := law
  refine ⟨by rw [noRequest]; rfl, flight ▸ flies, fun h => absurd (noRequest.symm.trans h) nofun, fun h => ?_, fun h => ?_,
    fun _ => owner ▸ owned live, fun _ => avg⟩
  · rcases stays with k | k <;> exact absurd (k.symm.trans h) nofun
  · rcases stays with k | k <;> exact absurd (k.symm.trans h) nofun

theorem slotLaw_average {x : Slot} {waits flights : Nat} {l : Prop} (law : slotLaw waits flights l x) (live : x.live) :
    avgOk x.settings.avgCode := by
  obtain ⟨-, -, -, -, -, -, average⟩ := law
  exact average (by rcases live with h | h <;> rw [h] <;> exact nofun)

theorem pendingLaw_applyModify {f : Origin → Nat} {x : Staged} (own : ownLive s p n = true)
    (staged : ∃ w, stagedOf w = some x) (kind : x.settings.kind = s.slots[n].settings.kind)
    (law : pendingLaw f (fun _ => False) s) : pendingLaw f (fun _ => False) (applyModify s n x.settings) := by
  obtain ⟨-, live⟩ := ownLive_iff.mp own
  obtain ⟨w, staged⟩ := staged
  have written : pendingLaw f (fun _ => False)
      ((withdrawPending s n).setSlot n (modifiedSlot s.now x.settings { s.slots[n] with pendingFlag := false })) := by
    refine pendingLaw_withdrawn law ?_
    rw [modifiedSlot_eq s.now (by exact kind)]
    refine slotLaw_rewritten (law.2.1 n) rfl rfl live ?_ rfl (avgOk_staged staged)
    show (if s.slots[n].state = .running ∧ x.settings.kind = .burst then SlotState.stopped else s.slots[n].state) = .stopped
      ∨ (if s.slots[n].state = .running ∧ x.settings.kind = .burst then SlotState.stopped else s.slots[n].state) = .running
    split
    · exact .inl rfl
    · exact live
  refine pendingLaw_congr ?_ ?_ (fun q => ?_) written
  · rw [applyModify_requests, State.setSlot_requests, withdrawPending_requests]
  · rw [applyModify_slots, withdrawPending_setSlot]
  · have kept : (applyModify s n x.settings).sessions[q].demandOutstanding = s.sessions[q].demandOutstanding :=
      sameBut_applyModify s n x.settings (.demand q) (by simp)
    have same := (withdrawPending_written s n
      (modifiedSlot s.now x.settings { s.slots[n] with pendingFlag := false })).1 (.demand q) (by simp)
    exact kept.trans same.symm

theorem RequestsOk_modifies {x : Staged} (own : ownLive s p n = true) (staged : ∃ w, stagedOf w = some x)
    (kind : x.settings.kind = s.slots[n].settings.kind) (ok : RequestsOk s) :
    RequestsOk (applyModify s n x.settings) := by
  have law := pendingLaw_applyModify (f := flightsOf s.conv) own staged kind
  by_cases flight : s.slots[n].inFlightFlag = true
  · have conv : (applyModify s n x.settings).conv = { s.conv with record := s.conv.record.map (markEntries (.slot n)) } :=
      (applyModify_conv s n x.settings).trans (if_pos flight)
    exact RequestsOk_record (g := markEntries (.slot n)) (by rw [conv]) (by rw [conv]) (fun _ h => h) (markEntries_subs _)
      law ok
  · exact RequestsOk_of_law ((applyModify_conv s n x.settings).trans (if_neg flight)) law ok

theorem RequestsOk_deletes (own : ownLive s p n = true) (ok : RequestsOk s) : RequestsOk (deleted s p n) := by
  have conv : (deleted s p n).conv = s.conv := sameBut_deleted s p n .converter (by simp)
  refine RequestsOk_of_law conv (fun law => ?_) ok
  refine pendingLaw_frame (sameBut_disarmOnDelete _ p n) (by simp) (by simp) (by simp) (pendingLaw_withdrawn law ?_)
  have average := slotLaw_average (law.2.1 n) (ownLive_iff.mp own).2
  obtain ⟨-, flies, -⟩ := law.2.1 n
  rw [withdrawPending_slot, deletedSlot]
  split
  · rename_i flight
    exact ⟨rfl, flies, nofun, fun _ => .inl flight, nofun, (by rintro (h | h) <;> cases h), fun _ => average⟩
  · rename_i noFlight
    have zero : flightsOf s.conv (.slot n) = 0 := flies.trans (by rw [Bool.eq_false_iff.mpr noFlight]; rfl)
    rw [zero]
    exact slotLaw_free

theorem RequestsOk_stops (running : s.slots[n].state = .running) (ok : RequestsOk s) : RequestsOk (stop n s).1 := by
  have stops : (stop n s).1 = (withdrawPending s n).setSlot n (stoppedSlot s.slots[n]) :=
    congrArg Prod.fst (stop_eq running)
  have conv : (stop n s).1.conv = s.conv := sameBut_stop running .converter (by simp)
  refine RequestsOk_of_law conv (fun law => ?_) ok
  rw [stops]
  have average := slotLaw_average (law.2.1 n) (.inr running)
  exact pendingLaw_withdrawn law (slotLaw_rewritten (law.2.1 n) rfl rfl (.inr running) (.inl rfl) rfl average)

theorem RequestsOk_runs (stopped : s.slots[n].state = .stopped) (kind : s.slots[n].settings.kind ≠ .burst)
    (ok : RequestsOk s) : RequestsOk (s.setSlot n (runningSlot s.now s.slots[n])) := by
  refine RequestsOk_of_law (s := s) rfl (fun law => pendingLaw_setSlot law ?_) ok
  rw [runningSlot_eq s.now kind]
  exact slotLaw_runs (law.2.1 n) stopped rfl rfl rfl rfl rfl

theorem RequestsOk_bursts (stopped : s.slots[n].state = .stopped) (kind : s.slots[n].settings.kind = .burst)
    (ok : RequestsOk s) : RequestsOk (startBurst n s).1 := by
  have conv : (startBurstAt s n s.now).conv = s.conv := sameBut_startBurstAt s n s.now .converter (by simp)
  have started : RequestsOk (startBurstAt s n s.now) := RequestsOk_of_law conv (pendingLaw_startBurstAt s.now stopped) ok
  rw [startBurst_starts stopped kind]
  show RequestsOk (if _ then _ else _ : State)
  split
  · exact RequestsOk_selectIfIdle started
  · exact started

end Slots

/-! ### Demands and configurations (R80 to R83, R115) -/

section Others

variable {s : State} {p : Port}

theorem requestDemand_names (c : Channel) (x : BitVec 2) (y : BitVec 3) (o : Origin) :
    listNames (requestDemand s p c x y).requests o = listNames s.requests o + oneIf (decide (.demand p = o)) := by
  show listNames (s.requests ++ [_]) o = _
  rw [listNames_append, listNames_single, subsName_single]

theorem pendingLaw_requestDemand {f : Origin → Nat} {leaves : SlotNo → Prop} {c : Channel} {x : BitVec 2} {y : BitVec 3}
    (valid : avgOk y) (free : s.sessions[p].demandOutstanding = false) (law : pendingLaw f leaves s) :
    pendingLaw f leaves (requestDemand s p c x y) := by
  obtain ⟨entries, slots, demands⟩ := law
  refine ⟨List.forall_mem_append.mpr ⟨entries, fun e mem => ?_⟩, fun n => ?_, fun q => ?_⟩
  · rw [List.mem_singleton.mp mem]
    exact ⟨List.cons_ne_nil _ _, Nat.zero_le 3, valid⟩
  · rw [requestDemand_names, decide_eq_false nofun]
    exact slots n
  · have before := demands q
    rw [requestDemand_names]
    by_cases same : p = q
    · subst same
      rw [free] at before
      have zero : oneIf false = 0 := rfl
      have one : oneIf true = 1 := rfl
      rw [requestDemand_outstanding, decide_eq_true rfl]
      omega
    · have kept : (requestDemand s p c x y).sessions[q].demandOutstanding = s.sessions[q].demandOutstanding :=
        sameBut_requestDemand s p c x y (.demand q) (by simpa using Ne.symm same)
      rw [kept, ← before, decide_eq_false (by simpa using same)]
      rfl

theorem RequestsOk_demands {c : Channel} {x : BitVec 2} {y : BitVec 3} (valid : avgOk y)
    (free : s.sessions[p].demandOutstanding = false) (ok : RequestsOk s) :
    RequestsOk (if s.requests.isEmpty then selectIfIdle (requestDemand s p c x y) else requestDemand s p c x y) := by
  have demanded : RequestsOk (requestDemand s p c x y) :=
    RequestsOk_of_law (s := s) rfl (pendingLaw_requestDemand valid free) ok
  split
  · exact RequestsOk_selectIfIdle demanded
  · exact demanded

theorem RequestsOk_configures (c : Fin 16) (m : Mode) (x : Span) (y : BitVec 2) (ok : RequestsOk s) :
    RequestsOk (applyChange s p c m x y) := by
  have conv := (applyChange_conv s p c m x y).trans (reportChange_eq s.conv (externalChannel c))
  refine RequestsOk_record (by rw [conv]) (by rw [conv]) (fun r h => ?_) (fun r => ?_) ?_ ok
  · split
    · exact h
    · exact h
  · split <;> rfl
  · exact pendingLaw_frame (sameBut_applyChange s p c m x y) (by simp [allChannels, allEvents])
      (by simp [allChannels, allEvents]) (by simp [allChannels, allEvents])

end Others

/-- Every act of a set command keeps the law. -/
theorem RequestsOk_act {p : Port} {s t : State} (act : Act p s t) (ok : RequestsOk s) : RequestsOk t := by
  cases act with
  | opens a => exact RequestsOk_frame (sameBut_openAccepted s p a) ok rfl
  | closes => exact RequestsOk_sessionEnd p _ ok
  | stages w => exact RequestsOk_frame (sameBut_withStaging s p w) ok rfl
  | installs n x _ staged _ _ free => exact RequestsOk_installs staged free ok
  | modifies n x own staged kind => exact RequestsOk_modifies own staged kind ok
  | deletes n own => exact RequestsOk_deletes own ok
  | stops n running => exact RequestsOk_stops running ok
  | runs n stopped kind => exact RequestsOk_runs stopped kind ok
  | bursts n stopped kind => exact RequestsOk_bursts stopped kind ok
  | fetches n => exact RequestsOk_frame (sameBut_fetch p n s) ok rfl
  | releasesQueue q => exact RequestsOk_frame (sameBut_setQueue s p _) ok rfl
  | demands c x y valid free => exact RequestsOk_demands valid free ok
  | claims c => exact RequestsOk_frame (sameBut_setChannel s c _) ok rfl
  | releases c => exact RequestsOk_frame (sameBut_setChannel s c _) ok rfl
  | configures c m x y => exact RequestsOk_configures c m x y ok
  | watches w x => exact RequestsOk_frame (sameBut_setWatch s p w x) ok rfl

end Sys2Proof.Machine
end

