-- ==== Sys2Proof/Proofs/PendingTime.lean ====
section
/-! PROOF. Every step keeps the law of the pending list (R32, R33): edges, timers, the phases of a conversion, and then every effect. -/

namespace Sys2Proof.Machine

/-! ### A trigger edge (R36, R47) -/

section Edges

variable {e : Edge} {s : State}

theorem countsEdge_running {x : Slot} (counts : x.countsEdge e = true) : x.state = .running := by
  unfold Slot.countsEdge at counts
  simp only [Bool.and_eq_true, decide_eq_true_eq] at counts
  obtain ⟨⟨⟨running, -⟩, -⟩, -⟩ := counts
  exact running

theorem pendingLaw_edgeAtSlot {f : Origin → Nat} {leaves : SlotNo → Prop} (n : SlotNo) (law : pendingLaw f leaves s) :
    pendingLaw f leaves (edgeAtSlot e s n) := by
  have counted (k : Nat) (running : s.slots[n].state = .running) :
      pendingLaw f leaves (s.setSlot n { s.slots[n] with edgeCount := k }) :=
    pendingLaw_setSlot_same law rfl rfl rfl rfl rfl (by rw [running]; exact nofun)
  rcases edge_cases e s.slots[n] with overruns | adds | notReached
  · have running : s.slots[n].state = .running := by
      simp only [Slot.overrunsAt, Slot.reachesAt, Bool.and_eq_true] at overruns
      obtain ⟨⟨counts, -⟩, -⟩ := overruns
      exact countsEdge_running counts
    rw [edgeAtSlot_overruns overruns]
    refine pendingLaw_overrunSlot ?_ (counted 0 running)
    rw [State.setSlot_slots, getElem_set_same]
    exact fun free => absurd (running.symm.trans free) nofun
  · have ⟨running, noRequest⟩ : s.slots[n].state = .running ∧ s.slots[n].pendingFlag = false := by
      simp only [Slot.addsAt, Slot.reachesAt, Bool.and_eq_true, Bool.not_eq_true'] at adds
      obtain ⟨⟨counts, -⟩, noRequest⟩ := adds
      exact ⟨countsEdge_running counts, noRequest⟩
    rw [edgeAtSlot_adds adds]
    refine pendingLaw_requestSlot e.tick ?_ ?_ (counted 0 running)
    · rw [State.setSlot_slots, getElem_set_same]; exact running
    · rw [State.setSlot_slots, getElem_set_same]; exact noRequest
  · rw [edgeAtSlot_counts notReached]
    split
    · rename_i counts; exact counted _ (countsEdge_running counts)
    · exact law

theorem RequestsOk_edgeDecision (ok : RequestsOk s) : RequestsOk (edgeDecision s) := by
  by_cases idle : s.conv.phase = .idle
  · rw [edgeDecision_idle idle]
    exact RequestsOk_select (record_none ok (by rw [idle]; exact nofun) (by rw [idle]; exact nofun)
      (by rw [idle]; exact nofun)) ok
  · by_cases canPreempt : ∃ r, preempts s r
    · obtain ⟨r, canPreempt⟩ := canPreempt
      rw [edgeDecision_preempts canPreempt]
      obtain ⟨record, -, -, count⟩ := canPreempt
      exact RequestsOk_abandon ok record count
    · rw [edgeDecision_waits idle (not_exists.mp canPreempt)]
      exact ok

theorem RequestsOk_takeEdge (e : Edge) (ok : RequestsOk s) : RequestsOk (takeEdge e s) := by
  have conv : (edgeCounted e s).conv = s.conv := sameBut_edgeCounted e s .converter (by simp [allSlots])
  have counted : RequestsOk (edgeCounted e s) :=
    RequestsOk_of_law conv (foldl_keeps (fun _ n law => pendingLaw_edgeAtSlot n law) _) ok
  cases adds : edgeAdds e s with
  | true => rw [takeEdge_adds adds]; exact RequestsOk_edgeDecision counted
  | false => rw [takeEdge_none adds]; exact counted

end Edges

/-! ### The period timers (R34, R35) -/

theorem pendingLaw_periodRequested {f : Origin → Nat} {leaves : SlotNo → Prop} {s : State} {n : SlotNo}
    (running : s.slots[n].state = .running) (noRequest : s.slots[n].pendingFlag = false) (law : pendingLaw f leaves s) :
    pendingLaw f leaves (periodRequested s n) := by
  refine pendingLaw_setSlot_same (pendingLaw_requestSlot s.slots[n].nextDue running noRequest law) rfl rfl rfl rfl rfl ?_
  rw [requestSlot_slot]
  exact fun free => absurd (running.symm.trans free) nofun

theorem RequestsOk_expirePeriod {s : State} {n : SlotNo} (due : periodExpires s n = true) (ok : RequestsOk s) :
    RequestsOk (expirePeriod s n) := by
  obtain ⟨running, -, -⟩ := periodExpires_iff.mp due
  have used : s.slots[n].state ≠ .free := by rw [running]; exact nofun
  by_cases pending : s.slots[n].pendingFlag = true
  · rw [expirePeriod_pending pending]
    refine RequestsOk_of_law (s := s) (sameBut_overrunSlot s n .converter (by simp)) (fun law => ?_) ok
    refine pendingLaw_setSlot_same (pendingLaw_overrunSlot used law) rfl rfl rfl rfl rfl ?_
    rw [overrunSlot_slot]
    exact used
  · have free := Bool.eq_false_iff.mpr pending
    have requested : RequestsOk (periodRequested s n) :=
      RequestsOk_of_law (s := s) (sameBut_requestSlot s n s.slots[n].nextDue .converter (by simp))
        (pendingLaw_periodRequested running free) ok
    rw [expirePeriod_requests free]
    split
    · exact RequestsOk_selectIfIdle requested
    · exact requested

/-! ### The phases of a conversion (R52, R59 to R61) -/

section Phases

variable {s : State} {r r' : InFlight} {v : Converter}

/-- The record goes on into another phase, with the entries that it has. -/
theorem RequestsOk_setConv (record : s.conv.record = some r) (goesOn : v.record = some r') (subs : r'.subs = r.subs)
    (phase : v.phase = .settle ∨ v.phase = .sample ∨ v.phase = .convert)
    (inRange : r.ok s.conv.phase → r'.ok v.phase) (ok : RequestsOk s) : RequestsOk (s.setConv v) := by
  obtain ⟨⟨-, records⟩, law⟩ := RequestsOk_iff.mp ok
  have flights : flightsOf v = flightsOf s.conv := funext fun o => by
    rw [flightsOf_some record, flightsOf_some goesOn, subs]
  refine RequestsOk_iff.mpr ⟨⟨iff_of_true (by rw [State.setConv_conv, goesOn]; rfl) phase, fun q mem => ?_⟩, ?_⟩
  · rw [State.setConv_conv, goesOn] at mem
    cases mem
    exact inRange (records r record)
  · rw [State.setConv_conv, flights]
    exact pendingLaw_frame (sameBut_setConv s v) (by simp) (by simp) (by simp) law

theorem RequestsOk_settled (phase : s.conv.phase = .settle) (record : s.conv.record = some r) (ok : RequestsOk s) :
    RequestsOk (s.setConv (s.conv.enter .sample (sampleTicks r.sampleCode) (some { r with startTick := some s.now }))) := by
  refine RequestsOk_setConv record rfl rfl (.inr (.inl rfl)) (fun inRange => ?_) ok
  obtain ⟨avg, done, more, sum, count, -⟩ := inRange
  exact ⟨avg, done, fun _ => more (.inl phase), sum, count, fun _ => rfl⟩

theorem RequestsOk_sampled (level : Int) (phase : s.conv.phase = .sample) (record : s.conv.record = some r)
    (ok : RequestsOk s) :
    RequestsOk (s.setConv (s.conv.enter .convert convertTicks (some { r with level := level }))) := by
  refine RequestsOk_setConv record rfl rfl (.inr (.inr rfl)) (fun inRange => ?_) ok
  obtain ⟨avg, done, -, sum, count, started⟩ := inRange
  exact ⟨avg, done, (by rintro (h | h) <;> cases h), sum, count, fun _ => started (by rw [phase]; exact nofun)⟩

/-- A repeat adds at most 4095 to the sum (R61). -/
theorem repeated_ok {phase : Phase} (more : r.repeatsDone < averaging r.avgCode)
    (again : phase = .settle ∨ phase = .sample → r.repeatsDone + 1 < averaging r.avgCode) (inRange : r.ok .convert) :
    r.repeated.ok phase := by
  obtain ⟨avg, -, -, sum, count, started⟩ := inRange
  refine ⟨avg, more, again, ?_, count, fun _ => started nofun⟩
  have code := transfer_le r.mode r.span r.level
  show r.runningSum + transfer r.mode r.span r.level ≤ 4095 * (r.repeatsDone + 1)
  omega

theorem RequestsOk_repeats (phase : s.conv.phase = .convert) (record : s.conv.record = some r)
    (more : r.repeatsDone + 1 < averaging r.avgCode) (ok : RequestsOk s) :
    RequestsOk (s.setConv (s.conv.enter .sample (sampleTicks r.sampleCode) (some r.repeated))) :=
  RequestsOk_setConv record rfl rfl (.inr (.inl rfl))
    (fun inRange => repeated_ok (Nat.lt_of_succ_lt more) (fun _ => more) (phase ▸ inRange)) ok

theorem RequestsOk_converted (phase : s.conv.phase = .convert) (record : s.conv.record = some r)
    (more : r.repeatsDone < averaging r.avgCode) (ok : RequestsOk s) :
    RequestsOk (s.setConv { s.conv with record := some r.repeated }) := by
  refine RequestsOk_setConv record rfl rfl (.inr (.inr phase)) (fun inRange => ?_) ok
  rw [phase] at inRange
  show r.repeated.ok s.conv.phase
  rw [phase]
  exact repeated_ok more (by rintro (h | h) <;> cases h) inRange

/-- After RECOVER the converter is IDLE, and selects (R62). -/
theorem RequestsOk_recovers (phase : s.conv.phase = .recover) (ok : RequestsOk s) :
    RequestsOk (select (s.setConv (s.conv.enter .idle 0 s.conv.record))) := by
  have none : s.conv.record = none :=
    record_none ok (by rw [phase]; exact nofun) (by rw [phase]; exact nofun) (by rw [phase]; exact nofun)
  refine RequestsOk_select none ?_
  obtain ⟨-, law⟩ := RequestsOk_iff.mp ok
  refine RequestsOk_iff.mpr ⟨⟨iff_of_false ?_ (by rintro (h | h | h) <;> cases h), fun r mem => ?_⟩, ?_⟩
  · rw [State.setConv_conv, enter_record, none]; exact nofun
  · rw [State.setConv_conv, enter_record, none] at mem; cases mem
  · exact pendingLaw_frame (sameBut_setConv s _) (by simp) (by simp) (by simp) law

theorem RequestsOk_completes (record : s.conv.record = some r) (ok : RequestsOk s) : RequestsOk (select (complete s r)) :=
  RequestsOk_select (by rw [complete_conv]; rfl) (RequestsOk_complete ok record)

/-- The REFCLK periods of a phase are not in the law. -/
theorem RequestsOk_refclkRunning (a b : Level) (ok : RequestsOk s) : RequestsOk (refclkRunning s a b) := by
  have conv := (refclkRunning_conv s a b).trans (countPeriod_eq s.conv)
  refine RequestsOk_record (g := id) (by rw [conv]) (by rw [conv, Option.map_id_fun, id]) (fun _ h => h) (fun _ => rfl) ?_ ok
  exact pendingLaw_frame (sameBut_refclkRunning s a b) (by simp) (by simp) (by simp)

end Phases

/-! ### Every effect -/

theorem RequestsOk_effect (s t : State) (effect : Effect s t) (ok : RequestsOk s) : RequestsOk t := by
  have raised (p : Port) : RequestsOk (raiseSelect s p) := RequestsOk_frame (sameBut_raiseSelect s p) ok rfl
  cases effect with
  | raises p => exact raised p
  | results p r => exact RequestsOk_frame (sameBut_setResult s p r) ok rfl
  | leases p => exact RequestsOk_frame (sameBut_leaseRestart s p) ok rfl
  | acts p u _ _ act => exact RequestsOk_act act (raised p)
  | unmarks p c => exact RequestsOk_frame (sameBut_clearMark _ p c) (raised p) (by cases c <;> rfl)
  | fallsHeld p => exact RequestsOk_frame (sameBut_fallHeld s p) ok rfl
  | falls p => exact RequestsOk_frame (sameBut_fall s p _) ok rfl
  | clockRises p sdi => exact RequestsOk_frame (sameBut_clockRise s p sdi) ok rfl
  | clockFalls p => exact RequestsOk_frame (sameBut_clockFall s p) ok rfl
  | lapses p => exact RequestsOk_sessionEnd p _ ok
  | expires n due => exact RequestsOk_expirePeriod due ok
  | edges e => exact RequestsOk_takeEdge e (RequestsOk_frame (sameBut_setTimebase s _) ok rfl)
  | settled r phase record => exact RequestsOk_settled phase record ok
  | sampled r level phase record => exact RequestsOk_sampled level phase record ok
  | repeats r phase record more => exact RequestsOk_repeats phase record more ok
  | converted r phase record more => exact RequestsOk_converted phase record more ok
  | completes r phase record => exact RequestsOk_completes record ok
  | recovers phase => exact RequestsOk_recovers phase ok
  | resets | resetsByNrst => exact RequestsOk_congr RequestsOk_reset rfl rfl rfl fun _ => rfl
  | startsRunning | refclkHeld | supplyReturns | nrstReturns => exact RequestsOk_frame (sameBut_setHub s _) ok rfl
  | refclkStarting a b =>
    exact RequestsOk_frame (sameBut_refclkStartUp _ a b) (RequestsOk_frame (sameBut_setHub s _) ok rfl) rfl
  | refclkRuns a b => exact RequestsOk_refclkRunning a b (RequestsOk_frame (sameBut_setHub s _) ok rfl)

/-- Settles O9: every effect keeps the law of the pending list, so every step does. -/
theorem stepKeepsTheLawOfThePendingList : Obligations.StepKeepsTheLawOfThePendingList :=
  fun _ _ ok taken => step_keeps (fun _ _ h => h) RequestsOk_effect ok taken

end Sys2Proof.Machine
end
